-- ==== Sys2Proof/Word.lean ====
section
/-! DEFINITION. The words of the block: bytes and 7-bit device addresses (00_scope.md R7, R10). -/

namespace Sys2Proof

/-- A byte: an unsigned integer 0 to 255, bit 0 the least significant (R7, R10). -/
abbrev Byte := BitVec 8

/-- A device address: 7 bits (R7, R20). -/
abbrev DevAddr := BitVec 7

/-- A "valid bits in last byte" count: 3 bits, 0 to 7, 0 meaning all 8 (R22, R23). -/
abbrev ValidBits := BitVec 3

/-- The 4 UID bytes, the result of readUid (R25, R153). -/
structure Uid where
  uid0 : Byte
  uid1 : Byte
  uid2 : Byte
  uid3 : Byte
deriving DecidableEq, Repr

/-- The anticollision buffer: 4 UID bytes and the BCC, 5 bytes (R25). -/
structure Uidb where
  uid0 : Byte
  uid1 : Byte
  uid2 : Byte
  uid3 : Byte
  bcc  : Byte
deriving DecidableEq, Repr

end Sys2Proof
end

