-- ==== Sys2Proof/Config.lean ====
section
/-! DEFINITION. The parameters of the block (00_scope.md R7, R8) and the free values of its environment (R14, R16, R53). -/

namespace Sys2Proof

/-- The parameters of rules R7 and R8. "A model takes each as an argument" (R8) and takes the four
T_ values "as configuration fields whose default is the value in the table" (R7): the machine carries
one Config in its state, and no step changes it. -/
structure Config where
  /-- T_SETTLE_MS, the pause after the soft-reset command (R7). -/
  tSettleMs : Nat := 50
  /-- T_RESET_MS, the deadline of the soft-reset poll (R7). -/
  tResetMs : Nat := 100
  /-- T_CRC_MS, the deadline of the CRC-done poll (R7). -/
  tCrcMs : Nat := 25
  /-- T_XCV_MS, the deadline of the transceive-completion poll (R7). -/
  tXcvMs : Nat := 30
  /-- POLL_INTERVAL_MS, the sleep between two polls (R8, 92 D5). -/
  pollIntervalMs : Nat
  /-- SOFTRESET_BUSY_MASK, the "still resetting" bit of the command register (R8, 92 D6). -/
  softResetBusyMask : Byte
  /-- COMIRQ_CLEAR_VAL, written to the comm-IRQ register to clear the pending flags (R8, 92 D11). -/
  comIrqClearVal : Byte
  /-- TMODE_VAL, written to 0x2A (R8, 92 D10). -/
  tmodeVal : Byte
  /-- TPRESCALER_VAL, written to 0x2B (R8, 92 D10). -/
  tprescalerVal : Byte
  /-- TRELOAD_HI_VAL, written to 0x2C (R8, 92 D10). -/
  treloadHiVal : Byte
  /-- TRELOAD_LO_VAL, written to 0x2D (R8, 92 D10). -/
  treloadLoVal : Byte
  /-- TXASK_VAL, written to 0x15 (R8, 92 D10). -/
  txAskVal : Byte
  /-- MODE_VAL, written to 0x11 (R8, 92 D10). -/
  modeVal : Byte
  /-- FIFO_CAPACITY, a property of the chip that the block never checks (R8, R205, 92 D17); the chip record alone asks
  for it. -/
  fifoCapacity : Nat
deriving DecidableEq, Repr

namespace Config

/-! The open parameters of R8 at reset: DOC00 gives no value, so each is an uninterpreted constant
(DESIGN CHOICE, safe: notes/assumptions/5.md). -/

opaque openPollIntervalMs : Nat
opaque openSoftResetBusyMask : Byte
opaque openComIrqClearVal : Byte
opaque openTmodeVal : Byte
opaque openTprescalerVal : Byte
opaque openTreloadHiVal : Byte
opaque openTreloadLoVal : Byte
opaque openTxAskVal : Byte
opaque openModeVal : Byte
opaque openFifoCapacity : Nat

/-- The configuration of the machine after reset: R7's values, and R8's left open. -/
def atReset : Config :=
  { pollIntervalMs := openPollIntervalMs, softResetBusyMask := openSoftResetBusyMask,
    comIrqClearVal := openComIrqClearVal, tmodeVal := openTmodeVal,
    tprescalerVal := openTprescalerVal, treloadHiVal := openTreloadHiVal,
    treloadLoVal := openTreloadLoVal, txAskVal := openTxAskVal, modeVal := openModeVal,
    fifoCapacity := openFifoCapacity }

/-! The free values (notes/assumptions/2.md): what the environment does at the block's n-th step
when no answer of its is ready. R16: "an oracle that the block's rules do not constrain". -/

/-- The byte the chip answers. -/
opaque freeByte : Nat → Byte

/-- Whether the bus transaction fails (R53). -/
opaque freeBusFault : Nat → Bool

/-- The milliseconds by which the clock advances, beyond a pause's minimum (R14). -/
opaque freeElapsed : Nat → Nat

/-! Three more free values, of the chip record only (notes/assumptions/24.md). -/

/-- The loaded bytes a device's FIFO still holds after what the spec leaves to the chip: SoftReset, CalcCRC, a command
byte outside R83, a byte loaded beyond FIFO_CAPACITY (R177, N10, N20). -/
opaque freeStaged : Nat → List Byte

/-- The valid bits a frame is sent with when start-send writes back others than were programmed (R200). -/
opaque freeValidBits : Nat → ValidBits

/-- What a register holds in the bits a read-modify-write wrote back as it read them (R200). -/
opaque freeWrittenBack : Nat → Byte

/-! The fixed parameters of R7 that are lengths or addresses. -/

/-- DEFAULT_ADDR, the device address after reset (R7, R20). -/
def defaultAddr : DevAddr := 0x28

/-- MIN_ATQA, the least reply length for REQA to succeed (R7). -/
def minAtqa : Nat := 2

/-- MIN_ANTICOLL, the least reply length for anticollision to succeed (R7). -/
def minAnticoll : Nat := 5

/-- MIN_SAK, the least reply length for SELECT to succeed (R7). -/
def minSak : Nat := 1

end Config

end Sys2Proof
end

