-- ==== Sys2Proof/Syntax.lean ====
section
/-! DEFINITION. The instructions: one constructor per row of spec/opcode_table.json (30_encoding.md R80 to R87, R92, R93). -/

namespace Sys2Proof

/-- The rows of the opcode table. The 19 operations carry the operands of R92 and R93; an address operand
is "any non-negative integer"; a byte sequence is a finite list. The words of the other three formats
(CMD R83, BUS R80 and R81, PICC R84 to R87) carry the fields those rules give them. -/
inductive Instr where
  /-- OP 0x10, R110 -/
  | writeRegister (addr value : Byte)
  /-- OP 0x11, R111 -/
  | readRegister (addr : Byte)
  /-- OP 0x20, R112 -/
  | setBits (addr mask : Byte)
  /-- OP 0x21, R113 -/
  | clearBits (addr mask : Byte)
  /-- OP 0x30, R121 -/
  | softReset
  /-- OP 0x31, R122 -/
  | flushFifo
  /-- OP 0x32, R123 -/
  | antennaOn
  /-- OP 0x33, R124 (the table's "initialize") -/
  | initializeChip (address : Nat)
  /-- OP 0x40, R130 -/
  | computeCrc (bytes : List Byte)
  /-- OP 0x50, R140; `validBits` is 0 to 7 in a well-formed instruction (R93, R94 b) -/
  | transceive (frame : List Byte) (validBits : Byte)
  /-- OP 0x60, R150 -/
  | reqa
  /-- OP 0x61, R151 -/
  | anticollision
  /-- OP 0x62, R152 -/
  | select (uidb : Uidb)
  /-- OP 0x63, R153 -/
  | readUid
  /-- OP 0x70, R160 -/
  | toHex (bytes : List Byte)
  /-- OP 0x80, R161 -/
  | isCardPresent
  /-- OP 0x81, R162 -/
  | readUidHex
  /-- OP 0x82, R163 -/
  | version
  /-- OP 0x83, R164 -/
  | setAddress (addr : Nat)
  /-- CMD 0x00, R83 -/
  | cmdIdle
  /-- CMD 0x03, R83 -/
  | cmdCalcCrc
  /-- CMD 0x0C, R83 -/
  | cmdTransceive
  /-- CMD 0x0F, R83 -/
  | cmdSoftReset
  /-- BUS-W, R80 -/
  | busWrite (regaddr value : Byte)
  /-- BUS-R, R81 -/
  | busRead (regaddr : Byte)
  /-- PICC.REQA, R85 -/
  | piccReqa
  /-- PICC.WUPA, R84 -/
  | piccWupa
  /-- PICC.ANTICOLL-CL1, R86 -/
  | piccAnticollCl1
  /-- PICC.SELECT-CL1, R87 -/
  | piccSelectCl1 (uidb : Uidb) (crcLo crcHi : Byte)
deriving DecidableEq, Repr

end Sys2Proof
end

