-- ==== Sys2Proof/WellFormed.lean ====
section
/-! DEFINITION. Which instructions are well formed: R93's operand types, where the type of the constructor does not already say them. -/

namespace Sys2Proof

/-- The operand types of R93 hold. The one operand whose Lean type is wider than R93's is transceive's
`validBitsInLastByte`, "0 to 7"; "an operand outside its type is not an operation at all" (R93, R94 b). -/
def Instr.wf : Instr → Bool
  | .writeRegister _ _ => true
  | .readRegister _ => true
  | .setBits _ _ => true
  | .clearBits _ _ => true
  | .softReset => true
  | .flushFifo => true
  | .antennaOn => true
  | .initializeChip _ => true
  | .computeCrc _ => true
  | .transceive _ validBits => decide (validBits.toNat ≤ 7)
  | .reqa => true
  | .anticollision => true
  | .select _ => true
  | .readUid => true
  | .toHex _ => true
  | .isCardPresent => true
  | .readUidHex => true
  | .version => true
  | .setAddress _ => true
  | .cmdIdle => true
  | .cmdCalcCrc => true
  | .cmdTransceive => true
  | .cmdSoftReset => true
  | .busWrite _ _ => true
  | .busRead _ => true
  | .piccReqa => true
  | .piccWupa => true
  | .piccAnticollCl1 => true
  | .piccSelectCl1 _ _ _ => true

end Sys2Proof
end

