-- ==== Sys2Proof/Decode.lean ====
section
/-! DEFINITION. Words to instructions and back: the decoder, total on any bytes and rejecting by name, the encoder, and the table's own numbering of words (30_encoding.md R80 to R94). -/

namespace Sys2Proof

/-- Which of the four formats a word is in (30_encoding.md section 1; R80 and R81 give BUS two). The host
selects operations in the OP format (R92); the other words are issued alone (notes/assumptions/7.md). -/
inductive Port where
  /-- OP, the host's operation-select words (R92) -/
  | host
  /-- CMD, command bytes (R82, R83) -/
  | command
  /-- BUS-W (R80) -/
  | busWrite
  /-- BUS-R (R81) -/
  | busRead
  /-- PICC, card frames (R84 to R87) -/
  | picc
deriving DecidableEq, Repr

/-- One word: its format and its bytes, the first byte first. A word of the OP format is the OP code and
then the operands, as 95_test_vectors.md part 3 writes them (`0x83 0xA9`). -/
structure Request where
  port  : Port
  bytes : List Byte
deriving DecidableEq, Repr

/-- Why a word is no instruction. -/
inductive DecodeError where
  /-- the word has no byte -/
  | emptyWord
  /-- R94 (a): an OP code outside the table of R92 -/
  | unknownOp
  /-- the OP code is known and its operands are too few or too many bytes -/
  | wrongOperandLength
  /-- R94 (b): validBitsInLastByte above 7 -/
  | validBitsAboveSeven
  /-- R94 (c): a CMD value other than the four of R83 -/
  | unknownCommand
  /-- the bytes are no BUS payload (R80, R81) -/
  | notABusPayload
  /-- the bytes are none of the frames of R84 to R87 -/
  | unknownCardFrame
deriving DecidableEq, Repr

/-! ### Address operands

R93: "any non-negative integer". A byte string stands for the number it writes in base 256, most
significant byte first (notes/assumptions/6.md). -/

/-- The number a byte string writes. -/
def natOfBytes (bytes : List Byte) : Nat :=
  bytes.foldl (fun n b => n * 256 + b.toNat) 0

/-- The base 256 digits of a number, at least one; `fuel` bounds their count. -/
def bytesOfNatFuel : Nat → Nat → List Byte
  | 0, n => [BitVec.ofNat 8 n]
  | fuel + 1, n => if n < 256 then [BitVec.ofNat 8 n] else bytesOfNatFuel fuel (n / 256) ++ [BitVec.ofNat 8 (n % 256)]

/-- The shortest byte string of a number. -/
def bytesOfNat (n : Nat) : List Byte := bytesOfNatFuel n n

/-- The five bytes of an anticollision buffer, in the order received (R86). -/
def Uidb.toList (u : Uidb) : List Byte := [u.uid0, u.uid1, u.uid2, u.uid3, u.bcc]

/-! ### Decoding -/

/-- An operation without operands. -/
def decodeNone (i : Instr) : List Byte → Except DecodeError Instr
  | [] => .ok i
  | _ :: _ => .error .wrongOperandLength

/-- An operation with one byte operand. -/
def decodeByte (i : Byte → Instr) : List Byte → Except DecodeError Instr
  | [a] => .ok (i a)
  | _ => .error .wrongOperandLength

/-- An operation with two byte operands. -/
def decodeTwoBytes (i : Byte → Byte → Instr) : List Byte → Except DecodeError Instr
  | [a, b] => .ok (i a b)
  | _ => .error .wrongOperandLength

/-- An operation with an address operand (R93 "integer"). -/
def decodeAddress (i : Nat → Instr) : List Byte → Except DecodeError Instr
  | [] => .error .wrongOperandLength
  | b :: bs => .ok (i (natOfBytes (b :: bs)))

/-- transceive: the valid-bit count, then the frame; a count above 7 is refused (R94 b). -/
def decodeTransceive : List Byte → Except DecodeError Instr
  | [] => .error .wrongOperandLength
  | vb :: frame => if vb.toNat ≤ 7 then .ok (.transceive frame vb) else .error .validBitsAboveSeven

/-- select: the five bytes of UIDB. -/
def decodeSelect : List Byte → Except DecodeError Instr
  | [u0, u1, u2, u3, bcc] => .ok (.select ⟨u0, u1, u2, u3, bcc⟩)
  | _ => .error .wrongOperandLength

/-- The OP table of R92. -/
def decodeOp (op : Byte) (operands : List Byte) : Except DecodeError Instr :=
  match op.toNat with
  | 0x10 => decodeTwoBytes .writeRegister operands
  | 0x11 => decodeByte .readRegister operands
  | 0x20 => decodeTwoBytes .setBits operands
  | 0x21 => decodeTwoBytes .clearBits operands
  | 0x30 => decodeNone .softReset operands
  | 0x31 => decodeNone .flushFifo operands
  | 0x32 => decodeNone .antennaOn operands
  | 0x33 => decodeAddress .initializeChip operands
  | 0x40 => .ok (.computeCrc operands)
  | 0x50 => decodeTransceive operands
  | 0x60 => decodeNone .reqa operands
  | 0x61 => decodeNone .anticollision operands
  | 0x62 => decodeSelect operands
  | 0x63 => decodeNone .readUid operands
  | 0x70 => .ok (.toHex operands)
  | 0x80 => decodeNone .isCardPresent operands
  | 0x81 => decodeNone .readUidHex operands
  | 0x82 => decodeNone .version operands
  | 0x83 => decodeAddress .setAddress operands
  | _ => .error .unknownOp

/-- The command bytes of R83. -/
def decodeCommand : List Byte → Except DecodeError Instr
  | [c] =>
    match c.toNat with
    | 0x00 => .ok .cmdIdle
    | 0x03 => .ok .cmdCalcCrc
    | 0x0C => .ok .cmdTransceive
    | 0x0F => .ok .cmdSoftReset
    | _ => .error .unknownCommand
  | _ => .error .unknownCommand

/-- BUS-W: a payload of two bytes, register address and value (R80). -/
def decodeBusWrite : List Byte → Except DecodeError Instr
  | [a, v] => .ok (.busWrite a v)
  | _ => .error .notABusPayload

/-- BUS-R: a write phase of one byte, the register address (R81). -/
def decodeBusRead : List Byte → Except DecodeError Instr
  | [a] => .ok (.busRead a)
  | _ => .error .notABusPayload

/-- The frames that begin with the select-cascade-1 tag 0x93 (R86, R87). -/
def decodeCascadeFrame : List Byte → Except DecodeError Instr
  | [nvb] => if nvb.toNat = 0x20 then .ok .piccAnticollCl1 else .error .unknownCardFrame
  | [nvb, u0, u1, u2, u3, bcc, lo, hi] =>
    if nvb.toNat = 0x70 then .ok (.piccSelectCl1 ⟨u0, u1, u2, u3, bcc⟩ lo hi) else .error .unknownCardFrame
  | _ => .error .unknownCardFrame

/-- The card frames of R84 to R87. -/
def decodeCardFrame : List Byte → Except DecodeError Instr
  | [] => .error .emptyWord
  | b :: rest =>
    match b.toNat, rest with
    | 0x26, [] => .ok .piccReqa
    | 0x52, [] => .ok .piccWupa
    | 0x93, _ => decodeCascadeFrame rest
    | _, _ => .error .unknownCardFrame

/-- The decoder: total on any word. -/
def decode (r : Request) : Except DecodeError Instr :=
  match r.port with
  | .host =>
    match r.bytes with
    | [] => .error .emptyWord
    | op :: operands => decodeOp op operands
  | .command => decodeCommand r.bytes
  | .busWrite => decodeBusWrite r.bytes
  | .busRead => decodeBusRead r.bytes
  | .picc => decodeCardFrame r.bytes

/-! ### Encoding -/

/-- The word of an instruction, from the same tables (R80 to R87, R92). -/
def encode : Instr → Request
  | .writeRegister a v => ⟨.host, [0x10, a, v]⟩
  | .readRegister a => ⟨.host, [0x11, a]⟩
  | .setBits a m => ⟨.host, [0x20, a, m]⟩
  | .clearBits a m => ⟨.host, [0x21, a, m]⟩
  | .softReset => ⟨.host, [0x30]⟩
  | .flushFifo => ⟨.host, [0x31]⟩
  | .antennaOn => ⟨.host, [0x32]⟩
  | .initializeChip n => ⟨.host, 0x33 :: bytesOfNat n⟩
  | .computeCrc bytes => ⟨.host, 0x40 :: bytes⟩
  | .transceive frame vb => ⟨.host, 0x50 :: vb :: frame⟩
  | .reqa => ⟨.host, [0x60]⟩
  | .anticollision => ⟨.host, [0x61]⟩
  | .select u => ⟨.host, 0x62 :: u.toList⟩
  | .readUid => ⟨.host, [0x63]⟩
  | .toHex bytes => ⟨.host, 0x70 :: bytes⟩
  | .isCardPresent => ⟨.host, [0x80]⟩
  | .readUidHex => ⟨.host, [0x81]⟩
  | .version => ⟨.host, [0x82]⟩
  | .setAddress n => ⟨.host, 0x83 :: bytesOfNat n⟩
  | .cmdIdle => ⟨.command, [0x00]⟩
  | .cmdCalcCrc => ⟨.command, [0x03]⟩
  | .cmdTransceive => ⟨.command, [0x0C]⟩
  | .cmdSoftReset => ⟨.command, [0x0F]⟩
  | .busWrite a v => ⟨.busWrite, [a, v]⟩
  | .busRead a => ⟨.busRead, [a]⟩
  | .piccReqa => ⟨.picc, [0x26]⟩
  | .piccWupa => ⟨.picc, [0x52]⟩
  | .piccAnticollCl1 => ⟨.picc, [0x93, 0x20]⟩
  | .piccSelectCl1 u lo hi => ⟨.picc, 0x93 :: 0x70 :: (u.toList ++ [lo, hi])⟩

/-! ### The opcode table's words

A row of 8 bits is one byte: an OP code, a command byte or a one-byte card frame (no two formats share a
value). The rows of 16 bits are the PICC frames 0x9320 and 0x9370, one 16-bit word whose high byte is the
byte sent first (R86, R87; notes/assumptions/17.md). Every operand byte the table gives no bits is zero. -/

/-- The low `n` bytes of `w`, the least significant first. -/
def lowBytes : Nat → Nat → List Byte
  | 0, _ => []
  | n + 1, w => BitVec.ofNat 8 w :: lowBytes n (w / 256)

/-- How many bytes a word whose first byte is `op` has at least, in the OP format (R92). -/
def minWordBytes (op : Nat) : Nat :=
  match op with
  | 0x10 | 0x20 | 0x21 => 3
  | 0x11 | 0x33 | 0x50 | 0x83 => 2
  | 0x62 => 6
  | _ => 1

/-- `bytes` with zeros after it up to `n` bytes. -/
def padTo (n : Nat) (bytes : List Byte) : List Byte := bytes ++ List.replicate (n - bytes.length) 0

/-- The word the opcode table's number `w` of `nbits` bits stands for. -/
def tableRequest (nbits w : Nat) : Request :=
  if nbits = 16 ∧ w / 256 % 256 = 0x93 then
    ⟨.picc, padTo (if w % 256 = 0x70 then 9 else 2) [0x93, BitVec.ofNat 8 w]⟩
  else
    let bytes := lowBytes (nbits / 8) w
    match w % 256 with
    | 0x00 | 0x03 | 0x0C | 0x0F => ⟨.command, bytes⟩
    | 0x26 | 0x52 => ⟨.picc, bytes⟩
    | op => ⟨.host, padTo (minWordBytes op) bytes⟩

/-- The instruction the decoder reads from a word of the opcode table. -/
def decodeTableWord (nbits w : Nat) : Option Instr := (decode (tableRequest nbits w)).toOption

end Sys2Proof
end

