-- ==== Sys2Proof/Machine/State.lean ====
section
/-! DEFINITION. The state of the machine as plain data (10_state.md R20 to R46, 70_reset_and_hazards.md R190), its faults and refusals, and the state after reset. -/

namespace Sys2Proof.Machine

/-! ### Results and registers -/

/-- RES, the Exchange Result (R23): success flag, received frame, valid bits in its last byte. -/
structure ExchangeResult where
  ok    : Bool
  rxbuf : List Byte
  rxvb  : ValidBits
deriving DecidableEq, Repr

/-- PV, the verdict of a poll loop (R28, R120). -/
inductive Verdict where
  | hit
  | timeout
deriving DecidableEq, Repr

/-- What an operation hands to the host (R92's column "result"), or the BusFault it receives "in place of a
result" (R173). A string is a sequence of characters (92 D29). -/
inductive Result where
  /-- "none": the operation has no result -/
  | done
  | byte (b : Byte)
  | flag (b : Bool)
  /-- computeCrc's (hi, lo) (R131) -/
  | crc (hi lo : Byte)
  | exchange (r : ExchangeResult)
  /-- anticollision: (true, UIDB) or (false, none) (R151) -/
  | uidb (u : Option Uidb)
  /-- readUid: (true, 4 bytes) or (false, none) (R153) -/
  | uid (u : Option Uid)
  | text (s : List Char)
  /-- the operation ended in a BusFault (R173) -/
  | busFault
deriving DecidableEq, Repr

/-! ### SEQ, the phase register

R27: IDLE or a stack of at most five frames (operation, phase, index). The top frame is the operation whose
phase performs the next primitive (`Active`); the frames below are operations that wait for their callee
(R13; `Waiting`). A frame carries the operands and the byte read that its remaining phases use
(notes/assumptions/12.md). -/

/-- The condition a poll waits for (R120). -/
inductive Want where
  | set
  | clear
deriving DecidableEq, Repr

/-- The operands of pollUntil (R120). -/
structure PollArgs where
  reg   : Byte
  mask  : Byte
  want  : Want
  limit : Nat
deriving DecidableEq, Repr

/-- The phase table of pollUntil (R120), and the assignment its return makes. -/
inductive PollPhase where
  | p0
  | p1
  | p2
  | p3
  /-- `PV <- v; return v` -/
  | verdict (v : Verdict)
deriving DecidableEq, Repr

/-- The two phases of a read-modify-write (R112, R113); `v` is the byte read. -/
inductive RmwPhase where
  | read
  | write (v : Byte)
deriving DecidableEq, Repr

/-- The phases of softReset before its poll (R121). -/
inductive SoftResetPhase where
  /-- `WR(0x01, 0x0F)` -/
  | command
  /-- `Pause(50)` -/
  | settle
deriving DecidableEq, Repr

/-- The six plain writes of initialize, in order (R124, R193). -/
inductive SetupPhase where
  | tmode
  | tprescaler
  | treloadHi
  | treloadLo
  | txAsk
  | mode
deriving DecidableEq, Repr

/-- The phase table of computeCrc (R130), less C4, where it waits for its poll. -/
inductive CrcPhase where
  | c0
  /-- `v` is the byte C0 read -/
  | c1 (v : Byte)
  | c2 (i : Nat)
  | c3
  | c5
  | c6
deriving DecidableEq, Repr

/-- The phase table of transceive (R140), less X9, where it waits for its poll, and the assignments its returns
make. -/
inductive XcvPhase where
  | x0
  | x1
  | x2
  /-- `v` is the byte X2 read -/
  | x3 (v : Byte)
  | x4 (i : Nat)
  | x5
  | x6
  | x7
  /-- `v` is the byte X7 read -/
  | x8 (v : Byte)
  | x10
  /-- `v` is the byte X10 read -/
  | x11 (v : Byte)
  | x12
  | x13
  /-- X14(i), `n` the byte count X13 read -/
  | x14 (i n : Nat)
  | x15 (n : Nat)
  /-- `RES <- (OK = 0, RXBUF = [], RXVB = 0); return RES` -/
  | failure
  /-- `RES <- (OK = 1, RXBUF = RXBUF[0..n-1], RXVB = rvb); return RES` -/
  | success (n : Nat) (rvb : ValidBits)
deriving DecidableEq, Repr

/-- The command bytes of R83. -/
inductive Command where
  | idle
  | calcCrc
  | transceive
  | softReset
deriving DecidableEq, Repr

/-- The card frames of R84 to R87. -/
inductive CardFrame where
  | reqa
  | wupa
  | anticollCl1
  | selectCl1
deriving DecidableEq, Repr

/-- A top frame: an operation at a phase that performs a primitive or one internal assignment (R16). -/
inductive Active where
  | writeRegister (addr value : Byte)
  | readRegister (addr : Byte)
  | busWrite (addr value : Byte)
  | busRead (addr : Byte)
  | command (c : Command)
  | setBits (addr mask : Byte) (p : RmwPhase)
  | clearBits (addr mask : Byte) (p : RmwPhase)
  | poll (q : PollArgs) (p : PollPhase)
  | softReset (p : SoftResetPhase)
  /-- `v <- RD(0x14)` (R123) -/
  | antennaOn
  /-- `ADDR <- address & 0x7F`, the first step of initialize (R124) -/
  | initAddress (address : Nat)
  /-- `INIT <- 1`, its last step (R124) -/
  | initFlag
  /-- initialize at one of its plain writes (R124) -/
  | setup (p : SetupPhase)
  | computeCrc (bytes : List Byte) (p : CrcPhase)
  | transceive (p : XcvPhase)
  /-- `WR(0x0D, 0x07)` (R150) -/
  | reqaFraming
  /-- `WR(0x0D, 0x00)`, "restore full-byte framing, whatever r is" (R150) -/
  | reqaRestore
  /-- `WR(0x0D, 0x00)` (R151) -/
  | anticollision
  /-- `UIDB <- r.RXBUF[0..4]; return (true, UIDB)` (R151) -/
  | storeUidb
  /-- `SAKR <- r.RXBUF[0]; return true` (R152) -/
  | storeSak
  /-- `RD(0x37)` (R163) -/
  | version
deriving DecidableEq, Repr

/-- A frame below the top: an operation that waits for its callee to return. -/
inductive Waiting where
  /-- flushFifo, for its setBits (R122) -/
  | flushFifo
  /-- softReset, for its poll (R121) -/
  | softReset
  /-- antennaOn, for its setBits (R123) -/
  | antennaOn
  /-- initialize, for softReset (R124) -/
  | initSoftReset
  /-- initialize, for antennaOn (R124) -/
  | initAntenna
  /-- computeCrc at C4 (R130) -/
  | computeCrc (bytes : List Byte)
  /-- transceive at X9 (R140) -/
  | transceive
  /-- reqa, for transceive (R150) -/
  | reqa
  /-- anticollision, for transceive (R151) -/
  | anticollision
  /-- select, for computeCrc (R152) -/
  | selectCrc (u : Uidb)
  /-- select, for transceive (R152) -/
  | selectExchange (u : Uidb)
  /-- readUid, for reqa (R153) -/
  | readUidReqa
  /-- readUid, for anticollision (R153) -/
  | readUidAnticoll
  /-- readUid, for select (R153) -/
  | readUidSelect
  /-- isCardPresent, for initialize (R161) -/
  | isCardPresentInit
  /-- isCardPresent, for reqa (R161) -/
  | isCardPresentReqa
  /-- readUidHex, for initialize (R162) -/
  | readUidHexInit
  /-- readUidHex, for readUid (R162) -/
  | readUidHexUid
  /-- version, for initialize (R163) -/
  | versionInit
  /-- a card frame issued alone, for its exchange (R84 to R87) -/
  | cardFrame (f : CardFrame)
deriving DecidableEq, Repr

/-- A SEQ value other than IDLE: the top frame, and its callers from the nearest outward. -/
structure Sequence where
  top     : Active
  callers : List Waiting
deriving DecidableEq, Repr

/-! ### The ports and the environment -/

/-- One event at the bus port or the time port (R96's trace lines), with the device a transaction is
addressed to (R50). A transaction that fails (R53) is recorded as attempted. -/
inductive Event where
  /-- `WR a v` to device `dev` -/
  | wr (dev : DevAddr) (addr value : Byte)
  /-- `RD a -> v` from device `dev` -/
  | rd (dev : DevAddr) (addr value : Byte)
  /-- a `WR a v` that failed -/
  | wrFailed (dev : DevAddr) (addr value : Byte)
  /-- an `RD a` that failed -/
  | rdFailed (dev : DevAddr) (addr : Byte)
  /-- `NOW -> t` -/
  | now (t : Nat)
  /-- `PAUSE n` -/
  | pause (n : Nat)
deriving DecidableEq, Repr

/-- What the environment does at one step of the block (R14, R16, R53): by how much the clock advances (beyond a
pause's minimum), whether a transaction fails, and the byte an `RD` returns. -/
structure Answer where
  elapsed : Nat
  fails   : Bool
  byte    : Byte
deriving DecidableEq, Repr

/-- What the block's transactions made the chip begin (R62 a, c, d). -/
inductive ChipRun where
  /-- a write of command `c` to 0x01 of device `dev`, the loaded FIFO bytes being `staged` -/
  | started (dev : DevAddr) (c : Byte) (staged : List Byte)
  /-- the start-send bit set after the Transceive command: the frame sent and its valid bits -/
  | sent (dev : DevAddr) (frame : List Byte) (validBits : ValidBits)
deriving DecidableEq, Repr

/-- The environment's chips, as far as the block's completed transactions determine them (R45, R46, R62;
notes/assumptions/9.md). No rule of the block reads it. -/
structure Chip where
  /-- what the writes left in each register of each device since it ended its last SoftReset, where DOC00 says so: the
  byte last written, a free value in the bits that were written back as read; see `Memory` in Machine/Ops.lean -/
  regs : List Host.Cell
  /-- the devices that may still be resetting: written a SoftReset, and not seen to have ended it since; the address is
  the device, the byte the command written -/
  resetting : List Host.Cell
  /-- the pending flags behind 0x04 of each device, where the block has cleared them and nothing since could have
  changed them; the address is the device -/
  pending : List Host.Cell
  /-- (device, byte): loaded into that device's FIFO and not flushed, read or sent since, oldest first; a free value
  where the chip decides what stays -/
  fifo : List (DevAddr × Byte)
  /-- oldest first -/
  runs : List ChipRun
  /-- free values taken so far: the model's own counter, the index of the record's free values -/
  drawn : Nat
deriving DecidableEq, Repr

/-- The state of the machine. The registers' names are those of 10_state.md. -/
structure State where
  /-- the parameters (R7, R8); no step changes them -/
  config   : Config
  /-- ADDR (R20) -/
  addr     : DevAddr
  /-- INIT (R21) -/
  init     : Bool
  /-- TXBUF (R22) -/
  txbuf    : List Byte
  /-- TXVB (R22) -/
  txvb     : ValidBits
  /-- RES (R23) -/
  res      : ExchangeResult
  /-- CRC_HI (R24) -/
  crcHi    : Byte
  /-- CRC_LO (R24) -/
  crcLo    : Byte
  /-- UIDB (R25) -/
  uidb     : Uidb
  /-- SAKR (R26) -/
  sakr     : Byte
  /-- SEQ (R27); none is IDLE -/
  seq      : Option Sequence
  /-- T0 (R28) -/
  t0       : Nat
  /-- PV (R28) -/
  pv       : Verdict
  /-- the host port: words waiting to be started, the next one first (R187) -/
  requests : List Request
  /-- the host port: what the last operation handed back; none while one is in progress (R18) -/
  result   : Option Result
  /-- the clock, in milliseconds (R14) -/
  clock    : Nat
  /-- the recorded trace of the bus and time ports, oldest first (R96, R187) -/
  trace    : List Event
  /-- the environment's chips (R45) -/
  chip     : Chip
  /-- the environment's answers that are ready, the next one first (R16, R63) -/
  answers  : List Answer
  /-- steps of the block so far: the model's own counter, the index of the free answers -/
  ticks    : Nat
deriving DecidableEq, Repr

/-! ### Faults and refusals -/

/-- Why the machine stops with a fault. A BusFault is none: it ends an operation, and the block goes on
(R173, R178). -/
inductive Fault where
  /-- Raised by `step` at a SEQ value that is none of R27's: a stack no operation builds. Safe: no run
  reaches one (notes/assumptions/13.md). -/
  | sequenceIllFormed
deriving DecidableEq, Repr

/-- Why the machine refuses. -/
inductive Refusal where
  /-- Raised by `exec` for an instruction that has no meaning yet. Safe. -/
  | notModelled (mnemonic : String)
  /-- Raised by `step` at a word the decoder rejects (R94, U13: "no operation starts, no state changes"). Safe. -/
  | undecodable (reason : DecodeError)
  /-- Raised by transceive for validBitsInLastByte above 7, before any transaction (R94 b, R146, U11). Safe. -/
  | validBitsAboveSeven
  /-- Raised by every operation when SEQ is not IDLE (R187, U10: "accepts a new operation only with SEQ
  idle"). Safe: `step` starts none then. -/
  | operationInProgress
deriving DecidableEq, Repr

/-! ### Reset -/

/-- The machine right after reset (R190): ADDR = 0x28, INIT = 0, SEQ = IDLE. Every other value is a choice
of the model: the working registers notes/assumptions/4.md, the clock 3.md, the ports and the environment
2.md, 9.md, 17.md, 18.md, the parameters 5.md. -/
def State.reset : State :=
  { config := Config.atReset
    addr := Config.defaultAddr
    init := false
    txbuf := []
    txvb := 0
    res := { ok := false, rxbuf := [], rxvb := 0 }
    crcHi := 0
    crcLo := 0
    uidb := { uid0 := 0, uid1 := 0, uid2 := 0, uid3 := 0, bcc := 0 }
    sakr := 0
    seq := none
    t0 := 0
    pv := .hit
    requests := []
    result := none
    clock := 0
    trace := []
    chip := { regs := [], resetting := [], pending := [], fifo := [], runs := [], drawn := 0 }
    answers := []
    ticks := 0 }

end Sys2Proof.Machine
end

