-- ==== Sys2Proof/Machine/Operands.lean ====
section
/-! DEFINITION. Register addresses, masks, frames and field assembly: every literal the sequences use (10_state.md R30, 30_encoding.md R82 to R91, R99). -/

namespace Sys2Proof.Machine

/-! ### Register addresses (R30, R60) -/

namespace Reg

def command : Byte := 0x01
def comIrq : Byte := 0x04
def divIrq : Byte := 0x05
def error : Byte := 0x06
def fifoData : Byte := 0x09
def fifoLevel : Byte := 0x0A
def control : Byte := 0x0C
def bitFraming : Byte := 0x0D
def mode : Byte := 0x11
def txControl : Byte := 0x14
def txAsk : Byte := 0x15
def crcHigh : Byte := 0x21
def crcLow : Byte := 0x22
def tmode : Byte := 0x2A
def tprescaler : Byte := 0x2B
def treloadHi : Byte := 0x2C
def treloadLo : Byte := 0x2D
def version : Byte := 0x37

/-- The register map, 18 addresses (R30, R60). -/
def all : List Byte :=
  [command, comIrq, divIrq, error, fifoData, fifoLevel, control, bitFraming, mode, txControl, txAsk,
   crcHigh, crcLow, tmode, tprescaler, treloadHi, treloadLo, version]

end Reg

/-! ### Masks (R90) -/

namespace Mask

def error : Byte := 0x13
def irqDone : Byte := 0x30
def crcDone : Byte := 0x04
def fifoFlush : Byte := 0x80
def startSend : Byte := 0x80
def antenna : Byte := 0x03
def fifoLevel : Byte := 0x7F
def rxLastBits : Byte := 0x07

end Mask

/-- The command bytes (R83). -/
def Command.code : Command → Byte
  | .idle => 0x00
  | .calcCrc => 0x03
  | .transceive => 0x0C
  | .softReset => 0x0F

/-! ### Card frames (R84 to R87) -/

/-- The REQA frame, sent with 7 valid bits (R85). -/
def reqaFrame : List Byte := [0x26]

/-- The WUPA frame (R84), "a short final byte, used for 7-bit REQA/WUPA frames" (R19, R22). No operation
sends it; only the table's own word does (notes/assumptions/8.md). -/
def wupaFrame : List Byte := [0x52]

/-- The anticollision frame (R86). -/
def anticollFrame : List Byte := [0x93, 0x20]

/-- The first seven bytes of the SELECT frame (R87, R152 `f7`). -/
def selectHead (u : Uidb) : List Byte := [0x93, 0x70] ++ u.toList

/-- The SELECT frame: the CRC low byte first, then the high byte (R87, R131, R152 `f9`). -/
def selectFrame (u : Uidb) (crcLo crcHi : Byte) : List Byte := selectHead u ++ [crcLo, crcHi]

/-! ### Field assembly and extraction (R89, R91) -/

/-- The byte written to 0x0D to program a frame's last byte: TXVB in bits 2:0, bits 7:3 zero (R89). -/
def framingValue (validBits : ValidBits) : Byte := validBits.setWidth 8

/-- The received byte count, `RD(0x0A) & 0x7F` (R91). -/
def fifoCount (v : Byte) : Nat := (v &&& Mask.fifoLevel).toNat

/-- The last-received-bits count, `RD(0x0C) & 0x07` (R91). -/
def rxLastBits (v : Byte) : ValidBits := (v &&& Mask.rxLastBits).setWidth 3

/-- `a & 0x7F` for a non-negative integer, that is `a mod 128` (R91, R98 b). -/
def maskAddr (a : Nat) : DevAddr := BitVec.ofNat 7 a

/-- The 4 UID bytes, "BCC discarded" (R153). -/
def uidOf (u : Uidb) : Uid := ⟨u.uid0, u.uid1, u.uid2, u.uid3⟩

/-- The UID bytes in order (R162). -/
def uidBytes (u : Uid) : List Byte := [u.uid0, u.uid1, u.uid2, u.uid3]

/-- The payload bytes of a transaction's write phase: register address and value for BUS-W, the register
address for BUS-R (R51, R52, R80, R81). -/
def Event.payload : Event → List Byte
  | .wr _ a v => [a, v]
  | .rd _ a _ => [a]
  | .wrFailed _ a v => [a, v]
  | .rdFailed _ a => [a]
  | .now _ => []
  | .pause _ => []

/-- The device a transaction is addressed to (R50); a clock event has none. -/
def Event.device : Event → Option DevAddr
  | .wr d _ _ => some d
  | .rd d _ _ => some d
  | .wrFailed d _ _ => some d
  | .rdFailed d _ => some d
  | .now _ => none
  | .pause _ => none

/-! ### The hex alphabet (R99, R160) -/

/-- H = "0123456789abcdef" (R99). -/
def hexAlphabet : List Char := ['0', '1', '2', '3', '4', '5', '6', '7', '8', '9', 'a', 'b', 'c', 'd', 'e', 'f']

/-- `H[n]`, for n below 16. -/
def hexDigit (n : Nat) : Char := hexAlphabet.getD n '0'

/-- `H[b / 16]` then `H[b mod 16]` (R99). -/
def hexByte (b : Byte) : List Char := [hexDigit (b.toNat / 16), hexDigit (b.toNat % 16)]

/-- toHex: each byte as two characters, in input order (R160). -/
def hexText (bytes : List Byte) : List Char := bytes.flatMap hexByte

/-! ### The three uses of pollUntil (R120) -/

/-- The soft-reset poll: 0x01, SOFTRESET_BUSY_MASK, CLEAR, T_RESET_MS. -/
def resetPoll (c : Config) : PollArgs := ⟨Reg.command, c.softResetBusyMask, .clear, c.tResetMs⟩

/-- The CRC poll: 0x05, 0x04, SET, T_CRC_MS. -/
def crcPoll (c : Config) : PollArgs := ⟨Reg.divIrq, Mask.crcDone, .set, c.tCrcMs⟩

/-- The transceive poll: 0x04, 0x30, SET, T_XCV_MS. -/
def xcvPoll (c : Config) : PollArgs := ⟨Reg.comIrq, Mask.irqDone, .set, c.tXcvMs⟩

end Sys2Proof.Machine
end

