-- ==== Sys2Proof/Machine/Flags.lean ====
section
/-! DEFINITION. The conditions the sequences test: the poll condition, the error test, the antenna test, RES and the derived step booleans (10_state.md R23, R29, 30_encoding.md R88, R90, R98). -/

namespace Sys2Proof.Machine

/-- The condition of a poll on the value read (R120): any bit of the mask set, or all clear. -/
def pollHolds (q : PollArgs) (v : Byte) : Bool :=
  match q.want with
  | .set => v &&& q.mask != 0
  | .clear => v &&& q.mask == 0

/-- The deadline test of a poll, `t - T0 > limit_ms` (R120): an elapsed time equal to the limit is not yet
a timeout. -/
def pollExpired (q : PollArgs) (t0 t : Nat) : Bool := decide (t - t0 > q.limit)

/-- The frame-error test of transceive step 6, `e & 0x13 != 0` (R140, R34). -/
def frameError (e : Byte) : Bool := e &&& Mask.error != 0

/-- Both antenna-driver bits are set, `v & 0x03 = 0x03` (R123, 90_conflicts.md C2). -/
def antennaSet (v : Byte) : Bool := v &&& Mask.antenna == Mask.antenna

/-- RES of a timeout or a frame error: (OK = 0, RXBUF = [], RXVB = 0) (R142). -/
def failedExchange : ExchangeResult := { ok := false, rxbuf := [], rxvb := 0 }

/-- `reqa_ok = OK and len(RXBUF) >= 2` (R29, R150). -/
def reqaOk (r : ExchangeResult) : Bool := r.ok && decide (Config.minAtqa ≤ r.rxbuf.length)

/-- `anticoll_ok = OK and len(RXBUF) >= 5` (R29, R151). -/
def anticollOk (r : ExchangeResult) : Bool := r.ok && decide (Config.minAnticoll ≤ r.rxbuf.length)

/-- `select_ok = OK and len(RXBUF) >= 1` (R29, R152). -/
def selectOk (r : ExchangeResult) : Bool := r.ok && decide (Config.minSak ≤ r.rxbuf.length)

/-- The first five bytes of a reply, `RXBUF[0..4]`; the rest is ignored (R88, R151). Taken only under anticoll_ok,
where there are five. -/
def leadingUidb (b : List Byte) : Uidb := ⟨b.getD 0 0, b.getD 1 0, b.getD 2 0, b.getD 3 0, b.getD 4 0⟩

end Sys2Proof.Machine
end

