-- ==== Sys2Proof/Machine/Ops.lean ====
section
/-! DEFINITION. The named operations over the state: register updates, the register space, the chip record, the four primitives, BusFault and the end of an operation (00_scope.md R11, R14, R16, R18; 20_memory.md R50 to R59; 60_exceptions.md R173). -/

namespace Sys2Proof.Machine

/-! ### The register space

The registers of all devices (R55): 7-bit device address, 8-bit register address. The list holds what the last
write over the bus left, addresses strictly rising; an address nothing was written to, since reset or since
the device ended its last SoftReset, holds no value (R30: "a model gives them no value";
notes/assumptions/21.md), and neither does one that `Chip.keepsWrites` does not name. -/

namespace Memory

/-- The address of a register of a device. -/
def key (dev : DevAddr) (reg : Byte) : Nat := dev.toNat * 256 + reg.toNat

/-- What an unlisted address reads as: no value (R30, R190). -/
def unlisted : Option Byte := none

/-- The byte at an address. -/
def read : List Host.Cell → Nat → Option Byte
  | [], _ => unlisted
  | (k, b) :: m, a => if k = a then some b else read m a

/-- Store a byte, keeping the addresses strictly rising. -/
def write : List Host.Cell → Nat → Byte → List Host.Cell
  | [], a, v => [(a, v)]
  | (k, b) :: m, a, v =>
    if a < k then (a, v) :: (k, b) :: m
    else if a = k then (a, v) :: m
    else (k, b) :: write m a v

/-- The entries whose address meets `p`; the others read as unlisted. -/
def keep (m : List Host.Cell) (p : Nat → Bool) : List Host.Cell := m.filter fun c => p c.1

/-- Give an address a value, or none. -/
def put (m : List Host.Cell) (a : Nat) : Option Byte → List Host.Cell
  | some v => write m a v
  | none => keep m fun k => k != a

/-- Every address of `m` is above `a`, and they rise strictly. -/
def risingFrom : Nat → List Host.Cell → Bool
  | _, [] => true
  | a, (k, _) :: m => decide (a < k) && risingFrom k m

/-- The addresses of `m` rise strictly. -/
def rising : List Host.Cell → Bool
  | [] => true
  | (k, _) :: m => risingFrom k m

/-- The canonical form: addresses strictly rising and inside the 7 + 8 bits of the space. -/
def wf (m : List Host.Cell) : Bool := rising m && m.all fun c => decide (c.1 < 32768)

end Memory

/-! ### The chip record (R45, R58, R62)

What the completed transactions did to the chips. No rule of the block reads it. -/

namespace Chip

/-- The FIFO bytes loaded into a device and not consumed (R35, R45 a). -/
def staged (c : Chip) (dev : DevAddr) : List Byte := (c.fifo.filter fun x => x.1 == dev).map (·.2)

/-- What the writes left in a register (R46). -/
def held (c : Chip) (dev : DevAddr) (reg : Byte) : Option Byte := Memory.read c.regs (Memory.key dev reg)

/-- The pending flags behind 0x04 of a device; none where the record does not know them (R45 b). -/
def pendingFlags (c : Chip) (dev : DevAddr) : Option Byte := Memory.read c.pending dev.toNat

/-- The FIFO of a device emptied. -/
def dropStaged (c : Chip) (dev : DevAddr) : List (DevAddr × Byte) := c.fifo.filter fun x => x.1 != dev

/-- The oldest FIFO byte of a device removed. -/
def dropOldest (dev : DevAddr) : List (DevAddr × Byte) → List (DevAddr × Byte)
  | [] => []
  | x :: xs => if x.1 = dev then xs else x :: dropOldest dev xs

/-- What the FIFO of a device still holds is the chip's affair: a free value (notes/assumptions/24.md). -/
def freeFifo (c : Chip) (dev : DevAddr) : Chip :=
  { c with fifo := c.dropStaged dev ++ (Config.freeStaged c.drawn).map fun b => (dev, b), drawn := c.drawn + 1 }

/-- The pending flags of a device have no value: the chip may have changed them (R45 b, N10, N11). -/
def forgetFlags (c : Chip) (dev : DevAddr) : Chip := { c with pending := Memory.keep c.pending fun k => k != dev.toNat }

/-- The registers of a device have no value (R30: "a model gives them no value"). -/
def forgetRegs (c : Chip) (dev : DevAddr) : Chip :=
  { c with regs := Memory.keep c.regs fun k => k / 256 != dev.toNat }

/-- One register of a device has no value. -/
def forgetReg (c : Chip) (dev : DevAddr) (reg : Byte) : Chip :=
  { c with regs := Memory.keep c.regs fun k => k != Memory.key dev reg }

/-- Whether a device may still be resetting: it was written a SoftReset, and no read of 0x01 since has shown the "still
resetting" bit clear (R31, R62 a, R203). -/
def mayReset (c : Chip) (dev : DevAddr) : Bool := (Memory.read c.resetting dev.toNat).isSome

/-- The command bytes after which a device's registers have no value: SoftReset (R30, R62 a, N10), and any byte outside
R83, to which "the chip's reaction is the oracle's" (93 U9). -/
def resets (v : Byte) : Bool :=
  v != Command.idle.code && v != Command.calcCrc.code && v != Command.transceive.code

/-- A byte loaded into the FIFO (R35), at the end; beyond FIFO_CAPACITY the FIFO is the chip's affair (R205, N20). -/
def load (c : Chip) (capacity : Nat) (dev : DevAddr) (v : Byte) : Chip :=
  if (c.staged dev).length < capacity then { c with fifo := c.fifo ++ [(dev, v)] } else c.freeFifo dev

/-- One more thing the chip was made to begin. -/
def begin (c : Chip) (r : ChipRun) : Chip := { c with runs := c.runs ++ [r] }

/-- A command started (R31, R62 a, c, d). Idle and Transceive leave the loaded bytes where they are; what CalcCRC leaves
of them is the chip's affair (R177). A resetting command leaves no register a value, and from it on the device may be
resetting. The command sets flags when it ends (R45 b). -/
def startCommand (c : Chip) (dev : DevAddr) (v : Byte) : Chip :=
  let c' := (c.begin (.started dev v (c.staged dev))).forgetFlags dev
  if v = Command.idle.code ∨ v = Command.transceive.code then c'
  else if resets v then { c'.forgetRegs dev with resetting := Memory.write c.resetting dev.toNat v }
  else c'.freeFifo dev

/-- Whether a write of `v` to 0x0D starts transmission: bit 7 set, and the last command is Transceive (R62 d). That none
is recorded when the last command has no value is a DESIGN CHOICE (notes/assumptions/24.md). -/
def starts (c : Chip) (dev : DevAddr) (v : Byte) : Bool :=
  v &&& Mask.startSend != 0 && c.held dev Reg.command == some Command.transceive.code

/-- The valid bits of the frame that a write of `v` to 0x0D sends: the programmed count (R62 d) where the write leaves
it as it is, else the chip's affair (R200). -/
def sentBits (c : Chip) (dev : DevAddr) (v : Byte) : ValidBits :=
  if (c.held dev Reg.bitFraming).map (·.setWidth 3) = some (v.setWidth 3) then v.setWidth 3
  else Config.freeValidBits c.drawn

/-- The loaded bytes sent, which consumes them (R45 a, R62 d). The receive that follows sets flags (R62 e). DESIGN CHOICE
(notes/assumptions/24.md): all loaded bytes leave the FIFO in the step that writes start-send, while DOC00 gives no timing
(R62); and with nothing loaded the record says that the empty frame was sent, while what the chip transmits then is not in
DOC00 (R146, U14). -/
def send (c : Chip) (dev : DevAddr) (v : Byte) : Chip :=
  ({ c with fifo := c.dropStaged dev, drawn := c.drawn + 1 }.begin (.sent dev (c.staged dev) (c.sentBits dev v))).forgetFlags dev

/-- The canonical form of the record: that of its three lists by address. -/
def wf (c : Chip) : Bool := Memory.wf c.regs && Memory.wf c.pending && Memory.wf c.resetting

/-- The effect of a completed write beyond the register itself (R58): 0x09 appends to the FIFO, 0x0A with bit 7 empties
it, 0x01 starts a command, COMIRQ_CLEAR_VAL written to 0x04 clears the pending flags, 0x0D with bit 7 starts
transmission. What the spec leaves to the chip has a free value or none; that a write to any other register has no
effect on the rest of the record is a DESIGN CHOICE (notes/assumptions/24.md). -/
def writeEffect (c : Chip) (cfg : Config) (dev : DevAddr) (reg v : Byte) : Chip :=
  if reg = Reg.fifoData then c.load cfg.fifoCapacity dev v
  else if reg = Reg.comIrq then
    if v = cfg.comIrqClearVal then { c with pending := Memory.write c.pending dev.toNat 0x00 } else c.forgetFlags dev
  else if reg = Reg.fifoLevel then
    if v &&& Mask.fifoFlush != 0 then { c with fifo := c.dropStaged dev } else c
  else if reg = Reg.command then c.startCommand dev v
  else if reg = Reg.bitFraming then
    if c.starts dev v then c.send dev v else c
  else c

/-- The registers that hold what is written to them, as far as DOC00 says: those of R30 the block writes, but for 0x04,
0x09 and 0x0A, whose bits are the pending flags, the FIFO and its level (R32, R35, R36, R45), which the record keeps by
themselves. What another register holds once it is written, in R30's map or outside it, is the chip's affair (R60, 93 U9),
and that it then has no value is a DESIGN CHOICE (notes/assumptions/24.md). -/
def keepsWrites (reg : Byte) : Bool :=
  [Reg.command, Reg.bitFraming, Reg.mode, Reg.txControl, Reg.txAsk, Reg.tmode, Reg.tprescaler, Reg.treloadHi,
   Reg.treloadLo].contains reg

/-- What a register holds after `v` is written to it, the bits of `own` being the block's and the others written back as
they were read, which "a model leaves to the environment" (R200): a free value, the record's n-th. A write of 0x01 is the
command it starts, whole (R31, R58). -/
def settled (reg v own : Byte) (n : Nat) : Option Byte :=
  if !keepsWrites reg then none
  else if own = 0xFF ∨ reg = Reg.command then some v
  else some (v &&& own ||| Config.freeWrittenBack n &&& ~~~own)

/-- The register written holds what `settled` says. A write that writes bits back takes a free value. -/
def settle (c : Chip) (dev : DevAddr) (reg v own : Byte) : Chip :=
  { c with regs := Memory.put c.regs (Memory.key dev reg) (settled reg v own c.drawn),
           drawn := if own = 0xFF then c.drawn else c.drawn + 1 }

/-- What a write to a device that may be resetting leaves is the chip's affair (R203, 93 U1): no value in the register
nor in the flags, a free FIFO. -/
def unsettle (c : Chip) (dev : DevAddr) (reg : Byte) : Chip := ((c.freeFifo dev).forgetFlags dev).forgetReg dev reg

/-- A completed `WR(reg, v)` to a device, the bits of `own` chosen by the block and the others written back as read (R200;
`own` is all of them but in a read-modify-write). -/
def written (c : Chip) (cfg : Config) (dev : DevAddr) (reg v : Byte) (own : Byte := 0xFF) : Chip :=
  let c' := c.writeEffect cfg dev reg v
  if c'.mayReset dev then c'.unsettle dev reg else c'.settle dev reg v own

/-- A completed `RD(reg)` from a device that returned `v`: reading 0x09 removes the oldest FIFO byte (R35). A read of
0x01 that shows the "still resetting" bit clear ends a reset (R31, R62 a). After a read of 0x04, 0x05 or 0x06 that
register has no value, nor have the flags behind 0x04 (R58, N11). -/
def readFrom (c : Chip) (cfg : Config) (dev : DevAddr) (reg v : Byte) : Chip :=
  if reg = Reg.fifoData then { c with fifo := dropOldest dev c.fifo }
  else if reg = Reg.command then
    if v &&& cfg.softResetBusyMask = 0 then { c with resetting := Memory.keep c.resetting fun k => k != dev.toNat } else c
  else if reg = Reg.comIrq then (c.forgetFlags dev).forgetReg dev reg
  else if reg = Reg.divIrq ∨ reg = Reg.error then c.forgetReg dev reg
  else c

end Chip

/-! ### Register updates (R11: `S <- v`) -/

namespace State

/-- `ADDR <- a` -/
def setAddr (s : State) (a : DevAddr) : State := { s with addr := a }
/-- `INIT <- b` -/
def setInit (s : State) (b : Bool) : State := { s with init := b }
/-- TXF, the transmit frame (R22) -/
def setTxf (s : State) (frame : List Byte) (vb : ValidBits) : State := { s with txbuf := frame, txvb := vb }
/-- `RES <- r` -/
def setRes (s : State) (r : ExchangeResult) : State := { s with res := r }
/-- `CRC_HI <- v` -/
def setCrcHi (s : State) (v : Byte) : State := { s with crcHi := v }
/-- `CRC_LO <- v` -/
def setCrcLo (s : State) (v : Byte) : State := { s with crcLo := v }
/-- `UIDB <- u` -/
def setUidb (s : State) (u : Uidb) : State := { s with uidb := u }
/-- `SAKR <- v` -/
def setSakr (s : State) (v : Byte) : State := { s with sakr := v }
/-- `seq <- p` (R27) -/
def setSeq (s : State) (q : Option Sequence) : State := { s with seq := q }
/-- `T0 <- t` -/
def setT0 (s : State) (t : Nat) : State := { s with t0 := t }
/-- `PV <- v` -/
def setPv (s : State) (v : Verdict) : State := { s with pv := v }
/-- the words that wait at the host port -/
def setRequests (s : State) (rs : List Request) : State := { s with requests := rs }
/-- the result at the host port -/
def setResult (s : State) (r : Option Result) : State := { s with result := r }
/-- the answers that are ready -/
def setAnswers (s : State) (as : List Answer) : State := { s with answers := as }
/-- the chip record -/
def setChip (s : State) (c : Chip) : State := { s with chip := c }
/-- one more event in the trace -/
def record (s : State) (e : Event) : State := { s with trace := s.trace ++ [e] }
/-- one step of the block while the clock advanced by `ms` (R14) -/
def elapse (s : State) (ms : Nat) : State := { s with clock := s.clock + ms, ticks := s.ticks + 1 }

end State

/-! ### One step of the block (R16) -/

/-- What one step performs: one of the four primitives of R11, `WR(a, v)`, `RD(a)`, `Now()`, `Pause(n)`, or one
internal assignment. `own` is for the chip record alone: the bits of a `WR`'s value that the block chooses, all of them
but in a read-modify-write, which writes the others back as it read them (R200). -/
inductive Prim where
  | wr (addr value : Byte) (own : Byte := 0xFF)
  | rd (addr : Byte)
  | now
  | pause (n : Nat)
  | assign
deriving DecidableEq, Repr

/-- What a completed primitive returned: the byte of an `RD`, the number of a `Now()`. -/
structure Reply where
  byte : Byte
  time : Nat
deriving DecidableEq, Repr

/-- How a primitive ends: it completes, or its bus transaction fails (R53). -/
inductive Performed where
  | replied (r : Reply) (s : State)
  | failed (s : State)

/-- The environment's answer when none is ready: the free values (notes/assumptions/2.md). -/
def freeAnswer (n : Nat) : Answer := ⟨Config.freeElapsed n, Config.freeBusFault n, Config.freeByte n⟩

/-- Perform one primitive, the environment doing `a`. A transaction goes to the device at ADDR (R50); it
completes or fails (R53). `Now()` returns the clock; `Pause(n)` advances it by at least `n` (R14). An assignment uses
no port; the registers it writes are the sequencer's affair, and the clock may advance (R16). -/
def perform (p : Prim) (a : Answer) (s : State) : Performed :=
  match p with
  | .wr reg v own =>
    if a.fails then .failed ((s.elapse a.elapsed).record (.wrFailed s.addr reg v))
    else .replied ⟨a.byte, s.clock + a.elapsed⟩
      (((s.elapse a.elapsed).record (.wr s.addr reg v)).setChip (s.chip.written s.config s.addr reg v own))
  | .rd reg =>
    if a.fails then .failed ((s.elapse a.elapsed).record (.rdFailed s.addr reg))
    else .replied ⟨a.byte, s.clock + a.elapsed⟩
      (((s.elapse a.elapsed).record (.rd s.addr reg a.byte)).setChip (s.chip.readFrom s.config s.addr reg a.byte))
  | .now => .replied ⟨a.byte, s.clock + a.elapsed⟩ ((s.elapse a.elapsed).record (.now (s.clock + a.elapsed)))
  | .pause n => .replied ⟨a.byte, s.clock + (n + a.elapsed)⟩ ((s.elapse (n + a.elapsed)).record (.pause n))
  | .assign => .replied ⟨a.byte, s.clock + a.elapsed⟩ (s.elapse a.elapsed)

/-! ### The end of an operation -/

/-- `return x` of the outermost operation: SEQ is IDLE and the result is at the host port (R18). -/
def endOperation (r : Result) (s : State) : State := (s.setSeq none).setResult (some r)

/-- `raise BusFault` (R173): the operation in progress and all its callers end, SEQ returns to IDLE, the host
receives the fault in place of a result; "state already written keeps its value" and no later primitive
runs. There is no return from it: "the host may start any operation" (R178). -/
def raiseBusFault (s : State) : State := endOperation .busFault s

/-- What follows a phase: another phase on top of the given callers (R13), or the operation's return. -/
inductive Move where
  | enter (f : Active) (callers : List Waiting)
  | ret (r : Result)
deriving DecidableEq, Repr

end Sys2Proof.Machine
end

