-- ==== Sys2Proof/Machine/CrcPhases.lean ====
section
/-! DEFINITION. The phase table of computeCrc (42_crc_adapter.md R130). -/

namespace Sys2Proof.Machine

/-- The column "primitive" of R130's phase table (C4 is the poll's). -/
def crcPrim (bytes : List Byte) : CrcPhase → Prim
  | .c0 => .rd Reg.fifoLevel
  | .c1 v => .wr Reg.fifoLevel (v ||| Mask.fifoFlush) Mask.fifoFlush
  | .c2 i => .wr Reg.fifoData (bytes.getD i 0)
  | .c3 => .wr Reg.command Command.calcCrc.code
  | .c5 => .rd Reg.crcHigh
  | .c6 => .rd Reg.crcLow

/-- C2(i) while there is a byte i, else C3. -/
def crcLoad (bytes : List Byte) (i : Nat) : CrcPhase := if i < bytes.length then .c2 i else .c3

/-- The column "next" of R130's phase table. -/
def crcAfter (bytes : List Byte) (p : CrcPhase) (r : Reply) (s : State) : State × Move :=
  match p with
  | .c0 => (s, .enter (.computeCrc bytes (.c1 r.byte)) [])
  | .c1 _ => (s, .enter (.computeCrc bytes (crcLoad bytes 0)) [])
  | .c2 i => (s, .enter (.computeCrc bytes (crcLoad bytes (i + 1))) [])
  | .c3 => (s, .enter (.poll (crcPoll s.config) .p0) [.computeCrc bytes])
  | .c5 => (s.setCrcHi r.byte, .enter (.computeCrc bytes .c6) [])
  | .c6 => (s.setCrcLo r.byte, .ret (.crc s.crcHi r.byte))

/-- C4: on either verdict C5, the verdict discarded (R130 step 3, R174). -/
def crcPollReturned (bytes : List Byte) (s : State) : State × Move := (s, .enter (.computeCrc bytes .c5) [])

end Sys2Proof.Machine
end

