-- ==== Sys2Proof/Machine/TransceivePhases.lean ====
section
/-! DEFINITION. The phase table of transceive (43_transceive.md R140 to R146). -/

namespace Sys2Proof.Machine

/-- The column "primitive" of R140's phase table (X9 is the poll's). The frame is TXF (R22). -/
def xcvPrim (p : XcvPhase) (s : State) : Prim :=
  match p with
  | .x0 => .wr Reg.command Command.idle.code
  | .x1 => .wr Reg.comIrq s.config.comIrqClearVal
  | .x2 => .rd Reg.fifoLevel
  | .x3 v => .wr Reg.fifoLevel (v ||| Mask.fifoFlush) Mask.fifoFlush
  | .x4 i => .wr Reg.fifoData (s.txbuf.getD i 0)
  | .x5 => .wr Reg.bitFraming (framingValue s.txvb)
  | .x6 => .wr Reg.command Command.transceive.code
  | .x7 => .rd Reg.bitFraming
  | .x8 v => .wr Reg.bitFraming (v ||| Mask.startSend) Mask.startSend
  | .x10 => .rd Reg.bitFraming
  | .x11 v => .wr Reg.bitFraming (v &&& (0xFF ^^^ Mask.startSend)) Mask.startSend
  | .x12 => .rd Reg.error
  | .x13 => .rd Reg.fifoLevel
  | .x14 _ _ => .rd Reg.fifoData
  | .x15 _ => .rd Reg.control
  | .failure => .assign
  | .success _ _ => .assign

/-- X4(i) while there is a byte i, else X5. -/
def xcvLoad (frame : List Byte) (i : Nat) : XcvPhase := if i < frame.length then .x4 i else .x5

/-- X14(i) while i is below n, else X15. -/
def xcvDrain (i n : Nat) : XcvPhase := if i < n then .x14 i n else .x15 n

/-- `RXBUF[i] <- b`: element i is replaced, or added when RXBUF ends there; OK, RXVB and the other elements keep
their values (R140 step 7, R173). -/
def storeByte (r : ExchangeResult) (i : Nat) (b : Byte) : ExchangeResult :=
  { r with rxbuf := r.rxbuf.take i ++ b :: r.rxbuf.drop (i + 1) }

/-- `RES <- r; return RES`. -/
def xcvReturn (r : ExchangeResult) (s : State) : State × Move := (s.setRes r, .ret (.exchange r))

/-- The column "next" of R140's phase table. -/
def xcvAfter (p : XcvPhase) (r : Reply) (s : State) : State × Move :=
  match p with
  | .x0 => (s, .enter (.transceive .x1) [])
  | .x1 => (s, .enter (.transceive .x2) [])
  | .x2 => (s, .enter (.transceive (.x3 r.byte)) [])
  | .x3 _ => (s, .enter (.transceive (xcvLoad s.txbuf 0)) [])
  | .x4 i => (s, .enter (.transceive (xcvLoad s.txbuf (i + 1))) [])
  | .x5 => (s, .enter (.transceive .x6) [])
  | .x6 => (s, .enter (.transceive .x7) [])
  | .x7 => (s, .enter (.transceive (.x8 r.byte)) [])
  | .x8 _ => (s, .enter (.poll (xcvPoll s.config) .p0) [.transceive])
  | .x10 => (s, .enter (.transceive (.x11 r.byte)) [])
  | .x11 _ => (s, .enter (.transceive .failure) [])
  | .x12 => (s, .enter (.transceive (if frameError r.byte then .failure else .x13)) [])
  | .x13 => (s, .enter (.transceive (xcvDrain 0 (fifoCount r.byte))) [])
  | .x14 i n => (s.setRes (storeByte s.res i r.byte), .enter (.transceive (xcvDrain (i + 1) n)) [])
  | .x15 n => (s, .enter (.transceive (.success n (rxLastBits r.byte))) [])
  | .failure => xcvReturn failedExchange s
  | .success n rvb => xcvReturn { ok := true, rxbuf := s.res.rxbuf.take n, rxvb := rvb } s

/-- X9: X12 on HIT, X10 on TIMEOUT (R140 step 5, R141). -/
def xcvPollReturned (s : State) : State × Move :=
  match s.pv with
  | .hit => (s, .enter (.transceive .x12) [])
  | .timeout => (s, .enter (.transceive .x10) [])

/-- Call transceive: its operands are TXF (R22), its first phase X0. -/
def callTransceive (frame : List Byte) (validBits : ValidBits) (callers : List Waiting) (s : State) : State × Move :=
  (s.setTxf frame validBits, .enter (.transceive .x0) callers)

end Sys2Proof.Machine
end

