-- ==== Sys2Proof/Machine/AcsPhases.lean ====
section
/-! DEFINITION. The steps of reqa, anticollision, select and readUid between their calls (44_anticollision_select.md R150 to R154). -/

namespace Sys2Proof.Machine

/-! ### reqa (R150) -/

/-- After `WR(0x0D, 0x07)`: transceive([0x26], 7). -/
def reqaFramingAfter (s : State) : State × Move := callTransceive reqaFrame 7 [.reqa] s

/-- The exchange has returned: "restore full-byte framing, whatever r is". -/
def reqaReturned (s : State) : State × Move := (s, .enter .reqaRestore [])

/-- After the restore: the boolean (R29, R150). -/
def reqaRestoreAfter (s : State) : State × Move := (s, .ret (.flag (reqaOk s.res)))

/-! ### anticollision (R151) -/

/-- After `WR(0x0D, 0x00)`: transceive([0x93, 0x20], 0). -/
def anticollAfter (s : State) : State × Move := callTransceive anticollFrame 0 [.anticollision] s

/-- The exchange has returned: UIDB is written on success only. -/
def anticollReturned (s : State) : State × Move :=
  match anticollOk s.res with
  | true => (s, .enter .storeUidb [])
  | false => (s, .ret (.uidb none))

/-- `UIDB <- r.RXBUF[0..4]; return (true, UIDB)`. -/
def storeUidbAfter (s : State) : State × Move :=
  (s.setUidb (leadingUidb s.res.rxbuf), .ret (.uidb (some (leadingUidb s.res.rxbuf))))

/-! ### select (R152) -/

/-- select begins by computing the CRC of the 7-byte frame. -/
def callSelect (u : Uidb) (callers : List Waiting) (s : State) : State × Move :=
  (s, .enter (.computeCrc (selectHead u) .c0) (.selectCrc u :: callers))

/-- The CRC is in CRC_HI and CRC_LO: transceive the 9-byte frame, low byte first. -/
def selectCrcReturned (u : Uidb) (s : State) : State × Move :=
  callTransceive (selectFrame u s.crcLo s.crcHi) 0 [.selectExchange u] s

/-- The exchange has returned: SAKR is written on success only. -/
def selectReturned (s : State) : State × Move :=
  match selectOk s.res with
  | true => (s, .enter .storeSak [])
  | false => (s, .ret (.flag false))

/-- `SAKR <- r.RXBUF[0]; return true`; the cascade bit is not inspected. -/
def storeSakAfter (s : State) : State × Move := (s.setSakr (s.res.rxbuf.headD 0), .ret (.flag true))

/-! ### readUid (R153, R154) -/

/-- reqa has returned: anticollision on success, else failure. -/
def readUidReqaReturned (r : Result) (s : State) : State × Move :=
  match r with
  | .flag true => (s, .enter .anticollision [.readUidAnticoll])
  | _ => (s, .ret (.uid none))

/-- anticollision has returned: select(UIDB) on success, else failure. -/
def readUidAnticollReturned (r : Result) (s : State) : State × Move :=
  match r with
  | .uidb (some u) => callSelect u [.readUidSelect] s
  | _ => (s, .ret (.uid none))

/-- select has returned: UIDB[0..3] on success, else failure. -/
def readUidSelectReturned (r : Result) (s : State) : State × Move :=
  match r with
  | .flag true => (s, .ret (.uid (some (uidOf s.uidb))))
  | _ => (s, .ret (.uid none))

end Sys2Proof.Machine
end

