-- ==== Sys2Proof/Machine/HostPhases.lean ====
section
/-! DEFINITION. The steps of the lazily initialising host operations between their calls (45_host_surface.md R161 to R163, R165). -/

namespace Sys2Proof.Machine

/-- isCardPresent: initialize has returned, reqa follows (R161). -/
def isCardPresentInitReturned (s : State) : State × Move := (s, .enter .reqaFraming [.isCardPresentReqa])

/-- isCardPresent returns what reqa returned (R161). -/
def isCardPresentReqaReturned (r : Result) (s : State) : State × Move := (s, .ret r)

/-- readUidHex: initialize has returned, readUid follows, which begins with reqa (R162, R153). -/
def readUidHexInitReturned (s : State) : State × Move := (s, .enter .reqaFraming [.readUidReqa, .readUidHexUid])

/-- readUidHex: the hex text of the 4 UID bytes, or the empty string (R162). -/
def readUidHexUidReturned (r : Result) (s : State) : State × Move :=
  match r with
  | .uid (some u) => (s, .ret (.text (hexText (uidBytes u))))
  | _ => (s, .ret (.text []))

/-- version: initialize has returned, `RD(0x37)` follows (R163). -/
def versionInitReturned (s : State) : State × Move := (s, .enter .version [])

end Sys2Proof.Machine
end

