-- ==== Sys2Proof/Machine/RegisterPhases.lean ====
section
/-! DEFINITION. The phases of the bit-mask read-modify-writes (40_register_access.md R112, R113). -/

namespace Sys2Proof.Machine

/-- setBits: `v <- RD(addr)`, then `WR(addr, v | mask)`: the mask's bits are the block's (R112, R200). -/
def setBitsPrim (addr mask : Byte) : RmwPhase → Prim
  | .read => .rd addr
  | .write v => .wr addr (v ||| mask) mask

/-- After a phase of setBits. -/
def setBitsAfter (addr mask : Byte) (p : RmwPhase) (r : Reply) (s : State) : State × Move :=
  match p with
  | .read => (s, .enter (.setBits addr mask (.write r.byte)) [])
  | .write _ => (s, .ret .done)

/-- clearBits: `v <- RD(addr)`, then `WR(addr, v & (0xFF ^ mask))` (R113, R200). -/
def clearBitsPrim (addr mask : Byte) : RmwPhase → Prim
  | .read => .rd addr
  | .write v => .wr addr (v &&& (0xFF ^^^ mask)) mask

/-- After a phase of clearBits. -/
def clearBitsAfter (addr mask : Byte) (p : RmwPhase) (r : Reply) (s : State) : State × Move :=
  match p with
  | .read => (s, .enter (.clearBits addr mask (.write r.byte)) [])
  | .write _ => (s, .ret .done)

end Sys2Proof.Machine
end

