-- ==== Sys2Proof/Machine/ResetPhases.lean ====
section
/-! DEFINITION. The phases of pollUntil, softReset, antennaOn and initialize (41_reset_antenna.md R120 to R124). -/

namespace Sys2Proof.Machine

/-! ### pollUntil (R120) -/

/-- P0 `T0 <- Now()`, P1 `v <- RD(reg)`, P2 `t <- Now()`, P3 `Pause(POLL_INTERVAL_MS)`; then `PV <- v`. -/
def pollPrim (q : PollArgs) (p : PollPhase) (s : State) : Prim :=
  match p with
  | .p0 => .now
  | .p1 => .rd q.reg
  | .p2 => .now
  | .p3 => .pause s.config.pollIntervalMs
  | .verdict _ => .assign

/-- The column "next" of R120's phase table; a verdict is assigned to PV, where the caller reads it (R28). -/
def pollAfter (q : PollArgs) (p : PollPhase) (r : Reply) (s : State) : State × Move :=
  match p with
  | .p0 => (s.setT0 r.time, .enter (.poll q .p1) [])
  | .p1 => (s, .enter (.poll q (if pollHolds q r.byte then .verdict .hit else .p2)) [])
  | .p2 => (s, .enter (.poll q (if pollExpired q s.t0 r.time then .verdict .timeout else .p3)) [])
  | .p3 => (s, .enter (.poll q .p1) [])
  | .verdict v => (s.setPv v, .ret .done)

/-! ### softReset (R121) -/

/-- `WR(0x01, 0x0F)`, then `Pause(50)`. -/
def softResetPrim (p : SoftResetPhase) (s : State) : Prim :=
  match p with
  | .command => .wr Reg.command Command.softReset.code
  | .settle => .pause s.config.tSettleMs

/-- After the pause the poll, whose verdict is discarded (R121, R174). -/
def softResetAfter (p : SoftResetPhase) (s : State) : State × Move :=
  match p with
  | .command => (s, .enter (.softReset .settle) [])
  | .settle => (s, .enter (.poll (resetPoll s.config) .p0) [.softReset])

/-! ### antennaOn (R123) -/

/-- After `v <- RD(0x14)`: setBits(0x14, 0x03) unless both bits are set. -/
def antennaOnAfter (r : Reply) (s : State) : State × Move :=
  if antennaSet r.byte then (s, .ret .done)
  else (s, .enter (.setBits Reg.txControl Mask.antenna .read) [.antennaOn])

/-! ### initialize (R124) -/

/-- `ADDR <- address & 0x7F`, then softReset. -/
def initAddressAfter (address : Nat) (s : State) : State × Move :=
  (s.setAddr (maskAddr address), .enter (.softReset .command) [.initSoftReset])

/-- The six plain writes, in R124's order. -/
def setupPrim (p : SetupPhase) (s : State) : Prim :=
  match p with
  | .tmode => .wr Reg.tmode s.config.tmodeVal
  | .tprescaler => .wr Reg.tprescaler s.config.tprescalerVal
  | .treloadHi => .wr Reg.treloadHi s.config.treloadHiVal
  | .treloadLo => .wr Reg.treloadLo s.config.treloadLoVal
  | .txAsk => .wr Reg.txAsk s.config.txAskVal
  | .mode => .wr Reg.mode s.config.modeVal

/-- After the last of them antennaOn is called. -/
def setupAfter (p : SetupPhase) (s : State) : State × Move :=
  match p with
  | .tmode => (s, .enter (.setup .tprescaler) [])
  | .tprescaler => (s, .enter (.setup .treloadHi) [])
  | .treloadHi => (s, .enter (.setup .treloadLo) [])
  | .treloadLo => (s, .enter (.setup .txAsk) [])
  | .txAsk => (s, .enter (.setup .mode) [])
  | .mode => (s, .enter .antennaOn [.initAntenna])

/-- initialize when softReset has returned: the timer writes begin. -/
def initSoftResetReturned (s : State) : State × Move := (s, .enter (.setup .tmode) [])

/-- initialize when antennaOn has returned: its last step remains. -/
def initAntennaReturned (s : State) : State × Move := (s, .enter .initFlag [])

/-- `INIT <- 1; return` (R21, R124). -/
def initFlagAfter (s : State) : State × Move := (s.setInit true, .ret .done)

end Sys2Proof.Machine
end

