-- ==== Sys2Proof/Machine/Sequencer.lean ====
section
/-! DEFINITION. The sequencer: SEQ advances by one phase when the primitive of the current phase completes (00_scope.md R13, R16, R18; 10_state.md R27). -/

namespace Sys2Proof.Machine

/-- The primitive of the top frame's phase: the columns "primitive" of the phase tables. -/
def primitive (f : Active) (s : State) : Prim :=
  match f with
  | .writeRegister addr value => .wr addr value
  | .readRegister addr => .rd addr
  | .busWrite addr value => .wr addr value
  | .busRead addr => .rd addr
  | .command c => .wr Reg.command c.code
  | .setBits addr mask p => setBitsPrim addr mask p
  | .clearBits addr mask p => clearBitsPrim addr mask p
  | .poll q p => pollPrim q p s
  | .softReset p => softResetPrim p s
  | .antennaOn => .rd Reg.txControl
  | .initAddress _ => .assign
  | .initFlag => .assign
  | .setup p => setupPrim p s
  | .computeCrc bytes p => crcPrim bytes p
  | .transceive p => xcvPrim p s
  | .reqaFraming => .wr Reg.bitFraming (framingValue 7)
  | .reqaRestore => .wr Reg.bitFraming (framingValue 0)
  | .anticollision => .wr Reg.bitFraming (framingValue 0)
  | .storeUidb => .assign
  | .storeSak => .assign
  | .version => .rd Reg.version

/-- What follows the top frame's phase once its primitive has completed: the columns "next". -/
def after (f : Active) (r : Reply) (s : State) : State × Move :=
  match f with
  | .writeRegister _ _ => (s, .ret .done)
  | .readRegister _ => (s, .ret (.byte r.byte))
  | .busWrite _ _ => (s, .ret .done)
  | .busRead _ => (s, .ret (.byte r.byte))
  | .command _ => (s, .ret .done)
  | .setBits addr mask p => setBitsAfter addr mask p r s
  | .clearBits addr mask p => clearBitsAfter addr mask p r s
  | .poll q p => pollAfter q p r s
  | .softReset p => softResetAfter p s
  | .antennaOn => antennaOnAfter r s
  | .initAddress address => initAddressAfter address s
  | .initFlag => initFlagAfter s
  | .setup p => setupAfter p s
  | .computeCrc bytes p => crcAfter bytes p r s
  | .transceive p => xcvAfter p r s
  | .reqaFraming => reqaFramingAfter s
  | .reqaRestore => reqaRestoreAfter s
  | .anticollision => anticollAfter s
  | .storeUidb => storeUidbAfter s
  | .storeSak => storeSakAfter s
  | .version => (s, .ret (.byte r.byte))

/-- What a waiting operation does when its callee has returned `r` (R13: "resumes the caller at the point
after the call"). -/
def returned (w : Waiting) (r : Result) (s : State) : State × Move :=
  match w with
  | .flushFifo => (s, .ret .done)
  | .softReset => (s, .ret .done)
  | .antennaOn => (s, .ret .done)
  | .initSoftReset => initSoftResetReturned s
  | .initAntenna => initAntennaReturned s
  | .computeCrc bytes => crcPollReturned bytes s
  | .transceive => xcvPollReturned s
  | .reqa => reqaReturned s
  | .anticollision => anticollReturned s
  | .selectCrc u => selectCrcReturned u s
  | .selectExchange _ => selectReturned s
  | .readUidReqa => readUidReqaReturned r s
  | .readUidAnticoll => readUidAnticollReturned r s
  | .readUidSelect => readUidSelectReturned r s
  | .isCardPresentInit => isCardPresentInitReturned s
  | .isCardPresentReqa => isCardPresentReqaReturned r s
  | .readUidHexInit => readUidHexInitReturned s
  | .readUidHexUid => readUidHexUidReturned r s
  | .versionInit => versionInitReturned s
  | .cardFrame _ => (s, .ret (.exchange s.res))

/-- Hand a result to the nearest caller, outward until one goes on, or to the host (R13, R18). -/
def giveBack : List Waiting → Result → State → State
  | [], r, s => endOperation r s
  | w :: ws, r, s =>
    match returned w r s with
    | (s', .enter f callers) => s'.setSeq (some ⟨f, callers ++ ws⟩)
    | (s', .ret r') => giveBack ws r' s'

/-- Carry out a move above the given callers. -/
def follow (ws : List Waiting) : State × Move → State
  | (s, .enter f callers) => s.setSeq (some ⟨f, callers ++ ws⟩)
  | (s, .ret r) => giveBack ws r s

/-- One step of the block in R16's sense, the environment doing `a`: the primitive or the assignment of the current
phase, then SEQ at the phase that follows it; a failed transaction raises BusFault (R173). With SEQ = IDLE nothing
happens (R18). -/
def primStep (a : Answer) (s : State) : State :=
  match s.seq with
  | none => s
  | some q =>
    match perform (primitive q.top s) a s with
    | .failed s' => raiseBusFault s'
    | .replied r s' => follow q.callers (after q.top r s')

/-- Steps of the block while the given answers last and SEQ is not IDLE; what is left of them stays ready. -/
def run : List Answer → State → State
  | [], s => s.setAnswers []
  | a :: as, s =>
    match s.seq with
    | none => s.setAnswers (a :: as)
    | some _ => run as (primStep a s)

/-- One step of the block on the environment's next answer, or on a free answer when none is ready (R16). -/
def oneStep (s : State) : State :=
  match s.answers with
  | [] => primStep (freeAnswer s.ticks) s
  | a :: as => primStep a (s.setAnswers as)

/-- Go on with the operation in progress: one step of the block for each answer that is ready, until the operation
ends or the answers do; when none is ready, one step on a free answer (notes/assumptions/1.md). -/
def advance (s : State) : State :=
  match s.answers with
  | [] => primStep (freeAnswer s.ticks) s
  | a :: as => run (a :: as) s

/-! ### Starting an operation -/

/-- Start an operation at its first phase and go on as far as `advance` does. An operation requested
while another is in progress is refused (R187, U10). -/
def start (f : Active) (callers : List Waiting) (s : State) : Host.Outcome State Fault Refusal :=
  match s.seq with
  | some _ => .refused .operationInProgress
  | none => .next (advance ((s.setResult none).setSeq (some ⟨f, callers⟩)))

/-- An operation of one assignment or of none: it ends in the step that starts it. -/
def startEnded (r : Result) (s : State) : Host.Outcome State Fault Refusal :=
  match s.seq with
  | some _ => .refused .operationInProgress
  | none => .next (endOperation r s)

/-- Start `initialize(address)` above the given callers (R124). -/
def startInit (address : Nat) (callers : List Waiting) (s : State) : Host.Outcome State Fault Refusal :=
  start (.initAddress address) callers s

/-! ### The values SEQ takes (R27)

A stack that operations build: every waiting frame waits for the operation above it, a poll is the one its
caller makes, and a loop index is inside its loop. -/

/-- The operation a frame belongs to. -/
inductive OpName where
  | writeRegister | readRegister | busWrite | busRead | command
  | setBits | clearBits | pollUntil | softReset | flushFifo | antennaOn | initializeChip
  | computeCrc | transceive | reqa | anticollision | select | readUid
  | isCardPresent | readUidHex | version | cardFrame
deriving DecidableEq, Repr

/-- The operation of a top frame. -/
def Active.op : Active → OpName
  | .writeRegister _ _ => .writeRegister
  | .readRegister _ => .readRegister
  | .busWrite _ _ => .busWrite
  | .busRead _ => .busRead
  | .command _ => .command
  | .setBits _ _ _ => .setBits
  | .clearBits _ _ _ => .clearBits
  | .poll _ _ => .pollUntil
  | .softReset _ => .softReset
  | .antennaOn => .antennaOn
  | .initAddress _ => .initializeChip
  | .initFlag => .initializeChip
  | .setup _ => .initializeChip
  | .computeCrc _ _ => .computeCrc
  | .transceive _ => .transceive
  | .reqaFraming => .reqa
  | .reqaRestore => .reqa
  | .anticollision => .anticollision
  | .storeUidb => .anticollision
  | .storeSak => .select
  | .version => .version

/-- The operation of a waiting frame. -/
def Waiting.op : Waiting → OpName
  | .flushFifo => .flushFifo
  | .softReset => .softReset
  | .antennaOn => .antennaOn
  | .initSoftReset => .initializeChip
  | .initAntenna => .initializeChip
  | .computeCrc _ => .computeCrc
  | .transceive => .transceive
  | .reqa => .reqa
  | .anticollision => .anticollision
  | .selectCrc _ => .select
  | .selectExchange _ => .select
  | .readUidReqa => .readUid
  | .readUidAnticoll => .readUid
  | .readUidSelect => .readUid
  | .isCardPresentInit => .isCardPresent
  | .isCardPresentReqa => .isCardPresent
  | .readUidHexInit => .readUidHex
  | .readUidHexUid => .readUidHex
  | .versionInit => .version
  | .cardFrame _ => .cardFrame

/-- The operation a waiting frame waits for. -/
def Waiting.awaits : Waiting → OpName
  | .flushFifo => .setBits
  | .softReset => .pollUntil
  | .antennaOn => .setBits
  | .initSoftReset => .softReset
  | .initAntenna => .antennaOn
  | .computeCrc _ => .pollUntil
  | .transceive => .pollUntil
  | .reqa => .transceive
  | .anticollision => .transceive
  | .selectCrc _ => .computeCrc
  | .selectExchange _ => .transceive
  | .readUidReqa => .reqa
  | .readUidAnticoll => .anticollision
  | .readUidSelect => .select
  | .isCardPresentInit => .initializeChip
  | .isCardPresentReqa => .reqa
  | .readUidHexInit => .initializeChip
  | .readUidHexUid => .readUid
  | .versionInit => .initializeChip
  | .cardFrame _ => .transceive

/-- Each caller waits for the operation above it; the outermost operation is not pollUntil, which "is not
selectable on its own" (R12). -/
def callersOk : OpName → List Waiting → Bool
  | op, [] => op != .pollUntil
  | op, w :: ws => w.awaits == op && callersOk w.op ws

/-- The poll a waiting frame makes (R120). -/
def Waiting.poll (c : Config) : Waiting → Option PollArgs
  | .softReset => some (resetPoll c)
  | .computeCrc _ => some (crcPoll c)
  | .transceive => some (xcvPoll c)
  | _ => none

/-- The loop index of a top frame is inside its loop, RXBUF holds the bytes drained so far, a reply that is taken is
long enough, and a poll is the one its caller makes. -/
def topOk (q : Sequence) (s : State) : Bool :=
  match q.top with
  | .computeCrc bytes (.c2 i) => decide (i < bytes.length)
  | .transceive (.x4 i) => decide (i < s.txbuf.length)
  | .transceive (.x14 i n) => decide (i < n) && decide (n ≤ 127) && decide (i ≤ s.res.rxbuf.length)
  | .transceive (.x15 n) => decide (n ≤ 127) && decide (n ≤ s.res.rxbuf.length)
  | .transceive (.success n _) => decide (n ≤ 127) && decide (n ≤ s.res.rxbuf.length)
  | .storeUidb => anticollOk s.res
  | .storeSak => selectOk s.res
  | .poll a _ => q.callers.head?.bind (Waiting.poll s.config) == some a
  | _ => true

/-- SEQ is a value of R27. -/
def seqOk (s : State) : Bool :=
  match s.seq with
  | none => true
  | some q => callersOk q.top.op q.callers && topOk q s

end Sys2Proof.Machine
end

