-- ==== Sys2Proof/Machine/AnticollisionSelect.lean ====
section
/-! DEFINITION. The meanings of reqa, anticollision, select and readUid (44_anticollision_select.md R150 to R155). -/

namespace Sys2Proof.Machine

/-- reqa: framing 7, one exchange of the REQA frame, framing 0, and whether at least 2 bytes came back (R150). -/
def execReqa (s : State) : Host.Outcome State Fault Refusal := start .reqaFraming [] s

/-- anticollision: framing 0, one exchange, the first five bytes of the reply into UIDB (R151). -/
def execAnticollision (s : State) : Host.Outcome State Fault Refusal := start .anticollision [] s

/-- select: CRC of the 7-byte frame, one exchange of the 9-byte frame, byte 0 of the reply into SAKR (R152). -/
def execSelect (u : Uidb) (s : State) : Host.Outcome State Fault Refusal :=
  start (.computeCrc (selectHead u) .c0) [.selectCrc u] s

/-- readUid: reqa, anticollision, select; a failure at any step ends the chain (R153). -/
def execReadUid (s : State) : Host.Outcome State Fault Refusal := start .reqaFraming [.readUidReqa] s

end Sys2Proof.Machine
end

