-- ==== Sys2Proof/Machine/BusFormats.lean ====
section
/-! DEFINITION. The meanings of the two bus transactions issued alone, to the device at ADDR (20_memory.md R50 to R53; 30_encoding.md R80, R81; notes/assumptions/7.md). -/

namespace Sys2Proof.Machine

/-- BUS-W: one write transaction, payload register address then value (R51, R80). -/
def execBusWrite (regaddr value : Byte) (s : State) : Host.Outcome State Fault Refusal :=
  start (.busWrite regaddr value) [] s

/-- BUS-R: one read transaction, its byte the result (R52, R81). -/
def execBusRead (regaddr : Byte) (s : State) : Host.Outcome State Fault Refusal :=
  start (.busRead regaddr) [] s

end Sys2Proof.Machine
end

