-- ==== Sys2Proof/Machine/CardFrames.lean ====
section
/-! DEFINITION. The meanings of the card frames issued alone: one exchange of the frame with its own valid-bit count (30_encoding.md R84 to R87; notes/assumptions/7.md, 8.md). -/

namespace Sys2Proof.Machine

/-- PICC.REQA: `[0x26]` with 7 valid bits (R85). -/
def execPiccReqa (s : State) : Host.Outcome State Fault Refusal :=
  start (.transceive .x0) [.cardFrame .reqa] (s.setTxf reqaFrame 7)

/-- PICC.WUPA: `[0x52]` with 7 valid bits. DEDUCED (notes/assumptions/8.md): R84 lists the frame and says no
operation sends it; R19 and R22 give it 7 bits. -/
def execPiccWupa (s : State) : Host.Outcome State Fault Refusal :=
  start (.transceive .x0) [.cardFrame .wupa] (s.setTxf wupaFrame 7)

/-- PICC.ANTICOLL-CL1: `[0x93, 0x20]` with full bytes (R86). -/
def execPiccAnticollCl1 (s : State) : Host.Outcome State Fault Refusal :=
  start (.transceive .x0) [.cardFrame .anticollCl1] (s.setTxf anticollFrame 0)

/-- PICC.SELECT-CL1: `[0x93, 0x70, UID0..3, BCC, CRC low, CRC high]` with full bytes (R87). -/
def execPiccSelectCl1 (u : Uidb) (crcLo crcHi : Byte) (s : State) : Host.Outcome State Fault Refusal :=
  start (.transceive .x0) [.cardFrame .selectCl1] (s.setTxf (selectFrame u crcLo crcHi) 0)

end Sys2Proof.Machine
end

