-- ==== Sys2Proof/Machine/CommandBytes.lean ====
section
/-! DEFINITION. The meanings of the four command bytes issued alone: "one byte, written whole to register 0x01 with BUS-W" (30_encoding.md R82, R83; notes/assumptions/7.md). -/

namespace Sys2Proof.Machine

/-- Idle, 0x00 (R83). -/
def execCmdIdle (s : State) : Host.Outcome State Fault Refusal := start (.command .idle) [] s

/-- CalcCRC, 0x03 (R83). -/
def execCmdCalcCrc (s : State) : Host.Outcome State Fault Refusal := start (.command .calcCrc) [] s

/-- Transceive, 0x0C (R83). -/
def execCmdTransceive (s : State) : Host.Outcome State Fault Refusal := start (.command .transceive) [] s

/-- SoftReset, 0x0F (R83). -/
def execCmdSoftReset (s : State) : Host.Outcome State Fault Refusal := start (.command .softReset) [] s

end Sys2Proof.Machine
end

