-- ==== Sys2Proof/Machine/CrcAdapter.lean ====
section
/-! DEFINITION. The meaning of computeCrc (42_crc_adapter.md R130 to R132). -/

namespace Sys2Proof.Machine

/-- computeCrc: flush, load, CalcCRC, bounded wait, read the two result bytes, high first (R130). -/
def execComputeCrc (bytes : List Byte) (s : State) : Host.Outcome State Fault Refusal :=
  start (.computeCrc bytes .c0) [] s

end Sys2Proof.Machine
end

