-- ==== Sys2Proof/Machine/HostSurface.lean ====
section
/-! DEFINITION. The meanings of toHex, isCardPresent, readUidHex, version and setAddress (45_host_surface.md R160 to R165). -/

namespace Sys2Proof.Machine

/-- toHex: the text; no state, no transaction, no clock (R160). -/
def execToHex (bytes : List Byte) (s : State) : Host.Outcome State Fault Refusal :=
  startEnded (.text (hexText bytes)) s

/-- isCardPresent: initialize with the address currently configured when INIT = 0, then reqa (R161, R165). -/
def execIsCardPresent (s : State) : Host.Outcome State Fault Refusal :=
  if s.init then start .reqaFraming [.isCardPresentReqa] s
  else startInit s.addr.toNat [.isCardPresentInit] s

/-- readUidHex: initialize when INIT = 0, then readUid, then the hex text of the 4 UID bytes (R162, R165). -/
def execReadUidHex (s : State) : Host.Outcome State Fault Refusal :=
  if s.init then start .reqaFraming [.readUidReqa, .readUidHexUid] s
  else startInit s.addr.toNat [.readUidHexInit] s

/-- version: initialize when INIT = 0, then `RD(0x37)` (R163, R165). -/
def execVersion (s : State) : Host.Outcome State Fault Refusal :=
  if s.init then start .version [] s
  else startInit s.addr.toNat [.versionInit] s

/-- setAddress: `ADDR <- addr & 0x7F`; no transaction, INIT untouched (R164, R204). -/
def execSetAddress (addr : Nat) (s : State) : Host.Outcome State Fault Refusal :=
  startEnded .done (s.setAddr (maskAddr addr))

end Sys2Proof.Machine
end

