-- ==== Sys2Proof/Machine/RegisterAccess.lean ====
section
/-! DEFINITION. The meanings of writeRegister, readRegister, setBits and clearBits (40_register_access.md R110 to R114). -/

namespace Sys2Proof.Machine

/-- writeRegister: one `WR(addr, value)`; any address and value is forwarded unchanged (R110; 93 U9). -/
def execWriteRegister (addr value : Byte) (s : State) : Host.Outcome State Fault Refusal :=
  start (.writeRegister addr value) [] s

/-- readRegister: one `RD(addr)`; the byte is the result, unchanged (R111). -/
def execReadRegister (addr : Byte) (s : State) : Host.Outcome State Fault Refusal :=
  start (.readRegister addr) [] s

/-- setBits: `v <- RD(addr); WR(addr, v | mask)` (R112). -/
def execSetBits (addr mask : Byte) (s : State) : Host.Outcome State Fault Refusal :=
  start (.setBits addr mask .read) [] s

/-- clearBits: `v <- RD(addr); WR(addr, v & (0xFF ^ mask))` (R113). -/
def execClearBits (addr mask : Byte) (s : State) : Host.Outcome State Fault Refusal :=
  start (.clearBits addr mask .read) [] s

end Sys2Proof.Machine
end

