-- ==== Sys2Proof/Machine/ResetAntenna.lean ====
section
/-! DEFINITION. The meanings of softReset, flushFifo, antennaOn and initialize (41_reset_antenna.md R121 to R124). -/

namespace Sys2Proof.Machine

/-- softReset: the command, the settling pause, the best-effort poll (R121). -/
def execSoftReset (s : State) : Host.Outcome State Fault Refusal := start (.softReset .command) [] s

/-- flushFifo: `setBits(0x0A, 0x80)` (R122). -/
def execFlushFifo (s : State) : Host.Outcome State Fault Refusal :=
  start (.setBits Reg.fifoLevel Mask.fifoFlush .read) [.flushFifo] s

/-- antennaOn: read 0x14; unless both antenna bits are set, `setBits(0x14, 0x03)` (R123). -/
def execAntennaOn (s : State) : Host.Outcome State Fault Refusal := start .antennaOn [] s

/-- initialize: ADDR, softReset, the six writes, antennaOn, INIT (R124). It never reads INIT. -/
def execInitializeChip (address : Nat) (s : State) : Host.Outcome State Fault Refusal := startInit address [] s

end Sys2Proof.Machine
end

