-- ==== Sys2Proof/Machine/Transceive.lean ====
section
/-! DEFINITION. The meaning of transceive (43_transceive.md R140 to R146). -/

namespace Sys2Proof.Machine

/-- transceive: one exchange of `frame`, its last byte shortened to `validBits` when that is 1 to 7 (R140). A
count above 7 "is refused before any transaction" (R146, R94 b); the empty frame is admitted (R146). -/
def execTransceive (frame : List Byte) (validBits : Byte) (s : State) : Host.Outcome State Fault Refusal :=
  if validBits.toNat ≤ 7 then start (.transceive .x0) [] (s.setTxf frame (validBits.setWidth 3))
  else .refused .validBitsAboveSeven

end Sys2Proof.Machine
end

