-- ==== Sys2Proof/Machine/Dispatch.lean ====
section
/-! DEFINITION. One arm per instruction. -/

namespace Sys2Proof.Machine

def exec (i : Instr) (s : State) : Host.Outcome State Fault Refusal :=
  match i with
  | .writeRegister addr value => Sys2Proof.Machine.execWriteRegister addr value s
  | .readRegister addr => Sys2Proof.Machine.execReadRegister addr s
  | .setBits addr mask => Sys2Proof.Machine.execSetBits addr mask s
  | .clearBits addr mask => Sys2Proof.Machine.execClearBits addr mask s
  | .softReset => Sys2Proof.Machine.execSoftReset s
  | .flushFifo => Sys2Proof.Machine.execFlushFifo s
  | .antennaOn => Sys2Proof.Machine.execAntennaOn s
  | .initializeChip address => Sys2Proof.Machine.execInitializeChip address s
  | .computeCrc bytes => Sys2Proof.Machine.execComputeCrc bytes s
  | .transceive frame validBits => Sys2Proof.Machine.execTransceive frame validBits s
  | .reqa => Sys2Proof.Machine.execReqa s
  | .anticollision => Sys2Proof.Machine.execAnticollision s
  | .select uidb => Sys2Proof.Machine.execSelect uidb s
  | .readUid => Sys2Proof.Machine.execReadUid s
  | .toHex bytes => Sys2Proof.Machine.execToHex bytes s
  | .isCardPresent => Sys2Proof.Machine.execIsCardPresent s
  | .readUidHex => Sys2Proof.Machine.execReadUidHex s
  | .version => Sys2Proof.Machine.execVersion s
  | .setAddress addr => Sys2Proof.Machine.execSetAddress addr s
  | .cmdIdle => Sys2Proof.Machine.execCmdIdle s
  | .cmdCalcCrc => Sys2Proof.Machine.execCmdCalcCrc s
  | .cmdTransceive => Sys2Proof.Machine.execCmdTransceive s
  | .cmdSoftReset => Sys2Proof.Machine.execCmdSoftReset s
  | .busWrite regaddr value => Sys2Proof.Machine.execBusWrite regaddr value s
  | .busRead regaddr => Sys2Proof.Machine.execBusRead regaddr s
  | .piccReqa => Sys2Proof.Machine.execPiccReqa s
  | .piccWupa => Sys2Proof.Machine.execPiccWupa s
  | .piccAnticollCl1 => Sys2Proof.Machine.execPiccAnticollCl1 s
  | .piccSelectCl1 uidb crcLo crcHi => Sys2Proof.Machine.execPiccSelectCl1 uidb crcLo crcHi s

end Sys2Proof.Machine
end

