-- ==== Sys2Proof/Machine/HostPort.lean ====
section
/-! DEFINITION. The host port: how the next word is fetched, and where the opcode table's word is placed to be fetched next (60_exceptions.md R187; notes/assumptions/17.md). -/

namespace Sys2Proof.Machine

/-- The next word at the host port and the words after it. -/
def fetchRequest (s : State) : Option (Request × List Request) :=
  match s.requests with
  | [] => none
  | r :: rest => some (r, rest)

/-- `s` with a word first at the host port and no operation in progress, so that the next step takes it. -/
def placeRequest (s : State) (r : Request) : State := (s.setRequests (r :: s.requests)).setSeq none

/-- An operation in progress makes one step (R16), at a SEQ value of R27; any other SEQ value faults. -/
def stepBusy (s : State) : Host.Outcome State Fault Refusal :=
  if seqOk s then .next (oneStep s) else .fault .sequenceIllFormed

/-- The environment's next answer alone is ready. -/
def firstAnswer (s : State) : State := s.setAnswers (s.answers.take 1)

/-- What a meaning does in one step of the block (R16): it sees the environment's next answer alone, and the answers
after it stay ready. -/
def onFirstAnswer (meaning : State → Host.Outcome State Fault Refusal) (s : State) : Host.Outcome State Fault Refusal :=
  match meaning (firstAnswer s) with
  | .next t => .next (t.setAnswers (t.answers ++ s.answers.drop 1))
  | .fault f => .fault f
  | .refused r => .refused r

end Sys2Proof.Machine
end

