-- ==== Sys2Proof/Machine/Step.lean ====
section
/-! DEFINITION. One step of the machine. -/

namespace Sys2Proof.Machine

/-- One step of the block (R16). With an operation in progress it is the operation's next primitive or assignment.
With SEQ = IDLE the next word of the host port is taken and its operation makes its first step (R187); with no word
waiting, the block does nothing (R18). -/
def step (s : State) : Host.Outcome State Fault Refusal :=
  match s.seq with
  | some _ => stepBusy s
  | none =>
    match fetchRequest s with
    | none => .next s
    | some (r, rest) =>
      match decode r with
      | .error e => .refused (.undecodable e)
      | .ok i => onFirstAnswer (exec i) (s.setRequests rest)

/-- `s` with the opcode table's word `w` of `nbits` bits stored where `step` fetches its next instruction. -/
def State.withFetchWord (s : State) (nbits w : Nat) : State := placeRequest s (tableRequest nbits w)

end Sys2Proof.Machine
end

