-- ==== Sys2Proof/Machine/Scripts.lean ====
section
/-! DEFINITION. The vocabulary of the claims: what the environment answers in a whole run of an operation, and the state the rules give after it. Written with the spec's own numbers from the pseudocode of R120 to R153, independently of the phase tables. -/

namespace Sys2Proof.Machine

/-! ### Steps played in order -/

/-- The state a primitive leaves, completed or failed. -/
def Performed.state : Performed → State
  | .replied _ s => s
  | .failed s => s

/-- The state after these primitives were performed with these answers, an assignment standing for its passing of
time. Only the ports and the environment change (trace, chip record, clock, ticks). -/
def played : List (Prim × Answer) → State → State
  | [], s => s
  | x :: xs, s => played xs (perform x.1 x.2 s).state

/-- The answers of a script, in order. -/
def answersOf (script : List (Prim × Answer)) : List Answer := script.map (·.2)

/-- The step is a transaction and the environment makes it fail; `Now()`, `Pause(n)` and an assignment cannot (R53). -/
def Prim.faults : Prim → Answer → Bool
  | .wr _ _ _, a => a.fails
  | .rd _, a => a.fails
  | .now, _ => false
  | .pause _, _ => false
  | .assign, _ => false

/-- No transaction of a script fails. -/
def noFault (script : List (Prim × Answer)) : Bool := script.all fun x => !x.1.faults x.2

/-- The environment's next answers are those of the script, then `rest`, and no operation is in progress. -/
def readyFor (script : List (Prim × Answer)) (rest : List Answer) (s : State) : Prop :=
  s.seq = none ∧ s.answers = answersOf script ++ rest

/-- The state of the host port and the environment when an operation has returned `r`: SEQ is IDLE, `rest`
is still ready. -/
def ended (r : Result) (rest : List Answer) (s : State) : State := endOperation r (s.setAnswers rest)

/-- The state after an operation that only used the bus ended with `r`: its events, the milliseconds that
passed, how many steps it took, and the chip record. Every register of the block is as it was. -/
def afterBus (events : List Event) (ms count : Nat) (chip : Chip) (r : Result) (rest : List Answer) (s : State) : State :=
  { s with trace := s.trace ++ events, clock := s.clock + ms, ticks := s.ticks + count, chip := chip,
           result := some r, answers := rest }

/-! ### pollUntil (R120)

A poll is given by the register it reads, the test that ends it (`hit`) and its limit; the operations below give
each of its three uses in the spec's numbers. -/

/-- One turn of the loop that neither hits nor times out: the read, the clock sample, the pause. -/
structure PollTurn where
  read  : Answer
  now   : Answer
  pause : Answer
deriving DecidableEq, Repr

/-- The last turn, and the assignment to PV. -/
inductive PollEnd where
  | hit (read assign : Answer)
  | timeout (read now assign : Answer)
deriving DecidableEq, Repr

/-- A whole poll. -/
structure PollRun where
  start  : Answer
  misses : List PollTurn
  last   : PollEnd
deriving DecidableEq, Repr

namespace PollRun

/-- `RD(reg)`, `Now()`, `Pause(POLL_INTERVAL_MS)`. -/
def turnScript (reg : Byte) (c : Config) (t : PollTurn) : List (Prim × Answer) :=
  [(.rd reg, t.read), (.now, t.now), (.pause c.pollIntervalMs, t.pause)]

/-- The steps of the last turn. -/
def lastScript (reg : Byte) : PollEnd → List (Prim × Answer)
  | .hit r v => [(.rd reg, r), (.assign, v)]
  | .timeout r n v => [(.rd reg, r), (.now, n), (.assign, v)]

/-- All steps of the poll. -/
def script (reg : Byte) (c : Config) (p : PollRun) : List (Prim × Answer) :=
  (.now, p.start) :: (p.misses.flatMap (turnScript reg c) ++ lastScript reg p.last)

/-- The verdict. -/
def verdict (p : PollRun) : Verdict :=
  match p.last with
  | .hit _ _ => .hit
  | .timeout _ _ _ => .timeout

/-- The turns are as R120 says when `e` milliseconds have passed since T0: a missing read and an elapsed time
not above the limit go on, a read that meets the condition hits, a missing read and an elapsed time above
the limit time out. -/
def turnsOk (hit : Byte → Bool) (limit interval : Nat) : Nat → List PollTurn → PollEnd → Bool
  | _, [], .hit r _ => hit r.byte
  | e, [], .timeout r n _ => !hit r.byte && decide (limit < e + r.elapsed + n.elapsed)
  | e, t :: ts, l =>
    !hit t.read.byte && decide (e + t.read.elapsed + t.now.elapsed ≤ limit)
      && turnsOk hit limit interval (e + t.read.elapsed + t.now.elapsed + (interval + t.pause.elapsed)) ts l

/-- The whole poll is as R120 says. -/
def ok (hit : Byte → Bool) (limit : Nat) (c : Config) (p : PollRun) : Bool := turnsOk hit limit c.pollIntervalMs 0 p.misses p.last

/-- After the poll: T0 is the first clock sample, PV the verdict (R28). -/
def after (reg : Byte) (c : Config) (p : PollRun) (s : State) : State :=
  ((played (p.script reg c) s).setT0 (s.clock + p.start.elapsed)).setPv p.verdict

end PollRun

/-! ### softReset, antennaOn, initialize (R121, R123, R124) -/

/-- softReset. -/
structure SoftResetRun where
  command : Answer
  settle  : Answer
  poll    : PollRun
deriving DecidableEq, Repr

namespace SoftResetRun

def headScript (c : Config) (x : SoftResetRun) : List (Prim × Answer) :=
  [(.wr 0x01 0x0F, x.command), (.pause c.tSettleMs, x.settle)]

def script (c : Config) (x : SoftResetRun) : List (Prim × Answer) :=
  x.headScript c ++ x.poll.script 0x01 c

/-- R120's first use: CLEAR of SOFTRESET_BUSY_MASK, T_RESET_MS. -/
def ok (c : Config) (x : SoftResetRun) : Bool :=
  x.poll.ok (fun v => v &&& c.softResetBusyMask == 0) c.tResetMs c

def after (c : Config) (x : SoftResetRun) (s : State) : State :=
  x.poll.after 0x01 c (played (x.headScript c) s)

end SoftResetRun

/-- antennaOn: both bits read as set, or not. -/
inductive AntennaRun where
  | alreadyOn (read : Answer)
  | turnedOn (read readAgain write : Answer)
deriving DecidableEq, Repr

namespace AntennaRun

def script : AntennaRun → List (Prim × Answer)
  | .alreadyOn r => [(.rd 0x14, r)]
  | .turnedOn r v w => [(.rd 0x14, r), (.rd 0x14, v), (.wr 0x14 (v.byte ||| 0x03) 0x03, w)]

def ok : AntennaRun → Bool
  | .alreadyOn r => r.byte &&& 0x03 == 0x03
  | .turnedOn r _ _ => r.byte &&& 0x03 != 0x03

end AntennaRun

/-- initialize. -/
structure InitRun where
  address    : Answer
  reset      : SoftResetRun
  tmode      : Answer
  tprescaler : Answer
  treloadHi  : Answer
  treloadLo  : Answer
  txAsk      : Answer
  mode       : Answer
  antenna    : AntennaRun
  flag       : Answer
deriving DecidableEq, Repr

namespace InitRun

/-- The six plain writes, then antennaOn, then the assignment to INIT. -/
def setupScript (c : Config) (x : InitRun) : List (Prim × Answer) :=
  [(.wr 0x2A c.tmodeVal, x.tmode), (.wr 0x2B c.tprescalerVal, x.tprescaler), (.wr 0x2C c.treloadHiVal, x.treloadHi),
   (.wr 0x2D c.treloadLoVal, x.treloadLo), (.wr 0x15 c.txAskVal, x.txAsk), (.wr 0x11 c.modeVal, x.mode)]
    ++ x.antenna.script ++ [(.assign, x.flag)]

/-- The assignment to ADDR, softReset, and the rest. -/
def script (c : Config) (x : InitRun) : List (Prim × Answer) :=
  (.assign, x.address) :: (x.reset.script c ++ x.setupScript c)

def ok (c : Config) (x : InitRun) : Bool := x.reset.ok c && x.antenna.ok

/-- After `initialize(address)`: ADDR and INIT (R124), T0 and PV of the soft-reset poll. -/
def after (c : Config) (address : Nat) (x : InitRun) (s : State) : State :=
  (played (x.setupScript c)
    (x.reset.after c ((played [(.assign, x.address)] s).setAddr (BitVec.ofNat 7 (address % 128))))).setInit true

end InitRun

/-! ### computeCrc (R130) -/

/-- computeCrc. -/
structure CrcRun where
  level   : Answer
  flush   : Answer
  loads   : List Answer
  command : Answer
  poll    : PollRun
  hi      : Answer
  lo      : Answer
deriving DecidableEq, Repr

/-- Every byte of a sequence written into the FIFO register, in order. -/
def loadScript (bytes : List Byte) (loads : List Answer) : List (Prim × Answer) :=
  (bytes.zip loads).map fun x => (.wr 0x09 x.1, x.2)

namespace CrcRun

def headScript (bytes : List Byte) (x : CrcRun) : List (Prim × Answer) :=
  [(.rd 0x0A, x.level), (.wr 0x0A (x.level.byte ||| 0x80) 0x80, x.flush)] ++ loadScript bytes x.loads
    ++ [(.wr 0x01 0x03, x.command)]

def script (c : Config) (bytes : List Byte) (x : CrcRun) : List (Prim × Answer) :=
  x.headScript bytes ++ x.poll.script 0x05 c ++ [(.rd 0x21, x.hi), (.rd 0x22, x.lo)]

/-- R120's second use: SET of 0x04, T_CRC_MS; a load for every byte. -/
def ok (c : Config) (bytes : List Byte) (x : CrcRun) : Bool :=
  decide (x.loads.length = bytes.length) && x.poll.ok (fun v => v &&& 0x04 != 0) c.tCrcMs c

/-- After computeCrc: CRC_HI and CRC_LO hold the bytes read from 0x21 and 0x22, on either verdict. -/
def after (c : Config) (bytes : List Byte) (x : CrcRun) (s : State) : State :=
  ((played [(.rd 0x21, x.hi), (.rd 0x22, x.lo)] (x.poll.after 0x05 c (played (x.headScript bytes) s))).setCrcHi
    x.hi.byte).setCrcLo x.lo.byte

end CrcRun

/-! ### transceive (R140) -/

/-- The three ways transceive ends (R141). -/
inductive XcvEnd where
  | timeout (framingRead framingWrite assign : Answer)
  | frameError (error assign : Answer)
  | success (error level : Answer) (drains : List Answer) (control assign : Answer)
deriving DecidableEq, Repr

/-- transceive. -/
structure XcvRun where
  idle      : Answer
  clear     : Answer
  level     : Answer
  flush     : Answer
  loads     : List Answer
  framing   : Answer
  command   : Answer
  sendRead  : Answer
  sendWrite : Answer
  poll      : PollRun
  ending    : XcvEnd
deriving DecidableEq, Repr

namespace XcvRun

/-- Steps 1 to 4. -/
def headScript (c : Config) (frame : List Byte) (vb : ValidBits) (x : XcvRun) : List (Prim × Answer) :=
  [(.wr 0x01 0x00, x.idle), (.wr 0x04 c.comIrqClearVal, x.clear), (.rd 0x0A, x.level),
   (.wr 0x0A (x.level.byte ||| 0x80) 0x80, x.flush)] ++ loadScript frame x.loads ++
  [(.wr 0x0D (vb.setWidth 8), x.framing), (.wr 0x01 0x0C, x.command), (.rd 0x0D, x.sendRead),
   (.wr 0x0D (x.sendRead.byte ||| 0x80) 0x80, x.sendWrite)]

/-- What follows the poll: the clearing of start-send (step 5), the error read alone (step 6), or the error
read and the drain (step 7); then the assignment to RES. -/
def endScript : XcvEnd → List (Prim × Answer)
  | .timeout r w v => [(.rd 0x0D, r), (.wr 0x0D (r.byte &&& 0x7F) 0x80, w), (.assign, v)]
  | .frameError e v => [(.rd 0x06, e), (.assign, v)]
  | .success e n drains ctl v =>
    [(.rd 0x06, e), (.rd 0x0A, n)] ++ drains.map (fun d => (.rd 0x09, d)) ++ [(.rd 0x0C, ctl), (.assign, v)]

def script (c : Config) (frame : List Byte) (vb : ValidBits) (x : XcvRun) : List (Prim × Answer) :=
  x.headScript c frame vb ++ x.poll.script 0x04 c ++ endScript x.ending

/-- The ending is the one the answers give: the poll verdict first, then the error register (R141, R176);
exactly `RD(0x0A) & 0x7F` bytes are drained. -/
def endOk (v : Verdict) : XcvEnd → Bool
  | .timeout _ _ _ => v == .timeout
  | .frameError e _ => v == .hit && e.byte &&& 0x13 != 0
  | .success e n drains _ _ =>
    v == .hit && e.byte &&& 0x13 == 0 && decide (drains.length = (n.byte &&& 0x7F).toNat)

/-- R120's third use: SET of 0x30, any bit of it, T_XCV_MS; a load for every byte; the ending the answers give. -/
def ok (c : Config) (frame : List Byte) (x : XcvRun) : Bool :=
  decide (x.loads.length = frame.length) && x.poll.ok (fun v => v &&& 0x30 != 0) c.tXcvMs c
    && endOk x.poll.verdict x.ending

/-- The Exchange Result (R140, R142). -/
def result (x : XcvRun) : ExchangeResult :=
  match x.ending with
  | .success _ _ drains ctl _ => { ok := true, rxbuf := drains.map (·.byte), rxvb := (ctl.byte &&& 0x07).setWidth 3 }
  | _ => { ok := false, rxbuf := [], rxvb := 0 }

/-- After transceive: TXF holds its operands, RES the result, T0 and PV those of the poll. -/
def after (c : Config) (frame : List Byte) (vb : ValidBits) (x : XcvRun) (s : State) : State :=
  (played (endScript x.ending)
    (x.poll.after 0x04 c (played (x.headScript c frame vb) (s.setTxf frame vb)))).setRes x.result

end XcvRun

/-! ### reqa, anticollision, select, readUid (R150 to R153) -/

/-- reqa. -/
structure ReqaRun where
  framing  : Answer
  exchange : XcvRun
  restore  : Answer
deriving DecidableEq, Repr

namespace ReqaRun

def script (c : Config) (x : ReqaRun) : List (Prim × Answer) :=
  (.wr 0x0D 0x07, x.framing) :: (x.exchange.script c [0x26] 7 ++ [(.wr 0x0D 0x00, x.restore)])

def ok (c : Config) (x : ReqaRun) : Bool := x.exchange.ok c [0x26]

/-- Success: the exchange succeeded and at least 2 bytes came back. -/
def result (x : ReqaRun) : Bool := x.exchange.result.ok && decide (2 ≤ x.exchange.result.rxbuf.length)

def after (c : Config) (x : ReqaRun) (s : State) : State :=
  played [(.wr 0x0D 0x00, x.restore)] (x.exchange.after c [0x26] 7 (played [(.wr 0x0D 0x07, x.framing)] s))

end ReqaRun

/-- anticollision. -/
structure AnticollRun where
  framing  : Answer
  exchange : XcvRun
  /-- the assignment to UIDB, made on success only -/
  assign   : Answer
deriving DecidableEq, Repr

namespace AnticollRun

/-- The first five bytes of a successful reply of at least five bytes. -/
def result (x : AnticollRun) : Option Uidb :=
  match x.exchange.result with
  | { ok := true, rxbuf := u0 :: u1 :: u2 :: u3 :: bcc :: _, rxvb := _ } => some ⟨u0, u1, u2, u3, bcc⟩
  | _ => none

/-- The framing write and the exchange. -/
def headScript (c : Config) (x : AnticollRun) : List (Prim × Answer) :=
  (.wr 0x0D 0x00, x.framing) :: x.exchange.script c [0x93, 0x20] 0

def script (c : Config) (x : AnticollRun) : List (Prim × Answer) :=
  x.headScript c ++ if x.result.isSome then [(.assign, x.assign)] else []

def ok (c : Config) (x : AnticollRun) : Bool := x.exchange.ok c [0x93, 0x20]

/-- UIDB is written on success only. -/
def after (c : Config) (x : AnticollRun) (s : State) : State :=
  let t := x.exchange.after c [0x93, 0x20] 0 (played [(.wr 0x0D 0x00, x.framing)] s)
  match x.result with
  | some u => (played [(.assign, x.assign)] t).setUidb u
  | none => t

end AnticollRun

/-- select. -/
structure SelectRun where
  crc      : CrcRun
  exchange : XcvRun
  /-- the assignment to SAKR, made on success only -/
  assign   : Answer
deriving DecidableEq, Repr

namespace SelectRun

/-- `[0x93, 0x70] ++ UIDB`. -/
def head (u : Uidb) : List Byte := [0x93, 0x70, u.uid0, u.uid1, u.uid2, u.uid3, u.bcc]

/-- The nine bytes: the CRC low byte first, then the high byte. -/
def frame (u : Uidb) (x : SelectRun) : List Byte := head u ++ [x.crc.lo.byte, x.crc.hi.byte]

/-- The SAK: byte 0 of a successful reply of at least one byte. -/
def sak (x : SelectRun) : Option Byte :=
  match x.exchange.result with
  | { ok := true, rxbuf := b :: _, rxvb := _ } => some b
  | _ => none

/-- The CRC and the exchange. -/
def headScript (c : Config) (u : Uidb) (x : SelectRun) : List (Prim × Answer) :=
  x.crc.script c (head u) ++ x.exchange.script c (x.frame u) 0

def script (c : Config) (u : Uidb) (x : SelectRun) : List (Prim × Answer) :=
  x.headScript c u ++ if x.sak.isSome then [(.assign, x.assign)] else []

def ok (c : Config) (u : Uidb) (x : SelectRun) : Bool := x.crc.ok c (head u) && x.exchange.ok c (x.frame u)

/-- SAKR is written on success only. -/
def after (c : Config) (u : Uidb) (x : SelectRun) (s : State) : State :=
  let t := x.exchange.after c (x.frame u) 0 (x.crc.after c (head u) s)
  match x.sak with
  | some b => (played [(.assign, x.assign)] t).setSakr b
  | none => t

end SelectRun

/-- readUid: it ends after the first step that fails, or after select. -/
inductive ReadUidRun where
  | noCard (r : ReqaRun)
  | noUid (r : ReqaRun) (a : AnticollRun)
  | selecting (r : ReqaRun) (a : AnticollRun) (u : Uidb) (x : SelectRun)
deriving DecidableEq, Repr

namespace ReadUidRun

def script (c : Config) : ReadUidRun → List (Prim × Answer)
  | .noCard r => r.script c
  | .noUid r a => r.script c ++ a.script c
  | .selecting r a u x => r.script c ++ (a.script c ++ x.script c u)

def ok (c : Config) : ReadUidRun → Bool
  | .noCard r => r.ok c && !r.result
  | .noUid r a => r.ok c && r.result && a.ok c && a.result == none
  | .selecting r a u x => r.ok c && r.result && a.ok c && a.result == some u && x.ok c u

/-- UIDB[0..3], or none. -/
def result : ReadUidRun → Option Uid
  | .noCard _ => none
  | .noUid _ _ => none
  | .selecting _ _ u x => if x.sak.isSome then some ⟨u.uid0, u.uid1, u.uid2, u.uid3⟩ else none

def after (c : Config) (y : ReadUidRun) (s : State) : State :=
  match y with
  | .noCard r => r.after c s
  | .noUid r a => a.after c (r.after c s)
  | .selecting r a u x => x.after c u (a.after c (r.after c s))

end ReadUidRun

end Sys2Proof.Machine
end

