-- ==== Sys2Proof/Safety.lean ====
section
/-! DEFINITION. What a good state is, and what a safe step is, what an instruction leaves unchanged, and which transactions the block makes by itself, in the terms the claims use (10_state.md R22, R23, R27, R30; 30_encoding.md R83, R85 to R87, R92). -/

namespace Sys2Proof.Machine

/-! ### Steps in a row -/

/-- At most `n` steps of the machine, as long as an operation is in progress. -/
def stepsWhileBusy : Nat → State → Host.Outcome State Fault Refusal
  | 0, s => .next s
  | n + 1, s =>
    match s.seq with
    | none => .next s
    | some _ =>
      match step s with
      | .next t => stepsWhileBusy n t
      | .fault f => .fault f
      | .refused r => .refused r

/-! ### Good states -/

/-- R23's invariants of an Exchange Result: a failed exchange is empty with count 0, and a reply has at most 127
bytes. RES meets them but from the first byte of a drain to the assignment after it, and after a BusFault between
(notes/assumptions/11.md). -/
def resOk (r : ExchangeResult) : Bool :=
  (r.ok || (r.rxbuf == [] && r.rxvb == 0)) && decide (r.rxbuf.length ≤ 127)

/-- While a protocol step waits for its exchange, TXF is that step's frame (R85 to R87, R150 to R152). -/
def callerFrameOk (s : State) : Waiting → Bool
  | .reqa => s.txbuf == [0x26] && s.txvb == 7
  | .anticollision => s.txbuf == [0x93, 0x20] && s.txvb == 0
  | .selectExchange u =>
    s.txbuf.take 7 == [0x93, 0x70, u.uid0, u.uid1, u.uid2, u.uid3, u.bcc] && decide (s.txbuf.length = 9) && s.txvb == 0
  | .cardFrame .reqa => s.txbuf == [0x26] && s.txvb == 7
  | .cardFrame .wupa => s.txbuf == [0x52] && s.txvb == 7
  | .cardFrame .anticollCl1 => s.txbuf == [0x93, 0x20] && s.txvb == 0
  | .cardFrame .selectCl1 => s.txbuf.take 2 == [0x93, 0x70] && decide (s.txbuf.length = 9) && s.txvb == 0
  | _ => true

/-- Every waiting frame of SEQ has its frame in TXF. -/
def framesOk (s : State) : Bool :=
  match s.seq with
  | none => true
  | some q => q.callers.all (callerFrameOk s)

/-- How many frames SEQ holds; IDLE holds none (R27). -/
def depth (s : State) : Nat :=
  match s.seq with
  | none => 0
  | some q => q.callers.length + 1

/-- The invariant of the machine: SEQ is a value of R27, TXF is the frame of the step in progress, RXBUF has at most
127 bytes (R23), and the chip record is in its canonical form. -/
def Inv (s : State) : Prop :=
  seqOk s = true ∧ framesOk s = true ∧ s.res.rxbuf.length ≤ 127 ∧ s.chip.wf = true

/-- A step is safe when it does not fault. -/
def StepSafe (s : State) : Prop := ∀ r, step s ≠ .fault r

/-! ### Frames -/

/-- The parameters and the words that wait at the host port are unchanged. -/
def keptPorts (s t : State) : Prop := t.config = s.config ∧ t.requests = s.requests

/-- ADDR and INIT are unchanged (R20, R21). -/
def keptPersistent (s t : State) : Prop := t.addr = s.addr ∧ t.init = s.init

/-- TXF and RES are unchanged (R22, R23). -/
def keptExchange (s t : State) : Prop := t.txbuf = s.txbuf ∧ t.txvb = s.txvb ∧ t.res = s.res

/-- CRC_HI and CRC_LO are unchanged (R24). -/
def keptCrc (s t : State) : Prop := t.crcHi = s.crcHi ∧ t.crcLo = s.crcLo

/-- T0 and PV are unchanged (R28). -/
def keptPoll (s t : State) : Prop := t.t0 = s.t0 ∧ t.pv = s.pv

/-- Every byte of the register space is unchanged except the registers `regs` of the device at `dev`, and so are
the FIFO, the pending flags and the reset of every other device. -/
def storesOnly (dev : DevAddr) (regs : List Byte) (s t : State) : Prop :=
  (∀ a, (∀ r ∈ regs, a ≠ Memory.key dev r) → Memory.read t.chip.regs a = Memory.read s.chip.regs a) ∧
    ∀ d, d ≠ dev → t.chip.staged d = s.chip.staged d ∧ t.chip.pendingFlags d = s.chip.pendingFlags d ∧
      t.chip.mayReset d = s.chip.mayReset d

/-- The registers computeCrc writes (R130), and 0x05, which its reads may change (R58). -/
def crcRegs : List Byte := [0x0A, 0x09, 0x01, 0x05]

/-- The registers an exchange and the framing writes around it write (R140, R150, R151), and 0x06, which its read may
change (R58). -/
def exchangeRegs : List Byte := [0x01, 0x04, 0x0A, 0x09, 0x0D, 0x06]

/-- All register addresses of a device: a command that resets it leaves none of them as it was (R30). -/
def everyReg : List Byte := (List.range 256).map (BitVec.ofNat 8)

/-- The registers a write of `v` to `addr` may leave with another value. -/
def changedBy (addr v : Byte) : List Byte :=
  if addr = 0x01 ∧ v ∉ [0x00, 0x03, 0x0C] then everyReg else [addr]

/-- The registers a read of `addr` may leave with another value: those of R58's last sentence. -/
def changedByRead (addr : Byte) : List Byte := if addr ∈ [0x04, 0x05, 0x06] then [addr] else []

/-! ### What the block's own sequences do on the bus (R30, R83) -/

/-- The registers of R30 the block writes. -/
def writtenByBlock : List Byte := [0x01, 0x04, 0x09, 0x0A, 0x0D, 0x11, 0x14, 0x15, 0x2A, 0x2B, 0x2C, 0x2D]

/-- The registers of R30 the block reads. -/
def readByBlock : List Byte := [0x01, 0x04, 0x05, 0x06, 0x09, 0x0A, 0x0C, 0x0D, 0x14, 0x21, 0x22, 0x37]

/-- A write R30 and R83 give the block: a register of R30 it writes, and to 0x01 one of the four commands. -/
def ownWrite (addr value : Byte) : Bool :=
  writtenByBlock.contains addr && (addr != 0x01 || [0x00, 0x03, 0x0C, 0x0F].contains value)

/-- An event of one of the block's own sequences. -/
def ownEvent : Event → Bool
  | .wr _ a v => ownWrite a v
  | .wrFailed _ a v => ownWrite a v
  | .rd _ a _ => readByBlock.contains a
  | .rdFailed _ a => readByBlock.contains a
  | .now _ => true
  | .pause _ => true

/-- The host chooses the register of these instructions (R94 c, 93 U9). -/
def hostChosen : Instr → Bool
  | .writeRegister _ _ => true
  | .readRegister _ => true
  | .setBits _ _ => true
  | .clearBits _ _ => true
  | .busWrite _ _ => true
  | .busRead _ => true
  | _ => false

/-- The top frame of one of the block's own sequences: its transactions are R30's. -/
def ownTop : Active → Bool
  | .writeRegister _ _ => false
  | .readRegister _ => false
  | .busWrite _ _ => false
  | .busRead _ => false
  | .clearBits _ _ _ => false
  | .setBits a m _ => (a == 0x0A && m == 0x80) || (a == 0x14 && m == 0x03)
  | .poll q _ => [0x01, 0x04, 0x05].contains q.reg
  | _ => true

/-! ### What an operation hands back -/

/-- The column "result" of R92's table, with the lengths R160 and R162 give and R23's bound. -/
def resultShape : Instr → Result → Bool
  | .readRegister _, .byte _ => true
  | .busRead _, .byte _ => true
  | .version, .byte _ => true
  | .computeCrc _, .crc _ _ => true
  | .transceive _ _, .exchange r => resOk r
  | .piccReqa, .exchange r => resOk r
  | .piccWupa, .exchange r => resOk r
  | .piccAnticollCl1, .exchange r => resOk r
  | .piccSelectCl1 _ _ _, .exchange r => resOk r
  | .reqa, .flag _ => true
  | .select _, .flag _ => true
  | .isCardPresent, .flag _ => true
  | .anticollision, .uidb _ => true
  | .readUid, .uid _ => true
  | .toHex bytes, .text s => decide (s.length = 2 * bytes.length)
  | .readUidHex, .text s => decide (s.length = 0) || decide (s.length = 8)
  | .writeRegister _ _, .done => true
  | .setBits _ _, .done => true
  | .clearBits _ _, .done => true
  | .softReset, .done => true
  | .flushFifo, .done => true
  | .antennaOn, .done => true
  | .initializeChip _, .done => true
  | .setAddress _, .done => true
  | .cmdIdle, .done => true
  | .cmdCalcCrc, .done => true
  | .cmdTransceive, .done => true
  | .cmdSoftReset, .done => true
  | .busWrite _ _, .done => true
  | _, _ => false

/-! ### What carries nothing over -/

/-- `s` with the working registers of `u`, those of 10_state.md section 1.2. -/
def withWorking (s u : State) : State :=
  { s with txbuf := u.txbuf, txvb := u.txvb, res := u.res, crcHi := u.crcHi, crcLo := u.crcLo, uidb := u.uidb,
           sakr := u.sakr, t0 := u.t0, pv := u.pv }

end Sys2Proof.Machine
end

