-- ==== Sys2Proof/Certificates/Slice0/Obligations.lean ====
section
/-! DEFINITION. The statements for the provers, from the spec's numbered rules. A statement about an operation speaks of every state at SEQ = IDLE whose ready answers begin with the answers that operation uses, whatever they are; Machine/Scripts.lean says what they are and what state the rules give. What a state says of the chips is the model's record of the transactions, notes/assumptions/9.md and 24.md, unchanged by one that fails, 10.md. -/

open Sys2Proof Sys2Proof.Machine

/-! ### Encodings (30_encoding.md) -/

/-- Words of the opcode table decode to their rows: the codes and the fixed bytes are those of R80 to R87 and R92.
How operand bytes follow an OP code (the count before the frame in 0x50 07 26, base 256 in 0x33 01 A9) is the model's
choice, notes/assumptions/6.md, and so are the zero operand bytes of a table word, 17.md. -/
def Obligations.TableWordsDecodeToTheirRows : Prop :=
  decodeTableWord 8 0x10 = some (.writeRegister 0x00 0x00) ∧
  decode ⟨.host, [0x20, 0x0A, 0x80]⟩ = .ok (.setBits 0x0A 0x80) ∧
  decode ⟨.host, [0x33, 0x01, 0xA9]⟩ = .ok (.initializeChip 0x1A9) ∧
  decode ⟨.host, [0x40, 0x12, 0x34]⟩ = .ok (.computeCrc [0x12, 0x34]) ∧
  decode ⟨.host, [0x50, 0x07, 0x26]⟩ = .ok (.transceive [0x26] 0x07) ∧
  decode ⟨.host, [0x62, 0xDE, 0xAD, 0xBE, 0xEF, 0x22]⟩ = .ok (.select ⟨0xDE, 0xAD, 0xBE, 0xEF, 0x22⟩) ∧
  decode ⟨.host, [0x83, 0xA9]⟩ = .ok (.setAddress 0xA9) ∧
  decodeTableWord 8 0x82 = some .version ∧
  decodeTableWord 8 0x0C = some .cmdTransceive ∧
  decode ⟨.busWrite, [0x14, 0x83]⟩ = .ok (.busWrite 0x14 0x83) ∧
  decode ⟨.busRead, [0x37]⟩ = .ok (.busRead 0x37) ∧
  decodeTableWord 8 0x26 = some .piccReqa ∧
  decodeTableWord 16 0x9320 = some .piccAnticollCl1 ∧
  decode ⟨.picc, [0x93, 0x70, 0x04, 0x5A, 0x3C, 0x8E, 0xEC, 0x87, 0xE5]⟩ =
    .ok (.piccSelectCl1 ⟨0x04, 0x5A, 0x3C, 0x8E, 0xEC⟩ 0x87 0xE5)

/-- Decoding the word of a well-formed instruction gives it back, with every operand. The operand bytes of the
OP format are the model's choice (notes/assumptions/6.md). -/
def Obligations.DecodeOfEncodeIsTheInstruction : Prop :=
  ∀ i : Instr, i.wf = true → decode (encode i) = .ok i

/-- Every word with a meaning is the word of its instruction, but for the two operations with an address operand,
whose number has many byte strings. The operand bytes are the model's choice, notes/assumptions/6.md: an address operand
is a non-empty byte string in base 256, the high byte first, and transceive's count stands before its frame. -/
def Obligations.EncodeOfDecodeIsTheWord : Prop :=
  ∀ (r : Request) (i : Instr), decode r = .ok i →
    (encode i = r ∨ (∃ n, i = .initializeChip n) ∨ ∃ n, i = .setAddress n) ∧
      (∀ n, i = .initializeChip n → ∃ bs, bs ≠ [] ∧ r = ⟨.host, 0x33 :: bs⟩ ∧ natOfBytes bs = n) ∧
      ∀ n, i = .setAddress n → ∃ bs, bs ≠ [] ∧ r = ⟨.host, 0x83 :: bs⟩ ∧ natOfBytes bs = n

/-- What the decoder accepts is well formed: no operand outside its type gets through (R93, R94 b). -/
def Obligations.DecodedInstructionsAreWellFormed : Prop :=
  ∀ (r : Request) (i : Instr), decode r = .ok i → i.wf = true

/-- R94 (a), U13: a word whose OP code is outside R92's table is refused and changes nothing. -/
def Obligations.OpCodesOutsideTheTableAreRefused : Prop :=
  ∀ (op : Byte) (operands : List Byte) (rest : List Request) (s : State),
    op ∉ [0x10, 0x11, 0x20, 0x21, 0x30, 0x31, 0x32, 0x33, 0x40, 0x50, 0x60, 0x61, 0x62, 0x63, 0x70, 0x80, 0x81, 0x82, 0x83] →
    s.seq = none → s.requests = ⟨.host, op :: operands⟩ :: rest → step s = .refused (.undecodable .unknownOp)

/-- R94 (b), R146, U11: validBitsInLastByte above 7 is refused before any transaction, by the meaning and by the
decoder, to which the count is the byte before the frame (the model's choice, notes/assumptions/6.md). -/
def Obligations.ValidBitsAboveSevenAreRefused : Prop :=
  ∀ (frame : List Byte) (vb : Byte) (s : State), 7 < vb.toNat →
    decode ⟨.host, 0x50 :: vb :: frame⟩ = .error .validBitsAboveSeven ∧
      exec (.transceive frame vb) s = .refused .validBitsAboveSeven

/-! ### Steps -/

/-- With SEQ = IDLE and a word waiting, a step takes the first word out of the port (notes/assumptions/17.md) and makes
the first step of exactly the instruction it decodes to: on the next answer alone, the answers after it staying ready,
or on the free answer when none is ready. With an operation in progress, a step is its next primitive or assignment on
the next answer or the free one (R16; that a step is given its answer by a list is the model's choice, 2.md, and that
starting rides with the first primitive is 1.md). With SEQ = IDLE and no word waiting nothing happens (R18; deduced,
16.md). A word that does not decode, for whatever reason, is refused (deduced, 15.md); a SEQ value that no operation
builds faults (13.md). -/
def Obligations.StepRunsTheDecodedInstruction : Prop :=
  (∀ (s : State) (r : Request) (rest : List Request) (i : Instr), s.seq = none → s.requests = r :: rest →
    decode r = .ok i →
    (s.answers = [] → step s = exec i { s with requests := rest }) ∧
    ∀ (a : Answer) (as : List Answer) (t : State), s.answers = a :: as →
      exec i { s with requests := rest, answers := [a] } = .next t →
      step s = .next { t with answers := t.answers ++ as }) ∧
  (∀ (s : State) (q : Sequence), s.seq = some q → seqOk s = true →
    (s.answers = [] → step s = .next (primStep (freeAnswer s.ticks) s)) ∧
    ∀ (a : Answer) (as : List Answer), s.answers = a :: as → step s = .next (primStep a { s with answers := as })) ∧
  (∀ s : State, s.seq = none → s.requests = [] → step s = .next s) ∧
  (∀ (s : State) (r : Request) (rest : List Request) (e : DecodeError), s.seq = none → s.requests = r :: rest →
    decode r = .error e → step s = .refused (.undecodable e)) ∧
  ∀ s : State, s.seq ≠ none → seqOk s = false → step s = .fault .sequenceIllFormed

/-- A word of the opcode table placed at the host port is the next instruction to run, on the state as it was
with SEQ = IDLE: the next step is its first step, on the next answer or the free one (the model's loading convention,
notes/assumptions/17.md). -/
def Obligations.PlacedWordRunsNext : Prop :=
  ∀ (s : State) (nbits w : Nat) (i : Instr), decodeTableWord nbits w = some i →
    (s.answers = [] → step (s.withFetchWord nbits w) = exec i { s with seq := none }) ∧
    ∀ (a : Answer) (as : List Answer) (t : State), s.answers = a :: as →
      exec i { s with seq := none, answers := [a] } = .next t →
      step (s.withFetchWord nbits w) = .next { t with answers := t.answers ++ as }

/-- R187, U10: while an operation is in progress every operation is refused. -/
def Obligations.BusyBlockRefusesEveryOperation : Prop :=
  ∀ (i : Instr) (s : State) (q : Sequence), i.wf = true → s.seq = some q →
    exec i s = .refused .operationInProgress

/-- R180: with SEQ = IDLE every well-formed operation starts, in every state and whatever the environment does. -/
def Obligations.IdleBlockStartsEveryOperation : Prop :=
  ∀ (i : Instr) (s : State), i.wf = true → s.seq = none → ∃ t, exec i s = .next t

/-- R16: what an instruction does with `as` after the answer `a` is what the machine's steps do, one after the other:
its first step on `a`, then at most one step for each answer of `as`, as long as it is in progress. A step with no
answer ready is a step on the one free answer (notes/assumptions/1.md, 2.md). -/
def Obligations.AnswersSplitOverSteps : Prop :=
  (∀ (i : Instr) (s t : State) (a : Answer) (as : List Answer), Inv s → s.seq = none →
    exec i (s.setAnswers [a]) = .next t →
    exec i (s.setAnswers (a :: as)) = stepsWhileBusy as.length (t.setAnswers (t.answers ++ as))) ∧
  ∀ (s : State) (q : Sequence), s.seq = some q → step (s.setAnswers []) = step (s.setAnswers [freeAnswer s.ticks])

/-- R16, R20 to R28: one step of an operation in progress is one primitive, which leaves one event at its port, or one
internal assignment, which leaves none; and each register is written at its own phase only, with the value its rule
gives. Which assignments are phases of their own, and that a step which calls transceive writes TXF beside its WR or RD,
is the model's choice (notes/assumptions/12.md); that TXF takes the operands of the exchange called is deduced (22.md),
and so is that a drain writes RES.RXBUF byte by byte (11.md); that a step takes its answer from a list is the model's
choice (2.md). -/
def Obligations.EveryStepIsOnePrimitiveOrOneAssignment : Prop :=
  ∀ (s t : State) (q : Sequence) (a : Answer) (as : List Answer), Inv s → s.seq = some q → s.answers = a :: as →
    step s = .next t →
    t.answers = as ∧ t.config = s.config ∧ t.requests = s.requests ∧
    (primitive q.top s = .assign → t.trace = s.trace ∧ t.chip = s.chip ∧ t.clock = s.clock + a.elapsed) ∧
    (primitive q.top s ≠ .assign → ∃ e, t.trace = s.trace ++ [e]) ∧
    (t.addr = s.addr ∨ ∃ n, q.top = .initAddress n ∧ t.addr = BitVec.ofNat 7 (n % 128)) ∧
    (t.init = s.init ∨ q.top = .initFlag ∧ t.init = true) ∧
    (t.txbuf = s.txbuf ∧ t.txvb = s.txvb ∨ q.top = .reqaFraming ∧ t.txbuf = [0x26] ∧ t.txvb = 7 ∨
      q.top = .anticollision ∧ t.txbuf = [0x93, 0x20] ∧ t.txvb = 0 ∨
      ∃ bytes u ws, q = ⟨.computeCrc bytes .c6, .selectCrc u :: ws⟩ ∧
        t.txbuf = [0x93, 0x70, u.uid0, u.uid1, u.uid2, u.uid3, u.bcc, t.crcLo, t.crcHi] ∧ t.txvb = 0) ∧
    (t.res = s.res ∨
      (∃ i n, q.top = .transceive (.x14 i n) ∧ a.fails = false ∧ i < n ∧ n ≤ 127 ∧ t.res.ok = s.res.ok ∧
        t.res.rxvb = s.res.rxvb ∧ t.res.rxbuf[i]? = some a.byte ∧ ∀ j, j ≠ i → t.res.rxbuf[j]? = s.res.rxbuf[j]?) ∨
      q.top = .transceive .failure ∧ t.res = ⟨false, [], 0⟩ ∨
      ∃ n v, q.top = .transceive (.success n v) ∧ n ≤ 127 ∧ n ≤ s.res.rxbuf.length ∧
        t.res = ⟨true, s.res.rxbuf.take n, v⟩) ∧
    (t.crcHi = s.crcHi ∨ ∃ bytes, q.top = .computeCrc bytes .c5 ∧ t.crcHi = a.byte) ∧
    (t.crcLo = s.crcLo ∨ ∃ bytes, q.top = .computeCrc bytes .c6 ∧ t.crcLo = a.byte) ∧
    (t.uidb = s.uidb ∨ q.top = .storeUidb ∧
      ∃ rest, s.res.rxbuf = t.uidb.uid0 :: t.uidb.uid1 :: t.uidb.uid2 :: t.uidb.uid3 :: t.uidb.bcc :: rest) ∧
    (t.sakr = s.sakr ∨ q.top = .storeSak ∧ ∃ rest, s.res.rxbuf = t.sakr :: rest) ∧
    (t.t0 = s.t0 ∨ (∃ p, q.top = .poll p .p0) ∧ t.t0 = t.clock) ∧
    (t.pv = s.pv ∨ ∃ p v, q.top = .poll p (.verdict v) ∧ t.pv = v)

/-! ### Reset (70_reset_and_hazards.md) -/

/-- R190's three values with a number. That no word waits and the trace is empty is the model's choice
(notes/assumptions/17.md, 18.md). -/
def Obligations.ResetGivesAddrInitAndSeq : Prop :=
  State.reset.addr = 0x28 ∧ State.reset.init = false ∧ State.reset.seq = none ∧ State.reset.requests = [] ∧
    State.reset.trace = []

/-- The invariant holds after reset. SEQ = IDLE is R190's; that RXBUF is empty is the model's choice
(notes/assumptions/4.md), and so is the empty chip record (9.md). -/
def Obligations.ResetSatisfiesTheInvariant : Prop := Inv State.reset

/-! ### Register access (40_register_access.md) -/

/-- R110: writeRegister is one write transaction to the device at ADDR, payload address then value, for every
address; no state of the block is written. A failing transaction is a BusFault (R53); its line in the trace, and that it
leaves the chip record alone, are the model's choice (notes/assumptions/10.md). -/
def Obligations.WriteRegisterIsOneTransaction : Prop :=
  ∀ (addr value : Byte) (s : State) (a : Answer) (rest : List Answer), s.seq = none → s.answers = a :: rest →
    (a.fails = false → exec (.writeRegister addr value) s =
      .next (afterBus [.wr s.addr addr value] a.elapsed 1 (s.chip.written s.config s.addr addr value) .done rest s)) ∧
    (a.fails = true → exec (.writeRegister addr value) s =
      .next (afterBus [.wrFailed s.addr addr value] a.elapsed 1 s.chip .busFault rest s)) ∧
    (Event.wr s.addr addr value).payload = [addr, value]

/-- R111: readRegister is one read transaction to the device at ADDR; its result is the byte the chip returned.
A failing transaction is a BusFault (R53); its line in the trace, and that it leaves the chip record alone, are the
model's choice (notes/assumptions/10.md). -/
def Obligations.ReadRegisterIsOneTransaction : Prop :=
  ∀ (addr : Byte) (s : State) (a : Answer) (rest : List Answer), s.seq = none → s.answers = a :: rest →
    (a.fails = false → exec (.readRegister addr) s =
      .next (afterBus [.rd s.addr addr a.byte] a.elapsed 1 (s.chip.readFrom s.config s.addr addr a.byte) (.byte a.byte) rest s)) ∧
    (a.fails = true → exec (.readRegister addr) s =
      .next (afterBus [.rdFailed s.addr addr] a.elapsed 1 s.chip .busFault rest s)) ∧
    (Event.rd s.addr addr a.byte).payload = [addr]

/-- The words of the BUS and CMD formats, issued alone (the model's choice, notes/assumptions/7.md): BUS-W and BUS-R
are R80's and R81's transactions, a command byte is written whole to 0x01 (R82, R83). What a failing one leaves in the trace and in the
chip record is the model's choice (10.md). -/
def Obligations.BusAndCommandWordsIssuedAlone : Prop :=
  ∀ (addr value : Byte) (s : State) (a : Answer) (rest : List Answer), s.seq = none → s.answers = a :: rest →
    (a.fails = false →
      exec (.busWrite addr value) s =
        .next (afterBus [.wr s.addr addr value] a.elapsed 1 (s.chip.written s.config s.addr addr value) .done rest s) ∧
      exec (.busRead addr) s =
        .next (afterBus [.rd s.addr addr a.byte] a.elapsed 1 (s.chip.readFrom s.config s.addr addr a.byte) (.byte a.byte) rest s) ∧
      exec .cmdIdle s =
        .next (afterBus [.wr s.addr 0x01 0x00] a.elapsed 1 (s.chip.written s.config s.addr 0x01 0x00) .done rest s) ∧
      exec .cmdCalcCrc s =
        .next (afterBus [.wr s.addr 0x01 0x03] a.elapsed 1 (s.chip.written s.config s.addr 0x01 0x03) .done rest s) ∧
      exec .cmdTransceive s =
        .next (afterBus [.wr s.addr 0x01 0x0C] a.elapsed 1 (s.chip.written s.config s.addr 0x01 0x0C) .done rest s) ∧
      exec .cmdSoftReset s =
        .next (afterBus [.wr s.addr 0x01 0x0F] a.elapsed 1 (s.chip.written s.config s.addr 0x01 0x0F) .done rest s)) ∧
    (a.fails = true →
      exec (.busWrite addr value) s = .next (afterBus [.wrFailed s.addr addr value] a.elapsed 1 s.chip .busFault rest s) ∧
      exec (.busRead addr) s = .next (afterBus [.rdFailed s.addr addr] a.elapsed 1 s.chip .busFault rest s) ∧
      exec .cmdIdle s = .next (afterBus [.wrFailed s.addr 0x01 0x00] a.elapsed 1 s.chip .busFault rest s) ∧
      exec .cmdCalcCrc s = .next (afterBus [.wrFailed s.addr 0x01 0x03] a.elapsed 1 s.chip .busFault rest s) ∧
      exec .cmdTransceive s = .next (afterBus [.wrFailed s.addr 0x01 0x0C] a.elapsed 1 s.chip .busFault rest s) ∧
      exec .cmdSoftReset s = .next (afterBus [.wrFailed s.addr 0x01 0x0F] a.elapsed 1 s.chip .busFault rest s))

/-- R112: setBits reads the register afresh and writes the byte read with the mask's bits set, also when nothing
changes; when the read fails the write is not attempted. The chip record takes the mask's bits as the block's and leaves
the others to the chip (R200; the record is the model's, notes/assumptions/9.md, 24.md). What a failing transaction leaves
in the trace and in the chip record is the model's choice (10.md). -/
def Obligations.SetBitsReadsThenWrites : Prop :=
  ∀ (addr mask : Byte) (s : State) (r w : Answer) (rest : List Answer), s.seq = none → s.answers = r :: w :: rest →
    (r.fails = false → w.fails = false → exec (.setBits addr mask) s =
      .next (afterBus [.rd s.addr addr r.byte, .wr s.addr addr (r.byte ||| mask)] (r.elapsed + w.elapsed) 2
        ((s.chip.readFrom s.config s.addr addr r.byte).written s.config s.addr addr (r.byte ||| mask) mask) .done rest s)) ∧
    (r.fails = true → exec (.setBits addr mask) s =
      .next (afterBus [.rdFailed s.addr addr] r.elapsed 1 s.chip .busFault (w :: rest) s)) ∧
    (r.fails = false → w.fails = true → exec (.setBits addr mask) s =
      .next (afterBus [.rd s.addr addr r.byte, .wrFailed s.addr addr (r.byte ||| mask)] (r.elapsed + w.elapsed) 2
        (s.chip.readFrom s.config s.addr addr r.byte) .busFault rest s))

/-- R113: clearBits reads the register afresh and writes the byte read with the mask's bits cleared. The chip record takes
the mask's bits as the block's and leaves the others to the chip (R200; the record is the model's,
notes/assumptions/9.md, 24.md). What a failing transaction leaves in the trace and in the chip record is the model's
choice (10.md). -/
def Obligations.ClearBitsReadsThenWrites : Prop :=
  ∀ (addr mask : Byte) (s : State) (r w : Answer) (rest : List Answer), s.seq = none → s.answers = r :: w :: rest →
    (r.fails = false → w.fails = false → exec (.clearBits addr mask) s =
      .next (afterBus [.rd s.addr addr r.byte, .wr s.addr addr (r.byte &&& ~~~mask)] (r.elapsed + w.elapsed) 2
        ((s.chip.readFrom s.config s.addr addr r.byte).written s.config s.addr addr (r.byte &&& ~~~mask) mask) .done rest s)) ∧
    (r.fails = true → exec (.clearBits addr mask) s =
      .next (afterBus [.rdFailed s.addr addr] r.elapsed 1 s.chip .busFault (w :: rest) s)) ∧
    (r.fails = false → w.fails = true → exec (.clearBits addr mask) s =
      .next (afterBus [.rd s.addr addr r.byte, .wrFailed s.addr addr (r.byte &&& ~~~mask)] (r.elapsed + w.elapsed) 2
        (s.chip.readFrom s.config s.addr addr r.byte) .busFault rest s))

/-- R58, R62 (a), (b), (d), R30, R45, R35, R36, R200, R203: what one completed transaction with a device leaves in the
chip record; `own` is the bits of a write that the block chooses, all of them but in a read-modify-write. On a device that
is not resetting a write of 0x09 appends to its FIFO, a write of 0x0A with bit 7 empties it, a write of 0x01 starts a
command, COMIRQ_CLEAR_VAL written to 0x04 clears its pending flags, a write of 0x0D with bit 7 sends the staged bytes when
the last command is Transceive, with the valid bits programmed before; a read of 0x09 removes the oldest byte; the
registers that the block writes (R30), but for 0x04, 0x09 and 0x0A, hold what is written to them. From a SoftReset until a
read of 0x01 shows the "still resetting" bit clear nothing is known of the device. Where the chip decides (R60, R177,
R200, N11, N20) there is no value: of the other registers once they are written, of 0x04, 0x05 and 0x06 once they are
read, of the flags after a read of 0x04, another byte written there, a command and a transmission; or a free value, each
taken once: of the bits written back, of what the FIFO holds after a CalcCRC or a byte beyond FIFO_CAPACITY, and of the
valid bits when start-send writes back others. No other device is touched. The record is the model's
(notes/assumptions/9.md), and so is that a command byte outside R83 counts as a SoftReset, that the bytes sent leave the
FIFO with the write that sends them (R62 gives no timing), that an empty frame is recorded as sent and nothing when the last command has no value, and that no other transaction has an effect in it (24.md). -/
def Obligations.ChipRecordFollowsTheTransactions : Prop :=
  ∀ (c : Chip) (cfg : Config) (dev : DevAddr) (v own : Byte),
    (c.mayReset dev = false →
      (∀ r, r ≠ 0x01 ∨ v ∈ [0x00, 0x03, 0x0C] → (c.written cfg dev r v own).mayReset dev = false ∧
        (r ∈ [0x01, 0x0D, 0x11, 0x14, 0x15, 0x2A, 0x2B, 0x2C, 0x2D] → ∃ b : Byte,
          (c.written cfg dev r v own).held dev r = some b ∧ b &&& own = v &&& own ∧ (r = 0x01 ∨ own = 0xFF → b = v) ∧
          (r ≠ 0x01 → own ≠ 0xFF → ∃ k, c.drawn ≤ k ∧ k < (c.written cfg dev r v own).drawn ∧
            b &&& ~~~own = Config.freeWrittenBack k &&& ~~~own)) ∧
        (r ∉ [0x01, 0x0D, 0x11, 0x14, 0x15, 0x2A, 0x2B, 0x2C, 0x2D] → (c.written cfg dev r v own).held dev r = none) ∧
        ∀ r', r' ≠ r → (c.written cfg dev r v own).held dev r' = c.held dev r') ∧
      (∀ r, (r ∉ [0x01, 0x09, 0x0A, 0x0D] → (c.written cfg dev r v own).staged dev = c.staged dev) ∧
        (r ∉ [0x01, 0x04, 0x0D] → (c.written cfg dev r v own).pendingFlags dev = c.pendingFlags dev)) ∧
      ((c.staged dev).length < cfg.fifoCapacity → (c.written cfg dev 0x09 v own).staged dev = c.staged dev ++ [v]) ∧
      (cfg.fifoCapacity ≤ (c.staged dev).length → (c.written cfg dev 0x09 v own).staged dev = Config.freeStaged c.drawn ∧
        (c.written cfg dev 0x09 v own).drawn = c.drawn + if own = 0xFF then 1 else 2) ∧
      (c.written cfg dev 0x0A v own).staged dev = (if v &&& 0x80 = 0 then c.staged dev else []) ∧
      (v ∈ [0x00, 0x0C] → (c.written cfg dev 0x01 v own).staged dev = c.staged dev) ∧
      (v = 0x03 → (c.written cfg dev 0x01 v own).staged dev = Config.freeStaged c.drawn ∧
        (c.written cfg dev 0x01 v own).drawn = c.drawn + if own = 0xFF then 1 else 2) ∧
      (c.written cfg dev 0x04 v own).pendingFlags dev = (if v = cfg.comIrqClearVal then some 0x00 else none) ∧
      (v &&& 0x80 ≠ 0 → c.held dev 0x01 = some 0x0C →
        (∃ bits, (c.written cfg dev 0x0D v own).runs = c.runs ++ [.sent dev (c.staged dev) bits] ∧
          ((c.held dev 0x0D).map (·.setWidth 3) = some (v.setWidth 3) → bits = v.setWidth 3) ∧
          ((c.held dev 0x0D).map (·.setWidth 3) ≠ some (v.setWidth 3) → bits = Config.freeValidBits c.drawn)) ∧
        (c.written cfg dev 0x0D v own).staged dev = [] ∧ (c.written cfg dev 0x0D v own).pendingFlags dev = none ∧
        (c.written cfg dev 0x0D v own).drawn = c.drawn + if own = 0xFF then 1 else 2) ∧
      (v &&& 0x80 = 0 ∨ c.held dev 0x01 ≠ some 0x0C →
        (c.written cfg dev 0x0D v own).runs = c.runs ∧ (c.written cfg dev 0x0D v own).staged dev = c.staged dev ∧
        (c.written cfg dev 0x0D v own).pendingFlags dev = c.pendingFlags dev)) ∧
    (v ∉ [0x00, 0x03, 0x0C] → (c.written cfg dev 0x01 v own).mayReset dev = true ∧
      ∀ r, (c.written cfg dev 0x01 v own).held dev r = none) ∧
    (∀ r, (c.mayReset dev = true → (c.written cfg dev r v own).mayReset dev = true) ∧
      ((c.written cfg dev r v own).mayReset dev = true → (c.written cfg dev r v own).held dev r = none ∧
        (c.written cfg dev r v own).pendingFlags dev = none ∧
        ∃ k, c.drawn ≤ k ∧ k < (c.written cfg dev r v own).drawn ∧ (c.written cfg dev r v own).staged dev = Config.freeStaged k) ∧
      (r ∉ [0x01, 0x0D] → (c.written cfg dev r v own).runs = c.runs) ∧
      (∀ d, d ≠ dev → (c.written cfg dev r v own).staged d = c.staged d ∧
        (c.written cfg dev r v own).pendingFlags d = c.pendingFlags d ∧ (c.written cfg dev r v own).mayReset d = c.mayReset d ∧
        ∀ r', (c.written cfg dev r v own).held d r' = c.held d r')) ∧
    (c.written cfg dev 0x01 v own).runs = c.runs ++ [.started dev v (c.staged dev)] ∧
    (c.written cfg dev 0x01 v own).pendingFlags dev = none ∧
    (c.readFrom cfg dev 0x09 v).staged dev = (c.staged dev).tail ∧
    (c.readFrom cfg dev 0x04 v).pendingFlags dev = none ∧
    (c.readFrom cfg dev 0x01 v).mayReset dev = (if v &&& cfg.softResetBusyMask = 0 then false else c.mayReset dev) ∧
    ∀ r, (r ∈ [0x04, 0x05, 0x06] → (c.readFrom cfg dev r v).held dev r = none) ∧
      (∀ d r', ¬ (d = dev ∧ r' = r ∧ r ∈ [0x04, 0x05, 0x06]) → (c.readFrom cfg dev r v).held d r' = c.held d r') ∧
      (r ≠ 0x09 → (c.readFrom cfg dev r v).fifo = c.fifo) ∧
      (r ≠ 0x04 → (c.readFrom cfg dev r v).pending = c.pending) ∧
      (r ≠ 0x01 → (c.readFrom cfg dev r v).resetting = c.resetting) ∧
      (c.readFrom cfg dev r v).runs = c.runs ∧
      ∀ d, d ≠ dev → (c.readFrom cfg dev r v).staged d = c.staged d ∧
        (c.readFrom cfg dev r v).pendingFlags d = c.pendingFlags d ∧ (c.readFrom cfg dev r v).mayReset d = c.mayReset d

/-! ### Reset, FIFO, antenna, initialisation (41_reset_antenna.md) -/

/-- R122: flushFifo is `setBits(0x0A, 0x80)`; the low 7 bits written are the level just read, and what becomes of
them is the chip's affair (R200; the record is the model's, notes/assumptions/9.md, 24.md). What a failing transaction
leaves in the trace and in the chip record is the model's choice (10.md). -/
def Obligations.FlushFifoSetsTheFlushBit : Prop :=
  ∀ (s : State) (r w : Answer) (rest : List Answer), s.seq = none → s.answers = r :: w :: rest →
    (r.fails = false → w.fails = false → exec .flushFifo s =
      .next (afterBus [.rd s.addr 0x0A r.byte, .wr s.addr 0x0A (r.byte ||| 0x80)] (r.elapsed + w.elapsed) 2
        (s.chip.written s.config s.addr 0x0A (r.byte ||| 0x80) 0x80) .done rest s)) ∧
    (r.fails = true → exec .flushFifo s =
      .next (afterBus [.rdFailed s.addr 0x0A] r.elapsed 1 s.chip .busFault (w :: rest) s)) ∧
    (r.fails = false → w.fails = true → exec .flushFifo s =
      .next (afterBus [.rd s.addr 0x0A r.byte, .wrFailed s.addr 0x0A (r.byte ||| 0x80)] (r.elapsed + w.elapsed) 2
        s.chip .busFault rest s))

/-- R123: antennaOn reads 0x14; with both bits set there is no write; else it reads again and writes the second
byte read with both bits set. Every transaction may fail, and then nothing follows it; what a failing one leaves in
the trace and in the chip record is the model's choice (notes/assumptions/10.md). The record takes the two bits as the
block's and leaves the others to the chip (R200; 9.md, 24.md). -/
def Obligations.AntennaOnSetsBothBits : Prop :=
  ∀ (s : State) (r v w : Answer) (rest : List Answer), s.seq = none → s.answers = r :: v :: w :: rest →
    (r.fails = false → r.byte &&& 0x03 = 0x03 → exec .antennaOn s =
      .next (afterBus [.rd s.addr 0x14 r.byte] r.elapsed 1 s.chip .done (v :: w :: rest) s)) ∧
    (r.fails = false → r.byte &&& 0x03 ≠ 0x03 → v.fails = false → w.fails = false → exec .antennaOn s =
      .next (afterBus [.rd s.addr 0x14 r.byte, .rd s.addr 0x14 v.byte, .wr s.addr 0x14 (v.byte ||| 0x03)]
        (r.elapsed + v.elapsed + w.elapsed) 3 (s.chip.written s.config s.addr 0x14 (v.byte ||| 0x03) 0x03) .done rest s)) ∧
    (r.fails = true → exec .antennaOn s =
      .next (afterBus [.rdFailed s.addr 0x14] r.elapsed 1 s.chip .busFault (v :: w :: rest) s)) ∧
    (r.fails = false → r.byte &&& 0x03 ≠ 0x03 → v.fails = true → exec .antennaOn s =
      .next (afterBus [.rd s.addr 0x14 r.byte, .rdFailed s.addr 0x14] (r.elapsed + v.elapsed) 2 s.chip .busFault
        (w :: rest) s)) ∧
    (r.fails = false → r.byte &&& 0x03 ≠ 0x03 → v.fails = false → w.fails = true → exec .antennaOn s =
      .next (afterBus [.rd s.addr 0x14 r.byte, .rd s.addr 0x14 v.byte, .wrFailed s.addr 0x14 (v.byte ||| 0x03)]
        (r.elapsed + v.elapsed + w.elapsed) 3 s.chip .busFault rest s))

/-- R121, R120: softReset writes the command, pauses T_SETTLE_MS and polls 0x01 until SOFTRESET_BUSY_MASK is clear,
for at most T_RESET_MS; it returns normally on either verdict, and leaves the verdict in PV and the start of the poll in
T0. -/
def Obligations.SoftResetReturnsOnEitherVerdict : Prop :=
  ∀ (s : State) (x : SoftResetRun) (rest : List Answer), readyFor (x.script s.config) rest s →
    noFault (x.script s.config) = true → x.ok s.config = true →
    exec .softReset s = .next (ended .done rest (x.after s.config s))

/-- R124: initialize masks the address into ADDR, resets the chip, writes the six values in order, turns the
antenna on and sets INIT, also when the reset poll timed out and when INIT was already set. -/
def Obligations.InitializeRunsTheWholeSequence : Prop :=
  ∀ (s : State) (address : Nat) (x : InitRun) (rest : List Answer), readyFor (x.script s.config) rest s →
    noFault (x.script s.config) = true → x.ok s.config = true →
    exec (.initializeChip address) s = .next (ended .done rest (x.after s.config address s))

/-- R123, R194, R40: after every initialize that meets no BusFault, INIT is set and the block has last either seen
both antenna bits of the new device set or written them set. That the chip holds them set is said only where the
reset poll hit (R203), and of the bits written back nothing is (R200). -/
def Obligations.InitializeLeavesTheAntennaOn : Prop :=
  ∀ (s : State) (address : Nat) (x : InitRun) (rest : List Answer), readyFor (x.script s.config) rest s →
    noFault (x.script s.config) = true → x.ok s.config = true →
    ∃ t, exec (.initializeChip address) s = .next t ∧ t.addr = BitVec.ofNat 7 (address % 128) ∧ t.init = true ∧
      ∃ v : Byte, v &&& 0x03 = 0x03 ∧
        (t.trace.getLast? = some (.rd t.addr 0x14 v) ∨
          t.trace.getLast? = some (.wr t.addr 0x14 v) ∧
            (x.reset.poll.verdict = .hit → ∃ b : Byte, t.chip.held t.addr 0x14 = some b ∧ b &&& 0x03 = 0x03))

/-! ### computeCrc (42_crc_adapter.md) -/

/-- R130, R131, R120: computeCrc flushes, loads, issues CalcCRC, polls 0x05 until a bit of 0x04 is set, for at most
T_CRC_MS, reads 0x21 and 0x22 on either verdict, and returns (high, low), for every byte sequence, the empty one too. -/
def Obligations.ComputeCrcReturnsTheTwoResultRegisters : Prop :=
  ∀ (s : State) (bytes : List Byte) (x : CrcRun) (rest : List Answer), readyFor (x.script s.config bytes) rest s →
    noFault (x.script s.config bytes) = true → x.ok s.config bytes = true →
    exec (.computeCrc bytes) s = .next (ended (.crc x.hi.byte x.lo.byte) rest (x.after s.config bytes s))

/-! ### transceive (43_transceive.md) -/

/-- R140 to R144, R120: one exchange, for every frame and every count 0 to 7, in each of its three endings; the poll
reads 0x04 until any bit of 0x30 is set, for at most T_XCV_MS. -/
def Obligations.TransceiveRunsOneExchange : Prop :=
  ∀ (s : State) (frame : List Byte) (vb : ValidBits) (x : XcvRun) (rest : List Answer),
    readyFor (x.script s.config frame vb) rest s → noFault (x.script s.config frame vb) = true →
    x.ok s.config frame = true →
    exec (.transceive frame (vb.setWidth 8)) s =
      .next (ended (.exchange x.result) rest (x.after s.config frame vb s))

/-- R141, R176: whatever the environment answers, a transceive that is over ended in a BusFault or in one of
R140's three ways, decided in R141's order. -/
def Obligations.TransceiveEndsInOneOfThreeWays : Prop :=
  ∀ (s t : State) (frame : List Byte) (vb : ValidBits), exec (.transceive frame (vb.setWidth 8)) s = .next t →
    t.seq = none →
    t.result = some .busFault ∨
      ∃ (x : XcvRun) (rest : List Answer), readyFor (x.script s.config frame vb) rest s ∧
        noFault (x.script s.config frame vb) = true ∧ x.ok s.config frame = true ∧
        t = ended (.exchange x.result) rest (x.after s.config frame vb s)

/-- R140 steps 1 to 4, R58, R62 (b), (d): after the first 8 + len(frame) steps of a transceive that meets no BusFault,
the block is about to poll, and the chip record says that the FIFO of the device was emptied, loaded with the frame byte
by byte in order, and sent, with its TXVB valid bits where the chip reads back the count that step 3 wrote. What a FIFO
that the frame does not fit sends, and with how many valid bits a frame goes when the chip reads back another count, are
free, the bytes leave the FIFO with the write of start-send, an empty frame is recorded as sent, and of a device that may still be resetting no transmission is recorded (the
model's reading of R62, R200, R205, N20, R146, R203, notes/assumptions/24.md). -/
def Obligations.TransceiveSendsTheLoadedFrame : Prop :=
  ∀ (s : State) (frame : List Byte) (vb : ValidBits) (x : XcvRun), s.seq = none →
    s.answers = answersOf (x.headScript s.config frame vb) → noFault (x.headScript s.config frame vb) = true →
    x.loads.length = frame.length →
    ∃ (t : State) (loaded : List Byte) (last : List ChipRun), exec (.transceive frame (vb.setWidth 8)) s = .next t ∧
      t.seq = some ⟨.poll ⟨0x04, 0x30, .set, s.config.tXcvMs⟩ .p0, [.transceive]⟩ ∧
      t.chip.runs = s.chip.runs ++ [.started s.addr 0x00 (s.chip.staged s.addr), .started s.addr 0x0C loaded] ++ last ∧
      (s.chip.mayReset s.addr = true → last = []) ∧
      (s.chip.mayReset s.addr = false →
        (∃ bits, last = [.sent s.addr loaded bits] ∧ (x.sendRead.byte.setWidth 3 = vb → bits = vb)) ∧
        (frame.length ≤ s.config.fifoCapacity → loaded = frame) ∧
        t.chip.staged s.addr = [] ∧ ∃ b : Byte, t.chip.held s.addr 0x0D = some b ∧ b &&& 0x80 = 0x80)

/-- The card frames of R84 to R87 issued alone are exchanges of those frames with those counts (issuing them alone
is the model's choice, notes/assumptions/7.md, and WUPA's count is deduced, 8.md). -/
def Obligations.CardFramesIssuedAlone : Prop :=
  ∀ (s : State) (x : XcvRun) (rest : List Answer) (u : Uidb) (lo hi : Byte),
    (readyFor (x.script s.config [0x26] 7) rest s → noFault (x.script s.config [0x26] 7) = true →
      x.ok s.config [0x26] = true →
      exec .piccReqa s = .next (ended (.exchange x.result) rest (x.after s.config [0x26] 7 s))) ∧
    (readyFor (x.script s.config [0x52] 7) rest s → noFault (x.script s.config [0x52] 7) = true →
      x.ok s.config [0x52] = true →
      exec .piccWupa s = .next (ended (.exchange x.result) rest (x.after s.config [0x52] 7 s))) ∧
    (readyFor (x.script s.config [0x93, 0x20] 0) rest s → noFault (x.script s.config [0x93, 0x20] 0) = true →
      x.ok s.config [0x93, 0x20] = true →
      exec .piccAnticollCl1 s = .next (ended (.exchange x.result) rest (x.after s.config [0x93, 0x20] 0 s))) ∧
    (readyFor (x.script s.config [0x93, 0x70, u.uid0, u.uid1, u.uid2, u.uid3, u.bcc, lo, hi] 0) rest s →
      noFault (x.script s.config [0x93, 0x70, u.uid0, u.uid1, u.uid2, u.uid3, u.bcc, lo, hi] 0) = true →
      x.ok s.config [0x93, 0x70, u.uid0, u.uid1, u.uid2, u.uid3, u.bcc, lo, hi] = true →
      exec (.piccSelectCl1 u lo hi) s =
        .next (ended (.exchange x.result) rest
          (x.after s.config [0x93, 0x70, u.uid0, u.uid1, u.uid2, u.uid3, u.bcc, lo, hi] 0 s)))

/-! ### The protocol steps (44_anticollision_select.md) -/

/-- R150: reqa writes framing 7, exchanges the REQA frame, writes framing 0 whatever came back, and is true exactly
when the exchange succeeded with at least 2 bytes. -/
def Obligations.ReqaDetectsACard : Prop :=
  ∀ (s : State) (x : ReqaRun) (rest : List Answer), readyFor (x.script s.config) rest s →
    noFault (x.script s.config) = true → x.ok s.config = true →
    exec .reqa s = .next (ended (.flag x.result) rest (x.after s.config s)) ∧
      (x.result = true ↔ x.exchange.result.ok = true ∧ 2 ≤ x.exchange.result.rxbuf.length)

/-- R150, R198: after every reqa that meets no BusFault, timeouts and frame errors included, the last transaction
is a write of 0x00 to the bit-framing register (R46), which the chip then holds unless it may still be resetting (R203); a
reqa whose exchange failed is false. -/
def Obligations.ReqaRestoresFullByteFraming : Prop :=
  ∀ (s : State) (x : ReqaRun) (rest : List Answer), readyFor (x.script s.config) rest s →
    noFault (x.script s.config) = true → x.ok s.config = true →
    ∃ t, exec .reqa s = .next t ∧ t.seq = none ∧ t.trace.getLast? = some (.wr s.addr 0x0D 0x00) ∧
      (s.chip.mayReset s.addr = false → t.chip.held s.addr 0x0D = some 0x00) ∧
      (x.exchange.result.ok = false → t.result = some (.flag false))

/-- R151: anticollision writes framing 0, exchanges its frame, and on at least 5 bytes writes the first five to
UIDB, unchecked; else UIDB keeps its value. -/
def Obligations.AnticollisionTakesTheFirstFiveBytes : Prop :=
  ∀ (s : State) (x : AnticollRun) (rest : List Answer), readyFor (x.script s.config) rest s →
    noFault (x.script s.config) = true → x.ok s.config = true →
    exec .anticollision s = .next (ended (.uidb x.result) rest (x.after s.config s)) ∧
      (x.result.isSome = true ↔ x.exchange.result.ok = true ∧ 5 ≤ x.exchange.result.rxbuf.length)

/-- R152, R131: select sends the CRC low byte first, and on at least 1 byte writes byte 0 to SAKR and is true
whatever its cascade bit; else SAKR keeps its value. -/
def Obligations.SelectTakesTheSak : Prop :=
  ∀ (s : State) (u : Uidb) (x : SelectRun) (rest : List Answer), readyFor (x.script s.config u) rest s →
    noFault (x.script s.config u) = true → x.ok s.config u = true →
    exec (.select u) s = .next (ended (.flag x.sak.isSome) rest (x.after s.config u s)) ∧
      (x.sak.isSome = true ↔ x.exchange.result.ok = true ∧ 1 ≤ x.exchange.result.rxbuf.length)

/-- R153: readUid runs reqa, anticollision, select; the first step that fails ends it with no data and the later
steps issue no transaction; after all three the result is UIDB[0..3]. -/
def Obligations.ReadUidChainsTheThreeSteps : Prop :=
  ∀ (s : State) (x : ReadUidRun) (rest : List Answer), readyFor (x.script s.config) rest s →
    noFault (x.script s.config) = true → x.ok s.config = true →
    exec .readUid s = .next (ended (.uid x.result) rest (x.after s.config s))

/-! ### The host surface (45_host_surface.md) -/

/-- R161, R165: with INIT = 1 isCardPresent is reqa; with INIT = 0 it runs initialize(ADDR) first. -/
def Obligations.IsCardPresentIsLazyReqa : Prop :=
  ∀ (s : State) (x : ReqaRun) (rest : List Answer),
    (s.init = true → readyFor (x.script s.config) rest s → noFault (x.script s.config) = true → x.ok s.config = true →
      exec .isCardPresent s = .next (ended (.flag x.result) rest (x.after s.config s))) ∧
    ∀ y : InitRun, s.init = false → readyFor (y.script s.config ++ x.script s.config) rest s →
      noFault (y.script s.config ++ x.script s.config) = true → y.ok s.config = true → x.ok s.config = true →
      exec .isCardPresent s =
        .next (ended (.flag x.result) rest (x.after s.config (y.after s.config s.addr.toNat s)))

/-- R162, R165: with INIT = 1 readUidHex is readUid and the hex text of its 4 bytes, or the empty text; with
INIT = 0 it runs initialize(ADDR) first. -/
def Obligations.ReadUidHexIsLazyReadUid : Prop :=
  ∀ (s : State) (x : ReadUidRun) (rest : List Answer) (text : List Char),
    (∀ u, x.result = some u → text = hexText [u.uid0, u.uid1, u.uid2, u.uid3]) → (x.result = none → text = []) →
    (s.init = true → readyFor (x.script s.config) rest s → noFault (x.script s.config) = true → x.ok s.config = true →
      exec .readUidHex s = .next (ended (.text text) rest (x.after s.config s))) ∧
    ∀ y : InitRun, s.init = false → readyFor (y.script s.config ++ x.script s.config) rest s →
      noFault (y.script s.config ++ x.script s.config) = true → y.ok s.config = true → x.ok s.config = true →
      exec .readUidHex s =
        .next (ended (.text text) rest (x.after s.config (y.after s.config s.addr.toNat s)))

/-- R163, R165: with INIT = 1 version is one read of 0x37, returned unchanged; with INIT = 0 it runs
initialize(ADDR) first. -/
def Obligations.VersionIsALazyReadOfTheVersionRegister : Prop :=
  ∀ (s : State) (a : Answer) (rest : List Answer), a.fails = false →
    (s.init = true → s.seq = none → s.answers = a :: rest →
      exec .version s =
        .next (afterBus [.rd s.addr 0x37 a.byte] a.elapsed 1 s.chip (.byte a.byte) rest s)) ∧
    ∀ y : InitRun, s.init = false → readyFor (y.script s.config ++ [(.rd 0x37, a)]) rest s →
      noFault (y.script s.config) = true → y.ok s.config = true →
      exec .version s =
        .next (ended (.byte a.byte) rest (played [(.rd 0x37, a)] (y.after s.config s.addr.toNat s)))

/-- R164, R204: setAddress stores the address modulo 128 and touches nothing else: no transaction, no clock, not
INIT. -/
def Obligations.SetAddressMasksToSevenBits : Prop :=
  ∀ (addr : Nat) (s : State), s.seq = none →
    exec (.setAddress addr) s = .next { s with addr := BitVec.ofNat 7 (addr % 128), result := some .done }

/-- R160, R99: toHex gives two lower-case hex digits for each byte, in input order, and touches nothing. -/
def Obligations.ToHexGivesTwoDigitsPerByte : Prop :=
  ∀ (bytes : List Byte) (s : State), s.seq = none →
    ∃ text : List Char, exec (.toHex bytes) s = .next { s with result := some (.text text) } ∧
      text.length = 2 * bytes.length ∧
      ∀ (k : Nat) (b : Byte), bytes[k]? = some b →
        text[2 * k]? = "0123456789abcdef".toList[b.toNat / 16]? ∧
          text[2 * k + 1]? = "0123456789abcdef".toList[b.toNat % 16]?

/-- R92's column "result", R155, R160, R162, R23: an operation that is over has handed back a result of its own
kind, or a BusFault; no failure carries an error code. The results of the BUS, CMD and PICC words issued alone, which R92
does not list, are the model's choice (notes/assumptions/7.md). -/
def Obligations.ResultsHaveTheShapeOfTheirOperation : Prop :=
  ∀ (i : Instr) (s t : State), exec i s = .next t → t.seq = none →
    ∃ r, t.result = some r ∧ (r = .busFault ∨ resultShape i r = true)

/-! ### Failures (60_exceptions.md) -/

/-- R173, R53: when a transaction fails the operation and all its callers end at once: SEQ is IDLE, the host
receives the fault, the transaction was attempted and nothing follows it, and every register keeps its value. The same
where it is the first transaction of an operation, made in the step that starts it; TXF holds the operands of a transceive
then (R22). The attempt's line in the trace, and that it leaves the chip record alone, are the model's choice
(notes/assumptions/10.md), and so is that the card frames are issued alone (7.md). -/
def Obligations.BusFaultEndsTheWholeChain : Prop :=
  (∀ (s : State) (q : Sequence) (a : Answer) (rest : List Answer), s.seq = some q → seqOk s = true →
    s.answers = a :: rest → a.fails = true →
    (∀ reg v own, primitive q.top s = .wr reg v own → step s =
      .next (afterBus [.wrFailed s.addr reg v] a.elapsed 1 s.chip .busFault rest { s with seq := none })) ∧
    ∀ reg, primitive q.top s = .rd reg → step s =
      .next (afterBus [.rdFailed s.addr reg] a.elapsed 1 s.chip .busFault rest { s with seq := none })) ∧
  ∀ (s : State) (a : Answer) (rest : List Answer), s.seq = none → s.answers = a :: rest → a.fails = true →
    exec .softReset s = .next (afterBus [.wrFailed s.addr 0x01 0x0F] a.elapsed 1 s.chip .busFault rest s) ∧
    (∀ bytes, exec (.computeCrc bytes) s =
      .next (afterBus [.rdFailed s.addr 0x0A] a.elapsed 1 s.chip .busFault rest s)) ∧
    (∀ (frame : List Byte) (vb : ValidBits), exec (.transceive frame (vb.setWidth 8)) s =
      .next (afterBus [.wrFailed s.addr 0x01 0x00] a.elapsed 1 s.chip .busFault rest (s.setTxf frame vb))) ∧
    exec .reqa s = .next (afterBus [.wrFailed s.addr 0x0D 0x07] a.elapsed 1 s.chip .busFault rest s) ∧
    exec .anticollision s = .next (afterBus [.wrFailed s.addr 0x0D 0x00] a.elapsed 1 s.chip .busFault rest s) ∧
    (∀ u, exec (.select u) s = .next (afterBus [.rdFailed s.addr 0x0A] a.elapsed 1 s.chip .busFault rest s)) ∧
    exec .readUid s = .next (afterBus [.wrFailed s.addr 0x0D 0x07] a.elapsed 1 s.chip .busFault rest s) ∧
    exec .piccReqa s =
      .next (afterBus [.wrFailed s.addr 0x01 0x00] a.elapsed 1 s.chip .busFault rest (s.setTxf [0x26] 7)) ∧
    exec .piccWupa s =
      .next (afterBus [.wrFailed s.addr 0x01 0x00] a.elapsed 1 s.chip .busFault rest (s.setTxf [0x52] 7)) ∧
    exec .piccAnticollCl1 s =
      .next (afterBus [.wrFailed s.addr 0x01 0x00] a.elapsed 1 s.chip .busFault rest (s.setTxf [0x93, 0x20] 0)) ∧
    (∀ (u : Uidb) (lo hi : Byte), exec (.piccSelectCl1 u lo hi) s =
      .next (afterBus [.wrFailed s.addr 0x01 0x00] a.elapsed 1 s.chip .busFault rest
        (s.setTxf [0x93, 0x70, u.uid0, u.uid1, u.uid2, u.uid3, u.bcc, lo, hi] 0))) ∧
    (s.init = true →
      exec .isCardPresent s = .next (afterBus [.wrFailed s.addr 0x0D 0x07] a.elapsed 1 s.chip .busFault rest s) ∧
      exec .readUidHex s = .next (afterBus [.wrFailed s.addr 0x0D 0x07] a.elapsed 1 s.chip .busFault rest s) ∧
      exec .version s = .next (afterBus [.rdFailed s.addr 0x37] a.elapsed 1 s.chip .busFault rest s))

/-! ### Invariants and whole-machine rules -/

/-- Every step keeps the invariant: SEQ stays a value of R27, TXF is the frame of the step in progress (R85 to
R87), RXBUF has at most 127 bytes (R23), the chip record keeps its canonical form. -/
def Obligations.EveryStepKeepsTheInvariant : Prop := ∀ s t : State, Inv s → step s = .next t → Inv t

/-- R13, R27: the call depth is bounded, SEQ holds at most five frames. -/
def Obligations.SequenceHoldsAtMostFiveFrames : Prop := ∀ s : State, Inv s → depth s ≤ 5

/-- No step from a good state faults: the machine has no stuck state (93, the sentence after part 1). -/
def Obligations.GoodStatesNeverFault : Prop := ∀ s : State, Inv s → StepSafe s

/-- R21: once INIT is 1 it stays 1. -/
def Obligations.InitIsNeverReset : Prop :=
  ∀ s t : State, step s = .next t → s.init = true → t.init = true

/-- R21, R124: INIT becomes 1 only in the step that makes the assignment that ends initialize, and that assignment is
reached only from a step whose primitive completes and ends initialize's antennaOn: its read of 0x14, or the write of its
setBits. No step that starts an operation does either. -/
def Obligations.InitBecomesTrueOnlyAtTheEndOfInitialize : Prop :=
  (∀ s t : State, step s = .next t → s.init = false → t.init = true → ∃ ws, s.seq = some ⟨.initFlag, ws⟩) ∧
  ∀ (s t : State) (ws : List Waiting), Inv s → step s = .next t → s.seq ≠ some ⟨.initFlag, ws⟩ →
    t.seq = some ⟨.initFlag, ws⟩ →
    (∀ a as, s.answers = a :: as → a.fails = false) ∧ (s.answers = [] → (freeAnswer s.ticks).fails = false) ∧
      (s.seq = some ⟨.antennaOn, .initAntenna :: ws⟩ ∨
        ∃ addr mask v, s.seq = some ⟨.setBits addr mask (.write v), .antennaOn :: .initAntenna :: ws⟩)

/-- R20, R50: ADDR changes only by setAddress and by initialize's first step, to their operand modulo 128; the lazy
initialisations give it the value it has. -/
def Obligations.AddrChangesOnlyByItsTwoOperations : Prop :=
  (∀ (i : Instr) (s t : State), exec i s = .next t →
    (∀ n, i = .setAddress n ∨ i = .initializeChip n → t.addr = BitVec.ofNat 7 (n % 128)) ∧
      ((∀ n, i ≠ .setAddress n ∧ i ≠ .initializeChip n) → t.addr = s.addr)) ∧
  ∀ (s t : State) (q : Sequence), s.seq = some q → step s = .next t →
    t.addr = s.addr ∨ ∃ n, q.top = .initAddress n ∧ t.addr = BitVec.ofNat 7 (n % 128)

/-- R50, R64: a step only adds to the trace, and every transaction it adds is addressed to the device at ADDR. -/
def Obligations.TransactionsGoToTheDeviceAtAddr : Prop :=
  ∀ s t : State, step s = .next t →
    ∃ new, t.trace = s.trace ++ new ∧ ∀ e ∈ new, e.device = none ∨ e.device = some t.addr

/-- R14: the clock never runs backwards, a sample lies between the clock before and after its step, and a pause of
n milliseconds takes at least n. -/
def Obligations.ClockNeverRunsBackwards : Prop :=
  (∀ s t : State, step s = .next t → s.clock ≤ t.clock ∧
    ∃ new, t.trace = s.trace ++ new ∧ ∀ x, Event.now x ∈ new → s.clock ≤ x ∧ x ≤ t.clock) ∧
  ∀ (s t : State) (q : Sequence) (n : Nat), s.seq = some q → primitive q.top s = .pause n → step s = .next t →
    s.clock + n ≤ t.clock

/-- R30, R60, R83: the block's own sequences reach only the registers of R30, each only as its column "block access"
says, and write only the four command bytes to 0x01. -/
def Obligations.OwnSequencesKeepToTheRegisterMap : Prop :=
  (∀ (i : Instr) (s t : State), hostChosen i = false → exec i s = .next t →
    (∃ new, t.trace = s.trace ++ new ∧ ∀ e ∈ new, ownEvent e = true) ∧ ∀ q, t.seq = some q → ownTop q.top = true) ∧
  ∀ (s t : State) (q : Sequence), s.seq = some q → ownTop q.top = true → step s = .next t →
    (∃ new, t.trace = s.trace ++ new ∧ ∀ e ∈ new, ownEvent e = true) ∧ ∀ q', t.seq = some q' → ownTop q'.top = true

/-! ### Frames: what an instruction leaves unchanged, at every point it may have reached -/

/-- The register accesses and the words issued alone on the bus write no register of the block, and of the register
space at most the one register they name; a write of SoftReset, or of a byte outside R83, to 0x01 leaves the device's
other registers without a value (R30), so there all of the device's may change, and a read of 0x04, 0x05 or
0x06 may change that register (R58). That busWrite, busRead and the four command bytes may be issued alone is the
model's choice (notes/assumptions/7.md). -/
def Obligations.FrameOfRegisterOperations : Prop :=
  ∀ (i : Instr) (s t : State) (regs : List Byte), exec i s = .next t →
    ((∃ a v, (i = .writeRegister a v ∨ i = .busWrite a v) ∧ regs = changedBy a v) ∨
      (∃ a m, (i = .setBits a m ∨ i = .clearBits a m) ∧ regs = if a = 0x01 then everyReg else [a]) ∨
      (∃ a, (i = .readRegister a ∨ i = .busRead a) ∧ regs = changedByRead a) ∨
      (i = .flushFifo ∧ regs = [0x0A]) ∨ (i = .antennaOn ∧ regs = [0x14]) ∨
      (i ∈ [.cmdIdle, .cmdCalcCrc, .cmdTransceive] ∧ regs = [0x01]) ∨ (i = .cmdSoftReset ∧ regs = everyReg)) →
    keptPorts s t ∧ keptPersistent s t ∧ keptExchange s t ∧ keptCrc s t ∧ t.uidb = s.uidb ∧ t.sakr = s.sakr ∧
      keptPoll s t ∧ storesOnly s.addr regs s t

/-- softReset changes T0 and PV; initialize also changes ADDR and INIT. Both reset a device, softReset the one at ADDR and
initialize the new one, which leaves its registers without a value (R30), and touch no other device (R121, R124,
R191). -/
def Obligations.FrameOfSoftResetAndInitialize : Prop :=
  (∀ s t : State, exec .softReset s = .next t →
    keptPorts s t ∧ keptPersistent s t ∧ keptExchange s t ∧ keptCrc s t ∧ t.uidb = s.uidb ∧ t.sakr = s.sakr ∧
      storesOnly s.addr everyReg s t) ∧
  ∀ (s t : State) (address : Nat), exec (.initializeChip address) s = .next t →
    keptPorts s t ∧ keptExchange s t ∧ keptCrc s t ∧ t.uidb = s.uidb ∧ t.sakr = s.sakr ∧
      storesOnly (BitVec.ofNat 7 (address % 128)) everyReg s t

/-- computeCrc changes CRC_HI, CRC_LO, T0 and PV, writes 0x0A, 0x09 and 0x01, and reads 0x05, which a read may change
(R130, R58). -/
def Obligations.FrameOfComputeCrc : Prop :=
  ∀ (s t : State) (bytes : List Byte), exec (.computeCrc bytes) s = .next t →
    keptPorts s t ∧ keptPersistent s t ∧ keptExchange s t ∧ t.uidb = s.uidb ∧ t.sakr = s.sakr ∧
      storesOnly s.addr crcRegs s t

/-- transceive and the card frames change TXF (their operands), RES, T0 and PV; reqa and anticollision too, and
anticollision UIDB (R140, R150, R151). They write the registers of an exchange, and read 0x04 and 0x06, which a read may
change (R58). That the four card frames may be issued
alone is the model's choice (notes/assumptions/7.md), and WUPA's count is deduced (8.md). -/
def Obligations.FrameOfExchanges : Prop :=
  ∀ (i : Instr) (s t : State), exec i s = .next t →
    ((∃ f v, i = .transceive f v) ∨ i ∈ [.piccReqa, .piccWupa, .piccAnticollCl1, .reqa, .anticollision] ∨
      ∃ u lo hi, i = .piccSelectCl1 u lo hi) →
    keptPorts s t ∧ keptPersistent s t ∧ keptCrc s t ∧ (i ≠ .anticollision → t.uidb = s.uidb) ∧ t.sakr = s.sakr ∧
      storesOnly s.addr exchangeRegs s t

/-- select changes what computeCrc and an exchange change, and SAKR; readUid also UIDB (R152, R153). -/
def Obligations.FrameOfSelectAndReadUid : Prop :=
  ∀ (i : Instr) (s t : State), exec i s = .next t → ((∃ u, i = .select u) ∨ i = .readUid) →
    keptPorts s t ∧ keptPersistent s t ∧ (i ≠ .readUid → t.uidb = s.uidb) ∧
      storesOnly s.addr (exchangeRegs ++ crcRegs) s t

/-- The lazily initialising operations keep ADDR; with INIT = 1 they keep INIT and write what the operation they
end in writes; with INIT = 0 initialize resets the device first (R161 to R163, R165). -/
def Obligations.FrameOfLazyOperations : Prop :=
  (∀ s t : State, exec .isCardPresent s = .next t →
    keptPorts s t ∧ t.addr = s.addr ∧ (s.init = true → t.init = true) ∧ keptCrc s t ∧ t.uidb = s.uidb ∧
      t.sakr = s.sakr ∧ storesOnly s.addr (exchangeRegs ++ if s.init then [] else everyReg) s t) ∧
  (∀ s t : State, exec .readUidHex s = .next t →
    keptPorts s t ∧ t.addr = s.addr ∧ (s.init = true → t.init = true) ∧
      storesOnly s.addr (exchangeRegs ++ crcRegs ++ if s.init then [] else everyReg) s t) ∧
  ∀ s t : State, exec .version s = .next t →
    keptPorts s t ∧ t.addr = s.addr ∧ keptExchange s t ∧ keptCrc s t ∧ t.uidb = s.uidb ∧ t.sakr = s.sakr ∧
      (s.init = true → keptPoll s t ∧ t.init = true) ∧ storesOnly s.addr (if s.init then [] else everyReg) s t

/-! ### What cannot influence what -/

/-- R46: the block keeps no shadow copy of a chip register: a step is the same whatever the chip record holds. The
record itself is the model's (notes/assumptions/9.md). -/
def Obligations.ChipRecordIsNeverRead : Prop :=
  ∀ (s : State) (c : Chip),
    (∀ t, step s = .next t → ∃ c', step (s.setChip c) = .next (t.setChip c')) ∧
    (∀ r, step s = .refused r → step (s.setChip c) = .refused r) ∧
    ∀ f, step s = .fault f → step (s.setChip c) = .fault f

/-- 10_state.md section 1.2, R190: no rule reads a working register before the same operation has written it. An
operation started with other values in all of them issues the same transactions at the same times, hands back the
same result and leaves the same persistent state. -/
def Obligations.WorkingRegistersCarryNothingOver : Prop :=
  ∀ (i : Instr) (s u t : State), s.seq = none → exec i s = .next t →
    ∃ t', exec i (withWorking s u) = .next t' ∧ withWorking t' t = t

/-! ### Termination (70_reset_and_hazards.md) -/

/-- R207: every operation ends when the clock advances: by a pause between polls, or by itself at every step (so
also with POLL_INTERVAL_MS = 0). There is for every state a number of steps after which the operation in progress is
over, whatever the environment answers. -/
def Obligations.EveryOperationEnds : Prop :=
  (∀ s : State, Inv s → s.seq ≠ none →
    ∃ n : Nat, ∀ as : List Answer, n ≤ as.length →
      (1 ≤ s.config.pollIntervalMs ∨ ∀ a ∈ as, 1 ≤ a.elapsed) →
      ∃ t, stepsWhileBusy n (s.setAnswers as) = .next t ∧ t.seq = none) ∧
  ∀ (i : Instr) (s : State), i.wf = true → s.seq = none →
    ∃ n : Nat, ∀ as : List Answer, n ≤ as.length →
      (1 ≤ s.config.pollIntervalMs ∨ ∀ a ∈ as, 1 ≤ a.elapsed) →
      ∃ t, exec i (s.setAnswers as) = .next t ∧ t.seq = none
end

