-- ==== Sys2Proof/Laws/State.lean ====
section
/-! SUPPORT. One lemma per field per register update of State, true by rfl. -/

namespace Sys2Proof.Machine.State

/-! ### setAddr -/

@[simp] theorem setAddr_config (s : State) (a : DevAddr) : (s.setAddr a).config = s.config := rfl
@[simp] theorem setAddr_addr (s : State) (a : DevAddr) : (s.setAddr a).addr = a := rfl
@[simp] theorem setAddr_init (s : State) (a : DevAddr) : (s.setAddr a).init = s.init := rfl
@[simp] theorem setAddr_txbuf (s : State) (a : DevAddr) : (s.setAddr a).txbuf = s.txbuf := rfl
@[simp] theorem setAddr_txvb (s : State) (a : DevAddr) : (s.setAddr a).txvb = s.txvb := rfl
@[simp] theorem setAddr_res (s : State) (a : DevAddr) : (s.setAddr a).res = s.res := rfl
@[simp] theorem setAddr_crcHi (s : State) (a : DevAddr) : (s.setAddr a).crcHi = s.crcHi := rfl
@[simp] theorem setAddr_crcLo (s : State) (a : DevAddr) : (s.setAddr a).crcLo = s.crcLo := rfl
@[simp] theorem setAddr_uidb (s : State) (a : DevAddr) : (s.setAddr a).uidb = s.uidb := rfl
@[simp] theorem setAddr_sakr (s : State) (a : DevAddr) : (s.setAddr a).sakr = s.sakr := rfl
@[simp] theorem setAddr_seq (s : State) (a : DevAddr) : (s.setAddr a).seq = s.seq := rfl
@[simp] theorem setAddr_t0 (s : State) (a : DevAddr) : (s.setAddr a).t0 = s.t0 := rfl
@[simp] theorem setAddr_pv (s : State) (a : DevAddr) : (s.setAddr a).pv = s.pv := rfl
@[simp] theorem setAddr_requests (s : State) (a : DevAddr) : (s.setAddr a).requests = s.requests := rfl
@[simp] theorem setAddr_result (s : State) (a : DevAddr) : (s.setAddr a).result = s.result := rfl
@[simp] theorem setAddr_clock (s : State) (a : DevAddr) : (s.setAddr a).clock = s.clock := rfl
@[simp] theorem setAddr_trace (s : State) (a : DevAddr) : (s.setAddr a).trace = s.trace := rfl
@[simp] theorem setAddr_chip (s : State) (a : DevAddr) : (s.setAddr a).chip = s.chip := rfl
@[simp] theorem setAddr_answers (s : State) (a : DevAddr) : (s.setAddr a).answers = s.answers := rfl
@[simp] theorem setAddr_ticks (s : State) (a : DevAddr) : (s.setAddr a).ticks = s.ticks := rfl

/-! ### setInit -/

@[simp] theorem setInit_config (s : State) (b : Bool) : (s.setInit b).config = s.config := rfl
@[simp] theorem setInit_addr (s : State) (b : Bool) : (s.setInit b).addr = s.addr := rfl
@[simp] theorem setInit_init (s : State) (b : Bool) : (s.setInit b).init = b := rfl
@[simp] theorem setInit_txbuf (s : State) (b : Bool) : (s.setInit b).txbuf = s.txbuf := rfl
@[simp] theorem setInit_txvb (s : State) (b : Bool) : (s.setInit b).txvb = s.txvb := rfl
@[simp] theorem setInit_res (s : State) (b : Bool) : (s.setInit b).res = s.res := rfl
@[simp] theorem setInit_crcHi (s : State) (b : Bool) : (s.setInit b).crcHi = s.crcHi := rfl
@[simp] theorem setInit_crcLo (s : State) (b : Bool) : (s.setInit b).crcLo = s.crcLo := rfl
@[simp] theorem setInit_uidb (s : State) (b : Bool) : (s.setInit b).uidb = s.uidb := rfl
@[simp] theorem setInit_sakr (s : State) (b : Bool) : (s.setInit b).sakr = s.sakr := rfl
@[simp] theorem setInit_seq (s : State) (b : Bool) : (s.setInit b).seq = s.seq := rfl
@[simp] theorem setInit_t0 (s : State) (b : Bool) : (s.setInit b).t0 = s.t0 := rfl
@[simp] theorem setInit_pv (s : State) (b : Bool) : (s.setInit b).pv = s.pv := rfl
@[simp] theorem setInit_requests (s : State) (b : Bool) : (s.setInit b).requests = s.requests := rfl
@[simp] theorem setInit_result (s : State) (b : Bool) : (s.setInit b).result = s.result := rfl
@[simp] theorem setInit_clock (s : State) (b : Bool) : (s.setInit b).clock = s.clock := rfl
@[simp] theorem setInit_trace (s : State) (b : Bool) : (s.setInit b).trace = s.trace := rfl
@[simp] theorem setInit_chip (s : State) (b : Bool) : (s.setInit b).chip = s.chip := rfl
@[simp] theorem setInit_answers (s : State) (b : Bool) : (s.setInit b).answers = s.answers := rfl
@[simp] theorem setInit_ticks (s : State) (b : Bool) : (s.setInit b).ticks = s.ticks := rfl

/-! ### setTxf -/

@[simp] theorem setTxf_config (s : State) (f : List Byte) (v : ValidBits) : (s.setTxf f v).config = s.config := rfl
@[simp] theorem setTxf_addr (s : State) (f : List Byte) (v : ValidBits) : (s.setTxf f v).addr = s.addr := rfl
@[simp] theorem setTxf_init (s : State) (f : List Byte) (v : ValidBits) : (s.setTxf f v).init = s.init := rfl
@[simp] theorem setTxf_txbuf (s : State) (f : List Byte) (v : ValidBits) : (s.setTxf f v).txbuf = f := rfl
@[simp] theorem setTxf_txvb (s : State) (f : List Byte) (v : ValidBits) : (s.setTxf f v).txvb = v := rfl
@[simp] theorem setTxf_res (s : State) (f : List Byte) (v : ValidBits) : (s.setTxf f v).res = s.res := rfl
@[simp] theorem setTxf_crcHi (s : State) (f : List Byte) (v : ValidBits) : (s.setTxf f v).crcHi = s.crcHi := rfl
@[simp] theorem setTxf_crcLo (s : State) (f : List Byte) (v : ValidBits) : (s.setTxf f v).crcLo = s.crcLo := rfl
@[simp] theorem setTxf_uidb (s : State) (f : List Byte) (v : ValidBits) : (s.setTxf f v).uidb = s.uidb := rfl
@[simp] theorem setTxf_sakr (s : State) (f : List Byte) (v : ValidBits) : (s.setTxf f v).sakr = s.sakr := rfl
@[simp] theorem setTxf_seq (s : State) (f : List Byte) (v : ValidBits) : (s.setTxf f v).seq = s.seq := rfl
@[simp] theorem setTxf_t0 (s : State) (f : List Byte) (v : ValidBits) : (s.setTxf f v).t0 = s.t0 := rfl
@[simp] theorem setTxf_pv (s : State) (f : List Byte) (v : ValidBits) : (s.setTxf f v).pv = s.pv := rfl
@[simp] theorem setTxf_requests (s : State) (f : List Byte) (v : ValidBits) : (s.setTxf f v).requests = s.requests := rfl
@[simp] theorem setTxf_result (s : State) (f : List Byte) (v : ValidBits) : (s.setTxf f v).result = s.result := rfl
@[simp] theorem setTxf_clock (s : State) (f : List Byte) (v : ValidBits) : (s.setTxf f v).clock = s.clock := rfl
@[simp] theorem setTxf_trace (s : State) (f : List Byte) (v : ValidBits) : (s.setTxf f v).trace = s.trace := rfl
@[simp] theorem setTxf_chip (s : State) (f : List Byte) (v : ValidBits) : (s.setTxf f v).chip = s.chip := rfl
@[simp] theorem setTxf_answers (s : State) (f : List Byte) (v : ValidBits) : (s.setTxf f v).answers = s.answers := rfl
@[simp] theorem setTxf_ticks (s : State) (f : List Byte) (v : ValidBits) : (s.setTxf f v).ticks = s.ticks := rfl

/-! ### setRes -/

@[simp] theorem setRes_config (s : State) (r : ExchangeResult) : (s.setRes r).config = s.config := rfl
@[simp] theorem setRes_addr (s : State) (r : ExchangeResult) : (s.setRes r).addr = s.addr := rfl
@[simp] theorem setRes_init (s : State) (r : ExchangeResult) : (s.setRes r).init = s.init := rfl
@[simp] theorem setRes_txbuf (s : State) (r : ExchangeResult) : (s.setRes r).txbuf = s.txbuf := rfl
@[simp] theorem setRes_txvb (s : State) (r : ExchangeResult) : (s.setRes r).txvb = s.txvb := rfl
@[simp] theorem setRes_res (s : State) (r : ExchangeResult) : (s.setRes r).res = r := rfl
@[simp] theorem setRes_crcHi (s : State) (r : ExchangeResult) : (s.setRes r).crcHi = s.crcHi := rfl
@[simp] theorem setRes_crcLo (s : State) (r : ExchangeResult) : (s.setRes r).crcLo = s.crcLo := rfl
@[simp] theorem setRes_uidb (s : State) (r : ExchangeResult) : (s.setRes r).uidb = s.uidb := rfl
@[simp] theorem setRes_sakr (s : State) (r : ExchangeResult) : (s.setRes r).sakr = s.sakr := rfl
@[simp] theorem setRes_seq (s : State) (r : ExchangeResult) : (s.setRes r).seq = s.seq := rfl
@[simp] theorem setRes_t0 (s : State) (r : ExchangeResult) : (s.setRes r).t0 = s.t0 := rfl
@[simp] theorem setRes_pv (s : State) (r : ExchangeResult) : (s.setRes r).pv = s.pv := rfl
@[simp] theorem setRes_requests (s : State) (r : ExchangeResult) : (s.setRes r).requests = s.requests := rfl
@[simp] theorem setRes_result (s : State) (r : ExchangeResult) : (s.setRes r).result = s.result := rfl
@[simp] theorem setRes_clock (s : State) (r : ExchangeResult) : (s.setRes r).clock = s.clock := rfl
@[simp] theorem setRes_trace (s : State) (r : ExchangeResult) : (s.setRes r).trace = s.trace := rfl
@[simp] theorem setRes_chip (s : State) (r : ExchangeResult) : (s.setRes r).chip = s.chip := rfl
@[simp] theorem setRes_answers (s : State) (r : ExchangeResult) : (s.setRes r).answers = s.answers := rfl
@[simp] theorem setRes_ticks (s : State) (r : ExchangeResult) : (s.setRes r).ticks = s.ticks := rfl

/-! ### setCrcHi -/

@[simp] theorem setCrcHi_config (s : State) (v : Byte) : (s.setCrcHi v).config = s.config := rfl
@[simp] theorem setCrcHi_addr (s : State) (v : Byte) : (s.setCrcHi v).addr = s.addr := rfl
@[simp] theorem setCrcHi_init (s : State) (v : Byte) : (s.setCrcHi v).init = s.init := rfl
@[simp] theorem setCrcHi_txbuf (s : State) (v : Byte) : (s.setCrcHi v).txbuf = s.txbuf := rfl
@[simp] theorem setCrcHi_txvb (s : State) (v : Byte) : (s.setCrcHi v).txvb = s.txvb := rfl
@[simp] theorem setCrcHi_res (s : State) (v : Byte) : (s.setCrcHi v).res = s.res := rfl
@[simp] theorem setCrcHi_crcHi (s : State) (v : Byte) : (s.setCrcHi v).crcHi = v := rfl
@[simp] theorem setCrcHi_crcLo (s : State) (v : Byte) : (s.setCrcHi v).crcLo = s.crcLo := rfl
@[simp] theorem setCrcHi_uidb (s : State) (v : Byte) : (s.setCrcHi v).uidb = s.uidb := rfl
@[simp] theorem setCrcHi_sakr (s : State) (v : Byte) : (s.setCrcHi v).sakr = s.sakr := rfl
@[simp] theorem setCrcHi_seq (s : State) (v : Byte) : (s.setCrcHi v).seq = s.seq := rfl
@[simp] theorem setCrcHi_t0 (s : State) (v : Byte) : (s.setCrcHi v).t0 = s.t0 := rfl
@[simp] theorem setCrcHi_pv (s : State) (v : Byte) : (s.setCrcHi v).pv = s.pv := rfl
@[simp] theorem setCrcHi_requests (s : State) (v : Byte) : (s.setCrcHi v).requests = s.requests := rfl
@[simp] theorem setCrcHi_result (s : State) (v : Byte) : (s.setCrcHi v).result = s.result := rfl
@[simp] theorem setCrcHi_clock (s : State) (v : Byte) : (s.setCrcHi v).clock = s.clock := rfl
@[simp] theorem setCrcHi_trace (s : State) (v : Byte) : (s.setCrcHi v).trace = s.trace := rfl
@[simp] theorem setCrcHi_chip (s : State) (v : Byte) : (s.setCrcHi v).chip = s.chip := rfl
@[simp] theorem setCrcHi_answers (s : State) (v : Byte) : (s.setCrcHi v).answers = s.answers := rfl
@[simp] theorem setCrcHi_ticks (s : State) (v : Byte) : (s.setCrcHi v).ticks = s.ticks := rfl

/-! ### setCrcLo -/

@[simp] theorem setCrcLo_config (s : State) (v : Byte) : (s.setCrcLo v).config = s.config := rfl
@[simp] theorem setCrcLo_addr (s : State) (v : Byte) : (s.setCrcLo v).addr = s.addr := rfl
@[simp] theorem setCrcLo_init (s : State) (v : Byte) : (s.setCrcLo v).init = s.init := rfl
@[simp] theorem setCrcLo_txbuf (s : State) (v : Byte) : (s.setCrcLo v).txbuf = s.txbuf := rfl
@[simp] theorem setCrcLo_txvb (s : State) (v : Byte) : (s.setCrcLo v).txvb = s.txvb := rfl
@[simp] theorem setCrcLo_res (s : State) (v : Byte) : (s.setCrcLo v).res = s.res := rfl
@[simp] theorem setCrcLo_crcHi (s : State) (v : Byte) : (s.setCrcLo v).crcHi = s.crcHi := rfl
@[simp] theorem setCrcLo_crcLo (s : State) (v : Byte) : (s.setCrcLo v).crcLo = v := rfl
@[simp] theorem setCrcLo_uidb (s : State) (v : Byte) : (s.setCrcLo v).uidb = s.uidb := rfl
@[simp] theorem setCrcLo_sakr (s : State) (v : Byte) : (s.setCrcLo v).sakr = s.sakr := rfl
@[simp] theorem setCrcLo_seq (s : State) (v : Byte) : (s.setCrcLo v).seq = s.seq := rfl
@[simp] theorem setCrcLo_t0 (s : State) (v : Byte) : (s.setCrcLo v).t0 = s.t0 := rfl
@[simp] theorem setCrcLo_pv (s : State) (v : Byte) : (s.setCrcLo v).pv = s.pv := rfl
@[simp] theorem setCrcLo_requests (s : State) (v : Byte) : (s.setCrcLo v).requests = s.requests := rfl
@[simp] theorem setCrcLo_result (s : State) (v : Byte) : (s.setCrcLo v).result = s.result := rfl
@[simp] theorem setCrcLo_clock (s : State) (v : Byte) : (s.setCrcLo v).clock = s.clock := rfl
@[simp] theorem setCrcLo_trace (s : State) (v : Byte) : (s.setCrcLo v).trace = s.trace := rfl
@[simp] theorem setCrcLo_chip (s : State) (v : Byte) : (s.setCrcLo v).chip = s.chip := rfl
@[simp] theorem setCrcLo_answers (s : State) (v : Byte) : (s.setCrcLo v).answers = s.answers := rfl
@[simp] theorem setCrcLo_ticks (s : State) (v : Byte) : (s.setCrcLo v).ticks = s.ticks := rfl

/-! ### setUidb -/

@[simp] theorem setUidb_config (s : State) (u : Uidb) : (s.setUidb u).config = s.config := rfl
@[simp] theorem setUidb_addr (s : State) (u : Uidb) : (s.setUidb u).addr = s.addr := rfl
@[simp] theorem setUidb_init (s : State) (u : Uidb) : (s.setUidb u).init = s.init := rfl
@[simp] theorem setUidb_txbuf (s : State) (u : Uidb) : (s.setUidb u).txbuf = s.txbuf := rfl
@[simp] theorem setUidb_txvb (s : State) (u : Uidb) : (s.setUidb u).txvb = s.txvb := rfl
@[simp] theorem setUidb_res (s : State) (u : Uidb) : (s.setUidb u).res = s.res := rfl
@[simp] theorem setUidb_crcHi (s : State) (u : Uidb) : (s.setUidb u).crcHi = s.crcHi := rfl
@[simp] theorem setUidb_crcLo (s : State) (u : Uidb) : (s.setUidb u).crcLo = s.crcLo := rfl
@[simp] theorem setUidb_uidb (s : State) (u : Uidb) : (s.setUidb u).uidb = u := rfl
@[simp] theorem setUidb_sakr (s : State) (u : Uidb) : (s.setUidb u).sakr = s.sakr := rfl
@[simp] theorem setUidb_seq (s : State) (u : Uidb) : (s.setUidb u).seq = s.seq := rfl
@[simp] theorem setUidb_t0 (s : State) (u : Uidb) : (s.setUidb u).t0 = s.t0 := rfl
@[simp] theorem setUidb_pv (s : State) (u : Uidb) : (s.setUidb u).pv = s.pv := rfl
@[simp] theorem setUidb_requests (s : State) (u : Uidb) : (s.setUidb u).requests = s.requests := rfl
@[simp] theorem setUidb_result (s : State) (u : Uidb) : (s.setUidb u).result = s.result := rfl
@[simp] theorem setUidb_clock (s : State) (u : Uidb) : (s.setUidb u).clock = s.clock := rfl
@[simp] theorem setUidb_trace (s : State) (u : Uidb) : (s.setUidb u).trace = s.trace := rfl
@[simp] theorem setUidb_chip (s : State) (u : Uidb) : (s.setUidb u).chip = s.chip := rfl
@[simp] theorem setUidb_answers (s : State) (u : Uidb) : (s.setUidb u).answers = s.answers := rfl
@[simp] theorem setUidb_ticks (s : State) (u : Uidb) : (s.setUidb u).ticks = s.ticks := rfl

/-! ### setSakr -/

@[simp] theorem setSakr_config (s : State) (v : Byte) : (s.setSakr v).config = s.config := rfl
@[simp] theorem setSakr_addr (s : State) (v : Byte) : (s.setSakr v).addr = s.addr := rfl
@[simp] theorem setSakr_init (s : State) (v : Byte) : (s.setSakr v).init = s.init := rfl
@[simp] theorem setSakr_txbuf (s : State) (v : Byte) : (s.setSakr v).txbuf = s.txbuf := rfl
@[simp] theorem setSakr_txvb (s : State) (v : Byte) : (s.setSakr v).txvb = s.txvb := rfl
@[simp] theorem setSakr_res (s : State) (v : Byte) : (s.setSakr v).res = s.res := rfl
@[simp] theorem setSakr_crcHi (s : State) (v : Byte) : (s.setSakr v).crcHi = s.crcHi := rfl
@[simp] theorem setSakr_crcLo (s : State) (v : Byte) : (s.setSakr v).crcLo = s.crcLo := rfl
@[simp] theorem setSakr_uidb (s : State) (v : Byte) : (s.setSakr v).uidb = s.uidb := rfl
@[simp] theorem setSakr_sakr (s : State) (v : Byte) : (s.setSakr v).sakr = v := rfl
@[simp] theorem setSakr_seq (s : State) (v : Byte) : (s.setSakr v).seq = s.seq := rfl
@[simp] theorem setSakr_t0 (s : State) (v : Byte) : (s.setSakr v).t0 = s.t0 := rfl
@[simp] theorem setSakr_pv (s : State) (v : Byte) : (s.setSakr v).pv = s.pv := rfl
@[simp] theorem setSakr_requests (s : State) (v : Byte) : (s.setSakr v).requests = s.requests := rfl
@[simp] theorem setSakr_result (s : State) (v : Byte) : (s.setSakr v).result = s.result := rfl
@[simp] theorem setSakr_clock (s : State) (v : Byte) : (s.setSakr v).clock = s.clock := rfl
@[simp] theorem setSakr_trace (s : State) (v : Byte) : (s.setSakr v).trace = s.trace := rfl
@[simp] theorem setSakr_chip (s : State) (v : Byte) : (s.setSakr v).chip = s.chip := rfl
@[simp] theorem setSakr_answers (s : State) (v : Byte) : (s.setSakr v).answers = s.answers := rfl
@[simp] theorem setSakr_ticks (s : State) (v : Byte) : (s.setSakr v).ticks = s.ticks := rfl

/-! ### setSeq -/

@[simp] theorem setSeq_config (s : State) (q : Option Sequence) : (s.setSeq q).config = s.config := rfl
@[simp] theorem setSeq_addr (s : State) (q : Option Sequence) : (s.setSeq q).addr = s.addr := rfl
@[simp] theorem setSeq_init (s : State) (q : Option Sequence) : (s.setSeq q).init = s.init := rfl
@[simp] theorem setSeq_txbuf (s : State) (q : Option Sequence) : (s.setSeq q).txbuf = s.txbuf := rfl
@[simp] theorem setSeq_txvb (s : State) (q : Option Sequence) : (s.setSeq q).txvb = s.txvb := rfl
@[simp] theorem setSeq_res (s : State) (q : Option Sequence) : (s.setSeq q).res = s.res := rfl
@[simp] theorem setSeq_crcHi (s : State) (q : Option Sequence) : (s.setSeq q).crcHi = s.crcHi := rfl
@[simp] theorem setSeq_crcLo (s : State) (q : Option Sequence) : (s.setSeq q).crcLo = s.crcLo := rfl
@[simp] theorem setSeq_uidb (s : State) (q : Option Sequence) : (s.setSeq q).uidb = s.uidb := rfl
@[simp] theorem setSeq_sakr (s : State) (q : Option Sequence) : (s.setSeq q).sakr = s.sakr := rfl
@[simp] theorem setSeq_seq (s : State) (q : Option Sequence) : (s.setSeq q).seq = q := rfl
@[simp] theorem setSeq_t0 (s : State) (q : Option Sequence) : (s.setSeq q).t0 = s.t0 := rfl
@[simp] theorem setSeq_pv (s : State) (q : Option Sequence) : (s.setSeq q).pv = s.pv := rfl
@[simp] theorem setSeq_requests (s : State) (q : Option Sequence) : (s.setSeq q).requests = s.requests := rfl
@[simp] theorem setSeq_result (s : State) (q : Option Sequence) : (s.setSeq q).result = s.result := rfl
@[simp] theorem setSeq_clock (s : State) (q : Option Sequence) : (s.setSeq q).clock = s.clock := rfl
@[simp] theorem setSeq_trace (s : State) (q : Option Sequence) : (s.setSeq q).trace = s.trace := rfl
@[simp] theorem setSeq_chip (s : State) (q : Option Sequence) : (s.setSeq q).chip = s.chip := rfl
@[simp] theorem setSeq_answers (s : State) (q : Option Sequence) : (s.setSeq q).answers = s.answers := rfl
@[simp] theorem setSeq_ticks (s : State) (q : Option Sequence) : (s.setSeq q).ticks = s.ticks := rfl

/-! ### setT0 -/

@[simp] theorem setT0_config (s : State) (t : Nat) : (s.setT0 t).config = s.config := rfl
@[simp] theorem setT0_addr (s : State) (t : Nat) : (s.setT0 t).addr = s.addr := rfl
@[simp] theorem setT0_init (s : State) (t : Nat) : (s.setT0 t).init = s.init := rfl
@[simp] theorem setT0_txbuf (s : State) (t : Nat) : (s.setT0 t).txbuf = s.txbuf := rfl
@[simp] theorem setT0_txvb (s : State) (t : Nat) : (s.setT0 t).txvb = s.txvb := rfl
@[simp] theorem setT0_res (s : State) (t : Nat) : (s.setT0 t).res = s.res := rfl
@[simp] theorem setT0_crcHi (s : State) (t : Nat) : (s.setT0 t).crcHi = s.crcHi := rfl
@[simp] theorem setT0_crcLo (s : State) (t : Nat) : (s.setT0 t).crcLo = s.crcLo := rfl
@[simp] theorem setT0_uidb (s : State) (t : Nat) : (s.setT0 t).uidb = s.uidb := rfl
@[simp] theorem setT0_sakr (s : State) (t : Nat) : (s.setT0 t).sakr = s.sakr := rfl
@[simp] theorem setT0_seq (s : State) (t : Nat) : (s.setT0 t).seq = s.seq := rfl
@[simp] theorem setT0_t0 (s : State) (t : Nat) : (s.setT0 t).t0 = t := rfl
@[simp] theorem setT0_pv (s : State) (t : Nat) : (s.setT0 t).pv = s.pv := rfl
@[simp] theorem setT0_requests (s : State) (t : Nat) : (s.setT0 t).requests = s.requests := rfl
@[simp] theorem setT0_result (s : State) (t : Nat) : (s.setT0 t).result = s.result := rfl
@[simp] theorem setT0_clock (s : State) (t : Nat) : (s.setT0 t).clock = s.clock := rfl
@[simp] theorem setT0_trace (s : State) (t : Nat) : (s.setT0 t).trace = s.trace := rfl
@[simp] theorem setT0_chip (s : State) (t : Nat) : (s.setT0 t).chip = s.chip := rfl
@[simp] theorem setT0_answers (s : State) (t : Nat) : (s.setT0 t).answers = s.answers := rfl
@[simp] theorem setT0_ticks (s : State) (t : Nat) : (s.setT0 t).ticks = s.ticks := rfl

/-! ### setPv -/

@[simp] theorem setPv_config (s : State) (v : Verdict) : (s.setPv v).config = s.config := rfl
@[simp] theorem setPv_addr (s : State) (v : Verdict) : (s.setPv v).addr = s.addr := rfl
@[simp] theorem setPv_init (s : State) (v : Verdict) : (s.setPv v).init = s.init := rfl
@[simp] theorem setPv_txbuf (s : State) (v : Verdict) : (s.setPv v).txbuf = s.txbuf := rfl
@[simp] theorem setPv_txvb (s : State) (v : Verdict) : (s.setPv v).txvb = s.txvb := rfl
@[simp] theorem setPv_res (s : State) (v : Verdict) : (s.setPv v).res = s.res := rfl
@[simp] theorem setPv_crcHi (s : State) (v : Verdict) : (s.setPv v).crcHi = s.crcHi := rfl
@[simp] theorem setPv_crcLo (s : State) (v : Verdict) : (s.setPv v).crcLo = s.crcLo := rfl
@[simp] theorem setPv_uidb (s : State) (v : Verdict) : (s.setPv v).uidb = s.uidb := rfl
@[simp] theorem setPv_sakr (s : State) (v : Verdict) : (s.setPv v).sakr = s.sakr := rfl
@[simp] theorem setPv_seq (s : State) (v : Verdict) : (s.setPv v).seq = s.seq := rfl
@[simp] theorem setPv_t0 (s : State) (v : Verdict) : (s.setPv v).t0 = s.t0 := rfl
@[simp] theorem setPv_pv (s : State) (v : Verdict) : (s.setPv v).pv = v := rfl
@[simp] theorem setPv_requests (s : State) (v : Verdict) : (s.setPv v).requests = s.requests := rfl
@[simp] theorem setPv_result (s : State) (v : Verdict) : (s.setPv v).result = s.result := rfl
@[simp] theorem setPv_clock (s : State) (v : Verdict) : (s.setPv v).clock = s.clock := rfl
@[simp] theorem setPv_trace (s : State) (v : Verdict) : (s.setPv v).trace = s.trace := rfl
@[simp] theorem setPv_chip (s : State) (v : Verdict) : (s.setPv v).chip = s.chip := rfl
@[simp] theorem setPv_answers (s : State) (v : Verdict) : (s.setPv v).answers = s.answers := rfl
@[simp] theorem setPv_ticks (s : State) (v : Verdict) : (s.setPv v).ticks = s.ticks := rfl

/-! ### setRequests -/

@[simp] theorem setRequests_config (s : State) (l : List Request) : (s.setRequests l).config = s.config := rfl
@[simp] theorem setRequests_addr (s : State) (l : List Request) : (s.setRequests l).addr = s.addr := rfl
@[simp] theorem setRequests_init (s : State) (l : List Request) : (s.setRequests l).init = s.init := rfl
@[simp] theorem setRequests_txbuf (s : State) (l : List Request) : (s.setRequests l).txbuf = s.txbuf := rfl
@[simp] theorem setRequests_txvb (s : State) (l : List Request) : (s.setRequests l).txvb = s.txvb := rfl
@[simp] theorem setRequests_res (s : State) (l : List Request) : (s.setRequests l).res = s.res := rfl
@[simp] theorem setRequests_crcHi (s : State) (l : List Request) : (s.setRequests l).crcHi = s.crcHi := rfl
@[simp] theorem setRequests_crcLo (s : State) (l : List Request) : (s.setRequests l).crcLo = s.crcLo := rfl
@[simp] theorem setRequests_uidb (s : State) (l : List Request) : (s.setRequests l).uidb = s.uidb := rfl
@[simp] theorem setRequests_sakr (s : State) (l : List Request) : (s.setRequests l).sakr = s.sakr := rfl
@[simp] theorem setRequests_seq (s : State) (l : List Request) : (s.setRequests l).seq = s.seq := rfl
@[simp] theorem setRequests_t0 (s : State) (l : List Request) : (s.setRequests l).t0 = s.t0 := rfl
@[simp] theorem setRequests_pv (s : State) (l : List Request) : (s.setRequests l).pv = s.pv := rfl
@[simp] theorem setRequests_requests (s : State) (l : List Request) : (s.setRequests l).requests = l := rfl
@[simp] theorem setRequests_result (s : State) (l : List Request) : (s.setRequests l).result = s.result := rfl
@[simp] theorem setRequests_clock (s : State) (l : List Request) : (s.setRequests l).clock = s.clock := rfl
@[simp] theorem setRequests_trace (s : State) (l : List Request) : (s.setRequests l).trace = s.trace := rfl
@[simp] theorem setRequests_chip (s : State) (l : List Request) : (s.setRequests l).chip = s.chip := rfl
@[simp] theorem setRequests_answers (s : State) (l : List Request) : (s.setRequests l).answers = s.answers := rfl
@[simp] theorem setRequests_ticks (s : State) (l : List Request) : (s.setRequests l).ticks = s.ticks := rfl

/-! ### setResult -/

@[simp] theorem setResult_config (s : State) (r : Option Result) : (s.setResult r).config = s.config := rfl
@[simp] theorem setResult_addr (s : State) (r : Option Result) : (s.setResult r).addr = s.addr := rfl
@[simp] theorem setResult_init (s : State) (r : Option Result) : (s.setResult r).init = s.init := rfl
@[simp] theorem setResult_txbuf (s : State) (r : Option Result) : (s.setResult r).txbuf = s.txbuf := rfl
@[simp] theorem setResult_txvb (s : State) (r : Option Result) : (s.setResult r).txvb = s.txvb := rfl
@[simp] theorem setResult_res (s : State) (r : Option Result) : (s.setResult r).res = s.res := rfl
@[simp] theorem setResult_crcHi (s : State) (r : Option Result) : (s.setResult r).crcHi = s.crcHi := rfl
@[simp] theorem setResult_crcLo (s : State) (r : Option Result) : (s.setResult r).crcLo = s.crcLo := rfl
@[simp] theorem setResult_uidb (s : State) (r : Option Result) : (s.setResult r).uidb = s.uidb := rfl
@[simp] theorem setResult_sakr (s : State) (r : Option Result) : (s.setResult r).sakr = s.sakr := rfl
@[simp] theorem setResult_seq (s : State) (r : Option Result) : (s.setResult r).seq = s.seq := rfl
@[simp] theorem setResult_t0 (s : State) (r : Option Result) : (s.setResult r).t0 = s.t0 := rfl
@[simp] theorem setResult_pv (s : State) (r : Option Result) : (s.setResult r).pv = s.pv := rfl
@[simp] theorem setResult_requests (s : State) (r : Option Result) : (s.setResult r).requests = s.requests := rfl
@[simp] theorem setResult_result (s : State) (r : Option Result) : (s.setResult r).result = r := rfl
@[simp] theorem setResult_clock (s : State) (r : Option Result) : (s.setResult r).clock = s.clock := rfl
@[simp] theorem setResult_trace (s : State) (r : Option Result) : (s.setResult r).trace = s.trace := rfl
@[simp] theorem setResult_chip (s : State) (r : Option Result) : (s.setResult r).chip = s.chip := rfl
@[simp] theorem setResult_answers (s : State) (r : Option Result) : (s.setResult r).answers = s.answers := rfl
@[simp] theorem setResult_ticks (s : State) (r : Option Result) : (s.setResult r).ticks = s.ticks := rfl

/-! ### setAnswers -/

@[simp] theorem setAnswers_config (s : State) (l : List Answer) : (s.setAnswers l).config = s.config := rfl
@[simp] theorem setAnswers_addr (s : State) (l : List Answer) : (s.setAnswers l).addr = s.addr := rfl
@[simp] theorem setAnswers_init (s : State) (l : List Answer) : (s.setAnswers l).init = s.init := rfl
@[simp] theorem setAnswers_txbuf (s : State) (l : List Answer) : (s.setAnswers l).txbuf = s.txbuf := rfl
@[simp] theorem setAnswers_txvb (s : State) (l : List Answer) : (s.setAnswers l).txvb = s.txvb := rfl
@[simp] theorem setAnswers_res (s : State) (l : List Answer) : (s.setAnswers l).res = s.res := rfl
@[simp] theorem setAnswers_crcHi (s : State) (l : List Answer) : (s.setAnswers l).crcHi = s.crcHi := rfl
@[simp] theorem setAnswers_crcLo (s : State) (l : List Answer) : (s.setAnswers l).crcLo = s.crcLo := rfl
@[simp] theorem setAnswers_uidb (s : State) (l : List Answer) : (s.setAnswers l).uidb = s.uidb := rfl
@[simp] theorem setAnswers_sakr (s : State) (l : List Answer) : (s.setAnswers l).sakr = s.sakr := rfl
@[simp] theorem setAnswers_seq (s : State) (l : List Answer) : (s.setAnswers l).seq = s.seq := rfl
@[simp] theorem setAnswers_t0 (s : State) (l : List Answer) : (s.setAnswers l).t0 = s.t0 := rfl
@[simp] theorem setAnswers_pv (s : State) (l : List Answer) : (s.setAnswers l).pv = s.pv := rfl
@[simp] theorem setAnswers_requests (s : State) (l : List Answer) : (s.setAnswers l).requests = s.requests := rfl
@[simp] theorem setAnswers_result (s : State) (l : List Answer) : (s.setAnswers l).result = s.result := rfl
@[simp] theorem setAnswers_clock (s : State) (l : List Answer) : (s.setAnswers l).clock = s.clock := rfl
@[simp] theorem setAnswers_trace (s : State) (l : List Answer) : (s.setAnswers l).trace = s.trace := rfl
@[simp] theorem setAnswers_chip (s : State) (l : List Answer) : (s.setAnswers l).chip = s.chip := rfl
@[simp] theorem setAnswers_answers (s : State) (l : List Answer) : (s.setAnswers l).answers = l := rfl
@[simp] theorem setAnswers_ticks (s : State) (l : List Answer) : (s.setAnswers l).ticks = s.ticks := rfl

/-! ### setChip -/

@[simp] theorem setChip_config (s : State) (c : Chip) : (s.setChip c).config = s.config := rfl
@[simp] theorem setChip_addr (s : State) (c : Chip) : (s.setChip c).addr = s.addr := rfl
@[simp] theorem setChip_init (s : State) (c : Chip) : (s.setChip c).init = s.init := rfl
@[simp] theorem setChip_txbuf (s : State) (c : Chip) : (s.setChip c).txbuf = s.txbuf := rfl
@[simp] theorem setChip_txvb (s : State) (c : Chip) : (s.setChip c).txvb = s.txvb := rfl
@[simp] theorem setChip_res (s : State) (c : Chip) : (s.setChip c).res = s.res := rfl
@[simp] theorem setChip_crcHi (s : State) (c : Chip) : (s.setChip c).crcHi = s.crcHi := rfl
@[simp] theorem setChip_crcLo (s : State) (c : Chip) : (s.setChip c).crcLo = s.crcLo := rfl
@[simp] theorem setChip_uidb (s : State) (c : Chip) : (s.setChip c).uidb = s.uidb := rfl
@[simp] theorem setChip_sakr (s : State) (c : Chip) : (s.setChip c).sakr = s.sakr := rfl
@[simp] theorem setChip_seq (s : State) (c : Chip) : (s.setChip c).seq = s.seq := rfl
@[simp] theorem setChip_t0 (s : State) (c : Chip) : (s.setChip c).t0 = s.t0 := rfl
@[simp] theorem setChip_pv (s : State) (c : Chip) : (s.setChip c).pv = s.pv := rfl
@[simp] theorem setChip_requests (s : State) (c : Chip) : (s.setChip c).requests = s.requests := rfl
@[simp] theorem setChip_result (s : State) (c : Chip) : (s.setChip c).result = s.result := rfl
@[simp] theorem setChip_clock (s : State) (c : Chip) : (s.setChip c).clock = s.clock := rfl
@[simp] theorem setChip_trace (s : State) (c : Chip) : (s.setChip c).trace = s.trace := rfl
@[simp] theorem setChip_chip (s : State) (c : Chip) : (s.setChip c).chip = c := rfl
@[simp] theorem setChip_answers (s : State) (c : Chip) : (s.setChip c).answers = s.answers := rfl
@[simp] theorem setChip_ticks (s : State) (c : Chip) : (s.setChip c).ticks = s.ticks := rfl

/-! ### record -/

@[simp] theorem record_config (s : State) (e : Event) : (s.record e).config = s.config := rfl
@[simp] theorem record_addr (s : State) (e : Event) : (s.record e).addr = s.addr := rfl
@[simp] theorem record_init (s : State) (e : Event) : (s.record e).init = s.init := rfl
@[simp] theorem record_txbuf (s : State) (e : Event) : (s.record e).txbuf = s.txbuf := rfl
@[simp] theorem record_txvb (s : State) (e : Event) : (s.record e).txvb = s.txvb := rfl
@[simp] theorem record_res (s : State) (e : Event) : (s.record e).res = s.res := rfl
@[simp] theorem record_crcHi (s : State) (e : Event) : (s.record e).crcHi = s.crcHi := rfl
@[simp] theorem record_crcLo (s : State) (e : Event) : (s.record e).crcLo = s.crcLo := rfl
@[simp] theorem record_uidb (s : State) (e : Event) : (s.record e).uidb = s.uidb := rfl
@[simp] theorem record_sakr (s : State) (e : Event) : (s.record e).sakr = s.sakr := rfl
@[simp] theorem record_seq (s : State) (e : Event) : (s.record e).seq = s.seq := rfl
@[simp] theorem record_t0 (s : State) (e : Event) : (s.record e).t0 = s.t0 := rfl
@[simp] theorem record_pv (s : State) (e : Event) : (s.record e).pv = s.pv := rfl
@[simp] theorem record_requests (s : State) (e : Event) : (s.record e).requests = s.requests := rfl
@[simp] theorem record_result (s : State) (e : Event) : (s.record e).result = s.result := rfl
@[simp] theorem record_clock (s : State) (e : Event) : (s.record e).clock = s.clock := rfl
@[simp] theorem record_trace (s : State) (e : Event) : (s.record e).trace = s.trace ++ [e] := rfl
@[simp] theorem record_chip (s : State) (e : Event) : (s.record e).chip = s.chip := rfl
@[simp] theorem record_answers (s : State) (e : Event) : (s.record e).answers = s.answers := rfl
@[simp] theorem record_ticks (s : State) (e : Event) : (s.record e).ticks = s.ticks := rfl

/-! ### elapse -/

@[simp] theorem elapse_config (s : State) (ms : Nat) : (s.elapse ms).config = s.config := rfl
@[simp] theorem elapse_addr (s : State) (ms : Nat) : (s.elapse ms).addr = s.addr := rfl
@[simp] theorem elapse_init (s : State) (ms : Nat) : (s.elapse ms).init = s.init := rfl
@[simp] theorem elapse_txbuf (s : State) (ms : Nat) : (s.elapse ms).txbuf = s.txbuf := rfl
@[simp] theorem elapse_txvb (s : State) (ms : Nat) : (s.elapse ms).txvb = s.txvb := rfl
@[simp] theorem elapse_res (s : State) (ms : Nat) : (s.elapse ms).res = s.res := rfl
@[simp] theorem elapse_crcHi (s : State) (ms : Nat) : (s.elapse ms).crcHi = s.crcHi := rfl
@[simp] theorem elapse_crcLo (s : State) (ms : Nat) : (s.elapse ms).crcLo = s.crcLo := rfl
@[simp] theorem elapse_uidb (s : State) (ms : Nat) : (s.elapse ms).uidb = s.uidb := rfl
@[simp] theorem elapse_sakr (s : State) (ms : Nat) : (s.elapse ms).sakr = s.sakr := rfl
@[simp] theorem elapse_seq (s : State) (ms : Nat) : (s.elapse ms).seq = s.seq := rfl
@[simp] theorem elapse_t0 (s : State) (ms : Nat) : (s.elapse ms).t0 = s.t0 := rfl
@[simp] theorem elapse_pv (s : State) (ms : Nat) : (s.elapse ms).pv = s.pv := rfl
@[simp] theorem elapse_requests (s : State) (ms : Nat) : (s.elapse ms).requests = s.requests := rfl
@[simp] theorem elapse_result (s : State) (ms : Nat) : (s.elapse ms).result = s.result := rfl
@[simp] theorem elapse_clock (s : State) (ms : Nat) : (s.elapse ms).clock = s.clock + ms := rfl
@[simp] theorem elapse_trace (s : State) (ms : Nat) : (s.elapse ms).trace = s.trace := rfl
@[simp] theorem elapse_chip (s : State) (ms : Nat) : (s.elapse ms).chip = s.chip := rfl
@[simp] theorem elapse_answers (s : State) (ms : Nat) : (s.elapse ms).answers = s.answers := rfl
@[simp] theorem elapse_ticks (s : State) (ms : Nat) : (s.elapse ms).ticks = s.ticks + 1 := rfl

end Sys2Proof.Machine.State
end

