-- ==== Sys2Proof/Laws/Memory.lean ====
section
/-! SUPPORT. The register space: read after write, and the canonical form every operation keeps. -/

namespace Sys2Proof.Machine.Memory

theorem key_lt (dev : DevAddr) (reg : Byte) : key dev reg < 32768 := by
  have hd := dev.isLt
  have hr := reg.isLt
  simp only [key]
  omega

/-- Two registers share an address only when device and register agree. -/
theorem key_inj {d d' : DevAddr} {r r' : Byte} : key d r = key d' r' ↔ d = d' ∧ r = r' := by
  have h1 := r.isLt
  have h2 := r'.isLt
  constructor
  · intro h
    simp only [key] at h
    constructor <;> apply BitVec.eq_of_toNat_eq <;> omega
  · rintro ⟨rfl, rfl⟩
    rfl

@[simp] theorem read_write_same (m : List Host.Cell) (a : Nat) (v : Byte) : read (write m a v) a = some v := by
  induction m with
  | nil => simp [write, read]
  | cons c m ih =>
    obtain ⟨k, b⟩ := c
    simp only [write]
    split
    · simp [read]
    · split
      · simp [read]
      · simp only [read]
        rw [if_neg (by omega)]
        exact ih

theorem read_write_other {m : List Host.Cell} {a x : Nat} {v : Byte} (h : x ≠ a) :
    read (write m a v) x = read m x := by
  induction m with
  | nil => simp [write, read, Ne.symm h]
  | cons c m ih =>
    obtain ⟨k, b⟩ := c
    simp only [write]
    split
    · simp [read, Ne.symm h]
    · split
      · subst_vars
        simp [read, Ne.symm h]
      · simp only [read, ih]

/-- The canonical form as a chain of bounds. -/
theorem risingFrom_write {m : List Host.Cell} {l a : Nat} {v : Byte} (hm : risingFrom l m = true) (ha : l < a) :
    risingFrom l (write m a v) = true := by
  induction m generalizing l with
  | nil => simp [write, risingFrom, ha]
  | cons c m ih =>
    obtain ⟨k, b⟩ := c
    simp only [risingFrom, Bool.and_eq_true, decide_eq_true_eq] at hm
    simp only [write]
    split
    · simp_all [risingFrom]
    · split
      · subst_vars
        simp_all [risingFrom]
      · simp only [risingFrom, Bool.and_eq_true, decide_eq_true_eq]
        exact ⟨hm.1, ih hm.2 (by omega)⟩

theorem all_write {m : List Host.Cell} {a : Nat} {v : Byte} {p : Host.Cell → Bool} (hm : m.all p = true)
    (ha : p (a, v) = true) : (write m a v).all p = true := by
  induction m with
  | nil => simp [write, ha]
  | cons c m ih =>
    obtain ⟨k, b⟩ := c
    simp only [List.all_cons, Bool.and_eq_true] at hm
    simp only [write]
    split
    · simp [hm, ha]
    · split
      · simp [hm, ha]
      · simp [hm, ih hm.2]

/-- A write keeps the canonical form. -/
theorem wf_write {m : List Host.Cell} {a : Nat} {v : Byte} (hm : wf m = true) (ha : a < 32768) :
    wf (write m a v) = true := by
  simp only [wf, Bool.and_eq_true] at hm ⊢
  refine ⟨?_, all_write hm.2 (by simpa using ha)⟩
  replace hm := hm.1
  cases m with
  | nil => rfl
  | cons c m =>
    obtain ⟨k, b⟩ := c
    simp only [rising] at hm
    simp only [write]
    split
    · simp_all [rising, risingFrom]
    · split
      · subst_vars
        simpa [rising] using hm
      · exact risingFrom_write hm (by omega)

/-- What is kept reads as before, the rest as unlisted. -/
theorem read_keep (m : List Host.Cell) (p : Nat → Bool) (x : Nat) :
    read (keep m p) x = if p x then read m x else unlisted := by
  induction m with
  | nil => simp [keep, read]
  | cons c m ih =>
    obtain ⟨k, b⟩ := c
    simp only [keep] at ih
    by_cases hp : p k = true
    · simp only [keep, List.filter_cons, hp, if_true, read, ih]
      by_cases hk : k = x
      · subst hk; simp [hp]
      · simp [hk]
    · simp only [keep, List.filter_cons, hp, read, ih, Bool.false_eq_true, if_false]
      by_cases hk : k = x
      · subst hk; simp [hp]
      · simp [hk]

theorem read_keep_in {m : List Host.Cell} {p : Nat → Bool} {x : Nat} (h : p x = true) : read (keep m p) x = read m x := by
  rw [read_keep, if_pos h]

theorem risingFrom_mono {m : List Host.Cell} {l l' : Nat} (h : risingFrom l m = true) (hl : l' ≤ l) :
    risingFrom l' m = true := by
  cases m with
  | nil => rfl
  | cons c m =>
    simp only [risingFrom, Bool.and_eq_true, decide_eq_true_eq] at h ⊢
    exact ⟨by omega, h.2⟩

theorem risingFrom_keep {m : List Host.Cell} {l : Nat} {p : Nat → Bool} (h : risingFrom l m = true) :
    risingFrom l (keep m p) = true := by
  induction m generalizing l with
  | nil => rfl
  | cons c m ih =>
    obtain ⟨k, b⟩ := c
    simp only [risingFrom, Bool.and_eq_true, decide_eq_true_eq] at h
    have h' := ih h.2
    simp only [keep] at h' ⊢
    rw [List.filter_cons]
    split
    · simp [risingFrom, h.1, h']
    · exact risingFrom_mono h' (by omega)

theorem rising_of_risingFrom {m : List Host.Cell} {l : Nat} (h : risingFrom l m = true) : rising m = true := by
  cases m with
  | nil => rfl
  | cons c m =>
    simp only [risingFrom, Bool.and_eq_true] at h
    exact h.2

/-- Keeping some entries keeps the canonical form. -/
theorem wf_keep {m : List Host.Cell} (p : Nat → Bool) (hm : wf m = true) : wf (keep m p) = true := by
  simp only [wf, Bool.and_eq_true, List.all_eq_true] at hm ⊢
  refine ⟨?_, fun c hc => hm.2 c (List.mem_filter.1 hc).1⟩
  replace hm := hm.1
  cases m with
  | nil => rfl
  | cons c m =>
    obtain ⟨k, b⟩ := c
    have h' := risingFrom_keep (p := p) (show risingFrom k m = true from hm)
    simp only [keep] at h' ⊢
    rw [List.filter_cons]
    split
    · exact h'
    · exact rising_of_risingFrom h'

@[simp] theorem read_put_same (m : List Host.Cell) (a : Nat) (o : Option Byte) : read (put m a o) a = o := by
  cases o <;> simp [put, read_keep, unlisted]

theorem read_put_other {m : List Host.Cell} {a x : Nat} {o : Option Byte} (h : x ≠ a) : read (put m a o) x = read m x := by
  cases o with
  | none => exact read_keep_in (p := fun k => k != a) (by simpa using h)
  | some v => exact read_write_other h

/-- Giving an address a value, or none, keeps the canonical form. -/
theorem wf_put {m : List Host.Cell} {a : Nat} (o : Option Byte) (hm : wf m = true) (ha : a < 32768) :
    wf (put m a o) = true := by
  cases o with
  | none => exact wf_keep (fun k => k != a) hm
  | some v => exact wf_write hm ha

/-- The device of a register's address. -/
theorem key_div (dev : DevAddr) (reg : Byte) : key dev reg / 256 = dev.toNat := by
  have := reg.isLt
  simp only [key]
  omega

end Sys2Proof.Machine.Memory

namespace Sys2Proof.Machine.Chip

/-! ### What each effect on the record leaves alone -/

section
variable (c : Chip) (dev : DevAddr) (reg v : Byte) (r : ChipRun) (n : Nat)
@[simp] theorem freeFifo_regs : (c.freeFifo dev).regs = c.regs := rfl
@[simp] theorem freeFifo_resetting : (c.freeFifo dev).resetting = c.resetting := rfl
@[simp] theorem freeFifo_pending : (c.freeFifo dev).pending = c.pending := rfl
@[simp] theorem freeFifo_runs : (c.freeFifo dev).runs = c.runs := rfl
@[simp] theorem freeFifo_drawn : (c.freeFifo dev).drawn = c.drawn + 1 := rfl
@[simp] theorem forgetFlags_regs : (c.forgetFlags dev).regs = c.regs := rfl
@[simp] theorem forgetFlags_resetting : (c.forgetFlags dev).resetting = c.resetting := rfl
@[simp] theorem forgetFlags_pending : (c.forgetFlags dev).pending = Memory.keep c.pending fun k => k != dev.toNat := rfl
@[simp] theorem forgetFlags_fifo : (c.forgetFlags dev).fifo = c.fifo := rfl
@[simp] theorem forgetFlags_runs : (c.forgetFlags dev).runs = c.runs := rfl
@[simp] theorem forgetFlags_drawn : (c.forgetFlags dev).drawn = c.drawn := rfl
@[simp] theorem forgetRegs_regs : (c.forgetRegs dev).regs = Memory.keep c.regs fun k => k / 256 != dev.toNat := rfl
@[simp] theorem forgetRegs_resetting : (c.forgetRegs dev).resetting = c.resetting := rfl
@[simp] theorem forgetRegs_pending : (c.forgetRegs dev).pending = c.pending := rfl
@[simp] theorem forgetRegs_fifo : (c.forgetRegs dev).fifo = c.fifo := rfl
@[simp] theorem forgetRegs_runs : (c.forgetRegs dev).runs = c.runs := rfl
@[simp] theorem forgetRegs_drawn : (c.forgetRegs dev).drawn = c.drawn := rfl
@[simp] theorem forgetReg_regs : (c.forgetReg dev reg).regs = Memory.keep c.regs fun k => k != Memory.key dev reg := rfl
@[simp] theorem forgetReg_resetting : (c.forgetReg dev reg).resetting = c.resetting := rfl
@[simp] theorem forgetReg_pending : (c.forgetReg dev reg).pending = c.pending := rfl
@[simp] theorem forgetReg_fifo : (c.forgetReg dev reg).fifo = c.fifo := rfl
@[simp] theorem forgetReg_runs : (c.forgetReg dev reg).runs = c.runs := rfl
@[simp] theorem forgetReg_drawn : (c.forgetReg dev reg).drawn = c.drawn := rfl
@[simp] theorem begin_regs : (c.begin r).regs = c.regs := rfl
@[simp] theorem begin_resetting : (c.begin r).resetting = c.resetting := rfl
@[simp] theorem begin_pending : (c.begin r).pending = c.pending := rfl
@[simp] theorem begin_fifo : (c.begin r).fifo = c.fifo := rfl
@[simp] theorem begin_runs : (c.begin r).runs = c.runs ++ [r] := rfl
@[simp] theorem begin_drawn : (c.begin r).drawn = c.drawn := rfl
@[simp] theorem send_regs : (c.send dev v).regs = c.regs := rfl
@[simp] theorem send_resetting : (c.send dev v).resetting = c.resetting := rfl
@[simp] theorem send_pending : (c.send dev v).pending = Memory.keep c.pending fun k => k != dev.toNat := rfl
@[simp] theorem send_drawn : (c.send dev v).drawn = c.drawn + 1 := rfl
@[simp] theorem unsettle_regs : (c.unsettle dev reg).regs = Memory.keep c.regs fun k => k != Memory.key dev reg := rfl
@[simp] theorem unsettle_resetting : (c.unsettle dev reg).resetting = c.resetting := rfl
@[simp] theorem unsettle_pending : (c.unsettle dev reg).pending = Memory.keep c.pending fun k => k != dev.toNat := rfl
@[simp] theorem unsettle_runs : (c.unsettle dev reg).runs = c.runs := rfl
@[simp] theorem unsettle_drawn : (c.unsettle dev reg).drawn = c.drawn + 1 := rfl
@[simp] theorem settle_regs (own : Byte) : (c.settle dev reg v own).regs =
    Memory.put c.regs (Memory.key dev reg) (settled reg v own c.drawn) := rfl
@[simp] theorem settle_resetting (own : Byte) : (c.settle dev reg v own).resetting = c.resetting := rfl
@[simp] theorem settle_pending (own : Byte) : (c.settle dev reg v own).pending = c.pending := rfl
@[simp] theorem settle_fifo (own : Byte) : (c.settle dev reg v own).fifo = c.fifo := rfl
@[simp] theorem settle_runs (own : Byte) : (c.settle dev reg v own).runs = c.runs := rfl
@[simp] theorem settle_drawn (own : Byte) :
    (c.settle dev reg v own).drawn = if own = 0xFF then c.drawn else c.drawn + 1 := rfl
@[simp] theorem load_regs : (c.load n dev v).regs = c.regs := by unfold load; split <;> rfl
@[simp] theorem load_resetting : (c.load n dev v).resetting = c.resetting := by unfold load; split <;> rfl
@[simp] theorem load_pending : (c.load n dev v).pending = c.pending := by unfold load; split <;> rfl
@[simp] theorem load_runs : (c.load n dev v).runs = c.runs := by unfold load; split <;> rfl
@[simp] theorem startCommand_runs :
    (c.startCommand dev v).runs = c.runs ++ [.started dev v (c.staged dev)] := by
  unfold startCommand; (repeat' split) <;> rfl
@[simp] theorem startCommand_pending :
    (c.startCommand dev v).pending = Memory.keep c.pending fun k => k != dev.toNat := by
  unfold startCommand; (repeat' split) <;> rfl
/-- A command that resets the device leaves its registers without a value, and the device in reset; the others leave both
alone. -/
theorem startCommand_reset : ((c.startCommand dev v).regs, (c.startCommand dev v).resetting) =
    if resets v then (Memory.keep c.regs (fun k => k / 256 != dev.toNat), Memory.write c.resetting dev.toNat v)
    else (c.regs, c.resetting) := by
  unfold startCommand
  by_cases h : resets v = true
  · have hv : ¬ (v = Command.idle.code ∨ v = Command.transceive.code) := by
      simp only [resets, Bool.and_eq_true, bne_iff_ne, ne_eq] at h
      rintro (hv | hv) <;> simp [hv] at h
    simp [h, hv]
  · simp only [h]
    split <;> rfl
end

/-- What a write's effect leaves of the registers and the resets: both as they are, unless it resets the device. -/
theorem writeEffect_reset (c : Chip) (cfg : Config) (dev : DevAddr) (reg v : Byte) :
    ((c.writeEffect cfg dev reg v).regs, (c.writeEffect cfg dev reg v).resetting) =
      if reg = 0x01 ∧ resets v then
        (Memory.keep c.regs (fun k => k / 256 != dev.toNat), Memory.write c.resetting dev.toNat v)
      else (c.regs, c.resetting) := by
  by_cases h : reg = 0x01
  · subst h
    show ((c.startCommand dev v).regs, (c.startCommand dev v).resetting) = _
    simp [startCommand_reset]
  · rw [if_neg fun h' => h h'.1]
    simp only [writeEffect, Reg.command, h, if_false]
    repeat' split
    all_goals simp

/-- What a write's effect leaves of the pending flags: COMIRQ_CLEAR_VAL written to 0x04 clears the device's; another byte
there, a command and a transmission leave them without a value. -/
theorem writeEffect_pending (c : Chip) (cfg : Config) (dev : DevAddr) (reg v : Byte) :
    (c.writeEffect cfg dev reg v).pending =
      if reg = 0x04 ∧ v = cfg.comIrqClearVal then Memory.write c.pending dev.toNat 0x00
      else if reg = 0x04 ∨ reg = 0x01 ∨ reg = 0x0D ∧ c.starts dev v then
        Memory.keep c.pending fun k => k != dev.toNat
      else c.pending := by
  by_cases h4 : reg = 0x04
  · subst h4
    show (if v = cfg.comIrqClearVal then _ else _ : Chip).pending = _
    by_cases hv : v = cfg.comIrqClearVal <;> simp [hv]
  · by_cases h1 : reg = 0x01
    · subst h1
      show (c.startCommand dev v).pending = _
      simp
    · by_cases hd : reg = 0x0D
      · subst hd
        show (if c.starts dev v then c.send dev v else c).pending = _
        by_cases hs : c.starts dev v = true <;> simp [hs]
      · simp only [h4, h1, hd, false_and, false_or, if_false]
        simp only [writeEffect, Reg.comIrq, Reg.command, Reg.bitFraming, h4, h1, hd, if_false]
        repeat' split
        all_goals simp

/-! ### Resets -/

theorem dev_lt (dev : DevAddr) : dev.toNat < 32768 := by have := dev.isLt; omega

theorem dev_ne {d dev : DevAddr} (h : d ≠ dev) : d.toNat ≠ dev.toNat := fun h' => h (BitVec.eq_of_toNat_eq h')

theorem writeEffect_resetting (c : Chip) (cfg : Config) (dev : DevAddr) (reg v : Byte) :
    (c.writeEffect cfg dev reg v).resetting =
      if reg = 0x01 ∧ resets v then Memory.write c.resetting dev.toNat v else c.resetting := by
  have h := congrArg Prod.snd (writeEffect_reset c cfg dev reg v)
  rw [apply_ite Prod.snd] at h
  exact h

theorem writeEffect_regs (c : Chip) (cfg : Config) (dev : DevAddr) (reg v : Byte) :
    (c.writeEffect cfg dev reg v).regs =
      if reg = 0x01 ∧ resets v then Memory.keep c.regs (fun k => k / 256 != dev.toNat) else c.regs := by
  have h := congrArg Prod.fst (writeEffect_reset c cfg dev reg v)
  rw [apply_ite Prod.fst] at h
  exact h

@[simp] theorem written_resetting (c : Chip) (cfg : Config) (dev : DevAddr) (reg v own : Byte) :
    (c.written cfg dev reg v own).resetting = (c.writeEffect cfg dev reg v).resetting := by
  unfold written
  dsimp only
  split <;> rfl

/-- A write resets a device or leaves it as it is; no write ends a reset. -/
theorem mayReset_written (c : Chip) (cfg : Config) (dev d : DevAddr) (reg v own : Byte) :
    (c.written cfg dev reg v own).mayReset d = (c.mayReset d || decide (d = dev ∧ reg = 0x01) && resets v) := by
  simp only [mayReset, written_resetting, writeEffect_resetting]
  by_cases h : reg = 0x01 ∧ resets v = true
  · rw [if_pos h]
    by_cases hd : d = dev
    · subst hd; simp [h]
    · rw [Memory.read_write_other (dev_ne hd)]; simp [hd]
  · rw [if_neg h]
    by_cases hd : d = dev <;> by_cases hr : reg = 0x01 <;> simp_all

/-- A read of 0x01 with the bit clear ends the device's reset; no other read does. -/
theorem readFrom_resetting (c : Chip) (cfg : Config) (dev : DevAddr) (reg v : Byte) :
    (c.readFrom cfg dev reg v).resetting = if reg = 0x01 ∧ v &&& cfg.softResetBusyMask = 0 then
      Memory.keep c.resetting fun k => k != dev.toNat else c.resetting := by
  by_cases h : reg = 0x01
  · subst h
    show (if v &&& cfg.softResetBusyMask = 0 then _ else _ : Chip).resetting = _
    by_cases hv : v &&& cfg.softResetBusyMask = 0
    · rw [if_pos hv, if_pos ⟨rfl, hv⟩]
    · rw [if_neg hv, if_neg fun h' => hv h'.2]
  · simp only [readFrom, Reg.command, h, if_false, false_and]
    repeat' split
    all_goals rfl

theorem mayReset_readFrom_other {c : Chip} {cfg : Config} {dev d : DevAddr} {reg v : Byte} (h : d ≠ dev) :
    (c.readFrom cfg dev reg v).mayReset d = c.mayReset d := by
  simp only [mayReset, readFrom_resetting]
  split
  · rw [Memory.read_keep_in (by simpa using dev_ne h)]
  · rfl

/-! ### The registers -/

/-- A plain write leaves its byte in a register that holds what is written. -/
theorem settled_plain {reg v : Byte} {n : Nat} (h : keepsWrites reg = true) : settled reg v 0xFF n = some v := by
  simp [settled, h]

/-- A read-modify-write leaves the block's own bits there. -/
theorem settled_own {reg v own : Byte} {n : Nat} (h : keepsWrites reg = true) :
    ∃ b, settled reg v own n = some b ∧ b &&& own = v &&& own := by
  unfold settled
  rw [if_neg (by simp [h])]
  split
  · exact ⟨v, rfl, rfl⟩
  · refine ⟨_, rfl, BitVec.eq_of_getElem_eq fun i hi => ?_⟩
    cases hb : own[i] <;> simp [hb]

/-- The other registers have no value once they are written. -/
theorem settled_none {reg v own : Byte} {n : Nat} (h : keepsWrites reg = false) : settled reg v own n = none := by
  simp [settled, h]

/-- What an address reads after a write: the register written has no value when the device may be resetting, and a
resetting command takes all values of the device. -/
theorem read_written (c : Chip) (cfg : Config) (dev : DevAddr) (reg v own : Byte) (x : Nat) :
    Memory.read (c.written cfg dev reg v own).regs x =
      if x = Memory.key dev reg then
        if (c.written cfg dev reg v own).mayReset dev then none
        else settled reg v own (c.writeEffect cfg dev reg v).drawn
      else if reg = 0x01 ∧ resets v ∧ x / 256 = dev.toNat then none else Memory.read c.regs x := by
  have hm : (c.written cfg dev reg v own).mayReset dev = (c.writeEffect cfg dev reg v).mayReset dev := by
    simp only [mayReset, written_resetting]
  rw [hm]
  have he : Memory.read (c.writeEffect cfg dev reg v).regs x =
      if reg = 0x01 ∧ resets v ∧ x / 256 = dev.toNat then none else Memory.read c.regs x := by
    rw [writeEffect_regs]
    by_cases h1 : reg = 0x01 ∧ resets v = true
    · rw [if_pos h1, Memory.read_keep]
      by_cases h2 : x / 256 = dev.toNat <;> simp [h1.1, h1.2, h2, Memory.unlisted]
    · rw [if_neg h1, if_neg fun h' => h1 ⟨h'.1, h'.2.1⟩]
  unfold written
  dsimp only
  by_cases hx : x = Memory.key dev reg
  · subst hx
    by_cases h : (c.writeEffect cfg dev reg v).mayReset dev = true
    · simp [h, Memory.read_keep, Memory.unlisted]
    · simp [h]
  · rw [if_neg hx, ← he]
    split
    · rw [unsettle_regs, Memory.read_keep_in (by simpa using hx)]
    · exact Memory.read_put_other hx

/-- What a register holds after a write of it. -/
theorem held_written_same {c : Chip} {cfg : Config} {dev : DevAddr} {reg v own : Byte}
    (h : (c.written cfg dev reg v own).mayReset dev = false) :
    (c.written cfg dev reg v own).held dev reg = settled reg v own (c.writeEffect cfg dev reg v).drawn := by
  rw [held, read_written, if_pos rfl, if_neg (by simp [h])]

/-- A write leaves the record of every other register alone, unless it resets the device. -/
theorem held_written_other {c : Chip} {cfg : Config} {dev d : DevAddr} {reg r v own : Byte} (h : ¬ (d = dev ∧ r = reg))
    (h' : reg = 0x01 → resets v = true → d ≠ dev) : (c.written cfg dev reg v own).held d r = c.held d r := by
  rw [held, read_written, if_neg (by rwa [Memory.key_inj]), if_neg, held]
  rintro ⟨h1, h2, h3⟩
  rw [Memory.key_div] at h3
  exact h' h1 h2 (BitVec.eq_of_toNat_eq h3)

/-- What an address reads after a read: 0x04, 0x05 and 0x06 have no value once they are read. -/
theorem read_readFrom (c : Chip) (cfg : Config) (dev : DevAddr) (reg v : Byte) (x : Nat) :
    Memory.read (c.readFrom cfg dev reg v).regs x =
      if x = Memory.key dev reg ∧ reg ∈ [0x04, 0x05, 0x06] then none else Memory.read c.regs x := by
  have hk : Memory.read (c.forgetReg dev reg).regs x = if x = Memory.key dev reg then none else Memory.read c.regs x := by
    rw [forgetReg_regs, Memory.read_keep]
    by_cases hx : x = Memory.key dev reg <;> simp [hx, Memory.unlisted]
  by_cases h : reg ∈ [0x04, 0x05, 0x06]
  · have hr : (c.readFrom cfg dev reg v).regs = (c.forgetReg dev reg).regs := by
      simp only [List.mem_cons, List.not_mem_nil, or_false] at h
      obtain rfl | rfl | rfl := h <;> rfl
    rw [hr, hk]
    simp only [h, and_true]
  · rw [if_neg fun h' => h h'.2]
    simp only [List.mem_cons, List.not_mem_nil, or_false, not_or] at h
    simp only [readFrom, Reg.comIrq, Reg.divIrq, Reg.error, h, if_false, or_self]
    repeat' split
    all_goals rfl

/-! ### The pending flags -/

/-- What a write leaves of the pending flags: what its effect leaves, and none of a device that may be resetting. -/
theorem written_pending (c : Chip) (cfg : Config) (dev : DevAddr) (reg v own : Byte) :
    (c.written cfg dev reg v own).pending = if (c.written cfg dev reg v own).mayReset dev then
      Memory.keep (c.writeEffect cfg dev reg v).pending fun k => k != dev.toNat
    else (c.writeEffect cfg dev reg v).pending := by
  have hm : (c.written cfg dev reg v own).mayReset dev = (c.writeEffect cfg dev reg v).mayReset dev := by
    simp only [mayReset, written_resetting]
  rw [hm]
  unfold written
  dsimp only
  split <;> rfl

/-- After a read of 0x04 the flags have no value. -/
theorem readFrom_pending (c : Chip) (cfg : Config) (dev : DevAddr) (reg v : Byte) :
    (c.readFrom cfg dev reg v).pending =
      if reg = 0x04 then Memory.keep c.pending fun k => k != dev.toNat else c.pending := by
  by_cases h : reg = 0x04
  · subst h; rfl
  · rw [if_neg h]
    simp only [readFrom, Reg.comIrq, h, if_false]
    repeat' split
    all_goals rfl

/-- A transaction with one device leaves the pending flags of every other alone. -/
theorem pendingFlags_written_other {c : Chip} {cfg : Config} {dev d : DevAddr} {reg v own : Byte} (h : d ≠ dev) :
    (c.written cfg dev reg v own).pendingFlags d = c.pendingFlags d := by
  have hd := dev_ne h
  have he : Memory.read (c.writeEffect cfg dev reg v).pending d.toNat = Memory.read c.pending d.toNat := by
    rw [writeEffect_pending]
    split
    · exact Memory.read_write_other hd
    · split
      · exact Memory.read_keep_in (by simpa using hd)
      · rfl
  rw [pendingFlags, written_pending, pendingFlags, ← he]
  split
  · exact Memory.read_keep_in (by simpa using hd)
  · rfl

theorem pendingFlags_readFrom_other {c : Chip} {cfg : Config} {dev d : DevAddr} {reg v : Byte} (h : d ≠ dev) :
    (c.readFrom cfg dev reg v).pendingFlags d = c.pendingFlags d := by
  simp only [pendingFlags, readFrom_pending]
  split
  · exact Memory.read_keep_in (by simpa using dev_ne h)
  · rfl

/-- The flags of a device that have no value. -/
theorem pendingFlags_forgetFlags (c : Chip) (dev : DevAddr) : (c.forgetFlags dev).pendingFlags dev = none := by
  simp [pendingFlags, Memory.read_keep, Memory.unlisted]

/-! ### The canonical form -/

/-- A completed write keeps the canonical form of the record. -/
theorem wf_written {c : Chip} (cfg : Config) (dev : DevAddr) (reg v own : Byte) (h : c.wf = true) :
    (c.written cfg dev reg v own).wf = true := by
  simp only [wf, Bool.and_eq_true] at h
  obtain ⟨⟨h1, h2⟩, h3⟩ := h
  have e1 : Memory.wf (c.writeEffect cfg dev reg v).regs = true := by
    rw [writeEffect_regs]
    split
    · exact Memory.wf_keep _ h1
    · exact h1
  have e2 : Memory.wf (c.writeEffect cfg dev reg v).pending = true := by
    rw [writeEffect_pending]
    split
    · exact Memory.wf_write h2 (dev_lt dev)
    · split
      · exact Memory.wf_keep _ h2
      · exact h2
  have e3 : Memory.wf (c.writeEffect cfg dev reg v).resetting = true := by
    rw [writeEffect_resetting]
    split
    · exact Memory.wf_write h3 (dev_lt dev)
    · exact h3
  unfold written
  dsimp only
  split
  · simp [wf, Memory.wf_keep _ e1, Memory.wf_keep _ e2, e3]
  · simp [wf, Memory.wf_put _ e1 (Memory.key_lt _ _), e2, e3]

/-- A completed read keeps it. -/
theorem wf_readFrom {c : Chip} (cfg : Config) (dev : DevAddr) (reg v : Byte) (h : c.wf = true) :
    (c.readFrom cfg dev reg v).wf = true := by
  have h' := h
  simp only [wf, Bool.and_eq_true] at h
  obtain ⟨⟨h1, h2⟩, h3⟩ := h
  simp only [readFrom]
  repeat' split
  all_goals simp [wf, h1, h2, h3, Memory.wf_keep]

end Sys2Proof.Machine.Chip
end

