-- ==== Sys2Proof/Laws/Sequencer.lean ====
section
/-! SUPPORT. What the shared operations of the sequencer can do: the callers each operation can have, the primitives, BusFault, the moves, and running over ready answers. -/

namespace Sys2Proof.Machine

/-! ### The callers an operation can have (R13, R27) -/

theorem callers_of_isCardPresent {ws : List Waiting} (h : callersOk .isCardPresent ws = true) : ws = [] := by
  cases ws with
  | nil => rfl
  | cons w ws => cases w <;> simp [callersOk, Waiting.awaits] at h

theorem callers_of_readUidHex {ws : List Waiting} (h : callersOk .readUidHex ws = true) : ws = [] := by
  cases ws with
  | nil => rfl
  | cons w ws => cases w <;> simp [callersOk, Waiting.awaits] at h

theorem callers_of_version {ws : List Waiting} (h : callersOk .version ws = true) : ws = [] := by
  cases ws with
  | nil => rfl
  | cons w ws => cases w <;> simp [callersOk, Waiting.awaits] at h

theorem callers_of_flushFifo {ws : List Waiting} (h : callersOk .flushFifo ws = true) : ws = [] := by
  cases ws with
  | nil => rfl
  | cons w ws => cases w <;> simp [callersOk, Waiting.awaits] at h

theorem callers_of_cardFrame {ws : List Waiting} (h : callersOk .cardFrame ws = true) : ws = [] := by
  cases ws with
  | nil => rfl
  | cons w ws => cases w <;> simp [callersOk, Waiting.awaits] at h

theorem callers_of_readUid {ws : List Waiting} (h : callersOk .readUid ws = true) :
    ws = [] ∨ ws = [.readUidHexUid] := by
  cases ws with
  | nil => exact .inl rfl
  | cons w ws =>
    cases w <;> simp [callersOk, Waiting.awaits, Waiting.op] at h
    exact .inr (by rw [callers_of_readUidHex h])

theorem callers_of_select {ws : List Waiting} (h : callersOk .select ws = true) :
    ws = [] ∨ ∃ v, callersOk .readUid v = true ∧ ws = .readUidSelect :: v := by
  cases ws with
  | nil => exact .inl rfl
  | cons w ws =>
    cases w <;> simp [callersOk, Waiting.awaits, Waiting.op] at h
    exact .inr ⟨ws, h, rfl⟩

theorem callers_of_anticollision {ws : List Waiting} (h : callersOk .anticollision ws = true) :
    ws = [] ∨ ∃ v, callersOk .readUid v = true ∧ ws = .readUidAnticoll :: v := by
  cases ws with
  | nil => exact .inl rfl
  | cons w ws =>
    cases w <;> simp [callersOk, Waiting.awaits, Waiting.op] at h
    exact .inr ⟨ws, h, rfl⟩

theorem callers_of_reqa {ws : List Waiting} (h : callersOk .reqa ws = true) :
    ws = [] ∨ ws = [.isCardPresentReqa] ∨ ∃ v, callersOk .readUid v = true ∧ ws = .readUidReqa :: v := by
  cases ws with
  | nil => exact .inl rfl
  | cons w ws =>
    cases w <;> simp [callersOk, Waiting.awaits, Waiting.op] at h
    · exact .inr (.inr ⟨ws, h, rfl⟩)
    · exact .inr (.inl (by rw [callers_of_isCardPresent h]))

theorem callers_of_initializeChip {ws : List Waiting} (h : callersOk .initializeChip ws = true) :
    ws = [] ∨ ws = [.isCardPresentInit] ∨ ws = [.readUidHexInit] ∨ ws = [.versionInit] := by
  cases ws with
  | nil => exact .inl rfl
  | cons w ws =>
    cases w <;> simp [callersOk, Waiting.awaits, Waiting.op] at h
    · exact .inr (.inl (by rw [callers_of_isCardPresent h]))
    · exact .inr (.inr (.inl (by rw [callers_of_readUidHex h])))
    · exact .inr (.inr (.inr (by rw [callers_of_version h])))

theorem callers_of_softReset {ws : List Waiting} (h : callersOk .softReset ws = true) :
    ws = [] ∨ ∃ v, callersOk .initializeChip v = true ∧ ws = .initSoftReset :: v := by
  cases ws with
  | nil => exact .inl rfl
  | cons w ws =>
    cases w <;> simp [callersOk, Waiting.awaits, Waiting.op] at h
    exact .inr ⟨ws, h, rfl⟩

theorem callers_of_antennaOn {ws : List Waiting} (h : callersOk .antennaOn ws = true) :
    ws = [] ∨ ∃ v, callersOk .initializeChip v = true ∧ ws = .initAntenna :: v := by
  cases ws with
  | nil => exact .inl rfl
  | cons w ws =>
    cases w <;> simp [callersOk, Waiting.awaits, Waiting.op] at h
    exact .inr ⟨ws, h, rfl⟩

theorem callers_of_computeCrc {ws : List Waiting} (h : callersOk .computeCrc ws = true) :
    ws = [] ∨ ∃ u v, callersOk .select v = true ∧ ws = .selectCrc u :: v := by
  cases ws with
  | nil => exact .inl rfl
  | cons w ws =>
    cases w <;> simp [callersOk, Waiting.awaits, Waiting.op] at h
    exact .inr ⟨_, ws, h, rfl⟩

theorem callers_of_transceive {ws : List Waiting} (h : callersOk .transceive ws = true) :
    ws = [] ∨ (∃ v, callersOk .reqa v = true ∧ ws = .reqa :: v)
      ∨ (∃ v, callersOk .anticollision v = true ∧ ws = .anticollision :: v)
      ∨ (∃ u v, callersOk .select v = true ∧ ws = .selectExchange u :: v) ∨ ∃ f, ws = [.cardFrame f] := by
  cases ws with
  | nil => exact .inl rfl
  | cons w ws =>
    cases w <;> simp [callersOk, Waiting.awaits, Waiting.op] at h
    · exact .inr (.inl ⟨ws, h, rfl⟩)
    · exact .inr (.inr (.inl ⟨ws, h, rfl⟩))
    · exact .inr (.inr (.inr (.inl ⟨_, ws, h, rfl⟩)))
    · exact .inr (.inr (.inr (.inr ⟨_, by rw [callers_of_cardFrame h]⟩)))

theorem callers_of_setBits {ws : List Waiting} (h : callersOk .setBits ws = true) :
    ws = [] ∨ ws = [.flushFifo] ∨ ∃ v, callersOk .antennaOn v = true ∧ ws = .antennaOn :: v := by
  cases ws with
  | nil => exact .inl rfl
  | cons w ws =>
    cases w <;> simp [callersOk, Waiting.awaits, Waiting.op] at h
    · exact .inr (.inl (by rw [callers_of_flushFifo h]))
    · exact .inr (.inr ⟨ws, h, rfl⟩)

theorem callers_of_pollUntil {ws : List Waiting} (h : callersOk .pollUntil ws = true) :
    (∃ v, callersOk .softReset v = true ∧ ws = .softReset :: v)
      ∨ (∃ b v, callersOk .computeCrc v = true ∧ ws = .computeCrc b :: v)
      ∨ ∃ v, callersOk .transceive v = true ∧ ws = .transceive :: v := by
  cases ws with
  | nil => simp [callersOk] at h
  | cons w ws =>
    cases w <;> simp [callersOk, Waiting.awaits, Waiting.op] at h
    · exact .inl ⟨ws, h, rfl⟩
    · exact .inr (.inl ⟨_, ws, h, rfl⟩)
    · exact .inr (.inr ⟨ws, h, rfl⟩)

/-! ### The primitives -/

/-- A primitive changes the ports and the environment only: trace, chip record, clock, ticks. -/
theorem perform_state (p : Prim) (a : Answer) (s : State) :
    (perform p a s).state =
      { s with clock := (perform p a s).state.clock, trace := (perform p a s).state.trace,
               chip := (perform p a s).state.chip, ticks := s.ticks + 1 } := by
  cases p <;> simp only [perform] <;> (try split) <;> rfl

/-- A primitive either completes, with the answer's byte and the clock it leaves, or its transaction fails. -/
theorem perform_cases (p : Prim) (a : Answer) (s : State) :
    (∃ s', perform p a s = .replied ⟨a.byte, s'.clock⟩ s') ∨
      (a.fails = true ∧ p ≠ .now ∧ (∀ n, p ≠ .pause n) ∧ p ≠ .assign ∧ ∃ s', perform p a s = .failed s') := by
  cases p <;> simp only [perform] <;> (try split) <;> simp_all [State.elapse, State.setChip, State.record]

/-- A primitive whose transaction does not fail completes. -/
theorem perform_ok {p : Prim} {a : Answer} {s : State} (h : p.faults a = false) :
    perform p a s = .replied ⟨a.byte, (perform p a s).state.clock⟩ (perform p a s).state := by
  cases p <;> simp only [Prim.faults] at h <;> simp only [perform, h] <;> rfl

/-- A primitive keeps the canonical form of the chip record. -/
theorem perform_wf {p : Prim} {a : Answer} {s : State} (h : s.chip.wf = true) : (perform p a s).state.chip.wf = true := by
  cases p <;> simp only [perform] <;> (try split) <;> simp [Performed.state, h, Chip.wf_written, Chip.wf_readFrom]

section fields
variable (p : Prim) (a : Answer) (s : State)
@[simp] theorem perform_config : (perform p a s).state.config = s.config := by rw [perform_state]
@[simp] theorem perform_addr : (perform p a s).state.addr = s.addr := by rw [perform_state]
@[simp] theorem perform_init : (perform p a s).state.init = s.init := by rw [perform_state]
@[simp] theorem perform_txbuf : (perform p a s).state.txbuf = s.txbuf := by rw [perform_state]
@[simp] theorem perform_txvb : (perform p a s).state.txvb = s.txvb := by rw [perform_state]
@[simp] theorem perform_res : (perform p a s).state.res = s.res := by rw [perform_state]
@[simp] theorem perform_crcHi : (perform p a s).state.crcHi = s.crcHi := by rw [perform_state]
@[simp] theorem perform_crcLo : (perform p a s).state.crcLo = s.crcLo := by rw [perform_state]
@[simp] theorem perform_uidb : (perform p a s).state.uidb = s.uidb := by rw [perform_state]
@[simp] theorem perform_sakr : (perform p a s).state.sakr = s.sakr := by rw [perform_state]
@[simp] theorem perform_seq : (perform p a s).state.seq = s.seq := by rw [perform_state]
@[simp] theorem perform_t0 : (perform p a s).state.t0 = s.t0 := by rw [perform_state]
@[simp] theorem perform_pv : (perform p a s).state.pv = s.pv := by rw [perform_state]
@[simp] theorem perform_requests : (perform p a s).state.requests = s.requests := by rw [perform_state]
@[simp] theorem perform_result : (perform p a s).state.result = s.result := by rw [perform_state]
@[simp] theorem perform_answers : (perform p a s).state.answers = s.answers := by rw [perform_state]
end fields

/-! ### One step of the block -/

/-- What one step of the block does: nothing when SEQ is IDLE; else the primitive completes and the phase's
successor follows, or its transaction fails and BusFault is raised (R16, R173). -/
theorem primStep_cases (a : Answer) (s : State) :
    (s.seq = none ∧ primStep a s = s) ∨
      ∃ q, s.seq = some q ∧
        ((∃ r, perform (primitive q.top s) a s = .replied r (perform (primitive q.top s) a s).state ∧
            primStep a s = follow q.callers (after q.top r (perform (primitive q.top s) a s).state)) ∨
          (perform (primitive q.top s) a s = .failed (perform (primitive q.top s) a s).state ∧
            primStep a s = raiseBusFault (perform (primitive q.top s) a s).state)) := by
  cases hs : s.seq with
  | none => exact .inl ⟨rfl, by simp [primStep, hs]⟩
  | some q =>
    refine .inr ⟨q, rfl, ?_⟩
    cases hp : perform (primitive q.top s) a s with
    | replied r s' => exact .inl ⟨r, by simp [Performed.state], by simp [primStep, hs, hp, Performed.state]⟩
    | failed s' => exact .inr ⟨by simp [Performed.state], by simp [primStep, hs, hp, Performed.state]⟩

/-- A completed primitive leads to the phase's successor. -/
theorem primStep_ok {a : Answer} {s : State} {q : Sequence} (hs : s.seq = some q)
    (ha : (primitive q.top s).faults a = false) :
    primStep a s = follow q.callers (after q.top ⟨a.byte, (perform (primitive q.top s) a s).state.clock⟩
      (perform (primitive q.top s) a s).state) := by
  simp only [primStep, hs]
  rw [perform_ok ha]
  rfl

/-- Running with no operation in progress changes nothing but which answers are ready. -/
theorem run_idle {as : List Answer} {s : State} (h : s.seq = none) : run as s = s.setAnswers as := by
  cases as <;> simp [run, h]

/-- Running with an operation in progress performs its next primitive. -/
theorem run_cons {a : Answer} {as : List Answer} {s : State} {q : Sequence} (h : s.seq = some q) :
    run (a :: as) s = run as (primStep a s) := by simp [run, h]

/-- A property that every step of the block keeps is kept by running over any answers. -/
theorem run_induct {P : State → Prop} (hset : ∀ s l, P s → P (s.setAnswers l)) (hstep : ∀ a s, P s → P (primStep a s))
    {as : List Answer} {s : State} (h : P s) : P (run as s) := by
  induction as generalizing s with
  | nil => exact hset s [] h
  | cons a as ih =>
    simp only [run]
    split
    · exact hset s _ h
    · exact ih (hstep a s h)

/-- A property that every step of the block keeps is kept by going on with the operation in progress. -/
theorem advance_induct {P : State → Prop} (hset : ∀ s l, P s → P (s.setAnswers l))
    (hstep : ∀ a s, P s → P (primStep a s)) {s : State} (h : P s) : P (advance s) := by
  simp only [advance]
  split
  · exact hstep _ s h
  · exact run_induct hset hstep h

/-- A property that every step of the block keeps is kept by one step on the next answer or a free one. -/
theorem oneStep_induct {P : State → Prop} (hset : ∀ s l, P s → P (s.setAnswers l))
    (hstep : ∀ a s, P s → P (primStep a s)) {s : State} (h : P s) : P (oneStep s) := by
  simp only [oneStep]
  split
  · exact hstep _ s h
  · exact hstep _ _ (hset s _ h)

/-- Starting an operation with SEQ = IDLE. -/
theorem start_idle {f : Active} {ws : List Waiting} {s : State} (h : s.seq = none) :
    start f ws s = .next (advance ((s.setResult none).setSeq (some ⟨f, ws⟩))) := by simp [start, h]

/-- Starting an operation: refused while another is in progress, else a next state. -/
theorem start_cases (f : Active) (ws : List Waiting) (s : State) :
    (s.seq = none ∧ start f ws s = .next (advance ((s.setResult none).setSeq (some ⟨f, ws⟩)))) ∨
      (s.seq ≠ none ∧ start f ws s = .refused .operationInProgress) := by
  cases h : s.seq <;> simp [start, h]

/-- An operation of at most one assignment: refused while another is in progress, else ended at once. -/
theorem startEnded_cases (r : Result) (s : State) :
    (s.seq = none ∧ startEnded r s = .next (endOperation r s)) ∨
      (s.seq ≠ none ∧ startEnded r s = .refused .operationInProgress) := by
  cases h : s.seq <;> simp [startEnded, h]

/-! ### A meaning in one step of the block -/

/-- With no answer ready it is the meaning itself. -/
theorem onFirstAnswer_nil {m : State → Host.Outcome State Fault Refusal} {s : State} (h : s.answers = []) :
    onFirstAnswer m s = m s := by
  have hs : firstAnswer s = s := by cases s; simp_all [firstAnswer, State.setAnswers]
  simp only [onFirstAnswer, hs, h, List.drop_nil, List.append_nil]
  cases m s <;> rfl

/-- What a meaning's one step is when it answers a next state. -/
theorem onFirstAnswer_next {m : State → Host.Outcome State Fault Refusal} {s t : State} (h : onFirstAnswer m s = .next t) :
    ∃ u, m (s.setAnswers (s.answers.take 1)) = .next u ∧ t = u.setAnswers (u.answers ++ s.answers.drop 1) := by
  simp only [onFirstAnswer, firstAnswer] at h
  split at h
  · rename_i u hu
    exact ⟨u, hu, by cases h; rfl⟩
  · cases h
  · cases h

end Sys2Proof.Machine
end

