-- ==== Sys2Proof/Laws/Answers.lean ====
section
/-! SUPPORT. The block does not look at the answers that wait: every step commutes with replacing them, so answers split over steps (00_scope.md R16). -/

namespace Sys2Proof.Machine

/-- A primitive does not look at the answers that wait. -/
theorem perform_withAnswers (p : Prim) (a : Answer) (s : State) (l : List Answer) :
    perform p a (s.setAnswers l) =
      match perform p a s with
      | .replied r t => .replied r (t.setAnswers l)
      | .failed t => .failed (t.setAnswers l) := by
  cases hf : a.fails <;> cases p <;> simp only [perform, hf] <;> rfl

theorem after_withAnswers (f : Active) (r : Reply) (s : State) (c : List Answer) :
    after f r (s.setAnswers c) = ((after f r s).1.setAnswers c, (after f r s).2) := by
  cases f <;> try rfl
  case setBits p => cases p <;> rfl
  case clearBits p => cases p <;> rfl
  case poll a p =>
    cases p <;> rfl
  case softReset p => cases p <;> rfl
  case antennaOn => simp only [after, antennaOnAfter]; split <;> rfl
  case setup p => cases p <;> rfl
  case computeCrc p => cases p <;> rfl
  case transceive p => cases p <;> rfl

theorem returned_withAnswers (w : Waiting) (r : Result) (s : State) (c : List Answer) :
    returned w r (s.setAnswers c) = ((returned w r s).1.setAnswers c, (returned w r s).2) := by
  cases w <;> try rfl
  case transceive => simp only [returned, xcvPollReturned, State.setAnswers_pv]; cases s.pv <;> rfl
  case anticollision => simp only [returned, anticollReturned, State.setAnswers_res]; cases anticollOk s.res <;> rfl
  case selectExchange => simp only [returned, selectReturned, State.setAnswers_res]; cases selectOk s.res <;> rfl
  case readUidReqa => simp only [returned, readUidReqaReturned]; split <;> rfl
  case readUidAnticoll => simp only [returned, readUidAnticollReturned]; split <;> rfl
  case readUidSelect => simp only [returned, readUidSelectReturned]; split <;> rfl
  case readUidHexUid => simp only [returned, readUidHexUidReturned]; split <;> rfl

theorem giveBack_withAnswers (ws : List Waiting) (r : Result) (s : State) (c : List Answer) :
    giveBack ws r (s.setAnswers c) = (giveBack ws r s).setAnswers c := by
  induction ws generalizing r s with
  | nil => rfl
  | cons w ws ih =>
    simp only [giveBack, returned_withAnswers]
    rcases h : returned w r s with ⟨s', f | r'⟩
    · rfl
    · simp [ih]

/-- One step of the block does not look at the answers that wait. -/
theorem primStep_withAnswers (a : Answer) (s : State) (c : List Answer) :
    primStep a (s.setAnswers c) = (primStep a s).setAnswers c := by
  simp only [primStep, State.setAnswers_seq]
  cases hq : s.seq with
  | none => rfl
  | some q =>
    have hp : primitive q.top (s.setAnswers c) = primitive q.top s := by cases q.top <;> rfl
    simp only [hp, perform_withAnswers]
    cases perform (primitive q.top s) a s with
    | replied r t =>
      simp only [after_withAnswers]
      rcases after q.top r t with ⟨s', f | r'⟩
      · rfl
      · exact giveBack_withAnswers _ _ _ _
    | failed t => rfl

/-- A step on the first of the answers that wait. -/
theorem oneStep_ready (a : Answer) (as : List Answer) (s : State) :
    oneStep (s.setAnswers (a :: as)) = (primStep a s).setAnswers as := by
  rw [← primStep_withAnswers]
  rfl

theorem run_withAnswers (as : List Answer) (s : State) (c : List Answer) : run as (s.setAnswers c) = run as s := by
  induction as generalizing s with
  | nil => rfl
  | cons a as ih =>
    simp only [run, State.setAnswers_seq]
    split
    · rfl
    · rw [primStep_withAnswers, ih]

/-- Running over more answers is running over some and then over the rest. -/
theorem run_append (as bs : List Answer) (s : State) (h : (run as s).seq ≠ none) :
    run (as ++ bs) s = run bs (run as s) := by
  induction as generalizing s with
  | nil => simp only [List.nil_append, run, run_withAnswers]
  | cons a as ih =>
    simp only [List.cons_append, run] at h ⊢
    cases hq : s.seq with
    | none => simp [hq] at h
    | some q => simp only [hq] at h ⊢; exact ih _ h

/-- Going on with answers ready is running over them. -/
theorem advance_ready {as : List Answer} (hn : as ≠ []) (s : State) : advance (s.setAnswers as) = run as s := by
  cases as with
  | nil => simp at hn
  | cons a as => simp only [advance, State.setAnswers_answers]; rw [run_withAnswers]

end Sys2Proof.Machine
end

