-- ==== Sys2Proof/Laws/Running.lean ====
section
/-! SUPPORT. Running over ready answers: what phases and primitives commute with, one phase at a time, and the primitives of a script in order. -/

namespace Sys2Proof.Machine

/-! ### No phase reads SEQ -/

@[simp] theorem endOperation_setSeq (r : Result) (s : State) (q : Option Sequence) :
    endOperation r (s.setSeq q) = endOperation r s := rfl

theorem pollAfter_setSeq (a : PollArgs) (p : PollPhase) (r : Reply) (s : State) (q : Option Sequence) :
    pollAfter a p r (s.setSeq q) = ((pollAfter a p r s).1.setSeq q, (pollAfter a p r s).2) := by
  cases p <;> rfl

theorem after_setSeq (f : Active) (r : Reply) (s : State) (q : Option Sequence) :
    after f r (s.setSeq q) = ((after f r s).1.setSeq q, (after f r s).2) := by
  cases f <;> try rfl
  case setBits p => cases p <;> rfl
  case clearBits p => cases p <;> rfl
  case poll a p => exact pollAfter_setSeq a p r s q
  case softReset p => cases p <;> rfl
  case antennaOn => simp only [after, antennaOnAfter]; split <;> rfl
  case setup p => cases p <;> rfl
  case computeCrc p => cases p <;> rfl
  case transceive p => cases p <;> rfl

theorem returned_setSeq (w : Waiting) (r : Result) (s : State) (q : Option Sequence) :
    returned w r (s.setSeq q) = ((returned w r s).1.setSeq q, (returned w r s).2) := by
  cases w <;> try rfl
  case transceive => simp only [returned, xcvPollReturned, State.setSeq_pv]; cases s.pv <;> rfl
  case anticollision =>
    simp only [returned, anticollReturned, State.setSeq_res]
    cases anticollOk s.res <;> rfl
  case selectExchange =>
    simp only [returned, selectReturned, State.setSeq_res]
    cases selectOk s.res <;> rfl
  case readUidReqa => simp only [returned, readUidReqaReturned]; split <;> rfl
  case readUidAnticoll => simp only [returned, readUidAnticollReturned]; split <;> rfl
  case readUidSelect => simp only [returned, readUidSelectReturned]; split <;> rfl
  case readUidHexUid => simp only [returned, readUidHexUidReturned]; split <;> rfl

@[simp] theorem giveBack_setSeq (ws : List Waiting) (r : Result) (s : State) (q : Option Sequence) :
    giveBack ws r (s.setSeq q) = giveBack ws r s := by
  induction ws generalizing r s with
  | nil => rfl
  | cons w ws ih =>
    simp only [giveBack, returned_setSeq]
    rcases h : returned w r s with ⟨s', f | r'⟩
    · rfl
    · simp [ih]

@[simp] theorem follow_setSeq (ws : List Waiting) (s : State) (m : Move) (q : Option Sequence) :
    follow ws (s.setSeq q, m) = follow ws (s, m) := by
  cases m <;> simp only [follow, giveBack_setSeq]
  rfl

@[simp] theorem primitive_setSeq (f : Active) (s : State) (q : Option Sequence) :
    primitive f (s.setSeq q) = primitive f s := by
  cases f <;> rfl

/-! ### Primitives commute with the updates of registers they do not read -/

section commute
variable (p : Prim) (a : Answer) (s : State)

theorem perform_setSeq (q : Option Sequence) : (perform p a (s.setSeq q)).state = (perform p a s).state.setSeq q := by
  cases p <;> simp only [perform] <;> (try split) <;> rfl

theorem perform_setT0 (t : Nat) : (perform p a (s.setT0 t)).state = (perform p a s).state.setT0 t := by
  cases p <;> simp only [perform] <;> (try split) <;> rfl

theorem perform_setPv (v : Verdict) : (perform p a (s.setPv v)).state = (perform p a s).state.setPv v := by
  cases p <;> simp only [perform] <;> (try split) <;> rfl

theorem perform_setRes (r : ExchangeResult) : (perform p a (s.setRes r)).state = (perform p a s).state.setRes r := by
  cases p <;> simp only [perform] <;> (try split) <;> rfl

theorem perform_setCrcHi (v : Byte) : (perform p a (s.setCrcHi v)).state = (perform p a s).state.setCrcHi v := by
  cases p <;> simp only [perform] <;> (try split) <;> rfl

theorem perform_setResult (r : Option Result) :
    (perform p a (s.setResult r)).state = (perform p a s).state.setResult r := by
  cases p <;> simp only [perform] <;> (try split) <;> rfl

end commute

/-! ### The clock a primitive leaves (R14) -/

theorem perform_clock_rd (a : Answer) (s : State) (r : Byte) :
    (perform (.rd r) a s).state.clock = s.clock + a.elapsed := by
  simp only [perform]
  split <;> rfl

theorem perform_clock_now (a : Answer) (s : State) : (perform .now a s).state.clock = s.clock + a.elapsed := rfl

theorem perform_clock_pause (a : Answer) (s : State) (n : Nat) :
    (perform (.pause n) a s).state.clock = s.clock + (n + a.elapsed) := rfl

/-! ### One phase, on an answer that does not fail -/

/-- The primitive is performed and what follows the phase is carried out. -/
theorem run_step {a : Answer} {as : List Answer} {s : State} {f : Active} {ws : List Waiting}
    (ha : (primitive f s).faults a = false) :
    run (a :: as) (s.setSeq (some ⟨f, ws⟩)) =
      run as (follow ws (after f ⟨a.byte, (perform (primitive f s) a s).state.clock⟩
        (perform (primitive f s) a s).state)) := by
  rw [run_cons (q := ⟨f, ws⟩) rfl, primStep_ok (q := ⟨f, ws⟩) rfl (by rw [primitive_setSeq]; exact ha)]
  simp only [primitive_setSeq, perform_setSeq, State.setSeq_clock, after_setSeq, follow_setSeq]

/-- A phase whose successor is another phase. -/
theorem run_enter {a : Answer} {as : List Answer} {s t : State} {f g : Active} {ws cs : List Waiting} {p : Prim}
    (ha : p.faults a = false) (hp : primitive f s = p)
    (h : after f ⟨a.byte, (perform p a s).state.clock⟩ (perform p a s).state = (t, .enter g cs)) :
    run (a :: as) (s.setSeq (some ⟨f, ws⟩)) = run as (t.setSeq (some ⟨g, cs ++ ws⟩)) := by
  rw [run_step (by rw [hp]; exact ha), hp, h]
  rfl

/-- A phase of the same operation follows and no register is written. -/
theorem run_next {a : Answer} {as : List Answer} {s : State} {f : Active} (g : Active) {ws : List Waiting} (p : Prim)
    (ha : p.faults a = false) (hp : primitive f s = p)
    (h : ∀ t, after f ⟨a.byte, t⟩ (perform p a s).state = ((perform p a s).state, .enter g [])) :
    run (a :: as) (s.setSeq (some ⟨f, ws⟩)) = run as ((perform p a s).state.setSeq (some ⟨g, ws⟩)) := by
  rw [run_enter ha hp (h _)]
  rfl

/-- A phase that ends its operation. -/
theorem run_ret {a : Answer} {as : List Answer} {s t : State} {f : Active} {ws : List Waiting} {r : Result} {p : Prim}
    (ha : p.faults a = false) (hp : primitive f s = p)
    (h : after f ⟨a.byte, (perform p a s).state.clock⟩ (perform p a s).state = (t, .ret r)) :
    run (a :: as) (s.setSeq (some ⟨f, ws⟩)) = run as (giveBack ws r t) := by
  rw [run_step (by rw [hp]; exact ha), hp, h]
  rfl

/-- An operation that ends with no caller: it has returned to the host (R18). -/
theorem run_ended {as : List Answer} {r : Result} {s : State} : run as (giveBack [] r s) = ended r as s :=
  run_idle rfl

/-! ### Scripts in order -/

@[simp] theorem played_nil (s : State) : played [] s = s := rfl

@[simp] theorem played_cons (x : Prim × Answer) (xs : List (Prim × Answer)) (s : State) :
    played (x :: xs) s = played xs (perform x.1 x.2 s).state := rfl

theorem played_append (xs ys : List (Prim × Answer)) (s : State) : played (xs ++ ys) s = played ys (played xs s) := by
  induction xs generalizing s with
  | nil => rfl
  | cons x xs ih => exact ih _

theorem answersOf_nil : answersOf [] = [] := rfl

theorem answersOf_cons (x : Prim × Answer) (xs : List (Prim × Answer)) : answersOf (x :: xs) = x.2 :: answersOf xs := rfl

theorem answersOf_append (xs ys : List (Prim × Answer)) : answersOf (xs ++ ys) = answersOf xs ++ answersOf ys := by
  simp [answersOf]

theorem noFault_cons {x : Prim × Answer} {xs : List (Prim × Answer)} :
    noFault (x :: xs) = true ↔ x.1.faults x.2 = false ∧ noFault xs = true := by
  simp [noFault]

theorem noFault_append {xs ys : List (Prim × Answer)} :
    noFault (xs ++ ys) = true ↔ noFault xs = true ∧ noFault ys = true := by
  simp [noFault]

theorem played_setT0 (xs : List (Prim × Answer)) (s : State) (t : Nat) :
    played xs (s.setT0 t) = (played xs s).setT0 t := by
  induction xs generalizing s with
  | nil => rfl
  | cons x xs ih => simp only [played_cons, perform_setT0, ih]

theorem played_setRes (xs : List (Prim × Answer)) (s : State) (r : ExchangeResult) :
    played xs (s.setRes r) = (played xs s).setRes r := by
  induction xs generalizing s with
  | nil => rfl
  | cons x xs ih => simp only [played_cons, perform_setRes, ih]

theorem played_setResult (xs : List (Prim × Answer)) (s : State) (r : Option Result) :
    played xs (s.setResult r) = (played xs s).setResult r := by
  induction xs generalizing s with
  | nil => rfl
  | cons x xs ih => simp only [played_cons, perform_setResult, ih]

/-- A script changes the ports and the environment only. -/
theorem played_state (xs : List (Prim × Answer)) (s : State) :
    played xs s = { s with clock := (played xs s).clock, trace := (played xs s).trace,
                           chip := (played xs s).chip, ticks := s.ticks + xs.length } := by
  induction xs generalizing s with
  | nil => rfl
  | cons x xs ih =>
    rw [played_cons, ih, perform_state]
    simp [Nat.add_comm, Nat.add_left_comm]

section fields
variable (xs : List (Prim × Answer)) (s : State)
@[simp] theorem played_config : (played xs s).config = s.config := by rw [played_state]
@[simp] theorem played_addr : (played xs s).addr = s.addr := by rw [played_state]
@[simp] theorem played_init : (played xs s).init = s.init := by rw [played_state]
@[simp] theorem played_txbuf : (played xs s).txbuf = s.txbuf := by rw [played_state]
@[simp] theorem played_txvb : (played xs s).txvb = s.txvb := by rw [played_state]
@[simp] theorem played_res : (played xs s).res = s.res := by rw [played_state]
@[simp] theorem played_crcHi : (played xs s).crcHi = s.crcHi := by rw [played_state]
@[simp] theorem played_crcLo : (played xs s).crcLo = s.crcLo := by rw [played_state]
@[simp] theorem played_uidb : (played xs s).uidb = s.uidb := by rw [played_state]
@[simp] theorem played_sakr : (played xs s).sakr = s.sakr := by rw [played_state]
@[simp] theorem played_seq : (played xs s).seq = s.seq := by rw [played_state]
@[simp] theorem played_t0 : (played xs s).t0 = s.t0 := by rw [played_state]
@[simp] theorem played_pv : (played xs s).pv = s.pv := by rw [played_state]
@[simp] theorem played_requests : (played xs s).requests = s.requests := by rw [played_state]
@[simp] theorem played_result : (played xs s).result = s.result := by rw [played_state]
@[simp] theorem played_answers : (played xs s).answers = s.answers := by rw [played_state]
end fields

end Sys2Proof.Machine
end

