-- ==== Sys2Proof/Laws/Scripts.lean ====
section
/-! SUPPORT. What each operation does when the environment answers as its script says: one lemma per shared operation, from its first phase to its return. -/

namespace Sys2Proof.Machine

/-! ### pollUntil (R120) -/

/-- The assignment to PV and the return of a poll. -/
theorem run_verdict {q : PollArgs} {ws : List Waiting} {rest : List Answer} (v : Verdict) (a : Answer) (s : State) :
    run (a :: rest) (s.setSeq (some ⟨.poll q (.verdict v), ws⟩)) =
      run rest (giveBack ws .done ((perform .assign a s).state.setPv v)) :=
  run_ret (p := .assign) rfl rfl rfl

/-- The loop from P1, `e` milliseconds after T0. -/
theorem run_poll_turns {q : PollArgs} {c : Config} {ws : List Waiting} {rest : List Answer} (st : Answer)
    (ms : List PollTurn) (l : PollEnd) (e : Nat) (s : State) (hc : s.config = c) (hclk : s.clock = s.t0 + e)
    (hok : PollRun.turnsOk (pollHolds q) q.limit c.pollIntervalMs e ms l = true)
    (hf : noFault (ms.flatMap (PollRun.turnScript q.reg c) ++ PollRun.lastScript q.reg l) = true) :
    run (answersOf (ms.flatMap (PollRun.turnScript q.reg c) ++ PollRun.lastScript q.reg l) ++ rest)
        (s.setSeq (some ⟨.poll q .p1, ws⟩)) =
      run rest (giveBack ws .done
        ((played (ms.flatMap (PollRun.turnScript q.reg c) ++ PollRun.lastScript q.reg l) s).setPv
          (PollRun.verdict ⟨st, ms, l⟩))) := by
  induction ms generalizing s e with
  | nil =>
    cases l with
    | hit r v =>
      simp only [PollRun.turnsOk] at hok
      simp only [List.flatMap_nil, List.nil_append, PollRun.lastScript, noFault_cons] at hf
      simp only [List.flatMap_nil, List.nil_append, PollRun.lastScript, answersOf_cons, answersOf_nil, List.cons_append,
        played_cons, played_nil]
      rw [run_next (.poll q (.verdict .hit)) (.rd q.reg) hf.1 rfl (fun t => by simp [after, pollAfter, hok]), run_verdict]
      rfl
    | timeout r n v =>
      simp only [PollRun.turnsOk, Bool.and_eq_true, decide_eq_true_eq, Bool.not_eq_true'] at hok
      simp only [List.flatMap_nil, List.nil_append, PollRun.lastScript, noFault_cons] at hf
      simp only [List.flatMap_nil, List.nil_append, PollRun.lastScript, answersOf_cons, answersOf_nil, List.cons_append,
        played_cons, played_nil]
      rw [run_next (.poll q .p2) (.rd q.reg) hf.1 rfl (fun t => by simp [after, pollAfter, hok.1])]
      rw [run_enter (p := .now) (g := .poll q (.verdict .timeout)) (cs := []) hf.2.1 rfl (by
        simp only [after, pollAfter, pollExpired, perform_clock_now, perform_clock_rd, perform_t0]
        rw [if_pos (by simp only [decide_eq_true_eq]; omega)])]
      rw [List.nil_append, run_verdict]
      rfl
  | cons m ms ih =>
    simp only [PollRun.turnsOk, Bool.and_eq_true, decide_eq_true_eq, Bool.not_eq_true'] at hok
    obtain ⟨⟨h1, h2⟩, h3⟩ := hok
    simp only [List.flatMap_cons, PollRun.turnScript, List.cons_append, List.nil_append, noFault_cons] at hf
    obtain ⟨f1, f2, f3, f4⟩ := hf
    simp only [List.flatMap_cons, PollRun.turnScript, List.cons_append, List.nil_append, answersOf_cons, played_cons]
    rw [run_next (.poll q .p2) (.rd q.reg) f1 rfl (fun t => by simp [after, pollAfter, h1])]
    rw [run_enter (p := .now) (g := .poll q .p3) (cs := []) f2 rfl (by
      simp only [after, pollAfter, pollExpired, perform_clock_now, perform_clock_rd, perform_t0]
      rw [if_neg (by simp only [decide_eq_true_eq]; omega)])]
    rw [List.nil_append, run_next (.poll q .p1) (.pause c.pollIntervalMs) f3 (by simp [primitive, pollPrim, hc])
      (fun t => rfl)]
    refine ih _ _ (by simp [hc]) ?_ h3 f4
    simp only [perform_clock_now, perform_clock_rd, perform_clock_pause, perform_t0]
    omega

/-- A whole poll. -/
theorem run_poll {q : PollArgs} {ws : List Waiting} {rest : List Answer} (p : PollRun) (s : State)
    (hok : p.ok (pollHolds q) q.limit s.config = true) (hf : noFault (p.script q.reg s.config) = true) :
    run (answersOf (p.script q.reg s.config) ++ rest) (s.setSeq (some ⟨.poll q .p0, ws⟩)) =
      run rest (giveBack ws .done (p.after q.reg s.config s)) := by
  obtain ⟨st, ms, l⟩ := p
  simp only [PollRun.script, noFault_cons] at hf
  simp only [PollRun.ok] at hok
  simp only [PollRun.script, answersOf_cons, List.cons_append]
  rw [run_enter (p := .now) (g := .poll q .p1) (cs := []) hf.1 rfl rfl, List.nil_append,
    run_poll_turns (c := s.config) st ms l 0 _ (by simp) rfl hok hf.2, played_setT0]
  rfl

/-- The three uses of R120, in its numbers. -/
theorem run_resetPoll {ws : List Waiting} {rest : List Answer} (p : PollRun) (s : State)
    (hok : p.ok (fun v => v &&& s.config.softResetBusyMask == 0) s.config.tResetMs s.config = true)
    (hf : noFault (p.script 0x01 s.config) = true) :
    run (answersOf (p.script 0x01 s.config) ++ rest) (s.setSeq (some ⟨.poll (resetPoll s.config) .p0, ws⟩)) =
      run rest (giveBack ws .done (p.after 0x01 s.config s)) :=
  run_poll (q := resetPoll s.config) p s hok hf

theorem run_crcPoll {ws : List Waiting} {rest : List Answer} (p : PollRun) (s : State)
    (hok : p.ok (fun v => v &&& 0x04 != 0) s.config.tCrcMs s.config = true)
    (hf : noFault (p.script 0x05 s.config) = true) :
    run (answersOf (p.script 0x05 s.config) ++ rest) (s.setSeq (some ⟨.poll (crcPoll s.config) .p0, ws⟩)) =
      run rest (giveBack ws .done (p.after 0x05 s.config s)) :=
  run_poll (q := crcPoll s.config) p s hok hf

theorem run_xcvPoll {ws : List Waiting} {rest : List Answer} (p : PollRun) (s : State)
    (hok : p.ok (fun v => v &&& 0x30 != 0) s.config.tXcvMs s.config = true)
    (hf : noFault (p.script 0x04 s.config) = true) :
    run (answersOf (p.script 0x04 s.config) ++ rest) (s.setSeq (some ⟨.poll (xcvPoll s.config) .p0, ws⟩)) =
      run rest (giveBack ws .done (p.after 0x04 s.config s)) :=
  run_poll (q := xcvPoll s.config) p s hok hf

@[simp] theorem PollRun.after_config (q : Byte) (c : Config) (p : PollRun) (s : State) :
    (p.after q c s).config = s.config := by simp [PollRun.after]
@[simp] theorem PollRun.after_txbuf (q : Byte) (c : Config) (p : PollRun) (s : State) :
    (p.after q c s).txbuf = s.txbuf := by simp [PollRun.after]
@[simp] theorem PollRun.after_res (q : Byte) (c : Config) (p : PollRun) (s : State) :
    (p.after q c s).res = s.res := by simp [PollRun.after]
@[simp] theorem PollRun.after_pv (q : Byte) (c : Config) (p : PollRun) (s : State) :
    (p.after q c s).pv = p.verdict := rfl

/-! ### setBits and clearBits (R112, R113) -/

theorem run_setBits {ws : List Waiting} {rest : List Answer} {addr mask : Byte} (r w : Answer) (s : State)
    (hr : r.fails = false) (hw : w.fails = false) :
    run (r :: w :: rest) (s.setSeq (some ⟨.setBits addr mask .read, ws⟩)) =
      run rest (giveBack ws .done (played [(.rd addr, r), (.wr addr (r.byte ||| mask) mask, w)] s)) := by
  rw [run_next (.setBits addr mask (.write r.byte)) (.rd addr) hr rfl (fun t => rfl)]
  exact run_ret (p := .wr addr (r.byte ||| mask) mask) hw rfl rfl

theorem run_clearBits {ws : List Waiting} {rest : List Answer} {addr mask : Byte} (r w : Answer) (s : State)
    (hr : r.fails = false) (hw : w.fails = false) :
    run (r :: w :: rest) (s.setSeq (some ⟨.clearBits addr mask .read, ws⟩)) =
      run rest (giveBack ws .done (played [(.rd addr, r), (.wr addr (r.byte &&& (0xFF ^^^ mask)) mask, w)] s)) := by
  rw [run_next (.clearBits addr mask (.write r.byte)) (.rd addr) hr rfl (fun t => rfl)]
  exact run_ret (p := .wr addr (r.byte &&& (0xFF ^^^ mask)) mask) hw rfl rfl

/-! ### softReset, antennaOn, initialize (R121, R123, R124) -/

theorem run_softReset {ws : List Waiting} {rest : List Answer} (x : SoftResetRun) (s : State)
    (hok : x.ok s.config = true) (hf : noFault (x.script s.config) = true) :
    run (answersOf (x.script s.config) ++ rest) (s.setSeq (some ⟨.softReset .command, ws⟩)) =
      run rest (giveBack ws .done (x.after s.config s)) := by
  simp only [SoftResetRun.script, SoftResetRun.headScript, List.cons_append, List.nil_append, noFault_cons] at hf
  simp only [SoftResetRun.script, SoftResetRun.headScript, List.cons_append, List.nil_append, answersOf_cons]
  rw [run_next (.softReset .settle) (.wr 0x01 0x0F) hf.1 rfl (fun t => rfl)]
  rw [run_enter (p := .pause s.config.tSettleMs) (g := .poll (resetPoll s.config) .p0) (cs := [.softReset]) hf.2.1
    (by simp [primitive, softResetPrim]) (by simp only [after, softResetAfter, perform_config]; rfl)]
  have h := run_resetPoll (ws := [.softReset] ++ ws) (rest := rest) x.poll
    (played (x.headScript s.config) s) (by rw [played_config]; exact hok) (by rw [played_config]; exact hf.2.2)
  simp only [played_config] at h
  exact h

theorem run_antennaOn {ws : List Waiting} {rest : List Answer} (x : AntennaRun) (s : State)
    (hok : x.ok = true) (hf : noFault x.script = true) :
    run (answersOf x.script ++ rest) (s.setSeq (some ⟨.antennaOn, ws⟩)) =
      run rest (giveBack ws .done (played x.script s)) := by
  cases x with
  | alreadyOn r =>
    simp only [AntennaRun.script, noFault_cons] at hf
    simp only [AntennaRun.script, answersOf_cons, answersOf_nil, List.cons_append, List.nil_append]
    refine run_ret hf.1 rfl ?_
    have h : antennaSet r.byte = true := hok
    simp only [after, antennaOnAfter, h, if_true]
    rfl
  | turnedOn r v w =>
    simp only [AntennaRun.script, noFault_cons] at hf
    simp only [AntennaRun.script, answersOf_cons, answersOf_nil, List.cons_append, List.nil_append]
    have h : antennaSet r.byte = false := by
      simp only [AntennaRun.ok, bne_iff_ne, ne_eq] at hok
      simpa [antennaSet, Mask.antenna] using hok
    rw [run_enter (p := .rd 0x14) (g := .setBits Reg.txControl Mask.antenna .read) (cs := [.antennaOn]) hf.1 rfl
      (by simp only [after, antennaOnAfter, h]; rfl)]
    rw [run_setBits v w _ hf.2.1 hf.2.2.1]
    rfl

theorem run_setup {ws : List Waiting} {rest : List Answer} (x : InitRun) (s : State)
    (hok : x.antenna.ok = true) (hf : noFault (x.setupScript s.config) = true) :
    run (answersOf (x.setupScript s.config) ++ rest) (s.setSeq (some ⟨.setup .tmode, ws⟩)) =
      run rest (giveBack ws .done ((played (x.setupScript s.config) s).setInit true)) := by
  simp only [InitRun.setupScript, List.cons_append, List.nil_append, noFault_append, noFault_cons] at hf
  obtain ⟨f1, f2, f3, f4, f5, f6, f7, -⟩ := hf
  simp only [InitRun.setupScript, List.cons_append, List.nil_append, answersOf_cons, answersOf_nil, answersOf_append,
    List.append_assoc]
  rw [run_next (.setup .tprescaler) (.wr 0x2A s.config.tmodeVal) f1 rfl (fun t => rfl),
    run_next (.setup .treloadHi) (.wr 0x2B s.config.tprescalerVal) f2 (by simp [primitive, setupPrim]; rfl) (fun t => rfl),
    run_next (.setup .treloadLo) (.wr 0x2C s.config.treloadHiVal) f3 (by simp [primitive, setupPrim]; rfl) (fun t => rfl),
    run_next (.setup .txAsk) (.wr 0x2D s.config.treloadLoVal) f4 (by simp [primitive, setupPrim]; rfl) (fun t => rfl),
    run_next (.setup .mode) (.wr 0x15 s.config.txAskVal) f5 (by simp [primitive, setupPrim]; rfl) (fun t => rfl),
    run_enter (p := .wr 0x11 s.config.modeVal) (g := .antennaOn) (cs := [.initAntenna]) f6
      (by simp [primitive, setupPrim]; rfl) rfl,
    run_antennaOn x.antenna _ hok f7]
  simp only [List.cons_append, List.nil_append, giveBack, returned, initAntennaReturned]
  refine (run_ret (p := .assign) rfl rfl rfl).trans ?_
  simp only [played_cons, played_append, played_nil]

theorem ofNat_mod_128 (n : Nat) : BitVec.ofNat 7 (n % 128) = BitVec.ofNat 7 n := by
  apply BitVec.eq_of_toNat_eq
  simp

theorem run_initialize {ws : List Waiting} {rest : List Answer} (x : InitRun) (address : Nat) (s : State)
    (hok : x.ok s.config = true) (hf : noFault (x.script s.config) = true) :
    run (answersOf (x.script s.config) ++ rest) (s.setSeq (some ⟨.initAddress address, ws⟩)) =
      run rest (giveBack ws .done (x.after s.config address s)) := by
  simp only [InitRun.ok, Bool.and_eq_true] at hok
  simp only [InitRun.script, noFault_cons, noFault_append] at hf
  obtain ⟨-, f1, f2⟩ := hf
  simp only [InitRun.script, answersOf_cons, answersOf_append, List.append_assoc, List.cons_append]
  rw [run_enter (p := .assign) (g := .softReset .command) (cs := [.initSoftReset])
    (t := (played [(.assign, x.address)] s).setAddr (BitVec.ofNat 7 (address % 128))) rfl rfl
    (by rw [ofNat_mod_128]; rfl)]
  have hcfg : ((played [(.assign, x.address)] s).setAddr (BitVec.ofNat 7 (address % 128))).config = s.config := by simp
  have h := run_softReset (ws := [.initSoftReset] ++ ws) (rest := answersOf (x.setupScript s.config) ++ rest) x.reset
    ((played [(.assign, x.address)] s).setAddr (BitVec.ofNat 7 (address % 128))) (by rw [hcfg]; exact hok.1)
    (by rw [hcfg]; exact f1)
  rw [hcfg] at h
  rw [h]
  have hcfg2 : (x.reset.after s.config ((played [(.assign, x.address)] s).setAddr
      (BitVec.ofNat 7 (address % 128)))).config = s.config := by simp [SoftResetRun.after]
  have h2 := run_setup (ws := ws) (rest := rest) x
    (x.reset.after s.config ((played [(.assign, x.address)] s).setAddr (BitVec.ofNat 7 (address % 128))))
    hok.2 (by rw [hcfg2]; exact f2)
  rw [hcfg2] at h2
  exact h2

/-! ### computeCrc (R130) -/

theorem loadScript_cons (b : Byte) (bs : List Byte) (a : Answer) (as : List Answer) :
    loadScript (b :: bs) (a :: as) = (.wr 0x09 b, a) :: loadScript bs as := rfl

/-- The load loop of computeCrc from byte `done.length` on. -/
theorem run_crc_load {ws : List Waiting} {rest : List Answer} (done todo : List Byte) (loads : List Answer) (s : State)
    (hl : loads.length = todo.length) (hf : noFault (loadScript todo loads) = true) :
    run (answersOf (loadScript todo loads) ++ rest)
        (s.setSeq (some ⟨.computeCrc (done ++ todo) (crcLoad (done ++ todo) done.length), ws⟩)) =
      run rest ((played (loadScript todo loads) s).setSeq (some ⟨.computeCrc (done ++ todo) .c3, ws⟩)) := by
  induction todo generalizing done loads s with
  | nil => simp [loadScript, answersOf_nil, crcLoad]
  | cons b bs ih =>
    obtain _ | ⟨a, as⟩ := loads
    · simp at hl
    · rw [loadScript_cons, noFault_cons] at hf
      have hc : crcLoad (done ++ b :: bs) done.length = .c2 done.length := by simp [crcLoad]
      rw [loadScript_cons, answersOf_cons, List.cons_append, hc,
        run_next (.computeCrc (done ++ b :: bs) (crcLoad (done ++ b :: bs) (done.length + 1))) (.wr 0x09 b) hf.1
          (by simp [primitive, crcPrim]; rfl) (fun t => rfl)]
      have h := ih (done ++ [b]) as (perform (.wr 0x09 b) a s).state (by simpa using hl) hf.2
      simpa using h

theorem run_computeCrc {ws : List Waiting} {rest : List Answer} (bytes : List Byte) (x : CrcRun) (s : State)
    (hok : x.ok s.config bytes = true) (hf : noFault (x.script s.config bytes) = true) :
    run (answersOf (x.script s.config bytes) ++ rest) (s.setSeq (some ⟨.computeCrc bytes .c0, ws⟩)) =
      run rest (giveBack ws (.crc x.hi.byte x.lo.byte) (x.after s.config bytes s)) := by
  simp only [CrcRun.ok, Bool.and_eq_true, decide_eq_true_eq] at hok
  simp only [CrcRun.script, CrcRun.headScript, noFault_append, noFault_cons] at hf
  obtain ⟨⟨⟨⟨⟨f1, f2, -⟩, f3⟩, f4, -⟩, f5⟩, f6, f7, -⟩ := hf
  simp only [CrcRun.script, CrcRun.headScript, answersOf_append, answersOf_cons, answersOf_nil, List.append_assoc,
    List.cons_append, List.nil_append]
  rw [run_next (.computeCrc bytes (.c1 x.level.byte)) (.rd 0x0A) f1 rfl (fun t => rfl),
    run_next (.computeCrc bytes (crcLoad bytes 0)) (.wr 0x0A (x.level.byte ||| 0x80) 0x80) f2 rfl (fun t => rfl)]
  have h := run_crc_load (ws := ws) (rest := x.command :: (answersOf (x.poll.script 0x05 s.config) ++ x.hi :: x.lo :: rest))
    [] bytes x.loads (played [(.rd 0x0A, x.level), (.wr 0x0A (x.level.byte ||| 0x80) 0x80, x.flush)] s) hok.1 f3
  simp only [List.nil_append, List.length_nil, played_cons, played_nil] at h
  rw [h, run_enter (p := .wr 0x01 0x03) (g := .poll (crcPoll s.config) .p0) (cs := [.computeCrc bytes]) f4 rfl
    (by simp only [after, crcAfter, perform_config, played_config]; rfl)]
  have hp := run_crcPoll (ws := [.computeCrc bytes] ++ ws) (rest := x.hi :: x.lo :: rest) x.poll
    (played (x.headScript bytes) s) (by simpa using hok.2) (by simpa using f5)
  simp only [played_config] at hp
  simp only [CrcRun.headScript, played_append, played_cons, played_nil] at hp
  rw [hp]
  simp only [List.cons_append, List.nil_append, giveBack, returned, crcPollReturned]
  rw [run_enter (p := .rd 0x21) (g := .computeCrc bytes .c6) (cs := []) f6 rfl rfl, List.nil_append]
  refine (run_ret (p := .rd 0x22) f7 rfl rfl).trans ?_
  simp only [CrcRun.after, CrcRun.headScript, played_append, played_cons, played_nil, perform_setCrcHi]
  rfl

@[simp] theorem CrcRun.after_config (c : Config) (bytes : List Byte) (x : CrcRun) (s : State) :
    (x.after c bytes s).config = s.config := by simp [CrcRun.after]

/-! ### transceive (R140) -/

/-- The load loop of transceive from byte `done.length` on. -/
theorem run_xcv_load {ws : List Waiting} {rest : List Answer} (done todo : List Byte) (loads : List Answer) (s : State)
    (hs : s.txbuf = done ++ todo) (hl : loads.length = todo.length) (hf : noFault (loadScript todo loads) = true) :
    run (answersOf (loadScript todo loads) ++ rest)
        (s.setSeq (some ⟨.transceive (xcvLoad (done ++ todo) done.length), ws⟩)) =
      run rest ((played (loadScript todo loads) s).setSeq (some ⟨.transceive .x5, ws⟩)) := by
  induction todo generalizing done loads s with
  | nil => simp [loadScript, answersOf_nil, xcvLoad]
  | cons b bs ih =>
    obtain _ | ⟨a, as⟩ := loads
    · simp at hl
    · rw [loadScript_cons, noFault_cons] at hf
      have hc : xcvLoad (done ++ b :: bs) done.length = .x4 done.length := by simp [xcvLoad]
      rw [loadScript_cons, answersOf_cons, List.cons_append, hc,
        run_next (.transceive (xcvLoad (done ++ b :: bs) (done.length + 1))) (.wr 0x09 b) hf.1
          (by simp [primitive, xcvPrim, hs]; rfl) (fun t => by simp [after, xcvAfter, hs])]
      have h := ih (done ++ [b]) as (perform (.wr 0x09 b) a s).state (by simpa using hs) (by simpa using hl) hf.2
      simpa using h

/-- RES after a drain has stored these bytes from element `i` on. -/
def storeBytes (r : ExchangeResult) (i : Nat) : List Byte → ExchangeResult
  | [] => r
  | b :: bs => storeBytes (storeByte r i b) (i + 1) bs

/-- The bytes stored stand in RXBUF in order, after what stood before them. -/
theorem storeBytes_take (r : ExchangeResult) (i : Nat) (bs : List Byte) (h : i ≤ r.rxbuf.length) :
    (storeBytes r i bs).rxbuf.take (i + bs.length) = r.rxbuf.take i ++ bs := by
  induction bs generalizing r i with
  | nil => simp [storeBytes]
  | cons b bs ih =>
    have hl : i + 1 ≤ (storeByte r i b).rxbuf.length := by simp [storeByte]; omega
    have h1 := ih (storeByte r i b) (i + 1) hl
    have h2 : (storeByte r i b).rxbuf.take (i + 1) = r.rxbuf.take i ++ [b] := by
      simp only [storeByte]
      rw [List.take_append, List.take_of_length_le (by simp), List.length_take, Nat.min_eq_left h]
      simp
    rw [h2, List.append_assoc] at h1
    simpa [storeBytes, Nat.add_assoc, Nat.add_comm 1] using h1

/-- The drain loop of transceive. -/
theorem run_xcv_drain {ws : List Waiting} {rest : List Answer} (i : Nat) (ds : List Answer) (s : State)
    (hf : noFault (ds.map fun d => (Prim.rd 0x09, d)) = true) :
    run (answersOf (ds.map fun d => (Prim.rd 0x09, d)) ++ rest)
        (s.setSeq (some ⟨.transceive (xcvDrain i (i + ds.length)), ws⟩)) =
      run rest (((played (ds.map fun d => (Prim.rd 0x09, d)) s).setRes (storeBytes s.res i (ds.map (·.byte)))).setSeq
        (some ⟨.transceive (.x15 (i + ds.length)), ws⟩)) := by
  induction ds generalizing i s with
  | nil => simp [xcvDrain, answersOf_nil, storeBytes]; rfl
  | cons d ds ih =>
    simp only [List.map_cons, noFault_cons] at hf
    have hc : xcvDrain i (i + (d :: ds).length) = .x14 i (i + (d :: ds).length) := by simp [xcvDrain]
    rw [List.map_cons, answersOf_cons, List.cons_append, hc,
      run_enter (p := .rd 0x09) (g := .transceive (xcvDrain (i + 1) (i + (d :: ds).length))) (cs := []) hf.1 rfl rfl]
    have h := ih (i + 1) ((perform (.rd 0x09) d s).state.setRes (storeByte s.res i d.byte)) hf.2
    rw [played_setRes] at h
    simp only [List.length_cons, Nat.add_comm ds.length 1, ← Nat.add_assoc, List.nil_append, perform_res]
    exact h

/-- Steps 1 to 4 of transceive: the poll is next. -/
theorem run_xcv_send {ws : List Waiting} {rest : List Answer} (frame : List Byte) (vb : ValidBits) (x : XcvRun) (s : State)
    (hl : x.loads.length = frame.length) (hf : noFault (x.headScript s.config frame vb) = true) :
    run (answersOf (x.headScript s.config frame vb) ++ rest)
        ((s.setTxf frame vb).setSeq (some ⟨.transceive .x0, ws⟩)) =
      run rest ((played (x.headScript s.config frame vb) (s.setTxf frame vb)).setSeq
        (some ⟨.poll (xcvPoll s.config) .p0, .transceive :: ws⟩)) := by
  simp only [XcvRun.headScript, List.cons_append, List.nil_append, noFault_append, noFault_cons] at hf
  obtain ⟨f1, f2, f3, f4, f5, f6, f7, f8, f9, -⟩ := hf
  simp only [XcvRun.headScript, answersOf_append, answersOf_cons, answersOf_nil, List.append_assoc,
    List.cons_append, List.nil_append]
  rw [run_next (.transceive .x1) (.wr 0x01 0x00) f1 rfl (fun t => rfl),
    run_next (.transceive .x2) (.wr 0x04 s.config.comIrqClearVal) f2 (by simp [primitive, xcvPrim]; rfl) (fun t => rfl),
    run_next (.transceive (.x3 x.level.byte)) (.rd 0x0A) f3 rfl (fun t => rfl),
    run_next (.transceive (xcvLoad frame 0)) (.wr 0x0A (x.level.byte ||| 0x80) 0x80) f4 rfl
      (fun t => by simp [after, xcvAfter])]
  have h := run_xcv_load (ws := ws) (rest := x.framing :: x.command :: x.sendRead :: x.sendWrite :: rest) [] frame x.loads
    (played [(.wr 0x01 0x00, x.idle), (.wr 0x04 s.config.comIrqClearVal, x.clear), (.rd 0x0A, x.level),
      (.wr 0x0A (x.level.byte ||| 0x80) 0x80, x.flush)] (s.setTxf frame vb)) (by simp) hl f5
  simp only [List.nil_append, List.length_nil, played_cons, played_nil] at h
  rw [h,
    run_next (.transceive .x6) (.wr 0x0D (vb.setWidth 8)) f6 (by simp [primitive, xcvPrim, framingValue]; rfl) (fun t => rfl),
    run_next (.transceive .x7) (.wr 0x01 0x0C) f7 rfl (fun t => rfl),
    run_next (.transceive (.x8 x.sendRead.byte)) (.rd 0x0D) f8 rfl (fun t => rfl),
    run_enter (p := .wr 0x0D (x.sendRead.byte ||| 0x80) 0x80) (g := .poll (xcvPoll s.config) .p0) (cs := [.transceive]) f9 rfl
      (by simp only [after, xcvAfter, perform_config, played_config, State.setTxf_config]; rfl)]
  simp only [played_append, played_cons, played_nil, List.cons_append, List.nil_append]

/-- Steps 1 to 4 of transceive and its poll. -/
theorem run_xcv_head {ws : List Waiting} {rest : List Answer} (frame : List Byte) (vb : ValidBits) (x : XcvRun) (s : State)
    (hl : x.loads.length = frame.length) (hp : x.poll.ok (fun v => v &&& 0x30 != 0) s.config.tXcvMs s.config = true)
    (hf : noFault (x.headScript s.config frame vb) = true)
    (hfp : noFault (x.poll.script 0x04 s.config) = true) :
    run (answersOf (x.headScript s.config frame vb) ++ (answersOf (x.poll.script 0x04 s.config) ++ rest))
        ((s.setTxf frame vb).setSeq (some ⟨.transceive .x0, ws⟩)) =
      run rest (giveBack (.transceive :: ws) .done
        (x.poll.after 0x04 s.config (played (x.headScript s.config frame vb) (s.setTxf frame vb)))) := by
  rw [run_xcv_send frame vb x s hl hf]
  have hq := run_xcvPoll (ws := .transceive :: ws) (rest := rest) x.poll
    (played (x.headScript s.config frame vb) (s.setTxf frame vb)) (by rw [played_config]; exact hp) (by rw [played_config]; exact hfp)
  rw [played_config, State.setTxf_config] at hq
  exact hq

theorem run_transceive {ws : List Waiting} {rest : List Answer} (frame : List Byte) (vb : ValidBits) (x : XcvRun) (s : State)
    (hok : x.ok s.config frame = true) (hf : noFault (x.script s.config frame vb) = true) :
    run (answersOf (x.script s.config frame vb) ++ rest) ((s.setTxf frame vb).setSeq (some ⟨.transceive .x0, ws⟩)) =
      run rest (giveBack ws (.exchange x.result) (x.after s.config frame vb s)) := by
  simp only [XcvRun.ok, Bool.and_eq_true, decide_eq_true_eq] at hok
  obtain ⟨⟨hl, hp⟩, he⟩ := hok
  simp only [XcvRun.script, noFault_append] at hf
  obtain ⟨⟨f1, f2⟩, f3⟩ := hf
  simp only [XcvRun.script, answersOf_append, List.append_assoc]
  rw [run_xcv_head frame vb x s hl hp f1 f2]
  simp only [giveBack, returned, xcvPollReturned, PollRun.after_pv]
  obtain ⟨idle, clear, level, flush, loads, framing, command, sendRead, sendWrite, poll, ending⟩ := x
  dsimp only at *
  cases ending with
  | timeout r w v =>
    simp only [XcvRun.endOk, beq_iff_eq] at he
    simp only [XcvRun.endScript, noFault_cons] at f3
    simp only [XcvRun.endScript, answersOf_cons, answersOf_nil, List.cons_append, List.nil_append, he]
    rw [run_next (.transceive (.x11 r.byte)) (.rd 0x0D) f3.1 rfl (fun t => rfl),
      run_next (.transceive .failure) (.wr 0x0D (r.byte &&& 0x7F) 0x80) f3.2.1 rfl (fun t => rfl)]
    exact run_ret (p := .assign) rfl rfl rfl
  | frameError e v =>
    simp only [XcvRun.endOk, Bool.and_eq_true, beq_iff_eq] at he
    simp only [XcvRun.endScript, noFault_cons] at f3
    simp only [XcvRun.endScript, answersOf_cons, answersOf_nil, List.cons_append, List.nil_append, he.1]
    have h : frameError e.byte = true := he.2
    rw [run_next (.transceive .failure) (.rd 0x06) f3.1 rfl (fun t => by simp [after, xcvAfter, h])]
    exact run_ret (p := .assign) rfl rfl rfl
  | success e n drains ctl v =>
    simp only [XcvRun.endOk, Bool.and_eq_true, beq_iff_eq, decide_eq_true_eq] at he
    obtain ⟨⟨h1, h2⟩, h3⟩ := he
    simp only [XcvRun.endScript, noFault_append, noFault_cons] at f3
    obtain ⟨⟨⟨f4, f5, -⟩, f6⟩, f7, -⟩ := f3
    simp only [XcvRun.endScript, answersOf_append, answersOf_cons, answersOf_nil, List.cons_append, List.nil_append,
      List.append_assoc, h1]
    have he : frameError e.byte = false := by rw [frameError, Mask.error, h2]; rfl
    rw [run_next (.transceive .x13) (.rd 0x06) f4 rfl (fun t => by simp [after, xcvAfter, he]),
      run_next (.transceive (xcvDrain 0 (fifoCount n.byte))) (.rd 0x0A) f5 rfl (fun t => rfl)]
    have hn : fifoCount n.byte = 0 + drains.length := by simp [fifoCount, Mask.fifoLevel, h3]
    rw [hn, run_xcv_drain 0 drains _ f6,
      run_next (.transceive (.success (0 + drains.length) (rxLastBits ctl.byte))) (.rd 0x0C) f7 rfl (fun t => rfl)]
    refine (run_ret (p := .assign) rfl rfl rfl).trans ?_
    have ht := storeBytes_take s.res 0 (drains.map (·.byte)) (Nat.zero_le _)
    simp only [List.length_map, List.take_zero, List.nil_append] at ht
    simp only [XcvRun.after, XcvRun.endScript, XcvRun.result, played_append, played_cons, played_nil, perform_setRes,
      perform_res, State.setRes_res, PollRun.after_res, played_res, State.setTxf_res, ht]
    rfl

@[simp] theorem XcvRun.after_config (c : Config) (frame : List Byte) (vb : ValidBits) (x : XcvRun) (s : State) :
    (x.after c frame vb s).config = s.config := by simp [XcvRun.after]
@[simp] theorem XcvRun.after_res (c : Config) (frame : List Byte) (vb : ValidBits) (x : XcvRun) (s : State) :
    (x.after c frame vb s).res = x.result := rfl

/-! ### reqa, anticollision, select, readUid (R150 to R153) -/

theorem run_reqa {ws : List Waiting} {rest : List Answer} (x : ReqaRun) (s : State)
    (hok : x.ok s.config = true) (hf : noFault (x.script s.config) = true) :
    run (answersOf (x.script s.config) ++ rest) (s.setSeq (some ⟨.reqaFraming, ws⟩)) =
      run rest (giveBack ws (.flag x.result) (x.after s.config s)) := by
  simp only [ReqaRun.script, noFault_append, noFault_cons] at hf
  obtain ⟨f1, f2, f3, -⟩ := hf
  simp only [ReqaRun.script, answersOf_append, answersOf_cons, answersOf_nil, List.cons_append, List.nil_append,
    List.append_assoc]
  rw [run_enter (p := .wr 0x0D 0x07) (g := .transceive .x0) (cs := [.reqa]) f1 rfl rfl]
  have h := run_transceive (ws := [.reqa] ++ ws) (rest := x.restore :: rest) [0x26] 7 x.exchange
    (perform (.wr 0x0D 0x07) x.framing s).state (by rw [perform_config]; exact hok) (by rw [perform_config]; exact f2)
  rw [perform_config] at h
  refine h.trans ?_
  simp only [List.cons_append, List.nil_append, giveBack, returned, reqaReturned]
  refine (run_ret (p := .wr 0x0D 0x00) f3 rfl rfl).trans ?_
  simp only [perform_res, XcvRun.after_res]
  rfl

/-- anticollision succeeds exactly on a reply of five bytes or more, and takes the first five. -/
theorem AnticollRun.result_eq (x : AnticollRun) :
    x.result = if anticollOk x.exchange.result then some (leadingUidb x.exchange.result.rxbuf) else none := by
  simp only [AnticollRun.result]
  obtain ⟨ok, buf, vb⟩ := x.exchange.result
  cases ok
  · rfl
  · rcases buf with _ | ⟨a, _ | ⟨b, _ | ⟨c, _ | ⟨d, _ | ⟨e, t⟩⟩⟩⟩⟩ <;> simp [anticollOk, Config.minAnticoll, leadingUidb]

/-- select succeeds exactly on a reply of one byte or more, and takes the first. -/
theorem SelectRun.sak_eq (x : SelectRun) :
    x.sak = if selectOk x.exchange.result then some (x.exchange.result.rxbuf.headD 0) else none := by
  simp only [SelectRun.sak]
  obtain ⟨ok, buf, vb⟩ := x.exchange.result
  cases ok
  · rfl
  · cases buf <;> simp [selectOk, Config.minSak]

theorem run_anticollision {ws : List Waiting} {rest : List Answer} (x : AnticollRun) (s : State)
    (hok : x.ok s.config = true) (hf : noFault (x.script s.config) = true) :
    run (answersOf (x.script s.config) ++ rest) (s.setSeq (some ⟨.anticollision, ws⟩)) =
      run rest (giveBack ws (.uidb x.result) (x.after s.config s)) := by
  simp only [AnticollRun.script, AnticollRun.headScript, noFault_append, noFault_cons] at hf
  obtain ⟨⟨f1, f2⟩, -⟩ := hf
  simp only [AnticollRun.script, AnticollRun.headScript, answersOf_append, answersOf_cons, List.cons_append,
    List.append_assoc]
  rw [run_enter (p := .wr 0x0D 0x00) (g := .transceive .x0) (cs := [.anticollision]) f1 rfl rfl]
  have h := run_transceive (ws := [.anticollision] ++ ws)
    (rest := answersOf (if x.result.isSome then [(.assign, x.assign)] else []) ++ rest) [0x93, 0x20] 0 x.exchange
    (perform (.wr 0x0D 0x00) x.framing s).state (by rw [perform_config]; exact hok) (by rw [perform_config]; exact f2)
  rw [perform_config] at h
  refine h.trans ?_
  have hr := x.result_eq
  simp only [List.cons_append, List.nil_append, giveBack, returned, anticollReturned, XcvRun.after_res,
    AnticollRun.after, played_cons, played_nil]
  cases ho : anticollOk x.exchange.result with
  | false =>
    simp only [ho, Bool.false_eq_true, if_false] at hr ⊢
    rw [hr]
    rfl
  | true =>
    simp only [ho, if_true] at hr ⊢
    rw [hr]
    refine (run_ret (p := .assign) rfl rfl rfl).trans ?_
    simp only [perform_res, XcvRun.after_res]
    rfl

theorem run_select {ws : List Waiting} {rest : List Answer} (u : Uidb) (x : SelectRun) (s : State)
    (hok : x.ok s.config u = true) (hf : noFault (x.script s.config u) = true) :
    run (answersOf (x.script s.config u) ++ rest) (s.setSeq (some ⟨.computeCrc (selectHead u) .c0, .selectCrc u :: ws⟩)) =
      run rest (giveBack ws (.flag x.sak.isSome) (x.after s.config u s)) := by
  simp only [SelectRun.ok, Bool.and_eq_true] at hok
  simp only [SelectRun.script, SelectRun.headScript, noFault_append] at hf
  obtain ⟨⟨f1, f2⟩, -⟩ := hf
  simp only [SelectRun.script, SelectRun.headScript, answersOf_append, List.append_assoc]
  have h := run_computeCrc (ws := .selectCrc u :: ws) (rest := answersOf (x.exchange.script s.config (x.frame u) 0) ++
      (answersOf (if x.sak.isSome then [(.assign, x.assign)] else []) ++ rest)) (SelectRun.head u) x.crc s hok.1 f1
  refine h.trans ?_
  simp only [giveBack, returned, selectCrcReturned, callTransceive]
  have h2 := run_transceive (ws := [.selectExchange u] ++ ws)
    (rest := answersOf (if x.sak.isSome then [(.assign, x.assign)] else []) ++ rest) (x.frame u) 0 x.exchange
    (x.crc.after s.config (SelectRun.head u) s) (by simpa using hok.2) (by simpa using f2)
  rw [CrcRun.after_config] at h2
  refine h2.trans ?_
  have hr := x.sak_eq
  simp only [List.cons_append, List.nil_append, giveBack, returned, selectReturned, XcvRun.after_res, SelectRun.after]
  cases ho : selectOk x.exchange.result with
  | false =>
    simp only [ho, Bool.false_eq_true, if_false] at hr ⊢
    rw [hr]
    rfl
  | true =>
    simp only [ho, if_true] at hr ⊢
    rw [hr]
    refine (run_ret (p := .assign) rfl rfl rfl).trans ?_
    simp only [perform_res, XcvRun.after_res]
    rfl

@[simp] theorem ReqaRun.after_config (c : Config) (x : ReqaRun) (s : State) : (x.after c s).config = s.config := by
  simp [ReqaRun.after]
@[simp] theorem AnticollRun.after_config (c : Config) (x : AnticollRun) (s : State) :
    (x.after c s).config = s.config := by
  simp only [AnticollRun.after]
  split <;> simp
@[simp] theorem SelectRun.after_config (c : Config) (u : Uidb) (x : SelectRun) (s : State) :
    (x.after c u s).config = s.config := by
  simp only [SelectRun.after]
  split <;> simp

theorem AnticollRun.after_uidb (c : Config) (x : AnticollRun) (s : State) {u : Uidb} (h : x.result = some u) :
    (x.after c s).uidb = u := by
  simp only [AnticollRun.after, h]
  rfl
@[simp] theorem SelectRun.after_uidb (c : Config) (u : Uidb) (x : SelectRun) (s : State) :
    (x.after c u s).uidb = s.uidb := by
  simp only [SelectRun.after, XcvRun.after, CrcRun.after, PollRun.after]
  split <;> simp

theorem run_readUid {ws : List Waiting} {rest : List Answer} (x : ReadUidRun) (s : State)
    (hok : x.ok s.config = true) (hf : noFault (x.script s.config) = true) :
    run (answersOf (x.script s.config) ++ rest) (s.setSeq (some ⟨.reqaFraming, .readUidReqa :: ws⟩)) =
      run rest (giveBack ws (.uid x.result) (x.after s.config s)) := by
  cases x with
  | noCard r =>
    simp only [ReadUidRun.ok, Bool.and_eq_true, Bool.not_eq_true'] at hok
    simp only [ReadUidRun.script] at hf ⊢
    rw [run_reqa r s hok.1 hf]
    simp only [giveBack, returned, hok.2]
    rfl
  | noUid r a =>
    simp only [ReadUidRun.ok, Bool.and_eq_true, beq_iff_eq] at hok
    obtain ⟨⟨⟨h1, h2⟩, h3⟩, h4⟩ := hok
    simp only [ReadUidRun.script, noFault_append] at hf
    simp only [ReadUidRun.script, answersOf_append, List.append_assoc]
    rw [run_reqa r s h1 hf.1]
    simp only [giveBack, returned, h2, readUidReqaReturned]
    have h := run_anticollision (ws := [.readUidAnticoll] ++ ws) (rest := rest) a (r.after s.config s)
      (by simpa using h3) (by simpa using hf.2)
    rw [ReqaRun.after_config] at h
    refine h.trans ?_
    simp only [List.cons_append, List.nil_append, giveBack, returned, h4]
    rfl
  | selecting r a u x =>
    simp only [ReadUidRun.ok, Bool.and_eq_true, beq_iff_eq] at hok
    obtain ⟨⟨⟨⟨h1, h2⟩, h3⟩, h4⟩, h5⟩ := hok
    simp only [ReadUidRun.script, noFault_append] at hf
    simp only [ReadUidRun.script, answersOf_append, List.append_assoc]
    rw [run_reqa r s h1 hf.1]
    simp only [giveBack, returned, h2, readUidReqaReturned]
    have h := run_anticollision (ws := [.readUidAnticoll] ++ ws) (rest := answersOf (x.script s.config u) ++ rest) a
      (r.after s.config s) (by simpa using h3) (by simpa using hf.2.1)
    rw [ReqaRun.after_config] at h
    refine h.trans ?_
    simp only [List.cons_append, List.nil_append, giveBack, returned, h4, readUidAnticollReturned, callSelect]
    have h6 := run_select (ws := [.readUidSelect] ++ ws) (rest := rest) u x (a.after s.config (r.after s.config s))
      (by simpa using h5) (by simpa using hf.2.2)
    rw [AnticollRun.after_config, ReqaRun.after_config] at h6
    refine h6.trans ?_
    simp only [List.cons_append, List.nil_append, giveBack, returned, readUidSelectReturned, ReadUidRun.result,
      ReadUidRun.after]
    cases hs : x.sak with
    | none => rfl
    | some b =>
      simp only [Option.isSome_some, if_true, SelectRun.after_uidb, AnticollRun.after_uidb _ _ _ h4]
      rfl

/-! ### Starting an operation whose script is ready -/

@[simp] theorem ended_setResult (r : Result) (rest : List Answer) (s : State) (x : Option Result) :
    ended r rest (s.setResult x) = ended r rest s := rfl

theorem answersOf_length (xs : List (Prim × Answer)) : (answersOf xs).length = xs.length := by simp [answersOf]

/-- An operation whose ready answers carry it to its return. -/
theorem start_ended {f : Active} {ws : List Waiting} {s t : State} {xs : List (Prim × Answer)} {rest : List Answer}
    {r : Result} (hs : readyFor xs rest s) (hne : xs ≠ [])
    (h : run (answersOf xs ++ rest) ((s.setResult none).setSeq (some ⟨f, ws⟩)) = run rest (giveBack [] r t)) :
    start f ws s = .next (ended r rest t) := by
  rw [start_idle hs.1]
  congr 1
  have ha : ((s.setResult none).setSeq (some ⟨f, ws⟩)).answers = answersOf xs ++ rest := hs.2
  simp only [advance, ha]
  obtain _ | ⟨x, xs⟩ := xs
  · exact absurd rfl hne
  · rw [answersOf_cons, List.cons_append] at h ⊢
    exact h.trans run_ended

section setResult
variable (c : Config) (s : State) (r : Option Result)

theorem PollRun.after_setResult (q : Byte) (x : PollRun) :
    x.after q c (s.setResult r) = (x.after q c s).setResult r := by
  simp only [PollRun.after, played_setResult]
  rfl

theorem SoftResetRun.after_setResult (x : SoftResetRun) : x.after c (s.setResult r) = (x.after c s).setResult r := by
  simp only [SoftResetRun.after, played_setResult, PollRun.after_setResult]

theorem InitRun.after_setResult (address : Nat) (x : InitRun) :
    x.after c address (s.setResult r) = (x.after c address s).setResult r := by
  have h : ∀ t : State, (t.setResult r).setAddr (BitVec.ofNat 7 (address % 128)) =
      (t.setAddr (BitVec.ofNat 7 (address % 128))).setResult r := fun _ => rfl
  simp only [InitRun.after, played_setResult, h, SoftResetRun.after_setResult]
  rfl

theorem CrcRun.after_setResult (bytes : List Byte) (x : CrcRun) :
    x.after c bytes (s.setResult r) = (x.after c bytes s).setResult r := by
  simp only [CrcRun.after, PollRun.after_setResult, played_setResult]
  rfl

theorem XcvRun.after_setResult (frame : List Byte) (vb : ValidBits) (x : XcvRun) :
    x.after c frame vb (s.setResult r) = (x.after c frame vb s).setResult r := by
  have h : (s.setResult r).setTxf frame vb = (s.setTxf frame vb).setResult r := rfl
  simp only [XcvRun.after, h, PollRun.after_setResult, played_setResult]
  rfl

theorem ReqaRun.after_setResult (x : ReqaRun) : x.after c (s.setResult r) = (x.after c s).setResult r := by
  simp only [ReqaRun.after, played_setResult, XcvRun.after_setResult]

theorem AnticollRun.after_setResult (x : AnticollRun) : x.after c (s.setResult r) = (x.after c s).setResult r := by
  simp only [AnticollRun.after, played_setResult, XcvRun.after_setResult]
  cases x.result <;> rfl

theorem SelectRun.after_setResult (u : Uidb) (x : SelectRun) :
    x.after c u (s.setResult r) = (x.after c u s).setResult r := by
  simp only [SelectRun.after, CrcRun.after_setResult, XcvRun.after_setResult]
  cases x.sak <;> rfl

theorem ReadUidRun.after_setResult (x : ReadUidRun) : x.after c (s.setResult r) = (x.after c s).setResult r := by
  cases x <;>
    simp only [ReadUidRun.after, ReqaRun.after_setResult, AnticollRun.after_setResult, SelectRun.after_setResult]

end setResult

end Sys2Proof.Machine
end

