-- ==== Sys2Proof/Laws/Endings.lean ====
section
/-! SUPPORT. The other direction of Laws/Scripts.lean: a run that is over ended in a BusFault, or its answers were those of a script (R53, R120, R140, R173). -/

namespace Sys2Proof.Machine

/-- The run over these answers is over. -/
def Over (as : List Answer) (s : State) : Prop := (run as s).seq = none

/-- The run over these answers ended in a BusFault. -/
def Faulted (as : List Answer) (s : State) : Prop := (run as s).result = some .busFault

/-- A transaction that fails raises BusFault at once. -/
theorem run_fault {a : Answer} {as : List Answer} {s : State} {f : Active} {ws : List Waiting}
    (h : (primitive f s).faults a = true) : Faulted (a :: as) (s.setSeq (some ⟨f, ws⟩)) := by
  have hp : perform (primitive f s) a (s.setSeq (some ⟨f, ws⟩)) =
      .failed (perform (primitive f s) a (s.setSeq (some ⟨f, ws⟩))).state := by
    revert h
    cases primitive f s <;> intro h <;> simp only [Prim.faults, Bool.false_eq_true] at h <;>
      simp only [perform, h, if_true, Performed.state]
  have hs : primStep a (s.setSeq (some ⟨f, ws⟩)) =
      raiseBusFault (perform (primitive f s) a (s.setSeq (some ⟨f, ws⟩))).state := by
    simp only [primStep, State.setSeq_seq, primitive_setSeq]
    rw [hp]
    rfl
  rw [Faulted, run_cons (q := ⟨f, ws⟩) rfl, hs, run_idle rfl]
  rfl

/-- A run that is over performed the primitive of its first phase: it failed, or what follows it was carried out. -/
theorem over_step {as : List Answer} {s : State} {f : Active} {ws : List Waiting}
    (h : Over as (s.setSeq (some ⟨f, ws⟩))) :
    Faulted as (s.setSeq (some ⟨f, ws⟩)) ∨
      ∃ a as', as = a :: as' ∧ (primitive f s).faults a = false ∧
        run as (s.setSeq (some ⟨f, ws⟩)) =
          run as' (follow ws (after f ⟨a.byte, (perform (primitive f s) a s).state.clock⟩
            (perform (primitive f s) a s).state)) := by
  obtain _ | ⟨a, as⟩ := as
  · simp [Over, run] at h
  · cases ha : (primitive f s).faults a with
    | true => exact .inl (run_fault ha)
    | false => exact .inr ⟨a, as, rfl, ha, run_step ha⟩

/-- The same for a phase that is followed by another one. -/
theorem over_next {as : List Answer} {s : State} {f : Active} {ws : List Waiting} (p : Prim) (g : Answer → Active)
    (hp : primitive f s = p)
    (hg : ∀ a t, after f ⟨a.byte, t⟩ (perform p a s).state = ((perform p a s).state, .enter (g a) []))
    (h : Over as (s.setSeq (some ⟨f, ws⟩))) :
    Faulted as (s.setSeq (some ⟨f, ws⟩)) ∨
      ∃ a as', as = a :: as' ∧ p.faults a = false ∧
        run as (s.setSeq (some ⟨f, ws⟩)) = run as' ((perform p a s).state.setSeq (some ⟨g a, ws⟩)) := by
  obtain h | ⟨a, as', h1, h2, h3⟩ := over_step h
  · exact .inl h
  · rw [hp] at h2 h3
    rw [hg] at h3
    exact .inr ⟨a, as', h1, h2, h3⟩

/-- A run that is over made the assignment that ends its poll. -/
theorem over_verdict {q : PollArgs} {v : Verdict} {ws : List Waiting} {as : List Answer} {s : State}
    (h : Over as (s.setSeq (some ⟨.poll q (.verdict v), ws⟩))) : ∃ a rest, as = a :: rest := by
  obtain _ | ⟨a, as⟩ := as
  · simp [Over, run] at h
  · exact ⟨a, as, rfl⟩

/-- A poll that is over, from P1 on, `e` milliseconds after T0. -/
theorem over_poll_turns {q : PollArgs} {c : Config} {ws : List Waiting} {as : List Answer} {s : State} {e : Nat}
    (hc : s.config = c) (hclk : s.clock = s.t0 + e) (h : Over as (s.setSeq (some ⟨.poll q .p1, ws⟩))) :
    Faulted as (s.setSeq (some ⟨.poll q .p1, ws⟩)) ∨
      ∃ ms l rest, as = answersOf (ms.flatMap (PollRun.turnScript q.reg c) ++ PollRun.lastScript q.reg l) ++ rest ∧
        noFault (ms.flatMap (PollRun.turnScript q.reg c) ++ PollRun.lastScript q.reg l) = true ∧
        PollRun.turnsOk (pollHolds q) q.limit c.pollIntervalMs e ms l = true := by
  induction hn : as.length using Nat.strong_induction_on generalizing as s e with
  | _ n ih =>
  obtain hf | ⟨r, as1, rfl, f1, e1⟩ := over_step h
  · exact .inl hf
  have f1 : (Prim.rd q.reg).faults r = false := f1
  cases hr : pollHolds q r.byte with
  | true =>
    simp only [after, pollAfter, hr, primitive, pollPrim, if_true, follow, List.nil_append] at e1
    simp only [Over, e1] at h
    obtain ⟨v, rest, rfl⟩ := over_verdict h
    exact .inr ⟨[], .hit r v, rest, rfl, noFault_cons.2 ⟨f1, rfl⟩, hr⟩
  | false =>
  simp only [after, pollAfter, hr, primitive, pollPrim, Bool.false_eq_true, if_false, follow, List.nil_append] at e1
  simp only [Over, Faulted, e1] at h ⊢
  obtain hf | ⟨t, as2, rfl, -, e2⟩ := over_step (f := .poll q .p2) h
  · exact .inl hf
  simp only [after, pollAfter, primitive, pollPrim, pollExpired, perform_clock_now, perform_clock_rd, perform_t0] at e2
  by_cases hx : q.limit < e + r.elapsed + t.elapsed
  · rw [if_pos (by simp only [decide_eq_true_eq]; omega)] at e2
    simp only [follow, List.nil_append] at e2
    rw [e2] at h
    obtain ⟨v, rest, rfl⟩ := over_verdict h
    refine .inr ⟨[], .timeout r t v, rest, rfl, noFault_cons.2 ⟨f1, rfl⟩, ?_⟩
    simp [PollRun.turnsOk, hr, hx]
  · rw [if_neg (by simp only [decide_eq_true_eq]; omega)] at e2
    simp only [follow, List.nil_append] at e2
    rw [e2] at h ⊢
    obtain hf | ⟨z, as3, rfl, -, e3⟩ := over_step (f := .poll q .p3) h
    · exact .inl hf
    simp only [after, pollAfter, primitive, pollPrim, perform_config, hc, follow, List.nil_append] at e3
    rw [e3] at h ⊢
    obtain hf | ⟨ms, l, rest, rfl, h2, h3⟩ := ih as3.length (by simp at hn; omega)
      (e := e + r.elapsed + t.elapsed + (c.pollIntervalMs + z.elapsed)) (by simp [hc])
      (by simp only [perform_clock_now, perform_clock_rd, perform_clock_pause, perform_t0]; omega) h rfl
    · exact .inl hf
    · refine .inr ⟨⟨r, t, z⟩ :: ms, l, rest, ?_, ?_, ?_⟩
      · simp [PollRun.turnScript, answersOf_cons, answersOf_append]
      · simp only [List.flatMap_cons, PollRun.turnScript, List.cons_append, List.nil_append, noFault_cons]
        exact ⟨f1, rfl, rfl, h2⟩
      · simp only [PollRun.turnsOk, hr, Bool.not_false, Bool.true_and, h3, Bool.and_true, decide_eq_true_eq]
        omega

/-- A whole poll that is over. -/
theorem over_poll {q : PollArgs} {ws : List Waiting} {as : List Answer} {s : State}
    (h : Over as (s.setSeq (some ⟨.poll q .p0, ws⟩))) :
    Faulted as (s.setSeq (some ⟨.poll q .p0, ws⟩)) ∨
      ∃ (p : PollRun) (rest : List Answer), as = answersOf (p.script q.reg s.config) ++ rest ∧
        noFault (p.script q.reg s.config) = true ∧ p.ok (pollHolds q) q.limit s.config = true := by
  obtain hf | ⟨n, as1, rfl, -, e1⟩ := over_step h
  · exact .inl hf
  simp only [after, pollAfter, primitive, pollPrim, follow, List.nil_append] at e1
  simp only [Over, Faulted, e1] at h ⊢
  obtain hf | ⟨ms, l, rest, rfl, h2, h3⟩ := over_poll_turns (c := s.config) (e := 0) (by simp) (by simp) h
  · exact .inl hf
  · refine .inr ⟨⟨n, ms, l⟩, rest, rfl, ?_, h3⟩
    rw [PollRun.script, noFault_cons]
    exact ⟨rfl, h2⟩

/-- The load loop of transceive, in a run that is over. -/
theorem over_xcv_load {ws : List Waiting} {as : List Answer} {s : State} (done todo : List Byte)
    (hs : s.txbuf = done ++ todo)
    (h : Over as (s.setSeq (some ⟨.transceive (xcvLoad (done ++ todo) done.length), ws⟩))) :
    Faulted as (s.setSeq (some ⟨.transceive (xcvLoad (done ++ todo) done.length), ws⟩)) ∨
      ∃ loads rest, as = answersOf (loadScript todo loads) ++ rest ∧ noFault (loadScript todo loads) = true ∧
        loads.length = todo.length := by
  induction todo generalizing done as s with
  | nil => exact .inr ⟨[], as, rfl, rfl, rfl⟩
  | cons b bs ih =>
    have hc : xcvLoad (done ++ b :: bs) done.length = .x4 done.length := by simp [xcvLoad]
    rw [hc] at h ⊢
    obtain hf | ⟨a, as1, rfl, f1, e1⟩ := over_next (.wr 0x09 b)
      (fun _ => .transceive (xcvLoad (done ++ b :: bs) (done.length + 1)))
      (by simp [primitive, xcvPrim, hs]; rfl) (fun a t => by simp [after, xcvAfter, hs]) h
    · exact .inl hf
    have hd : (done ++ [b]) ++ bs = done ++ b :: bs := by simp
    have hl : (done ++ [b]).length = done.length + 1 := by simp
    simp only [Over, Faulted, e1] at h ⊢
    rw [← hd, ← hl] at h ⊢
    obtain hf | ⟨loads, rest, rfl, h2, h3⟩ := ih (done ++ [b]) (by simpa using hs) h
    · exact .inl hf
    · exact .inr ⟨a :: loads, rest, rfl, by rw [loadScript_cons, noFault_cons]; exact ⟨f1, h2⟩, by simp [h3]⟩

/-- The drain loop of transceive from byte `i` on, `m` bytes still to drain, in a run that is over. -/
theorem over_xcv_drain {ws : List Waiting} {as : List Answer} {s : State} (i m : Nat)
    (h : Over as (s.setSeq (some ⟨.transceive (xcvDrain i (i + m)), ws⟩))) :
    Faulted as (s.setSeq (some ⟨.transceive (xcvDrain i (i + m)), ws⟩)) ∨
      ∃ (ds : List Answer) (rest : List Answer), as = answersOf (ds.map fun d => (Prim.rd 0x09, d)) ++ rest ∧
        noFault (ds.map fun d => (Prim.rd 0x09, d)) = true ∧ ds.length = m := by
  induction m generalizing i as s with
  | zero => exact .inr ⟨[], as, rfl, rfl, rfl⟩
  | succ m ih =>
    have hc : xcvDrain i (i + (m + 1)) = .x14 i (i + (m + 1)) := by simp [xcvDrain]
    rw [hc] at h ⊢
    obtain hf | ⟨a, as1, rfl, f1, e1⟩ := over_step h
    · exact .inl hf
    have hl : i + 1 + m = i + (m + 1) := by omega
    simp only [after, xcvAfter, follow, List.nil_append, ← hl] at e1
    simp only [Over, Faulted, ← hl, e1] at h ⊢
    obtain hf | ⟨ds, rest, rfl, h2, h3⟩ := ih (i + 1) h
    · exact .inl hf
    · exact .inr ⟨a :: ds, rest, rfl, by rw [List.map_cons, noFault_cons]; exact ⟨f1, h2⟩, by simp [h3]⟩

end Sys2Proof.Machine
end

