-- ==== Sys2Proof/Laws/Moves.lean ====
section
/-! SUPPORT. What a move between phases leaves alone, and what one step of the block adds to the ports. -/

namespace Sys2Proof.Machine

/-- The parameters, the waiting words, the clock, the trace, the chip record, the ready answers and the counter are
the same. -/
structure SamePorts (s t : State) : Prop where
  config   : t.config = s.config
  requests : t.requests = s.requests
  clock    : t.clock = s.clock
  trace    : t.trace = s.trace
  chip     : t.chip = s.chip
  answers  : t.answers = s.answers
  ticks    : t.ticks = s.ticks

namespace SamePorts

theorem refl (s : State) : SamePorts s s := ⟨rfl, rfl, rfl, rfl, rfl, rfl, rfl⟩

theorem trans {s t u : State} (h : SamePorts s t) (h' : SamePorts t u) : SamePorts s u :=
  ⟨h'.config.trans h.config, h'.requests.trans h.requests, h'.clock.trans h.clock,
    h'.trace.trans h.trace, h'.chip.trans h.chip, h'.answers.trans h.answers, h'.ticks.trans h.ticks⟩

end SamePorts

/-- A phase's assignments touch the registers of the block only. -/
theorem after_ports (f : Active) (r : Reply) (s : State) : SamePorts s (after f r s).1 := by
  cases f <;> try exact .refl s
  case reqaFraming => exact ⟨rfl, rfl, rfl, rfl, rfl, rfl, rfl⟩
  case anticollision => exact ⟨rfl, rfl, rfl, rfl, rfl, rfl, rfl⟩
  case initAddress => exact ⟨rfl, rfl, rfl, rfl, rfl, rfl, rfl⟩
  case initFlag => exact ⟨rfl, rfl, rfl, rfl, rfl, rfl, rfl⟩
  case storeUidb => exact ⟨rfl, rfl, rfl, rfl, rfl, rfl, rfl⟩
  case storeSak => exact ⟨rfl, rfl, rfl, rfl, rfl, rfl, rfl⟩
  case setBits p => cases p <;> exact .refl s
  case clearBits p => cases p <;> exact .refl s
  case poll q p => cases p <;> exact ⟨rfl, rfl, rfl, rfl, rfl, rfl, rfl⟩
  case softReset p => cases p <;> exact .refl s
  case antennaOn => simp only [after, antennaOnAfter]; split <;> exact .refl s
  case setup p => cases p <;> exact .refl s
  case computeCrc p => cases p <;> exact ⟨rfl, rfl, rfl, rfl, rfl, rfl, rfl⟩
  case transceive p => cases p <;> exact ⟨rfl, rfl, rfl, rfl, rfl, rfl, rfl⟩

/-- A caller that goes on touches TXF only. -/
theorem returned_ports (w : Waiting) (r : Result) (s : State) : SamePorts s (returned w r s).1 := by
  cases w <;> try exact .refl s
  case selectCrc => exact ⟨rfl, rfl, rfl, rfl, rfl, rfl, rfl⟩
  case transceive => simp only [returned, xcvPollReturned]; split <;> exact .refl s
  case anticollision =>
    simp only [returned, anticollReturned]
    split <;> exact .refl s
  case selectExchange =>
    simp only [returned, selectReturned]
    split <;> exact .refl s
  case readUidReqa => simp only [returned, readUidReqaReturned]; split <;> exact .refl s
  case readUidAnticoll => simp only [returned, readUidAnticollReturned]; split <;> exact .refl s
  case readUidSelect => simp only [returned, readUidSelectReturned]; split <;> exact .refl s
  case readUidHexUid => simp only [returned, readUidHexUidReturned]; split <;> exact .refl s

theorem giveBack_ports (ws : List Waiting) (r : Result) (s : State) : SamePorts s (giveBack ws r s) := by
  induction ws generalizing r s with
  | nil => exact ⟨rfl, rfl, rfl, rfl, rfl, rfl, rfl⟩
  | cons w ws ih =>
    have h := returned_ports w r s
    simp only [giveBack]
    rcases hr : returned w r s with ⟨s', f | r'⟩ <;> rw [hr] at h
    · exact h.trans ⟨rfl, rfl, rfl, rfl, rfl, rfl, rfl⟩
    · exact h.trans (ih r' s')

theorem follow_ports (ws : List Waiting) (s : State) (m : Move) : SamePorts s (follow ws (s, m)) := by
  cases m with
  | enter f cs => exact ⟨rfl, rfl, rfl, rfl, rfl, rfl, rfl⟩
  | ret r => exact giveBack_ports ws r s

/-- One step of the block: the primitive acts on the ports, and nothing else does. -/
theorem primStep_ports {a : Answer} {s : State} {q : Sequence} (h : s.seq = some q) :
    SamePorts (perform (primitive q.top s) a s).state (primStep a s) := by
  obtain ⟨h', -⟩ | ⟨q', hq, ⟨r, -, h'⟩ | ⟨-, h'⟩⟩ := primStep_cases a s
  · simp [h] at h'
  · obtain rfl : q = q' := by rw [h] at hq; exact Option.some.inj hq
    rw [h']
    exact (after_ports _ _ _).trans (follow_ports _ _ _)
  · obtain rfl : q = q' := by rw [h] at hq; exact Option.some.inj hq
    rw [h']
    exact ⟨rfl, rfl, rfl, rfl, rfl, rfl, rfl⟩

/-- The event a primitive leaves in the trace (R96); an assignment leaves none. -/
def eventOf (p : Prim) (a : Answer) (s : State) : List Event :=
  match p with
  | .wr reg v _ => [if a.fails then .wrFailed s.addr reg v else .wr s.addr reg v]
  | .rd reg => [if a.fails then .rdFailed s.addr reg else .rd s.addr reg a.byte]
  | .now => [.now (s.clock + a.elapsed)]
  | .pause n => [.pause n]
  | .assign => []

theorem perform_trace (p : Prim) (a : Answer) (s : State) :
    (perform p a s).state.trace = s.trace ++ eventOf p a s := by
  cases p <;> simp only [perform, eventOf, List.append_nil] <;> (try split) <;> rfl

theorem perform_clock_le (p : Prim) (a : Answer) (s : State) : s.clock ≤ (perform p a s).state.clock := by
  cases p <;> simp only [perform] <;> (try split) <;> simp [Performed.state, State.elapse, State.record, State.setChip]

/-! ### Who writes what -/

/-- A caller that goes on writes neither ADDR nor INIT. -/
theorem returned_persistent (w : Waiting) (r : Result) (s : State) :
    (returned w r s).1.addr = s.addr ∧ (returned w r s).1.init = s.init := by
  cases w <;> try exact ⟨rfl, rfl⟩
  case transceive => simp only [returned, xcvPollReturned]; split <;> exact ⟨rfl, rfl⟩
  case anticollision => simp only [returned, anticollReturned]; split <;> exact ⟨rfl, rfl⟩
  case selectExchange => simp only [returned, selectReturned]; split <;> exact ⟨rfl, rfl⟩
  case readUidReqa => simp only [returned, readUidReqaReturned]; split <;> exact ⟨rfl, rfl⟩
  case readUidAnticoll => simp only [returned, readUidAnticollReturned]; split <;> exact ⟨rfl, rfl⟩
  case readUidSelect => simp only [returned, readUidSelectReturned]; split <;> exact ⟨rfl, rfl⟩
  case readUidHexUid => simp only [returned, readUidHexUidReturned]; split <;> exact ⟨rfl, rfl⟩

/-- Only initialize's first step writes ADDR (R20, R124). -/
theorem after_addr (f : Active) (r : Reply) (s : State) :
    (after f r s).1.addr = match f with
      | .initAddress n => maskAddr n
      | _ => s.addr := by
  cases f <;> try rfl
  case setBits p => cases p <;> rfl
  case clearBits p => cases p <;> rfl
  case poll q p => cases p <;> rfl
  case softReset p => cases p <;> rfl
  case antennaOn => simp only [after, antennaOnAfter]; split <;> rfl
  case setup p => cases p <;> rfl
  case computeCrc p => cases p <;> rfl
  case transceive p => cases p <;> rfl

/-- Only initialize's last step writes INIT (R21, R124). -/
theorem after_init (f : Active) (r : Reply) (s : State) :
    (after f r s).1.init = if f = .initFlag then true else s.init := by
  cases f <;> try rfl
  case setBits p => cases p <;> rfl
  case clearBits p => cases p <;> rfl
  case poll q p => cases p <;> rfl
  case softReset p => cases p <;> rfl
  case antennaOn => simp only [after, antennaOnAfter]; split <;> rfl
  case setup p => cases p <;> rfl
  case computeCrc p => cases p <;> rfl
  case transceive p => cases p <;> rfl

theorem giveBack_persistent (ws : List Waiting) (r : Result) (s : State) :
    (giveBack ws r s).addr = s.addr ∧ (giveBack ws r s).init = s.init := by
  induction ws generalizing r s with
  | nil => exact ⟨rfl, rfl⟩
  | cons w ws ih =>
    have h := returned_persistent w r s
    simp only [giveBack]
    rcases hr : returned w r s with ⟨s', f | r'⟩ <;> rw [hr] at h
    · exact h
    · exact ⟨(ih r' s').1.trans h.1, (ih r' s').2.trans h.2⟩

theorem follow_persistent (ws : List Waiting) (s : State) (m : Move) :
    (follow ws (s, m)).addr = s.addr ∧ (follow ws (s, m)).init = s.init := by
  cases m with
  | enter f cs => exact ⟨rfl, rfl⟩
  | ret r => exact giveBack_persistent ws r s

/-- One step of the block writes ADDR only at initialize's first step, and INIT only at its last. -/
theorem primStep_persistent {a : Answer} {s : State} {q : Sequence} (h : s.seq = some q) :
    ((primStep a s).addr = s.addr ∨ ∃ n, q.top = .initAddress n ∧ (primStep a s).addr = maskAddr n) ∧
      ((primStep a s).init = s.init ∨ q.top = .initFlag ∧ (primStep a s).init = true) := by
  obtain ⟨h', -⟩ | ⟨q', hq, ⟨r, -, h'⟩ | ⟨-, h'⟩⟩ := primStep_cases a s
  · simp [h] at h'
  · obtain rfl : q = q' := by rw [h] at hq; exact Option.some.inj hq
    have hf := follow_persistent q.callers (after q.top r (perform (primitive q.top s) a s).state).1
      (after q.top r (perform (primitive q.top s) a s).state).2
    rw [h', hf.1, hf.2, after_addr, after_init]
    refine ⟨?_, ?_⟩
    · split
      · rename_i n hn; exact .inr ⟨n, hn, rfl⟩
      · exact .inl (by simp)
    · split
      · rename_i hn; exact .inr ⟨hn, rfl⟩
      · exact .inl (by simp)
  · rw [h']
    exact ⟨.inl (by simp [raiseBusFault, endOperation]), .inl (by simp [raiseBusFault, endOperation])⟩

end Sys2Proof.Machine
end

