-- ==== Sys2Proof/Laws/Frames.lean ====
section
/-! SUPPORT. What an operation may still change from a frame on: its registers and its stores, and that no step of the block changes anything else. -/

namespace Sys2Proof.Machine

/-- The working registers in groups, and INIT. -/
inductive Group where
  | init | tx | res | crc | uidb | sakr | poll
deriving DecidableEq, Repr

theorem mem_everyReg (r : Byte) : r ∈ everyReg :=
  List.mem_map.2 ⟨r.toNat, List.mem_range.2 r.isLt, BitVec.eq_of_toNat_eq (by simp)⟩

/-- What may still change: registers of the block, and registers of the device at ADDR. -/
structure Effect where
  groups : List Group
  stores : List Byte
deriving DecidableEq, Repr

/-- Everything `e` allows, `e'` allows. -/
def Effect.le (e e' : Effect) : Prop := (∀ g ∈ e.groups, g ∈ e'.groups) ∧ ∀ r ∈ e.stores, r ∈ e'.stores

namespace Effect

theorem le_refl (e : Effect) : e.le e := ⟨fun _ h => h, fun _ h => h⟩

theorem le_trans {e e' e'' : Effect} (h : e.le e') (h' : e'.le e'') : e.le e'' :=
  ⟨fun g hg => h'.1 g (h.1 g hg), fun r hr => h'.2 r (h.2 r hr)⟩

/-- An exchange with its framing, up to the fields of its protocol step. -/
def exchange (gs : List Group) : Effect := ⟨[.tx, .res, .poll] ++ gs, exchangeRegs⟩

/-- select from its CRC on. -/
def select : Effect := ⟨[.tx, .res, .poll, .crc, .sakr], exchangeRegs ++ crcRegs⟩

/-- readUid. -/
def readUid : Effect := ⟨[.tx, .res, .poll, .crc, .sakr, .uidb], exchangeRegs ++ crcRegs⟩

end Effect

/-- What an operation may still change from its top frame on, its callees included. -/
def Active.effect : Active → Effect
  | .writeRegister a v => ⟨[], changedBy a v⟩
  | .readRegister a => ⟨[], changedByRead a⟩
  | .busWrite a v => ⟨[], changedBy a v⟩
  | .busRead a => ⟨[], changedByRead a⟩
  | .command c => ⟨[], changedBy 0x01 c.code⟩
  | .setBits a _ _ => ⟨[], if a = 0x01 then everyReg else [a]⟩
  | .clearBits a _ _ => ⟨[], if a = 0x01 then everyReg else [a]⟩
  | .poll q _ => ⟨[.poll], changedByRead q.reg⟩
  | .softReset _ => ⟨[.poll], everyReg⟩
  | .antennaOn => ⟨[], [0x14]⟩
  | .initAddress _ => ⟨[.init, .poll], everyReg⟩
  | .initFlag => ⟨[.init], []⟩
  | .setup _ => ⟨[.init], everyReg⟩
  | .computeCrc _ _ => ⟨[.crc, .poll], crcRegs⟩
  | .transceive _ => ⟨[.res, .poll], exchangeRegs⟩
  | .reqaFraming => .exchange []
  | .reqaRestore => ⟨[], [0x0D]⟩
  | .anticollision => .exchange [.uidb]
  | .storeUidb => ⟨[.uidb], []⟩
  | .storeSak => ⟨[.sakr], []⟩
  | .version => ⟨[], []⟩

/-- The frame is not at initialize's first step, the one that writes ADDR. -/
def Active.fixesAddr : Active → Prop
  | .initAddress _ => False
  | _ => True

/-- What a waiting operation may still change once its callee has returned. -/
def Waiting.effect : Waiting → Effect
  | .flushFifo => ⟨[], []⟩
  | .softReset => ⟨[], []⟩
  | .antennaOn => ⟨[], []⟩
  | .initSoftReset => ⟨[.init], everyReg⟩
  | .initAntenna => ⟨[.init], []⟩
  | .computeCrc _ => ⟨[.crc, .poll], crcRegs⟩
  | .transceive => ⟨[.res, .poll], exchangeRegs⟩
  | .reqa => ⟨[], [0x0D]⟩
  | .anticollision => ⟨[.uidb], []⟩
  | .selectCrc _ => .exchange [.sakr]
  | .selectExchange _ => ⟨[.sakr], []⟩
  | .readUidReqa => .readUid
  | .readUidAnticoll => .select
  | .readUidSelect => ⟨[], []⟩
  | .isCardPresentInit => .exchange []
  | .isCardPresentReqa => ⟨[], []⟩
  | .readUidHexInit => .readUid
  | .readUidHexUid => ⟨[], []⟩
  | .versionInit => ⟨[], []⟩
  | .cardFrame _ => ⟨[], []⟩

/-- `t` differs from `s` at most in the register groups of `e`. -/
structure Kept (e : Effect) (s t : State) : Prop where
  init : .init ∈ e.groups ∨ t.init = s.init
  tx   : .tx ∈ e.groups ∨ t.txbuf = s.txbuf ∧ t.txvb = s.txvb
  res  : .res ∈ e.groups ∨ t.res = s.res
  crc  : .crc ∈ e.groups ∨ keptCrc s t
  uidb : .uidb ∈ e.groups ∨ t.uidb = s.uidb
  sakr : .sakr ∈ e.groups ∨ t.sakr = s.sakr
  poll : .poll ∈ e.groups ∨ keptPoll s t

namespace Kept

theorem refl (e : Effect) (s : State) : Kept e s s :=
  ⟨.inr rfl, .inr ⟨rfl, rfl⟩, .inr rfl, .inr ⟨rfl, rfl⟩, .inr rfl, .inr rfl, .inr ⟨rfl, rfl⟩⟩

theorem trans {e : Effect} {s t u : State} (h : Kept e s t) (h' : Kept e t u) : Kept e s u where
  init := h.init.elim .inl fun a => h'.init.imp id fun b => b.trans a
  tx := h.tx.elim .inl fun a => h'.tx.imp id fun b => ⟨b.1.trans a.1, b.2.trans a.2⟩
  res := h.res.elim .inl fun a => h'.res.imp id fun b => b.trans a
  crc := h.crc.elim .inl fun a => h'.crc.imp id fun b => ⟨b.1.trans a.1, b.2.trans a.2⟩
  uidb := h.uidb.elim .inl fun a => h'.uidb.imp id fun b => b.trans a
  sakr := h.sakr.elim .inl fun a => h'.sakr.imp id fun b => b.trans a
  poll := h.poll.elim .inl fun a => h'.poll.imp id fun b => ⟨b.1.trans a.1, b.2.trans a.2⟩

theorem mono {e e' : Effect} {s t : State} (h : Kept e s t) (he : e.le e') : Kept e' s t where
  init := h.init.imp (he.1 _) id
  tx := h.tx.imp (he.1 _) id
  res := h.res.imp (he.1 _) id
  crc := h.crc.imp (he.1 _) id
  uidb := h.uidb.imp (he.1 _) id
  sakr := h.sakr.imp (he.1 _) id
  poll := h.poll.imp (he.1 _) id

end Kept

/-- The frames a move leaves may change at most what `e` allows. -/
def Move.le (e : Effect) : Move → Prop
  | .enter f ws => f.fixesAddr ∧ f.effect.le e ∧ ∀ w ∈ ws, w.effect.le e
  | .ret _ => True

/-- A step of an operation from a frame with effect `e`: its assignments and its successor stay within `e`. -/
def Within (e : Effect) (s : State) (m : State × Move) : Prop := Kept e s m.1 ∧ m.2.le e

theorem within_ret (e : Effect) (s : State) (r : Result) : Within e s (s, .ret r) := ⟨.refl e s, trivial⟩

theorem within_enter {e : Effect} {s : State} {f : Active} (h : f.effect.le e) (hf : f.fixesAddr := by trivial) :
    Within e s (s, .enter f []) := ⟨.refl e s, hf, h, by simp⟩

theorem within_call {e : Effect} {s : State} {f : Active} {w : Waiting} (h : f.effect.le e) (h' : w.effect.le e)
    (hf : f.fixesAddr := by trivial) : Within e s (s, .enter f [w]) := ⟨.refl e s, hf, h, by simpa using h'⟩

theorem kept_setTxf (s : State) (f : List Byte) (v : ValidBits) {e : Effect} (h : .tx ∈ e.groups) : Kept e s (s.setTxf f v) :=
  ⟨.inr rfl, .inl h, .inr rfl, .inr ⟨rfl, rfl⟩, .inr rfl, .inr rfl, .inr ⟨rfl, rfl⟩⟩

theorem kept_setRes (s : State) (r : ExchangeResult) {e : Effect} (h : .res ∈ e.groups) : Kept e s (s.setRes r) :=
  ⟨.inr rfl, .inr ⟨rfl, rfl⟩, .inl h, .inr ⟨rfl, rfl⟩, .inr rfl, .inr rfl, .inr ⟨rfl, rfl⟩⟩

theorem within_xcvReturn (r : ExchangeResult) (s : State) : Within (Active.effect (.transceive .x0)) s (xcvReturn r s) :=
  ⟨kept_setRes s r (by simp [Active.effect]), trivial⟩

theorem within_callTransceive {e : Effect} {f : List Byte} {v : ValidBits} {w : Waiting} {s : State} (h : .tx ∈ e.groups)
    (h' : (Active.effect (.transceive .x0)).le e) (hw : w.effect.le e) : Within e s (callTransceive f v [w] s) :=
  ⟨kept_setTxf s f v h, trivial, h', by simpa using hw⟩

/-- A phase's assignments and its successor stay within its frame's effect; initialize's first step is apart, because
it writes ADDR. -/
theorem after_within (f : Active) (r : Reply) (s : State) (hf : f.fixesAddr) : Within f.effect s (after f r s) := by
  cases f
  case initAddress => exact hf.elim
  case initFlag =>
    exact ⟨⟨.inl (by simp [Active.effect]), .inr ⟨rfl, rfl⟩, .inr rfl, .inr ⟨rfl, rfl⟩, .inr rfl, .inr rfl, .inr ⟨rfl, rfl⟩⟩, trivial⟩
  case storeUidb =>
    exact ⟨⟨.inr rfl, .inr ⟨rfl, rfl⟩, .inr rfl, .inr ⟨rfl, rfl⟩, .inl (by simp [Active.effect]), .inr rfl, .inr ⟨rfl, rfl⟩⟩, trivial⟩
  case storeSak =>
    exact ⟨⟨.inr rfl, .inr ⟨rfl, rfl⟩, .inr rfl, .inr ⟨rfl, rfl⟩, .inr rfl, .inl (by simp [Active.effect]), .inr ⟨rfl, rfl⟩⟩, trivial⟩
  case setBits p =>
    cases p
    · exact within_enter (Effect.le_refl _)
    · exact within_ret _ _ _
  case clearBits p =>
    cases p
    · exact within_enter (Effect.le_refl _)
    · exact within_ret _ _ _
  case poll q p =>
    have h1 : ∀ t, Kept ⟨[.poll], changedByRead q.reg⟩ s (s.setT0 t) := fun t =>
      ⟨.inr rfl, .inr ⟨rfl, rfl⟩, .inr rfl, .inr ⟨rfl, rfl⟩, .inr rfl, .inr rfl, .inl (by simp)⟩
    have h2 : ∀ v, Kept ⟨[.poll], changedByRead q.reg⟩ s (s.setPv v) := fun v =>
      ⟨.inr rfl, .inr ⟨rfl, rfl⟩, .inr rfl, .inr ⟨rfl, rfl⟩, .inr rfl, .inr rfl, .inl (by simp)⟩
    cases p
    case p0 => exact ⟨h1 _, trivial, Effect.le_refl _, by simp⟩
    case verdict v => exact ⟨h2 v, trivial⟩
    all_goals exact within_enter (Effect.le_refl _)
  case softReset p =>
    cases p
    · exact within_enter (Effect.le_refl _)
    · exact within_call ⟨by simp [Active.effect], fun r _ => mem_everyReg r⟩ (by simp [Effect.le, Active.effect, Waiting.effect])
  case antennaOn =>
    simp only [after, antennaOnAfter]
    split
    · exact within_ret _ _ _
    · exact within_call (by simp [Effect.le, Active.effect, Reg.txControl]) (by simp [Effect.le, Active.effect, Waiting.effect])
  case setup p =>
    cases p
    case mode => exact within_call ⟨by simp [Active.effect], fun r _ => mem_everyReg r⟩ (by simp [Effect.le, Active.effect, Waiting.effect])
    all_goals exact within_enter (Effect.le_refl _)
  case computeCrc b p =>
    have h : ∀ t : State, Kept ⟨[.crc, .poll], crcRegs⟩ t t := fun t => .refl _ t
    cases p
    case c3 => exact within_call ⟨by simp [Active.effect], show ∀ r ∈ changedByRead 0x05, r ∈ crcRegs by decide⟩ (Effect.le_refl _)
    case c5 => exact ⟨⟨.inr rfl, .inr ⟨rfl, rfl⟩, .inr rfl, .inl (by simp [Active.effect]), .inr rfl, .inr rfl, .inr ⟨rfl, rfl⟩⟩,
      trivial, Effect.le_refl _, by simp⟩
    case c6 => exact ⟨⟨.inr rfl, .inr ⟨rfl, rfl⟩, .inr rfl, .inl (by simp [Active.effect]), .inr rfl, .inr rfl, .inr ⟨rfl, rfl⟩⟩,
      trivial⟩
    all_goals exact within_enter (Effect.le_refl _)
  case transceive p =>
    cases p
    case x8 => exact within_call ⟨by simp [Active.effect], show ∀ r ∈ changedByRead 0x04, r ∈ exchangeRegs by decide⟩ (Effect.le_refl _)
    case failure => exact within_xcvReturn _ _
    case success => exact within_xcvReturn _ _
    case x14 => exact ⟨kept_setRes s _ (by simp [Active.effect]), trivial, Effect.le_refl _, by simp⟩
    all_goals exact within_enter (Effect.le_refl _)
  case reqaFraming =>
    exact within_callTransceive (by simp [Active.effect, Effect.exchange]) (by simp [Effect.le, Active.effect, Effect.exchange])
      (by simp [Effect.le, Active.effect, Waiting.effect, Effect.exchange, exchangeRegs])
  case anticollision =>
    exact within_callTransceive (by simp [Active.effect, Effect.exchange]) (by simp [Effect.le, Active.effect, Effect.exchange])
      (by simp [Effect.le, Active.effect, Waiting.effect, Effect.exchange])
  all_goals exact within_ret _ _ _

theorem returned_within (w : Waiting) (r : Result) (s : State) : Within w.effect s (returned w r s) := by
  cases w <;> try exact within_ret _ _ _
  case initSoftReset => exact within_enter (Effect.le_refl _)
  case initAntenna => exact within_enter (Effect.le_refl _)
  case computeCrc b => exact within_enter (Effect.le_refl _)
  case transceive =>
    simp only [returned, xcvPollReturned]
    split <;> exact within_enter (Effect.le_refl _)
  case reqa => exact within_enter (Effect.le_refl _)
  case anticollision =>
    simp only [returned, anticollReturned]
    split
    · exact within_enter (Effect.le_refl _)
    · exact within_ret _ _ _
  case selectCrc u =>
    exact within_callTransceive (by simp [Waiting.effect, Effect.exchange]) (by simp [Effect.le, Active.effect, Waiting.effect, Effect.exchange])
      (by simp [Effect.le, Waiting.effect, Effect.exchange])
  case selectExchange u =>
    simp only [returned, selectReturned]
    split
    · exact within_enter (Effect.le_refl _)
    · exact within_ret _ _ _
  case readUidReqa =>
    simp only [returned, readUidReqaReturned]
    split
    · exact within_call ⟨by simp [Active.effect, Waiting.effect, Effect.exchange, Effect.readUid], fun r hr => List.mem_append_left _ hr⟩
        (by simp [Effect.le, Waiting.effect, Effect.select, Effect.readUid])
    · exact within_ret _ _ _
  case readUidAnticoll =>
    simp only [returned, readUidAnticollReturned]
    split
    · refine ⟨.refl _ _, trivial, ?_, ?_⟩
      · simp [Effect.le, Active.effect, Waiting.effect, Effect.select, crcRegs, exchangeRegs]
      · simp only [List.mem_cons, List.not_mem_nil, or_false, forall_eq_or_imp, forall_eq]
        exact ⟨⟨by simp [Waiting.effect, Effect.select, Effect.exchange], fun r hr => List.mem_append_left _ hr⟩,
          by simp [Effect.le, Waiting.effect]⟩
    · exact within_ret _ _ _
  case readUidSelect => simp only [returned, readUidSelectReturned]; split <;> exact within_ret _ _ _
  case isCardPresentInit =>
    exact within_call (Effect.le_refl _) (by simp [Effect.le, Waiting.effect])
  case readUidHexInit =>
    refine ⟨.refl _ _, trivial, ?_, ?_⟩
    · exact ⟨by simp [Active.effect, Waiting.effect, Effect.exchange, Effect.readUid], fun r hr => List.mem_append_left _ hr⟩
    · simp [Effect.le, Waiting.effect, Effect.readUid]
  case readUidHexUid => simp only [returned, readUidHexUidReturned]; split <;> exact within_ret _ _ _
  case versionInit => exact within_enter (by simp [Effect.le, Active.effect, Waiting.effect])

theorem mem_changedBy (reg v : Byte) : reg ∈ changedBy reg v := by
  unfold changedBy
  split
  · exact mem_everyReg _
  · simp

/-- What a write may change is within `regs`: the register, and all of them when it resets the device. -/
def Allows (regs : List Byte) (reg v : Byte) : Prop := ∀ r ∈ changedBy reg v, r ∈ regs

theorem resets_iff (v : Byte) : Chip.resets v = true ↔ v ∉ [0x00, 0x03, 0x0C] := by
  simp [Chip.resets, Command.code, and_assoc]

theorem allows_every (reg v : Byte) : Allows everyReg reg v := fun r _ => mem_everyReg r

theorem allows_plain {regs : List Byte} {reg v : Byte} (h : reg ∈ regs) (h' : reg ≠ 0x01 ∨ v ∈ [0x00, 0x03, 0x0C]) :
    Allows regs reg v := by
  intro r hr
  rw [changedBy, if_neg fun hc => h'.elim (· hc.1) hc.2, List.mem_singleton] at hr
  rwa [hr]

/-- A read-modify-write of `a`. -/
theorem allows_rmw (a v : Byte) : Allows (if a = 0x01 then everyReg else [a]) a v := by
  split
  · exact allows_every _ _
  · exact allows_plain (by simp) (.inl ‹_›)

/-- A phase writes only the registers its effect names. -/
theorem primitive_stores {f : Active} {s : State} {reg v own : Byte} (h : primitive f s = .wr reg v own) :
    Allows f.effect.stores reg v := by
  cases f <;> simp only [primitive, reduceCtorEq, Prim.wr.injEq] at h
  case writeRegister => rw [h.1, h.2.1]; exact fun r hr => hr
  case busWrite => rw [h.1, h.2.1]; exact fun r hr => hr
  case command => rw [← h.1, ← h.2.1]; exact fun r hr => hr
  case setBits a m p =>
    cases p <;> simp only [setBitsPrim, reduceCtorEq, Prim.wr.injEq] at h
    rw [← h.1]; exact allows_rmw _ _
  case clearBits a m p =>
    cases p <;> simp only [clearBitsPrim, reduceCtorEq, Prim.wr.injEq] at h
    rw [← h.1]; exact allows_rmw _ _
  case poll p => cases p <;> simp_all [pollPrim]
  case softReset p => exact allows_every _ _
  case setup p => exact allows_every _ _
  case computeCrc p =>
    cases p <;> simp only [crcPrim, reduceCtorEq, Prim.wr.injEq] at h <;> rw [← h.1, ← h.2.1]
    case c3 => exact allows_plain (show _ ∈ crcRegs by decide) (.inr (by decide))
    all_goals exact allows_plain (show _ ∈ crcRegs by decide) (.inl (by decide))
  case transceive p =>
    cases p <;> simp only [xcvPrim, reduceCtorEq, Prim.wr.injEq] at h <;> rw [← h.1, ← h.2.1]
    case x0 => exact allows_plain (show _ ∈ exchangeRegs by decide) (.inr (by decide))
    case x6 => exact allows_plain (show _ ∈ exchangeRegs by decide) (.inr (by decide))
    all_goals exact allows_plain (show _ ∈ exchangeRegs by decide) (.inl (by decide))
  case reqaFraming => rw [← h.1]; exact allows_plain (by decide) (.inl (by decide))
  case reqaRestore => rw [← h.1]; exact allows_plain (by decide) (.inl (by decide))
  case anticollision => rw [← h.1]; exact allows_plain (by decide) (.inl (by decide))

/-- What a phase's read may change, its effect names. -/
theorem primitive_reads {f : Active} {s : State} {reg : Byte} (h : primitive f s = .rd reg) :
    ∀ r ∈ changedByRead reg, r ∈ f.effect.stores := by
  have plain : ∀ {a : Byte} {l : List Byte}, (a ∈ [0x04, 0x05, 0x06] → a ∈ l) → ∀ r ∈ changedByRead a, r ∈ l := by
    intro a l ha r hr
    unfold changedByRead at hr
    split at hr
    · rw [List.mem_singleton] at hr
      rw [hr]
      exact ha ‹_›
    · simp at hr
  have rmw : ∀ a : Byte, ∀ r ∈ changedByRead a, r ∈ if a = 0x01 then everyReg else [a] := fun a =>
    plain fun _ => by split <;> simp [mem_everyReg]
  cases f <;> simp only [primitive, reduceCtorEq, Prim.rd.injEq] at h
  case readRegister => rw [← h]; exact fun r hr => hr
  case busRead => rw [← h]; exact fun r hr => hr
  case setBits a m p =>
    cases p <;> simp only [setBitsPrim, reduceCtorEq, Prim.rd.injEq] at h
    rw [← h]; exact rmw _
  case clearBits a m p =>
    cases p <;> simp only [clearBitsPrim, reduceCtorEq, Prim.rd.injEq] at h
    rw [← h]; exact rmw _
  case poll q p =>
    cases p <;> simp only [pollPrim, reduceCtorEq, Prim.rd.injEq] at h
    rw [← h]; exact fun r hr => hr
  case softReset p => exact fun r _ => mem_everyReg r
  case antennaOn => rw [← h]; exact plain (by decide)
  case setup p => exact fun r _ => mem_everyReg r
  case computeCrc p =>
    cases p <;> simp only [crcPrim, reduceCtorEq, Prim.rd.injEq] at h <;> rw [← h] <;>
      exact plain (l := crcRegs) (by decide)
  case transceive p =>
    cases p <;> simp only [xcvPrim, reduceCtorEq, Prim.rd.injEq] at h <;> rw [← h] <;>
      exact plain (l := exchangeRegs) (by decide)
  case version => rw [← h]; exact plain (by decide)

/-! ### What primitives leave alone in the chips -/

/-- The bytes staged for a device are those of the FIFO entries under its name. -/
theorem staged_congr {c c' : Chip} {d : DevAddr}
    (h : c'.fifo.filter (fun x => x.1 == d) = c.fifo.filter fun x => x.1 == d) : c'.staged d = c.staged d := by
  simp only [Chip.staged, h]

theorem filter_dropStaged (c : Chip) (dev d : DevAddr) (h : d ≠ dev) :
    (c.dropStaged dev).filter (fun x => x.1 == d) = c.fifo.filter fun x => x.1 == d := by
  simp only [Chip.dropStaged, List.filter_filter]
  congr 1
  funext x
  by_cases hx : x.1 = d
  · simp [hx, h]
  · simp [hx]

theorem staged_freeFifo (c : Chip) (dev d : DevAddr) (h : d ≠ dev) : (c.freeFifo dev).staged d = c.staged d := by
  refine staged_congr ?_
  simp only [Chip.freeFifo, List.filter_append, filter_dropStaged c dev d h]
  have : ∀ l : List Byte, (l.map fun b => (dev, b)).filter (fun x => x.1 == d) = [] := fun l => by
    induction l with
    | nil => rfl
    | cons b l ih => simp [Ne.symm h, ih]
  rw [this, List.append_nil]

theorem staged_writeEffect (c : Chip) (cfg : Config) (dev d : DevAddr) (reg v : Byte) (h : d ≠ dev) :
    (c.writeEffect cfg dev reg v).staged d = c.staged d := by
  simp only [Chip.writeEffect, Chip.load, Chip.startCommand]
  repeat' split
  all_goals first
    | rfl
    | exact staged_freeFifo _ _ _ h
    | exact staged_congr (filter_dropStaged c dev d h)
    | exact staged_congr (by simp [Ne.symm h])

theorem staged_written (c : Chip) (cfg : Config) (dev d : DevAddr) (reg v own : Byte) (h : d ≠ dev) :
    (c.written cfg dev reg v own).staged d = c.staged d := by
  rw [← staged_writeEffect c cfg dev d reg v h]
  unfold Chip.written
  dsimp only
  split
  · exact staged_freeFifo _ _ _ h
  · rfl

theorem filter_dropOldest (dev d : DevAddr) (l : List (DevAddr × Byte)) (h : d ≠ dev) :
    (Chip.dropOldest dev l).filter (fun x => x.1 == d) = l.filter fun x => x.1 == d := by
  induction l with
  | nil => rfl
  | cons x xs ih =>
    simp only [Chip.dropOldest]
    split
    · rename_i hx
      simp [hx, Ne.symm h]
    · simp [List.filter_cons, ih]

theorem staged_readFrom (c : Chip) (cfg : Config) (dev d : DevAddr) (reg v : Byte) (h : d ≠ dev) :
    (c.readFrom cfg dev reg v).staged d = c.staged d := by
  simp only [Chip.readFrom]
  split
  · simp only [Chip.staged, filter_dropOldest dev d c.fifo h]
  · repeat' split
    all_goals rfl

theorem storesOnly_refl (dev : DevAddr) (regs : List Byte) (s : State) : storesOnly dev regs s s :=
  ⟨fun _ _ => rfl, fun _ _ => ⟨rfl, rfl, rfl⟩⟩

theorem storesOnly_trans {dev : DevAddr} {regs : List Byte} {s t u : State} (h : storesOnly dev regs s t)
    (h' : storesOnly dev regs t u) : storesOnly dev regs s u :=
  ⟨fun a ha => (h'.1 a ha).trans (h.1 a ha), fun d hd =>
    ⟨(h'.2 d hd).1.trans (h.2 d hd).1, (h'.2 d hd).2.1.trans (h.2 d hd).2.1, (h'.2 d hd).2.2.trans (h.2 d hd).2.2⟩⟩

theorem storesOnly_chip {dev : DevAddr} {regs : List Byte} {s t u : State} (h : storesOnly dev regs s t)
    (hc : u.chip = t.chip) : storesOnly dev regs s u := by
  unfold storesOnly at *
  rw [hc]
  exact h

/-- A primitive stores at most to the register it writes, of the device at ADDR. -/
theorem perform_storesOnly {p : Prim} {a : Answer} {s : State} {regs : List Byte}
    (h : ∀ reg v own, p = .wr reg v own → Allows regs reg v) (h' : ∀ reg, p = .rd reg → ∀ r ∈ changedByRead reg, r ∈ regs) :
    storesOnly s.addr regs s (perform p a s).state := by
  cases p with
  | wr reg v own =>
    simp only [perform]
    split
    · exact storesOnly_refl _ _ s
    · refine ⟨fun x hx => ?_, fun d hd =>
        ⟨staged_written _ _ _ d _ _ _ hd, Chip.pendingFlags_written_other hd, by
          simp [Performed.state, Chip.mayReset_written, hd]⟩⟩
      have ha := h reg v own rfl
      have hr : x ≠ Memory.key s.addr reg := hx reg (ha reg (mem_changedBy reg v))
      simp only [Performed.state, State.setChip_chip]
      rw [Chip.read_written, if_neg hr, if_neg]
      rintro ⟨h1, h2, h3⟩
      have he : x = Memory.key s.addr (BitVec.ofNat 8 (x % 256)) := by
        simp only [Memory.key, BitVec.toNat_ofNat]
        omega
      refine hx _ (ha _ ?_) he
      rw [changedBy, if_pos ⟨h1, (resets_iff v).1 h2⟩]
      exact mem_everyReg _
  | rd reg =>
    simp only [perform]
    split
    · exact storesOnly_refl _ _ s
    · refine ⟨fun x hx => ?_, fun d hd => ⟨staged_readFrom _ _ _ d _ _ hd, Chip.pendingFlags_readFrom_other hd,
        Chip.mayReset_readFrom_other hd⟩⟩
      simp only [Performed.state, State.setChip_chip]
      rw [Chip.read_readFrom, if_neg]
      rintro ⟨h1, h2⟩
      exact hx reg (h' reg rfl reg (by simp only [changedByRead, h2, if_true, List.mem_singleton])) h1
  | now => exact storesOnly_refl _ _ s
  | assign => exact storesOnly_refl _ _ s
  | pause n => exact storesOnly_refl _ _ s

theorem kept_perform (e : Effect) (p : Prim) (a : Answer) (s : State) : Kept e s (perform p a s).state :=
  ⟨.inr (by simp), .inr ⟨by simp, by simp⟩, .inr (by simp), .inr ⟨by simp, by simp⟩, .inr (by simp), .inr (by simp),
    .inr ⟨by simp, by simp⟩⟩

/-! ### The frame of a run -/

/-- The frames SEQ holds may change at most what `e` allows, and not ADDR. -/
def SeqWithin (e : Effect) (s : State) : Prop :=
  ∀ q, s.seq = some q → q.top.fixesAddr ∧ q.top.effect.le e ∧ ∀ w ∈ q.callers, w.effect.le e

/-- `t` is reached from `s` by an operation with effect `e`. -/
structure Framed (e : Effect) (s t : State) : Prop where
  kept     : Kept e s t
  stores   : storesOnly s.addr e.stores s t
  config   : t.config = s.config
  addr     : t.addr = s.addr
  requests : t.requests = s.requests
  seq      : SeqWithin e t

theorem giveBack_kept {e : Effect} {ws : List Waiting} {r : Result} {s : State} (h : ∀ w ∈ ws, w.effect.le e) :
    Kept e s (giveBack ws r s) ∧ SeqWithin e (giveBack ws r s) := by
  induction ws generalizing r s with
  | nil => exact ⟨⟨.inr rfl, .inr ⟨rfl, rfl⟩, .inr rfl, .inr ⟨rfl, rfl⟩, .inr rfl, .inr rfl, .inr ⟨rfl, rfl⟩⟩,
      fun q hq => by simp [giveBack, endOperation] at hq⟩
  | cons w ws ih =>
    have hw := h w (by simp)
    have hws : ∀ v ∈ ws, v.effect.le e := fun v hv => h v (by simp [hv])
    have h' := returned_within w r s
    simp only [giveBack]
    rcases hr : returned w r s with ⟨s', f | r'⟩ <;> rw [hr] at h' <;> obtain ⟨h1, h2⟩ := h'
    · refine ⟨(h1.mono hw).trans ⟨.inr rfl, .inr ⟨rfl, rfl⟩, .inr rfl, .inr ⟨rfl, rfl⟩, .inr rfl, .inr rfl, .inr ⟨rfl, rfl⟩⟩, ?_⟩
      intro q hq
      obtain rfl := Option.some.inj hq
      refine ⟨h2.1, Effect.le_trans h2.2.1 hw, fun v hv => ?_⟩
      obtain hv | hv := List.mem_append.1 hv
      · exact Effect.le_trans (h2.2.2 v hv) hw
      · exact hws v hv
    · have := ih (r := r') (s := s') hws
      exact ⟨(h1.mono hw).trans this.1, this.2⟩

theorem follow_kept {e : Effect} {ws : List Waiting} {s : State} {m : State × Move} (hw : Within e s m)
    (h : ∀ w ∈ ws, w.effect.le e) : Kept e s (follow ws m) ∧ SeqWithin e (follow ws m) := by
  obtain ⟨s', f | r⟩ := m <;> obtain ⟨h1, h2⟩ := hw
  · refine ⟨h1.trans ⟨.inr rfl, .inr ⟨rfl, rfl⟩, .inr rfl, .inr ⟨rfl, rfl⟩, .inr rfl, .inr rfl, .inr ⟨rfl, rfl⟩⟩, ?_⟩
    intro q hq
    obtain rfl := Option.some.inj hq
    refine ⟨h2.1, h2.2.1, fun v hv => ?_⟩
    obtain hv | hv := List.mem_append.1 hv
    · exact h2.2.2 v hv
    · exact h v hv
  · have := giveBack_kept (r := r) (s := s') h
    exact ⟨h1.trans this.1, this.2⟩

theorem Within.mono {e e' : Effect} {s : State} {m : State × Move} (h : Within e s m) (he : e.le e') : Within e' s m := by
  obtain ⟨s', f | r⟩ := m
  · exact ⟨h.1.mono he, h.2.1, Effect.le_trans h.2.2.1 he, fun w hw => Effect.le_trans (h.2.2.2 w hw) he⟩
  · exact ⟨h.1.mono he, trivial⟩

/-- One step of the block stays within the effect of the frames SEQ holds. -/
theorem primStep_framed {e : Effect} {s : State} (a : Answer) (h : SeqWithin e s) : Framed e s (primStep a s) := by
  obtain ⟨-, h'⟩ | ⟨q, hq, ⟨r, -, h'⟩ | ⟨-, h'⟩⟩ := primStep_cases a s
  · rw [h']
    exact ⟨.refl e s, storesOnly_refl _ _ s, rfl, rfl, rfl, h⟩
  all_goals
    have hp := primStep_ports (a := a) hq
    have haddr : (primStep a s).addr = s.addr := by
      obtain ⟨h1 | ⟨n, hn, -⟩, -⟩ := primStep_persistent (a := a) hq
      · exact h1
      · exact absurd (h q hq).1 (by rw [hn]; exact id)
    have hst : storesOnly s.addr e.stores s (perform (primitive q.top s) a s).state :=
      perform_storesOnly (fun reg v own hpv r hr => (h q hq).2.1.2 r (primitive_stores hpv r hr))
        fun reg hpv r hr => (h q hq).2.1.2 r (primitive_reads hpv r hr)
  · have hf := follow_kept ((after_within q.top r (perform (primitive q.top s) a s).state (h q hq).1).mono (h q hq).2.1) (h q hq).2.2
    rw [← h'] at hf
    exact ⟨(kept_perform e _ a s).trans hf.1, storesOnly_chip hst hp.chip, by rw [hp.config]; simp, haddr,
      by rw [hp.requests]; simp, hf.2⟩
  · refine ⟨?_, storesOnly_chip hst hp.chip, by rw [hp.config]; simp, haddr, by rw [hp.requests]; simp, ?_⟩
    · rw [h']
      exact (kept_perform e _ a s).trans
        ⟨.inr rfl, .inr ⟨rfl, rfl⟩, .inr rfl, .inr ⟨rfl, rfl⟩, .inr rfl, .inr rfl, .inr ⟨rfl, rfl⟩⟩
    · rw [h']
      intro q' hq'
      simp [raiseBusFault, endOperation] at hq'

theorem Framed.trans {e : Effect} {s t u : State} (h : Framed e s t) (h' : Framed e t u) : Framed e s u :=
  ⟨h.kept.trans h'.kept, storesOnly_trans h.stores (by rw [← h.addr]; exact h'.stores), h'.config.trans h.config,
    h'.addr.trans h.addr, h'.requests.trans h.requests, h'.seq⟩

/-- Going on with an operation stays within its effect. -/
theorem advance_framed {e : Effect} {s : State} (h : SeqWithin e s) : Framed e s (advance s) := by
  refine advance_induct (P := Framed e s) (fun t l ht => ?_) (fun a t ht => ht.trans (primStep_framed a ht.seq))
    ⟨.refl e s, storesOnly_refl _ _ s, rfl, rfl, rfl, h⟩
  exact ⟨⟨ht.kept.init, ht.kept.tx, ht.kept.res, ht.kept.crc, ht.kept.uidb, ht.kept.sakr, ht.kept.poll⟩,
    ht.stores, ht.config, ht.addr, ht.requests, ht.seq⟩

/-- What starting an operation may change. -/
theorem start_framed {e : Effect} {f : Active} {ws : List Waiting} {s t : State} (h : start f ws s = .next t)
    (ha : f.fixesAddr) (hf : f.effect.le e) (hw : ∀ w ∈ ws, w.effect.le e) : Framed e s t := by
  obtain ⟨-, h'⟩ | ⟨-, h'⟩ := start_cases f ws s <;> rw [h'] at h
  · cases h
    have hs : SeqWithin e ((s.setResult none).setSeq (some ⟨f, ws⟩)) := by
      intro q hq
      obtain rfl := Option.some.inj hq
      exact ⟨ha, hf, hw⟩
    have := advance_framed hs
    exact ⟨⟨this.kept.init, this.kept.tx, this.kept.res, this.kept.crc, this.kept.uidb, this.kept.sakr, this.kept.poll⟩,
      this.stores, this.config, this.addr, this.requests, this.seq⟩
  · cases h

/-- initialize's first step (R124). -/
theorem primStep_initAddress {a : Answer} {n : Nat} {ws : List Waiting} {s : State}
    (h : s.seq = some ⟨.initAddress n, ws⟩) :
    primStep a s = ((s.elapse a.elapsed).setAddr (maskAddr n)).setSeq (some ⟨.softReset .command, .initSoftReset :: ws⟩) := by
  simp only [primStep, h]
  rfl

/-- What starting initialize may change, at the device it addresses from its first step on. -/
theorem startInit_framed {e : Effect} {n : Nat} {ws : List Waiting} {s t : State} (h : startInit n ws s = .next t)
    (hf : (Active.softReset .command).effect.le e) (hw : ∀ w ∈ Waiting.initSoftReset :: ws, w.effect.le e) :
    Framed e (s.setAddr (maskAddr n)) t := by
  obtain ⟨-, h'⟩ | ⟨-, h'⟩ := start_cases (.initAddress n) ws s <;> rw [startInit, h'] at h
  · have first : ∀ a, Framed e (s.setAddr (maskAddr n))
        (primStep a ((s.setResult none).setSeq (some ⟨.initAddress n, ws⟩))) := by
      intro a
      rw [primStep_initAddress rfl]
      refine ⟨⟨.inr rfl, .inr ⟨rfl, rfl⟩, .inr rfl, .inr ⟨rfl, rfl⟩, .inr rfl, .inr rfl, .inr ⟨rfl, rfl⟩⟩,
        ⟨fun _ _ => rfl, fun _ _ => ⟨rfl, rfl, rfl⟩⟩, rfl, rfl, rfl, ?_⟩
      intro q hq
      obtain rfl := Option.some.inj hq
      exact ⟨trivial, hf, hw⟩
    cases h
    simp only [advance]
    split
    · exact first _
    · rename_i a as _
      rw [run_cons (q := ⟨.initAddress n, ws⟩) rfl]
      refine run_induct (P := Framed e (s.setAddr (maskAddr n))) (fun u l hu => ?_)
        (fun b u hu => hu.trans (primStep_framed b hu.seq)) (first a)
      exact ⟨⟨hu.kept.init, hu.kept.tx, hu.kept.res, hu.kept.crc, hu.kept.uidb, hu.kept.sakr, hu.kept.poll⟩,
        hu.stores, hu.config, hu.addr, hu.requests, hu.seq⟩
  · cases h

end Sys2Proof.Machine
end

