-- ==== Sys2Proof/Laws/Invariant.lean ====
section
/-! SUPPORT. One step of the block keeps the invariant: the pieces a proof over whole steps cites (10_state.md R22, R23, R27). -/

namespace Sys2Proof.Machine

/-- Which frame a caller asks for is a question about TXF alone. -/
theorem callerFrameOk_congr {s t : State} (h1 : s.txbuf = t.txbuf) (h2 : s.txvb = t.txvb) (w : Waiting) :
    callerFrameOk s w = callerFrameOk t w := by
  cases w <;> try simp [callerFrameOk, h1, h2]

/-- No caller of an operation other than transceive and its poll waits for an exchange. -/
theorem frames_trivial {op : OpName} {ws : List Waiting} (h : callersOk op ws = true)
    (hop : op = .reqa ∨ op = .anticollision ∨ op = .select ∨ op = .cardFrame ∨ op = .readUid ∨ op = .initializeChip ∨ op = .softReset ∨ op = .antennaOn ∨ op = .setBits ∨ op = .isCardPresent ∨ op = .readUidHex ∨ op = .version ∨ op = .flushFifo ∨ op = .computeCrc) (s : State) : ws.all (callerFrameOk s) = true := by
  have cons : ∀ {w : Waiting} {v : List Waiting}, callerFrameOk s w = true → v.all (callerFrameOk s) = true → (w :: v).all (callerFrameOk s) = true := by
    intro w v h1 h2
    rw [List.all_cons, h1, h2]
    rfl
  have hrd : ∀ {v}, callersOk .readUid v = true → v.all (callerFrameOk s) = true := by
    intro v hv; obtain rfl | rfl := callers_of_readUid hv <;> rfl
  have hsel : ∀ {v}, callersOk .select v = true → v.all (callerFrameOk s) = true := by
    intro v hv
    obtain rfl | ⟨v, hv, rfl⟩ := callers_of_select hv
    · rfl
    · exact cons rfl (hrd hv)
  have hinit : ∀ {v}, callersOk .initializeChip v = true → v.all (callerFrameOk s) = true := by
    intro v hv; obtain rfl | rfl | rfl | rfl := callers_of_initializeChip hv <;> rfl
  have hant : ∀ {v}, callersOk .antennaOn v = true → v.all (callerFrameOk s) = true := by
    intro v hv
    obtain rfl | ⟨v, hv, rfl⟩ := callers_of_antennaOn hv
    · rfl
    · exact cons rfl (hinit hv)
  rcases hop with rfl | rfl | rfl | rfl | rfl | rfl | rfl | rfl | rfl | rfl | rfl | rfl | rfl | rfl
  · obtain rfl | rfl | ⟨v, hv, rfl⟩ := callers_of_reqa h
    · rfl
    · rfl
    · exact cons rfl (hrd hv)
  · obtain rfl | ⟨v, hv, rfl⟩ := callers_of_anticollision h
    · rfl
    · exact cons rfl (hrd hv)
  · exact hsel h
  · rw [callers_of_cardFrame h]; rfl
  · exact hrd h
  · exact hinit h
  · obtain rfl | ⟨v, hv, rfl⟩ := callers_of_softReset h
    · rfl
    · exact cons rfl (hinit hv)
  · exact hant h
  · obtain rfl | rfl | ⟨v, hv, rfl⟩ := callers_of_setBits h
    · rfl
    · rfl
    · exact cons rfl (hant hv)
  · rw [callers_of_isCardPresent h]; rfl
  · rw [callers_of_readUidHex h]; rfl
  · rw [callers_of_version h]; rfl
  · rw [callers_of_flushFifo h]; rfl
  · obtain rfl | ⟨u, v, hv, rfl⟩ := callers_of_computeCrc h
    · rfl
    · exact cons rfl (hsel hv)

/-- The part of the invariant about what is stored: RXBUF and the chip record. -/
def Stores (s : State) : Prop := s.res.rxbuf.length ≤ 127 ∧ s.chip.wf = true

/-- A primitive keeps it. -/
theorem perform_stores {p : Prim} {a : Answer} {s : State} (h : Stores s) : Stores (perform p a s).state :=
  ⟨by simpa using h.1, perform_wf h.2⟩

/-- An operation that ends leaves a good state. -/
theorem inv_end {r : Result} {s : State} (h : Stores s) : Inv (endOperation r s) := by
  obtain ⟨h1, h2⟩ := h
  simp [Inv, endOperation, seqOk, framesOk, h1, h2]

/-- A frame on top of legal callers, with its loop index in range, is a good state. -/
theorem inv_some {s : State} {f : Active} {ws : List Waiting} (h0 : callersOk f.op ws = true) (h1 : topOk ⟨f, ws⟩ s = true)
   (h2 : ws.all (callerFrameOk s) = true) (h3 : Stores s) :
   Inv (s.setSeq (some ⟨f, ws⟩)) := by
  have h1' : topOk ⟨f, ws⟩ (s.setSeq (some ⟨f, ws⟩)) = true := by
    revert h1
    unfold topOk
    dsimp only
    split <;> simp_all
  have h2' : ws.all (callerFrameOk (s.setSeq (some ⟨f, ws⟩))) = true := by
    rw [← h2]; congr 1
  obtain ⟨h3, h4⟩ := h3
  simp [Inv, seqOk, framesOk, h0, h1', h3, h4]
  simpa using h2'

/-- A result handed back to legal callers leaves a good state. -/
theorem giveBack_inv {ws : List Waiting} {op : OpName} {r : Result} {s : State} (hc : callersOk op ws = true)
   (hf : ws.all (callerFrameOk s) = true) (h3 : Stores s) :
   Inv (giveBack ws r s) := by
  induction ws generalizing op r s with
  | nil => exact inv_end h3
  | cons w ws ih =>
    simp only [callersOk, Bool.and_eq_true] at hc
    simp only [List.all_cons, Bool.and_eq_true] at hf
    obtain ⟨hf1, hf⟩ := hf
    replace hc := hc.2
    cases w <;> simp only [giveBack, returned, initSoftResetReturned, initAntennaReturned, crcPollReturned, xcvPollReturned, reqaReturned, isCardPresentInitReturned, isCardPresentReqaReturned, readUidHexInitReturned, versionInitReturned, selectCrcReturned, callTransceive]
    case flushFifo => exact ih hc hf h3
    case softReset => exact ih hc hf h3
    case antennaOn => exact ih hc hf h3
    case cardFrame => exact ih hc hf h3
    case initAntenna => exact inv_some hc (by simp [topOk]) hf h3
    case isCardPresentReqa => exact ih hc hf h3
    case initSoftReset => exact inv_some hc (by simp [topOk]) hf h3
    case computeCrc => exact inv_some hc (by simp [topOk]) hf h3
    case transceive =>
      cases s.pv <;> exact inv_some hc (by simp [topOk]) hf h3
    case reqa => exact inv_some hc (by simp [topOk]) hf h3
    case anticollision =>
      simp only [anticollReturned]
      cases hr : anticollOk s.res with
      | false => exact ih hc hf h3
      | true => exact inv_some hc hr hf h3
    case selectExchange =>
      simp only [selectReturned]
      cases hr : selectOk s.res with
      | false => exact ih hc hf h3
      | true => exact inv_some hc hr hf h3
    case selectCrc u =>
      refine inv_some (by simpa [callersOk, Waiting.awaits, Active.op, Waiting.op] using hc) (by simp [topOk]) ?_ h3
      simp only [List.cons_append, List.nil_append, List.all_cons, Bool.and_eq_true]
      exact ⟨by simp [callerFrameOk, selectFrame, selectHead, Uidb.toList], frames_trivial hc (by simp [Waiting.op]) _⟩
    case readUidReqa =>
      simp only [readUidReqaReturned]
      split <;> rename_i heq <;> split at heq <;> simp only [Prod.mk.injEq, Move.enter.injEq, Move.ret.injEq, reduceCtorEq, and_false] at heq
      · obtain ⟨rfl, rfl, rfl⟩ := heq
        exact inv_some (by simpa [callersOk, Waiting.awaits, Active.op, Waiting.op] using hc) (by simp [topOk]) (by simpa [callerFrameOk] using hf) h3
      · obtain ⟨rfl, rfl⟩ := heq
        exact ih hc hf h3
    case readUidAnticoll =>
      simp only [readUidAnticollReturned, callSelect]
      split <;> rename_i heq <;> split at heq <;> simp only [Prod.mk.injEq, Move.enter.injEq, Move.ret.injEq, reduceCtorEq, and_false] at heq
      · obtain ⟨rfl, rfl, rfl⟩ := heq
        exact inv_some (by simpa [callersOk, Waiting.awaits, Active.op, Waiting.op] using hc) (by simp [topOk]) (by simpa [callerFrameOk] using hf) h3
      · obtain ⟨rfl, rfl⟩ := heq
        exact ih hc hf h3
    case readUidSelect =>
      simp only [readUidSelectReturned]
      split <;> rename_i heq <;> split at heq <;> simp only [Prod.mk.injEq, Move.ret.injEq, reduceCtorEq, and_false] at heq
      all_goals
        obtain ⟨rfl, rfl⟩ := heq
        exact ih hc hf h3
    case isCardPresentInit => exact inv_some (by simpa [callersOk, Waiting.awaits, Active.op, Waiting.op] using hc) (by simp [topOk]) (by simpa [callerFrameOk] using hf) h3
    case readUidHexInit => exact inv_some (by simpa [callersOk, Waiting.awaits, Active.op, Waiting.op] using hc) (by simp [topOk]) (by simpa [callerFrameOk] using hf) h3
    case readUidHexUid =>
      simp only [readUidHexUidReturned]
      split <;> rename_i heq <;> split at heq <;> simp only [Prod.mk.injEq, Move.ret.injEq, reduceCtorEq, and_false] at heq
      all_goals
        obtain ⟨rfl, rfl⟩ := heq
        exact ih hc hf h3
    case versionInit => exact inv_some (by simpa [callersOk, Waiting.awaits, Active.op, Waiting.op] using hc) (by simp [topOk]) (by simpa [callerFrameOk] using hf) h3

/-- The drained count is at most 127 (R91, R23). -/
theorem fifoCount_le (v : Byte) : fifoCount v ≤ 127 := by
  simp only [fifoCount, Mask.fifoLevel, BitVec.toNat_and]
  exact Nat.and_le_right

/-- A drained byte keeps RXBUF inside its bound and fills it up to the next index. -/
theorem storeByte_length (r : ExchangeResult) (i : Nat) (b : Byte) (h : i ≤ r.rxbuf.length) :
    i + 1 ≤ (storeByte r i b).rxbuf.length ∧
      ((storeByte r i b).rxbuf.length = r.rxbuf.length ∨ (storeByte r i b).rxbuf.length = i + 1) := by
  simp only [storeByte, List.length_append, List.length_take, List.length_cons, List.length_drop]
  omega

/-- The successor of a phase leaves a good state. -/
theorem follow_inv {f : Active} {ws : List Waiting} {r : Reply} {s : State} (hc : callersOk f.op ws = true) (ht : topOk ⟨f, ws⟩ s = true)
   (hf : ws.all (callerFrameOk s) = true) (h3 : Stores s) :
   Inv (follow ws (after f r s)) := by
  cases f
  case writeRegister => exact giveBack_inv hc hf h3
  case readRegister => exact giveBack_inv hc hf h3
  case busWrite => exact giveBack_inv hc hf h3
  case busRead => exact giveBack_inv hc hf h3
  case command => exact giveBack_inv hc hf h3
  case version => exact giveBack_inv hc hf h3
  case reqaRestore => exact giveBack_inv hc hf h3
  case setBits a m p =>
    cases p
    · exact inv_some hc (by simp [topOk]) hf h3
    · exact giveBack_inv hc hf h3
  case clearBits a m p =>
    cases p
    · exact inv_some hc (by simp [topOk]) hf h3
    · exact giveBack_inv hc hf h3
  case poll q p =>
    cases p
    case verdict => exact giveBack_inv hc hf h3
    all_goals exact inv_some hc ht hf h3
  case initAddress n =>
    refine inv_some (by simpa [callersOk, Waiting.awaits, Active.op, Waiting.op] using hc) (by simp [topOk]) ?_ h3
    exact frames_trivial (op := .softReset) (by simpa [callersOk, Waiting.awaits, Active.op, Waiting.op] using hc) (by simp) _
  case initFlag => exact giveBack_inv hc hf h3
  case storeUidb => exact giveBack_inv hc (by rw [← hf]; congr 1) h3
  case storeSak => exact giveBack_inv hc (by rw [← hf]; congr 1) h3
  case softReset p =>
    cases p
    · exact inv_some hc (by simp [topOk]) hf h3
    · exact inv_some (by simpa [callersOk, Waiting.awaits, Active.op, Waiting.op] using hc) (by simp [topOk, Waiting.poll]) (by simpa [callerFrameOk] using hf) h3
  case antennaOn =>
    simp only [after, antennaOnAfter]
    split
    · exact giveBack_inv hc hf h3
    · exact inv_some (by simpa [callersOk, Waiting.awaits, Active.op, Waiting.op] using hc) (by simp [topOk]) (by simpa [callerFrameOk] using hf) h3
  case setup p =>
    cases p
    case mode => exact inv_some (by simpa [callersOk, Waiting.awaits, Active.op, Waiting.op] using hc) (by simp [topOk]) (by simpa [callerFrameOk] using hf) h3
    all_goals exact inv_some hc (by simp [topOk]) hf h3
  case computeCrc b p =>
    cases p
    case c3 => exact inv_some (by simpa [callersOk, Waiting.awaits, Active.op, Waiting.op] using hc) (by simp [topOk, Waiting.poll]) (by simpa [callerFrameOk] using hf) h3
    case c6 => exact giveBack_inv hc (by rw [← hf]; congr 1) h3
    case c1 =>
      refine inv_some hc ?_ hf h3
      simp only [crcLoad]; split <;> simp_all [topOk]
    case c2 =>
      refine inv_some hc ?_ hf h3
      simp only [crcLoad]; split <;> simp_all [topOk]
    all_goals exact inv_some hc (by simp [topOk]) hf h3
  case transceive p =>
    cases p
    case x8 => exact inv_some (by simpa [callersOk, Waiting.awaits, Active.op, Waiting.op] using hc) (by simp [topOk, Waiting.poll]) (by simpa [callerFrameOk] using hf) h3
    case x3 =>
      refine inv_some hc ?_ hf h3
      simp only [xcvLoad]; split <;> simp_all [topOk]
    case x4 =>
      refine inv_some hc ?_ hf h3
      simp only [xcvLoad]; split <;> simp_all [topOk]
    case x12 =>
      refine inv_some hc ?_ hf h3
      split <;> rfl
    case x13 =>
      refine inv_some hc ?_ hf h3
      simp only [xcvDrain]
      split <;> simp_all [topOk, fifoCount_le]
    case x14 i n =>
      simp only [topOk, Bool.and_eq_true, decide_eq_true_eq] at ht
      obtain ⟨h3, h4⟩ := h3
      have hl := storeByte_length s.res i r.byte ht.2
      refine inv_some hc ?_ (by rw [← hf]; congr 1) ⟨by simp only [State.setRes_res]; omega, h4⟩
      simp only [xcvDrain]
      split <;> simp only [topOk, State.setRes_res, Bool.and_eq_true, decide_eq_true_eq]
      · exact ⟨⟨by omega, by omega⟩, decide_eq_true (by omega)⟩
      · exact ⟨by omega, decide_eq_true (by omega)⟩
    case x15 n =>
      simp only [topOk, Bool.and_eq_true, decide_eq_true_eq] at ht
      exact inv_some hc (by simpa [topOk] using ht) hf h3
    case failure => exact giveBack_inv hc (by rw [← hf]; congr 1) ⟨by simp [failedExchange], h3.2⟩
    case success n v =>
      simp only [topOk, Bool.and_eq_true, decide_eq_true_eq] at ht
      refine giveBack_inv hc (by rw [← hf]; congr 1) ⟨?_, h3.2⟩
      simp only [State.setRes_res, List.length_take]
      omega
    all_goals exact inv_some hc (by simp [topOk]) hf h3
  case reqaFraming =>
    refine inv_some (by simpa [callersOk, Waiting.awaits, Active.op, Waiting.op] using hc) (by simp [topOk]) ?_ h3
    simp only [List.cons_append, List.nil_append, List.all_cons, Bool.and_eq_true]
    exact ⟨by simp [callerFrameOk, reqaFrame], frames_trivial hc (by simp [Active.op]) _⟩
  case anticollision =>
    refine inv_some (by simpa [callersOk, Waiting.awaits, Active.op, Waiting.op] using hc) (by simp [topOk]) ?_ h3
    simp only [List.cons_append, List.nil_append, List.all_cons, Bool.and_eq_true]
    exact ⟨by simp [callerFrameOk, anticollFrame], frames_trivial hc (by simp [Active.op]) _⟩

/-- Whether a top frame is in range is a question about TXF, RES and the parameters. -/
theorem topOk_congr {q : Sequence} {s t : State} (h : s.txbuf = t.txbuf) (h' : s.config = t.config) (h'' : s.res = t.res) :
    topOk q s = topOk q t := by
  unfold topOk; rw [h, h', h'']

/-- One step of the block keeps the invariant. -/
theorem primStep_inv (a : Answer) {s : State} (h : Inv s) : Inv (primStep a s) := by
  obtain ⟨-, h'⟩ | ⟨q, hq, ⟨r, -, h'⟩ | ⟨-, h'⟩⟩ := primStep_cases a s <;> rw [h']
  · exact h
  · obtain ⟨h1, h2, h3⟩ := h
    simp only [seqOk, hq, framesOk, Bool.and_eq_true] at h1 h2
    refine follow_inv h1.1 ?_ ?_ (perform_stores h3)
    · rw [topOk_congr (t := s) (by simp) (by simp) (by simp)]; exact h1.2
    · rw [← h2]; congr 1; funext w; exact callerFrameOk_congr (by simp) (by simp) w
  · exact inv_end (perform_stores h.2.2)

theorem inv_setAnswers (s : State) (l : List Answer) (h : Inv s) : Inv (s.setAnswers l) := by
  obtain ⟨h1, h2, h3⟩ := h
  exact ⟨h1, h2, h3⟩

/-- A step of the block on the next answer or a free one keeps the invariant. -/
theorem oneStep_inv {s : State} (h : Inv s) : Inv (oneStep s) := by
  simp only [oneStep]
  split
  · exact primStep_inv _ h
  · exact primStep_inv _ (inv_setAnswers _ _ h)

end Sys2Proof.Machine
end

