-- ==== Sys2Proof/Laws/PerInstr.lean ====
section
/-! SUPPORT. The family Codes: every instruction's word is in its row's format and begins with its row's code (30_encoding.md R80 to R87, R92). -/

namespace Sys2Proof.Laws.Codes

/-- The column "match" of spec/opcode_table.json beside the row's format; the BUS rows have no code. -/
def row : Instr → Port × List Byte
  | .writeRegister _ _ => (.host, [0x10])
  | .readRegister _ => (.host, [0x11])
  | .setBits _ _ => (.host, [0x20])
  | .clearBits _ _ => (.host, [0x21])
  | .softReset => (.host, [0x30])
  | .flushFifo => (.host, [0x31])
  | .antennaOn => (.host, [0x32])
  | .initializeChip _ => (.host, [0x33])
  | .computeCrc _ => (.host, [0x40])
  | .transceive _ _ => (.host, [0x50])
  | .reqa => (.host, [0x60])
  | .anticollision => (.host, [0x61])
  | .select _ => (.host, [0x62])
  | .readUid => (.host, [0x63])
  | .toHex _ => (.host, [0x70])
  | .isCardPresent => (.host, [0x80])
  | .readUidHex => (.host, [0x81])
  | .version => (.host, [0x82])
  | .setAddress _ => (.host, [0x83])
  | .cmdIdle => (.command, [0x00])
  | .cmdCalcCrc => (.command, [0x03])
  | .cmdTransceive => (.command, [0x0C])
  | .cmdSoftReset => (.command, [0x0F])
  | .busWrite _ _ => (.busWrite, [])
  | .busRead _ => (.busRead, [])
  | .piccReqa => (.picc, [0x26])
  | .piccWupa => (.picc, [0x52])
  | .piccAnticollCl1 => (.picc, [0x93, 0x20])
  | .piccSelectCl1 _ _ _ => (.picc, [0x93, 0x70])

/-- The word of an instruction is in its row's format and begins with its row's code. -/
def Statement (i : Instr) : Prop := (encode i).port = (row i).1 ∧ (row i).2 <+: (encode i).bytes

theorem writeRegister (addr value : Byte) : Statement (.writeRegister addr value) := ⟨rfl, _, rfl⟩
theorem readRegister (addr : Byte) : Statement (.readRegister addr) := ⟨rfl, _, rfl⟩
theorem setBits (addr mask : Byte) : Statement (.setBits addr mask) := ⟨rfl, _, rfl⟩
theorem clearBits (addr mask : Byte) : Statement (.clearBits addr mask) := ⟨rfl, _, rfl⟩
theorem softReset : Statement .softReset := ⟨rfl, _, rfl⟩
theorem flushFifo : Statement .flushFifo := ⟨rfl, _, rfl⟩
theorem antennaOn : Statement .antennaOn := ⟨rfl, _, rfl⟩
theorem initializeChip (address : Nat) : Statement (.initializeChip address) := ⟨rfl, _, rfl⟩
theorem computeCrc (bytes : List Byte) : Statement (.computeCrc bytes) := ⟨rfl, _, rfl⟩
theorem transceive (frame : List Byte) (validBits : Byte) : Statement (.transceive frame validBits) := ⟨rfl, _, rfl⟩
theorem reqa : Statement .reqa := ⟨rfl, _, rfl⟩
theorem anticollision : Statement .anticollision := ⟨rfl, _, rfl⟩
theorem select (uidb : Uidb) : Statement (.select uidb) := ⟨rfl, _, rfl⟩
theorem readUid : Statement .readUid := ⟨rfl, _, rfl⟩
theorem toHex (bytes : List Byte) : Statement (.toHex bytes) := ⟨rfl, _, rfl⟩
theorem isCardPresent : Statement .isCardPresent := ⟨rfl, _, rfl⟩
theorem readUidHex : Statement .readUidHex := ⟨rfl, _, rfl⟩
theorem version : Statement .version := ⟨rfl, _, rfl⟩
theorem setAddress (addr : Nat) : Statement (.setAddress addr) := ⟨rfl, _, rfl⟩
theorem cmdIdle : Statement .cmdIdle := ⟨rfl, _, rfl⟩
theorem cmdCalcCrc : Statement .cmdCalcCrc := ⟨rfl, _, rfl⟩
theorem cmdTransceive : Statement .cmdTransceive := ⟨rfl, _, rfl⟩
theorem cmdSoftReset : Statement .cmdSoftReset := ⟨rfl, _, rfl⟩
theorem busWrite (regaddr value : Byte) : Statement (.busWrite regaddr value) := ⟨rfl, _, rfl⟩
theorem busRead (regaddr : Byte) : Statement (.busRead regaddr) := ⟨rfl, _, rfl⟩
theorem piccReqa : Statement .piccReqa := ⟨rfl, _, rfl⟩
theorem piccWupa : Statement .piccWupa := ⟨rfl, _, rfl⟩
theorem piccAnticollCl1 : Statement .piccAnticollCl1 := ⟨rfl, _, rfl⟩
theorem piccSelectCl1 (uidb : Uidb) (crcLo crcHi : Byte) : Statement (.piccSelectCl1 uidb crcLo crcHi) := ⟨rfl, _, rfl⟩

end Sys2Proof.Laws.Codes
end

