-- ==== Sys2Proof/Laws/Steps.lean ====
section
/-! SUPPORT. What a whole step and a whole instruction can do. -/

namespace Sys2Proof.Machine

/-- What a step does when it answers a next state: it makes one step of the operation in progress, does nothing, or
makes the first step of the instruction the next word decodes to. -/
theorem step_next {s t : State} (h : step s = .next t) :
    (s.seq ≠ none ∧ seqOk s = true ∧ t = oneStep s) ∨
      (s.seq = none ∧ s.requests = [] ∧ t = s) ∨
      ∃ r rest i, s.seq = none ∧ s.requests = r :: rest ∧ decode r = .ok i ∧
        onFirstAnswer (exec i) (s.setRequests rest) = .next t := by
  simp only [step] at h
  split at h
  · rename_i q hq
    simp only [stepBusy] at h
    split at h
    · cases h; rename_i hk; exact .inl ⟨by simp [hq], hk, rfl⟩
    · cases h
  · rename_i hq
    unfold fetchRequest at h
    cases hr : s.requests with
    | nil => simp [hr] at h; exact .inr (.inl ⟨hq, rfl, h.symm⟩)
    | cons r rest =>
      simp only [hr] at h
      cases hd : decode r with
      | error e => simp [hd] at h
      | ok i => simp only [hd] at h; exact .inr (.inr ⟨r, rest, i, hq, rfl, hd, h⟩)

/-- A transitive relation that starting an operation, going on with it and ending it keep, holds between the states
before and after every instruction. -/
theorem exec_rel {R : State → State → Prop} (hadv : ∀ s, R s (advance s)) (i : Instr)
    (s t : State) (h : exec i s = .next t)
    (trans : ∀ {a b c}, R a b → R b c → R a c)
    (hstart : ∀ f ws, R s ((s.setResult none).setSeq (some ⟨f, ws⟩)))
    (htxf : ∀ fr v f ws, R s (((s.setTxf fr v).setResult none).setSeq (some ⟨f, ws⟩)))
    (hend : ∀ r, R s (endOperation r s)) (hend2 : ∀ r n, i = .setAddress n → R s (endOperation r (s.setAddr (maskAddr n)))) : R s t := by
  have go : ∀ {f ws} {s0 : State}, start f ws s0 = .next t → R s ((s0.setResult none).setSeq (some ⟨f, ws⟩)) → R s t := by
    intro f ws s0 h h0
    obtain ⟨-, h'⟩ | ⟨-, h'⟩ := start_cases f ws s0 <;> rw [h'] at h <;> cases h
    exact trans h0 (hadv _)
  have go0 : ∀ {r} {s0 : State}, startEnded r s0 = .next t → R s (endOperation r s0) → R s t := by
    intro r s0 h h0
    obtain ⟨-, h'⟩ | ⟨-, h'⟩ := startEnded_cases r s0 <;> rw [h'] at h <;> cases h
    exact h0
  cases i
  case toHex => exact go0 h (hend _)
  case setAddress n => exact go0 h (hend2 _ n rfl)
  case transceive f v =>
    simp only [exec, execTransceive] at h
    split at h
    · exact go h (htxf _ _ _ _)
    · cases h
  case isCardPresent =>
    simp only [exec, execIsCardPresent] at h
    split at h
    · exact go h (hstart _ _)
    · exact go h (hstart _ _)
  case readUidHex =>
    simp only [exec, execReadUidHex] at h
    split at h
    · exact go h (hstart _ _)
    · exact go h (hstart _ _)
  case version =>
    simp only [exec, execVersion] at h
    split at h
    · exact go h (hstart _ _)
    · exact go h (hstart _ _)
  case piccReqa => exact go h (htxf _ _ _ _)
  case piccWupa => exact go h (htxf _ _ _ _)
  case piccAnticollCl1 => exact go h (htxf _ _ _ _)
  case piccSelectCl1 => exact go h (htxf _ _ _ _)
  all_goals exact go h (hstart _ _)

/-! ### What an instruction is, whatever answers wait -/

/-- The state an instruction starts its first phase from: `s`, or `s` with the operands of its exchange in TXF. -/
def StartsFrom (s s0 : State) : Prop := s0 = s ∨ ∃ fr v, s0 = s.setTxf fr v

/-- The state an instruction that ends at once leaves, but for its result. -/
def EndsFrom (i : Instr) (s s0 : State) : Prop := s0 = s ∨ ∃ n, i = .setAddress n ∧ s0 = s.setAddr (maskAddr n)

/-- An operation may be started at this frame: a good state stays good. -/
def StartsGood (s s0 : State) (f : Active) (ws : List Waiting) : Prop :=
  Inv s → Inv ((s0.setResult none).setSeq (some ⟨f, ws⟩))

theorem startsGood {s s0 : State} {f : Active} {ws : List Waiting} (hres : s0.res = s.res) (hchip : s0.chip = s.chip)
    (hc : callersOk f.op ws = true) (ht : topOk ⟨f, ws⟩ (s0.setResult none) = true)
    (hf : ws.all (callerFrameOk (s0.setResult none)) = true) : StartsGood s s0 f ws := by
  intro h
  refine inv_some hc ht hf ?_
  have h' := h.2.2
  simp only [Stores, State.setResult_res, State.setResult_chip, hres, hchip]
  exact h'

/-- An operation started, an operation ended at once, or a refusal. -/
theorem exec_shape (i : Instr) (s : State) :
    (∃ f ws s0, StartsFrom s s0 ∧ StartsGood s s0 f ws ∧
        ∀ l, exec i (s.setAnswers l) = start f ws (s0.setAnswers l)) ∨
      (∃ r s0, EndsFrom i s s0 ∧ ∀ l, exec i (s.setAnswers l) = startEnded r (s0.setAnswers l)) ∨
      ∃ r, ∀ l, exec i (s.setAnswers l) = .refused r := by
  have plain : ∀ {f ws}, callersOk f.op ws = true → topOk ⟨f, ws⟩ (s.setResult none) = true →
      ws.all (callerFrameOk (s.setResult none)) = true →
      (∀ l, exec i (s.setAnswers l) = start f ws (s.setAnswers l)) →
      ∃ f ws s0, StartsFrom s s0 ∧ StartsGood s s0 f ws ∧
        ∀ l, exec i (s.setAnswers l) = start f ws (s0.setAnswers l) :=
    fun hc ht hf h => ⟨_, _, s, .inl rfl, startsGood rfl rfl hc ht hf, h⟩
  have sends : ∀ {ws} (fr v), callersOk .transceive ws = true →
      ws.all (callerFrameOk ((s.setTxf fr v).setResult none)) = true →
      (∀ l, exec i (s.setAnswers l) = start (.transceive .x0) ws ((s.setTxf fr v).setAnswers l)) →
      ∃ f ws s0, StartsFrom s s0 ∧ StartsGood s s0 f ws ∧
        ∀ l, exec i (s.setAnswers l) = start f ws (s0.setAnswers l) :=
    fun fr v hc hf h => ⟨.transceive .x0, _, s.setTxf fr v, .inr ⟨fr, v, rfl⟩, startsGood rfl rfl hc rfl hf, h⟩
  cases i
  case toHex => exact .inr (.inl ⟨_, s, .inl rfl, fun l => rfl⟩)
  case setAddress n => exact .inr (.inl ⟨_, _, .inr ⟨n, rfl, rfl⟩, fun l => rfl⟩)
  case transceive f v =>
    by_cases h : v.toNat ≤ 7
    · exact .inl (sends (ws := []) f (v.setWidth 3) rfl rfl fun l => by
        simp only [exec, execTransceive, h, if_true]; rfl)
    · exact .inr (.inr ⟨.validBitsAboveSeven, fun l => by simp only [exec, execTransceive, h, if_false]⟩)
  case isCardPresent =>
    cases h : s.init
    · exact .inl (plain (f := .initAddress s.addr.toNat) (ws := [.isCardPresentInit]) rfl rfl rfl fun l => by
        simp [exec, execIsCardPresent, h, startInit])
    · exact .inl (plain (f := .reqaFraming) (ws := [.isCardPresentReqa]) rfl rfl rfl fun l => by
        simp [exec, execIsCardPresent, h])
  case readUidHex =>
    cases h : s.init
    · exact .inl (plain (f := .initAddress s.addr.toNat) (ws := [.readUidHexInit]) rfl rfl rfl fun l => by
        simp [exec, execReadUidHex, h, startInit])
    · exact .inl (plain (f := .reqaFraming) (ws := [.readUidReqa, .readUidHexUid]) rfl rfl rfl fun l => by
        simp [exec, execReadUidHex, h])
  case version =>
    cases h : s.init
    · exact .inl (plain (f := .initAddress s.addr.toNat) (ws := [.versionInit]) rfl rfl rfl fun l => by
        simp [exec, execVersion, h, startInit])
    · exact .inl (plain (f := .version) (ws := []) rfl rfl rfl fun l => by simp [exec, execVersion, h])
  case piccReqa => exact .inl (sends (ws := [.cardFrame .reqa]) reqaFrame 7 rfl (by simp [callerFrameOk, reqaFrame]) fun l => rfl)
  case piccWupa => exact .inl (sends (ws := [.cardFrame .wupa]) wupaFrame 7 rfl (by simp [callerFrameOk, wupaFrame]) fun l => rfl)
  case piccAnticollCl1 =>
    exact .inl (sends (ws := [.cardFrame .anticollCl1]) anticollFrame 0 rfl (by simp [callerFrameOk, anticollFrame]) fun l => rfl)
  case piccSelectCl1 u lo hi =>
    exact .inl (sends (ws := [.cardFrame .selectCl1]) (selectFrame u lo hi) 0 rfl
      (by simp [callerFrameOk, selectFrame, selectHead, Uidb.toList]) fun l => rfl)
  all_goals exact .inl (plain rfl rfl rfl fun l => rfl)

theorem setAnswers_self (s : State) : s.setAnswers s.answers = s := rfl

/-- What one instruction does when it answers a next state: it goes on from its first phase, or it ends at once. -/
theorem exec_next {i : Instr} {s t : State} (h : exec i s = .next t) :
    s.seq = none ∧ ((∃ f ws s0, StartsFrom s s0 ∧ StartsGood s s0 f ws ∧
        t = advance ((s0.setResult none).setSeq (some ⟨f, ws⟩))) ∨
      ∃ r s0, EndsFrom i s s0 ∧ t = endOperation r s0) := by
  obtain ⟨f, ws, s0, h0, hg, he⟩ | ⟨r, s0, h0, he⟩ | ⟨r, he⟩ := exec_shape i s
  · have he := he s.answers
    rw [setAnswers_self, h] at he
    have hs : s0.seq = s.seq ∧ s0.setAnswers s.answers = s0 := by obtain rfl | ⟨fr, v, rfl⟩ := h0 <;> exact ⟨rfl, rfl⟩
    rw [hs.2] at he
    obtain ⟨hq, h'⟩ | ⟨-, h'⟩ := start_cases f ws s0 <;> rw [h'] at he <;> cases he
    exact ⟨hs.1 ▸ hq, .inl ⟨f, ws, s0, h0, hg, rfl⟩⟩
  · have he := he s.answers
    rw [setAnswers_self, h] at he
    have hs : s0.seq = s.seq ∧ s0.setAnswers s.answers = s0 := by obtain rfl | ⟨n, -, rfl⟩ := h0 <;> exact ⟨rfl, rfl⟩
    rw [hs.2] at he
    obtain ⟨hq, h'⟩ | ⟨-, h'⟩ := startEnded_cases r s0 <;> rw [h'] at he <;> cases he
    exact ⟨hs.1 ▸ hq, .inr ⟨r, s0, h0, rfl⟩⟩
  · have he := he s.answers
    rw [setAnswers_self, h] at he
    cases he

/-- What an instruction's first step is: the first step of its operation, or its end. -/
theorem firstStep_next {i : Instr} {s t : State} (h : onFirstAnswer (exec i) s = .next t) :
    s.seq = none ∧ ((∃ f ws s0, StartsFrom s s0 ∧ StartsGood s s0 f ws ∧
        t = oneStep ((s0.setResult none).setSeq (some ⟨f, ws⟩))) ∨
      ∃ r s0, EndsFrom i s s0 ∧ t = endOperation r s0) := by
  obtain ⟨u, hu, rfl⟩ := onFirstAnswer_next h
  obtain ⟨f, ws, s0, h0, hg, he⟩ | ⟨r, s0, h0, he⟩ | ⟨r, he⟩ := exec_shape i s
  · rw [he] at hu
    have hs : s0.seq = s.seq ∧ s0.answers = s.answers := by obtain rfl | ⟨fr, v, rfl⟩ := h0 <;> exact ⟨rfl, rfl⟩
    obtain ⟨hq, h'⟩ | ⟨-, h'⟩ := start_cases f ws (s0.setAnswers (s.answers.take 1)) <;> rw [h'] at hu <;> cases hu
    refine ⟨hs.1 ▸ hq, .inl ⟨f, ws, s0, h0, hg, ?_⟩⟩
    simp only [oneStep, State.setSeq_answers, State.setResult_answers, hs.2]
    cases ha : s.answers with
    | nil =>
      have hn : s0.setAnswers [] = s0 := by rw [← ha, ← hs.2]; exact setAnswers_self s0
      have hz : (primStep (freeAnswer s0.ticks) ((s0.setResult none).setSeq (some ⟨f, ws⟩))).answers = [] := by
        rw [(primStep_ports (q := ⟨f, ws⟩) rfl).answers, perform_answers]
        exact hs.2.trans ha
      simp only [List.take_nil, List.drop_nil, List.append_nil, hn, advance, State.setSeq_answers,
        State.setResult_answers, hs.2, ha, State.setSeq_ticks, State.setResult_ticks]
      exact setAnswers_self _
    | cons a as =>
      simp only [List.take_succ_cons, List.take_zero, List.drop_succ_cons, List.drop_zero, advance, State.setSeq_answers,
        State.setResult_answers, State.setAnswers_answers]
      rw [run_cons (q := ⟨f, ws⟩) rfl]
      simp only [run, State.setAnswers_answers, List.nil_append]
      rw [show ((s0.setAnswers [a]).setResult none).setSeq (some ⟨f, ws⟩) =
          ((s0.setResult none).setSeq (some ⟨f, ws⟩)).setAnswers [a] from rfl, primStep_withAnswers, primStep_withAnswers]
      rfl
  · rw [he] at hu
    have hs : s0.seq = s.seq ∧ s0.answers = s.answers := by obtain rfl | ⟨n, -, rfl⟩ := h0 <;> exact ⟨rfl, rfl⟩
    obtain ⟨hq, h'⟩ | ⟨-, h'⟩ := startEnded_cases r (s0.setAnswers (s.answers.take 1)) <;> rw [h'] at hu <;> cases hu
    refine ⟨hs.1 ▸ hq, .inr ⟨r, s0, h0, ?_⟩⟩
    simp only [endOperation, State.setResult_answers, State.setSeq_answers, State.setAnswers_answers,
      List.take_append_drop, ← hs.2]
    rfl
  · rw [he] at hu
    cases hu

end Sys2Proof.Machine
end

