-- ==== Sys2Proof/Tests/Slice0.lean ====
section
/-! SUPPORT. Tests. The words are written out from 30_encoding.md R80 to R87 and R92; the traces and results are those of 95_test_vectors.md, cited by id; then, for every statement with hypotheses, states and operands that meet them. -/

namespace Sys2Proof.Tests

open Sys2Proof.Machine

/-! ### Well-formedness: the one operand wider than its type (R93, R94 b) -/

theorem test_wf_refuses_eight_valid_bits : Instr.wf (.transceive [0x26] 8) = false := by decide
theorem test_wf_accepts_seven_valid_bits : Instr.wf (.transceive [0x26] 7) = true := by decide

/-! ### Decoding: every constructor from its word -/

theorem test_decode_writeRegister : decode ⟨.host, [0x10, 0x14, 0x83]⟩ = .ok (.writeRegister 0x14 0x83) := by decide
theorem test_decode_readRegister : decode ⟨.host, [0x11, 0x37]⟩ = .ok (.readRegister 0x37) := by decide
theorem test_decode_setBits : decode ⟨.host, [0x20, 0x0A, 0x80]⟩ = .ok (.setBits 0x0A 0x80) := by decide
theorem test_decode_clearBits : decode ⟨.host, [0x21, 0x0D, 0xFF]⟩ = .ok (.clearBits 0x0D 0xFF) := by decide
theorem test_decode_softReset : decode ⟨.host, [0x30]⟩ = .ok .softReset := by decide
theorem test_decode_flushFifo : decode ⟨.host, [0x31]⟩ = .ok .flushFifo := by decide
theorem test_decode_antennaOn : decode ⟨.host, [0x32]⟩ = .ok .antennaOn := by decide
theorem test_decode_initialize : decode ⟨.host, [0x33, 0x01, 0xA9]⟩ = .ok (.initializeChip 0x1A9) := by decide
theorem test_decode_computeCrc : decode ⟨.host, [0x40, 0x12, 0x34]⟩ = .ok (.computeCrc [0x12, 0x34]) := by decide
theorem test_decode_transceive : decode ⟨.host, [0x50, 0x07, 0x26]⟩ = .ok (.transceive [0x26] 7) := by decide
theorem test_decode_reqa : decode ⟨.host, [0x60]⟩ = .ok .reqa := by decide
theorem test_decode_anticollision : decode ⟨.host, [0x61]⟩ = .ok .anticollision := by decide
theorem test_decode_select : decode ⟨.host, [0x62, 0x04, 0x5A, 0x3C, 0x8E, 0xEC]⟩ =
    .ok (.select ⟨0x04, 0x5A, 0x3C, 0x8E, 0xEC⟩) := by decide
theorem test_decode_readUid : decode ⟨.host, [0x63]⟩ = .ok .readUid := by decide
theorem test_decode_toHex : decode ⟨.host, [0x70, 0xAB, 0x01]⟩ = .ok (.toHex [0xAB, 0x01]) := by decide
theorem test_decode_isCardPresent : decode ⟨.host, [0x80]⟩ = .ok .isCardPresent := by decide
theorem test_decode_readUidHex : decode ⟨.host, [0x81]⟩ = .ok .readUidHex := by decide
theorem test_decode_version : decode ⟨.host, [0x82]⟩ = .ok .version := by decide
theorem test_decode_setAddress : decode ⟨.host, [0x83, 0xA9]⟩ = .ok (.setAddress 0xA9) := by decide
theorem test_decode_cmdIdle : decode ⟨.command, [0x00]⟩ = .ok .cmdIdle := by decide
theorem test_decode_cmdCalcCrc : decode ⟨.command, [0x03]⟩ = .ok .cmdCalcCrc := by decide
theorem test_decode_cmdTransceive : decode ⟨.command, [0x0C]⟩ = .ok .cmdTransceive := by decide
theorem test_decode_cmdSoftReset : decode ⟨.command, [0x0F]⟩ = .ok .cmdSoftReset := by decide
theorem test_decode_busWrite : decode ⟨.busWrite, [0x14, 0x83]⟩ = .ok (.busWrite 0x14 0x83) := by decide
theorem test_decode_busRead : decode ⟨.busRead, [0x37]⟩ = .ok (.busRead 0x37) := by decide
theorem test_decode_piccReqa : decode ⟨.picc, [0x26]⟩ = .ok .piccReqa := by decide
theorem test_decode_piccWupa : decode ⟨.picc, [0x52]⟩ = .ok .piccWupa := by decide
theorem test_decode_piccAnticollCl1 : decode ⟨.picc, [0x93, 0x20]⟩ = .ok .piccAnticollCl1 := by decide
theorem test_decode_piccSelectCl1 : decode ⟨.picc, [0x93, 0x70, 0x04, 0x5A, 0x3C, 0x8E, 0xEC, 0x87, 0xE5]⟩ =
    .ok (.piccSelectCl1 ⟨0x04, 0x5A, 0x3C, 0x8E, 0xEC⟩ 0x87 0xE5) := by decide

theorem test_decode_refuses_reserved_op : decode ⟨.host, [0x12, 0x00]⟩ = .error .unknownOp := by decide
theorem test_decode_refuses_extra_operand : decode ⟨.host, [0x30, 0x00]⟩ = .error .wrongOperandLength := by decide
theorem test_decode_refuses_no_command : decode ⟨.command, [0x04]⟩ = .error .unknownCommand := by decide
theorem test_decode_refuses_eight_valid_bits : decode ⟨.host, [0x50, 0x08, 0x26]⟩ = .error .validBitsAboveSeven := by decide

/-- The opcode table's own numbers, the rows in the table's order. -/
theorem test_decode_table_words :
    decodeTableWord 8 0x10 = some (.writeRegister 0 0) ∧ decodeTableWord 8 0x33 = some (.initializeChip 0) ∧
    decodeTableWord 8 0x50 = some (.transceive [] 0) ∧ decodeTableWord 8 0x62 = some (.select ⟨0, 0, 0, 0, 0⟩) ∧
    decodeTableWord 8 0x83 = some (.setAddress 0) ∧ decodeTableWord 8 0x0F = some .cmdSoftReset ∧
    decodeTableWord 8 0x52 = some .piccWupa ∧ decodeTableWord 16 0x9320 = some .piccAnticollCl1 ∧
    decodeTableWord 16 0x9370 = some (.piccSelectCl1 ⟨0, 0, 0, 0, 0⟩ 0 0) ∧ decodeTableWord 8 0x12 = none := by decide

/-! ### The vectors of 95_test_vectors.md

A vector's trace gives the environment's answers: the byte of every `RD`, the clock of every `NOW`. -/

/-- Values for the open parameters (R8): POLL_INTERVAL_MS = 1 as in section 2.2, the rest picked for the tests. -/
def cfg : Config :=
  { pollIntervalMs := 1, softResetBusyMask := 0x10, comIrqClearVal := 0x7F, tmodeVal := 0x8D, tprescalerVal := 0x3E,
    treloadHiVal := 0x1E, treloadLoVal := 0x5B, txAskVal := 0x40, modeVal := 0x3D, fifoCapacity := 64 }

/-- After reset and initialisation: ADDR = 0x28, INIT = 1, nothing in progress. -/
def idle : State := { State.reset with config := cfg, init := true }

/-- After reset, not yet initialised. -/
def cold : State := { idle with init := false }

/-- `WR a v` and `RD a -> v`, with the device at 0x28. -/
def W (a v : Byte) : Event := .wr 0x28 a v
def R (a v : Byte) : Event := .rd 0x28 a v

/-- The environment's answers in a trace that starts when the clock shows `c`. -/
def oracle : Nat → List Event → List Answer
  | _, [] => []
  | c, .wr _ _ _ :: es => ⟨0, false, 0⟩ :: oracle c es
  | c, .rd _ _ v :: es => ⟨0, false, v⟩ :: oracle c es
  | c, .wrFailed _ _ _ :: es => ⟨0, true, 0⟩ :: oracle c es
  | c, .rdFailed _ _ :: es => ⟨0, true, 0⟩ :: oracle c es
  | c, .now t :: es => ⟨t - c, false, 0⟩ :: oracle t es
  | c, .pause n :: es => ⟨0, false, 0⟩ :: oracle (c + n) es

/-- An answer for an assignment, which the vectors' traces do not show: no time passes. -/
def quiet : Answer := ⟨0, false, 0⟩

/-- The step after `s` if it is an assignment. -/
def settle (s : State) : State :=
  match s.seq with
  | none => s
  | some q => if primitive q.top s = .assign then primStep quiet s else s

/-- Every primitive of the operation in progress takes the next answer; at most three assignments follow one. Nothing
is left of the answers, or there is no such run. -/
def drive : List Answer → State → Option State
  | [], s => some s
  | a :: as, s => if s.seq = none then none else drive as (settle (settle (settle (primStep a s))))

/-- Running `i` step by step with these answers. -/
def runOn (i : Instr) (s : State) (as : List Answer) : Option State :=
  match exec i (s.setAnswers [quiet]) with
  | .next t =>
    if t.trace = s.trace then drive as t
    else
      match as with
      | [] => none
      | a :: as =>
        match exec i (s.setAnswers [a]) with
        | .next u => drive as (settle (settle (settle u)))
        | .fault _ => none
        | .refused _ => none
  | .fault _ => none
  | .refused _ => none

/-- Running `i` with the answers of the trace records exactly that trace, ends, and hands back `r`. -/
def gives (i : Instr) (s : State) (trace : List Event) (r : Result) : Bool :=
  match runOn i s (oracle s.clock trace) with
  | some t => t.trace == trace && t.result == some r && t.seq == none
  | none => false

/-- The state after `i`, with the answers of the trace. -/
def endOf (i : Instr) (s : State) (trace : List Event) : State := (runOn i s (oracle s.clock trace)).getD s

/-- HEAD of section 2.4. -/
def head (frame : List Byte) (vb a b : Byte) : List Event :=
  [W 0x01 0x00, W 0x04 0x7F, R 0x0A a, W 0x0A (a ||| 0x80)] ++ frame.map (W 0x09) ++
    [W 0x0D vb, W 0x01 0x0C, R 0x0D b, W 0x0D (b ||| 0x80)]

/-- What follows HEAD in an exchange that succeeds at the first poll, at clock `t`. -/
def reply (t : Nat) (bytes : List Byte) (control : Byte) : List Event :=
  [.now t, R 0x04 0x20, R 0x06 0x00, R 0x0A (BitVec.ofNat 8 bytes.length)] ++ bytes.map (R 0x09) ++ [R 0x0C control]

/-- What follows HEAD in V43-2. -/
def noReply : List Event := [.now 2000, R 0x04 0x00, .now 2031, R 0x0D 0x87, W 0x0D 0x07]

/-- V40-1. -/
theorem test_writeRegister : gives (.writeRegister 0x14 0x83) idle [W 0x14 0x83] .done := by decide
/-- V40-12. -/
theorem test_writeRegister_device :
    gives (.writeRegister 0x01 0x00) { idle with addr := 0x29 } [.wr 0x29 0x01 0x00] .done := by decide
/-- V40-2. -/
theorem test_readRegister : gives (.readRegister 0x37) idle [R 0x37 0x92] (.byte 0x92) := by decide
/-- V40-4: written although unchanged. -/
theorem test_setBits : gives (.setBits 0x14 0x03) idle [R 0x14 0x83, W 0x14 0x83] .done := by decide
/-- V40-9. -/
theorem test_setBits_fault : gives (.setBits 0x0A 0x80) idle [.rdFailed 0x28 0x0A] .busFault := by decide
/-- V40-6. -/
theorem test_clearBits : gives (.clearBits 0x0D 0x80) idle [R 0x0D 0x87, W 0x0D 0x07] .done := by decide
/-- V40-8. -/
theorem test_clearBits_already_clear : gives (.clearBits 0x14 0x03) idle [R 0x14 0x80, W 0x14 0x80] .done := by decide

/-- V41-12: the reset poll times out at 101 ms, not at 50. -/
theorem test_softReset_timeout : gives .softReset idle
    [W 0x01 0x0F, .pause 50, .now 1050, R 0x01 0xFF, .now 1100, .pause 1, R 0x01 0xFF, .now 1151] .done := by decide
/-- V41-14. -/
theorem test_flushFifo : gives .flushFifo idle [R 0x0A 0x40, W 0x0A 0xC0] .done := by decide
/-- R36, R58, R200: the flush empties the FIFO, and the level written back leaves no value in 0x0A. -/
theorem test_flushFifo_writes_the_level_back :
    let s := { idle with chip := { idle.chip with fifo := [(0x28, 0x26)] } }
    (endOf .flushFifo s [R 0x0A 0x40, W 0x0A 0xC0]).chip.held 0x28 0x0A = none ∧
      (endOf .flushFifo s [R 0x0A 0x40, W 0x0A 0xC0]).chip.staged 0x28 = [] := by decide
/-- V41-18. -/
theorem test_antennaOn_already : gives .antennaOn idle [R 0x14 0x03] .done := by decide
/-- V41-19: the value written comes from the second read. -/
theorem test_antennaOn_second_read :
    gives .antennaOn idle [R 0x14 0x01, R 0x14 0x82, W 0x14 0x83] .done := by decide
/-- V41-9. -/
def initTrace : List Event :=
  [W 0x01 0x0F, .pause 50, .now 1050, R 0x01 0x00, W 0x2A 0x8D, W 0x2B 0x3E, W 0x2C 0x1E, W 0x2D 0x5B, W 0x15 0x40,
   W 0x11 0x3D, R 0x14 0x80, R 0x14 0x80, W 0x14 0x83]
theorem test_initialize : gives (.initializeChip 0x28) cold initTrace .done
    ∧ (endOf (.initializeChip 0x28) cold initTrace).init = true := by decide
/-- V41-20: a fault at the write of 0x2C leaves ADDR set and INIT clear. -/
theorem test_initialize_fault :
    let trace : List Event := [.wr 0x29 0x01 0x0F, .pause 50, .now 1050, .rd 0x29 0x01 0x00, .wr 0x29 0x2A 0x8D,
      .wr 0x29 0x2B 0x3E, .wrFailed 0x29 0x2C 0x1E]
    gives (.initializeChip 0x1A9) cold trace .busFault ∧ (endOf (.initializeChip 0x1A9) cold trace).addr = 0x29 ∧
      (endOf (.initializeChip 0x1A9) cold trace).init = false := by decide

/-- V42-2. -/
theorem test_computeCrc : gives (.computeCrc [0x00, 0x00]) idle
    [R 0x0A 0x00, W 0x0A 0x80, W 0x09 0x00, W 0x09 0x00, W 0x01 0x03, .now 10, R 0x05 0x00, .now 11, .pause 1,
     R 0x05 0x04, R 0x21 0x1E, R 0x22 0xA0] (.crc 0x1E 0xA0) := by decide
/-- V42-3: the silent timeout. -/
theorem test_computeCrc_timeout : gives (.computeCrc [0x12, 0x34]) idle
    [R 0x0A 0x00, W 0x0A 0x80, W 0x09 0x12, W 0x09 0x34, W 0x01 0x03, .now 0, R 0x05 0x00, .now 26,
     R 0x21 0xAA, R 0x22 0x55] (.crc 0xAA 0x55) := by decide

/-- V43-7: bit 7 of the level is dropped, the count is the low 3 bits of the control register. -/
theorem test_transceive : gives (.transceive [0x26] 7) idle
    (head [0x26] 7 0x00 0x07 ++
      [.now 5, R 0x04 0x30, R 0x06 0x00, R 0x0A 0x82, R 0x09 0x04, R 0x09 0x00, R 0x0C 0xFB])
    (.exchange ⟨true, [0x04, 0x00], 3⟩) := by decide
/-- V43-3: bits outside 0x30 never complete the wait. -/
theorem test_transceive_timeout : gives (.transceive [0x26] 7) idle
    (head [0x26] 7 0x00 0x07 ++
      [.now 0, R 0x04 0x01, .now 10, .pause 1, R 0x04 0x45, .now 20, .pause 1, R 0x04 0x8F, .now 31,
       R 0x0D 0x87, W 0x0D 0x07])
    (.exchange ⟨false, [], 0⟩) := by decide

/-- V44-3: three bytes are enough, and the valid-bit count is not tested. -/
theorem test_reqa : gives .reqa idle
    ([W 0x0D 0x07] ++ head [0x26] 7 0x00 0x07 ++ reply 9 [0x44, 0x03, 0x99] 0x05 ++ [W 0x0D 0x00])
    (.flag true) := by decide
/-- V44-4: a frame error; the restore is still written. -/
theorem test_reqa_frame_error : gives .reqa idle
    ([W 0x0D 0x07] ++ head [0x26] 7 0x00 0x07 ++ [.now 9, R 0x04 0x20, R 0x06 0x10] ++ [W 0x0D 0x00])
    (.flag false) := by decide
/-- V44-8: byte 5 is dropped, and 0x88 is not special. -/
theorem test_anticollision : gives .anticollision idle
    ([W 0x0D 0x00] ++ head [0x93, 0x20] 0 0x00 0x00 ++ reply 9 [0x88, 0x04, 0x5A, 0x3C, 0xEA, 0x77] 0x00)
    (.uidb (some ⟨0x88, 0x04, 0x5A, 0x3C, 0xEA⟩)) := by decide
/-- V44-6. -/
theorem test_anticollision_short : gives .anticollision idle
    ([W 0x0D 0x00] ++ head [0x93, 0x20] 0 0x00 0x00 ++ reply 9 [0x04, 0x5A, 0x3C, 0x8E] 0x00)
    (.uidb none) := by decide
/-- The computeCrc part of V44-9. -/
def selectCrcTrace : List Event :=
  [R 0x0A 0x00, W 0x0A 0x80, W 0x09 0x93, W 0x09 0x70, W 0x09 0xDE, W 0x09 0xAD, W 0x09 0xBE, W 0x09 0xEF, W 0x09 0x22,
   W 0x01 0x03, .now 3, R 0x05 0x04, R 0x21 0x9C, R 0x22 0xB9]
/-- V44-9: low byte 0xB9, then high byte 0x9C. -/
theorem test_select :
    let trace := selectCrcTrace ++ head [0x93, 0x70, 0xDE, 0xAD, 0xBE, 0xEF, 0x22, 0xB9, 0x9C] 0 0x00 0x00 ++
      reply 9 [0x20] 0x00
    gives (.select ⟨0xDE, 0xAD, 0xBE, 0xEF, 0x22⟩) idle trace (.flag true) ∧
      (endOf (.select ⟨0xDE, 0xAD, 0xBE, 0xEF, 0x22⟩) idle trace).sakr = 0x20 := by decide
/-- V44-14. -/
theorem test_readUid_no_card : gives .readUid idle
    ([W 0x0D 0x07] ++ head [0x26] 7 0x00 0x07 ++ noReply ++ [W 0x0D 0x00]) (.uid none) := by decide

/-- V45-12. -/
theorem test_toHex : gives (.toHex [0xAB, 0x01]) idle [] (.text ['a', 'b', '0', '1']) := by decide
/-- V45-13. -/
theorem test_toHex_digits : gives (.toHex [0xFF, 0x0A, 0x10, 0x9F]) idle []
    (.text ['f', 'f', '0', 'a', '1', '0', '9', 'f']) := by decide
/-- Program P1: a cold start without a card. -/
theorem test_isCardPresent_cold : gives .isCardPresent cold
    (initTrace ++ [W 0x0D 0x07] ++ head [0x26] 7 0x00 0x07 ++
      [.now 1100, R 0x04 0x00, .now 1105, .pause 1, R 0x04 0x01, .now 1131, R 0x0D 0x87, W 0x0D 0x07, W 0x0D 0x00])
    (.flag false) := by decide
set_option maxRecDepth 2000 in
/-- Program P2: one card. -/
theorem test_readUidHex : gives .readUidHex idle
    ([W 0x0D 0x07] ++ head [0x26] 7 0x00 0x07 ++ reply 7000 [0x04, 0x00] 0x00 ++ [W 0x0D 0x00] ++
     [W 0x0D 0x00] ++ head [0x93, 0x20] 0 0x00 0x00 ++
      [.now 7003, R 0x04 0x00, .now 7003, .pause 1, R 0x04 0x64, R 0x06 0x00, R 0x0A 0x05, R 0x09 0x04, R 0x09 0x5A,
       R 0x09 0x3C, R 0x09 0x8E, R 0x09 0xEC, R 0x0C 0x00] ++
     [R 0x0A 0x00, W 0x0A 0x80, W 0x09 0x93, W 0x09 0x70, W 0x09 0x04, W 0x09 0x5A, W 0x09 0x3C, W 0x09 0x8E, W 0x09 0xEC,
      W 0x01 0x03, .now 7006, R 0x05 0x04, R 0x21 0xE5, R 0x22 0x87] ++
     head [0x93, 0x70, 0x04, 0x5A, 0x3C, 0x8E, 0xEC, 0x87, 0xE5] 0 0x00 0x00 ++ reply 7008 [0x08] 0x00)
    (.text ['0', '4', '5', 'a', '3', 'c', '8', 'e']) := by decide
/-- V45-15. -/
theorem test_version : gives .version idle [R 0x37 0x00] (.byte 0x00) := by decide
/-- V45-7. -/
theorem test_setAddress : (endOf (.setAddress 0xA9) idle []).addr = 0x29 := by decide
/-- V45-9. -/
theorem test_setAddress_above_255 : (endOf (.setAddress 0x128) cold []).addr = 0x28 ∧
    (endOf (.setAddress 0x128) cold []).init = false := by decide

/-- R16, R124, R163: with INIT = 0 the first step of version assigns ADDR, takes one answer and leaves no event. -/
theorem test_version_cold_first_step :
    (match step { cold with addr := 0x29, requests := [⟨.host, [0x82]⟩], answers := [quiet, quiet] } with
    | .next t => decide (t.addr = 0x29) && decide (t.trace = []) && decide (t.answers = [quiet]) &&
        decide (t.seq = some ⟨.softReset .command, [.initSoftReset, .versionInit]⟩)
    | .fault _ => false
    | .refused _ => false) = true := by decide

/-- R82, R83: each command byte is written whole to 0x01. -/
theorem test_cmdIdle : gives .cmdIdle idle [W 0x01 0x00] .done := by decide
theorem test_cmdCalcCrc : gives .cmdCalcCrc idle [W 0x01 0x03] .done := by decide
theorem test_cmdTransceive : gives .cmdTransceive idle [W 0x01 0x0C] .done := by decide
theorem test_cmdSoftReset : gives .cmdSoftReset idle [W 0x01 0x0F] .done := by decide
/-- R203, 93 U1: a register written while the device may be resetting has no value; once 0x01 has shown the bit clear it
holds what is written. -/
theorem test_softReset_registers_without_value :
    let s := endOf .cmdSoftReset idle [W 0x01 0x0F]
    let t := endOf (.busRead 0x01) { s with trace := [] } [R 0x01 0x0F]
    (endOf (.busWrite 0x14 0x83) { s with trace := [] } [W 0x14 0x83]).chip.held 0x28 0x14 = none ∧
      (endOf (.busWrite 0x14 0x83) { t with trace := [] } [W 0x14 0x83]).chip.held 0x28 0x14 = some 0x83 := by decide
/-- R58, N11: the clear value written to 0x04 clears the pending flags; after a read of 0x04 they have no value. -/
theorem test_busWrite_clears_pending_flags :
    let s := endOf (.busWrite 0x04 0x7F) idle [W 0x04 0x7F]
    s.chip.pendingFlags 0x28 = some 0x00 ∧
      (endOf (.busRead 0x04) { s with trace := [] } [R 0x04 0x64]).chip.pendingFlags 0x28 = none := by decide
/-- R60, 93 U9: what a register outside the map holds once it is written is the chip's affair. -/
theorem test_writeRegister_outside_the_map :
    (endOf (.writeRegister 0x3F 0xAA) idle [W 0x3F 0xAA]).chip.held 0x28 0x3F = none := by decide
/-- R80, R81. -/
theorem test_busWrite : gives (.busWrite 0x3F 0xAA) idle [W 0x3F 0xAA] .done := by decide
theorem test_busRead : gives (.busRead 0x09) idle [R 0x09 0x11] (.byte 0x11) := by decide
/-- R85. -/
theorem test_piccReqa : gives .piccReqa idle (head [0x26] 7 0x00 0x07 ++ noReply) (.exchange ⟨false, [], 0⟩) := by decide
/-- R140, R173: a BusFault at the second read of a drain leaves the first byte in RXBUF. -/
theorem test_piccReqa_fault_in_drain :
    let trace := head [0x26] 7 0x00 0x07 ++
      [.now 9, R 0x04 0x20, R 0x06 0x00, R 0x0A 0x02, R 0x09 0x44, .rdFailed 0x28 0x09]
    gives .piccReqa idle trace .busFault ∧ (endOf .piccReqa idle trace).res = ⟨false, [0x44], 0⟩ := by decide
/-- R84, R22. -/
theorem test_piccWupa : gives .piccWupa idle (head [0x52] 7 0x00 0x07 ++ reply 9 [0x04, 0x00] 0x00)
    (.exchange ⟨true, [0x04, 0x00], 0⟩) := by decide
/-- R86, V43-1. -/
theorem test_piccAnticollCl1 : gives .piccAnticollCl1 idle
    (head [0x93, 0x20] 0 0x00 0x00 ++ reply 9 [0x04, 0x5A, 0x3C, 0x8E, 0xEC] 0x00)
    (.exchange ⟨true, [0x04, 0x5A, 0x3C, 0x8E, 0xEC], 0⟩) := by decide
/-- R87. -/
theorem test_piccSelectCl1 : gives (.piccSelectCl1 ⟨0x04, 0x5A, 0x3C, 0x8E, 0xEC⟩ 0x87 0xE5) idle
    (head [0x93, 0x70, 0x04, 0x5A, 0x3C, 0x8E, 0xEC, 0x87, 0xE5] 0 0x00 0x00 ++ reply 9 [0x08] 0x00)
    (.exchange ⟨true, [0x08], 0⟩) := by decide

/-! ### Witnesses: states and operands that meet the hypotheses of each statement

Each is named after its statement; several witnesses of one statement are its clauses and the boundary values. -/

/-- An answer that takes no time: a byte read, or the completion of a write. -/
def say (v : Byte) : Answer := ⟨0, false, v⟩

/-- An answer after `ms` milliseconds. -/
def late (ms : Nat) (v : Byte) : Answer := ⟨ms, false, v⟩

/-- A transaction that fails. -/
def broken : Answer := ⟨0, true, 0⟩

/-- `idle` with answers ready. -/
def ready (as : List Answer) : State := { idle with answers := as }

/-- `idle` with an operation in progress and answers ready. -/
def busy (f : Active) (ws : List Waiting) (as : List Answer) : State :=
  { idle with seq := some ⟨f, ws⟩, answers := as }

/-- The instruction ends with a next state at SEQ = IDLE on the answers that are ready. -/
def ends (i : Instr) (s : State) : Bool :=
  match exec i s with
  | .next t => t.seq == none
  | .fault _ => false
  | .refused _ => false

/-- The hypotheses of a statement about a whole run with answers ready. -/
def meets (script : List (Prim × Answer)) (ok : Bool) : Prop :=
  readyFor script [] (ready (answersOf script)) ∧ noFault script = true ∧ ok = true

theorem witness_DecodeOfEncodeIsTheInstruction :
    (Instr.transceive [] 0).wf = true ∧ (Instr.transceive [0xFF] 7).wf = true ∧ (Instr.setAddress 65536).wf = true := by decide

theorem witness_EncodeOfDecodeIsTheWord :
    decode ⟨.busRead, [0x37]⟩ = .ok (.busRead 0x37) ∧
    decode ⟨.host, [0x33, 0x00, 0x28]⟩ = .ok (.initializeChip 0x28) ∧
    decode ⟨.host, [0x83, 0x00]⟩ = .ok (.setAddress 0) := by decide

theorem witness_DecodedInstructionsAreWellFormed :
    decode ⟨.host, [0x50, 0x07, 0x26]⟩ = .ok (.transceive [0x26] 7) := by decide

theorem witness_OpCodesOutsideTheTableAreRefused :
    let s := { idle with requests := [⟨.host, [0x84]⟩] }
    (0x84 : Byte) ∉ [0x10, 0x11, 0x20, 0x21, 0x30, 0x31, 0x32, 0x33, 0x40, 0x50, 0x60, 0x61, 0x62, 0x63, 0x70, 0x80, 0x81, 0x82, 0x83]
      ∧ s.seq = none ∧ s.requests = ⟨.host, 0x84 :: []⟩ :: [] := by decide

theorem witness_ValidBitsAboveSevenAreRefused : 7 < (8 : Byte).toNat ∧ 7 < (255 : Byte).toNat := by decide

/-- A word and no answer, a word and two; an operation in progress, likewise; no word; a word with a byte too many; a
poll with no caller. -/
theorem witness_StepRunsTheDecodedInstruction :
    let s := { idle with requests := [⟨.host, [0x82]⟩] }
    let u := s.setAnswers [say 0x92, say 0]
    (s.seq = none ∧ s.requests = ⟨.host, [0x82]⟩ :: [] ∧ decode ⟨.host, [0x82]⟩ = .ok .version ∧ s.answers = []) ∧
    (u.answers = say 0x92 :: [say 0] ∧ ends .version { u with requests := [], answers := [say 0x92] } = true) ∧
    ((busy .version [] []).seq = some ⟨.version, []⟩ ∧ seqOk (busy .version [] []) = true ∧
      (busy .version [] []).answers = [] ∧ (busy .version [] [say 0]).answers = say 0 :: [] ∧
      seqOk (busy .version [] [say 0]) = true) ∧
    (idle.seq = none ∧ idle.requests = []) ∧
    decode ⟨.host, [0x30, 0x00]⟩ = .error .wrongOperandLength ∧
    ((busy (.poll (xcvPoll cfg) .p1) [] []).seq ≠ none ∧ seqOk (busy (.poll (xcvPoll cfg) .p1) [] []) = false) := by
  decide

theorem witness_PlacedWordRunsNext :
    decodeTableWord 8 0x82 = some .version ∧ idle.answers = [] ∧
    ((busy .version [] [say 0x92, say 0]).answers = say 0x92 :: [say 0] ∧
      ends .version { busy .version [] [] with seq := none, answers := [say 0x92] } = true) := by decide

theorem witness_BusyBlockRefusesEveryOperation :
    (Instr.transceive [] 7).wf = true ∧ (busy .version [] []).seq = some ⟨.version, []⟩ := by decide

theorem witness_IdleBlockStartsEveryOperation : (Instr.transceive [] 7).wf = true ∧ idle.seq = none := by decide

theorem witness_AnswersSplitOverSteps :
    let t := { busy (.setBits 0x14 0x03 (.write 0x80)) [] [] with trace := [R 0x14 0x80], ticks := 1 }
    (Inv idle ∧ idle.seq = none ∧ exec (.setBits 0x14 0x03) (idle.setAnswers [say 0x80]) = .next t) ∧
    (busy .version [] []).seq = some ⟨.version, []⟩ := by
  refine ⟨⟨⟨?_, ?_, ?_, ?_⟩, ?_, rfl⟩, ?_⟩ <;> decide

/-- A drain of two bytes at its second, RXBUF still holding an earlier reply; and an assignment. -/
theorem witness_EveryStepIsOnePrimitiveOrOneAssignment :
    let s := { busy (.transceive (.x14 1 2)) [] [say 0x55] with res := ⟨true, [0x44, 0x33, 0x22], 0⟩ }
    let u := busy (.initAddress 0x1A9) [.versionInit] [say 0]
    (Inv s ∧ s.seq = some ⟨.transceive (.x14 1 2), []⟩ ∧ s.answers = say 0x55 :: [] ∧ step s = .next (oneStep s) ∧
      primitive (.transceive (.x14 1 2)) s ≠ .assign) ∧
    (Inv u ∧ u.seq = some ⟨.initAddress 0x1A9, [.versionInit]⟩ ∧ u.answers = say 0 :: [] ∧ step u = .next (oneStep u) ∧
      primitive (.initAddress 0x1A9) u = .assign) := by
  refine ⟨⟨⟨?_, ?_, ?_, ?_⟩, ?_, ?_, rfl, ?_⟩, ⟨?_, ?_, ?_, ?_⟩, ?_, ?_, rfl, ?_⟩ <;> decide

theorem witness_WriteRegisterIsOneTransaction :
    ((ready [say 0]).seq = none ∧ (ready [say 0]).answers = say 0 :: [] ∧ (say 0).fails = false) ∧
    ((ready [broken]).answers = broken :: [] ∧ broken.fails = true) := by decide

theorem witness_ReadRegisterIsOneTransaction :
    ((ready [say 0xFF]).seq = none ∧ (ready [say 0xFF]).answers = say 0xFF :: [] ∧ (say 0xFF).fails = false) ∧
    ((ready [broken]).answers = broken :: [] ∧ broken.fails = true) := by decide

theorem witness_BusAndCommandWordsIssuedAlone :
    ((ready [say 0]).seq = none ∧ (ready [say 0]).answers = say 0 :: [] ∧ (say 0).fails = false) ∧
    ((ready [broken]).answers = broken :: [] ∧ broken.fails = true) := by decide

theorem witness_SetBitsReadsThenWrites :
    let s := ready [say 0x83, say 0]
    let t := ready [broken, say 0]
    let u := ready [say 0x83, broken]
    (s.seq = none ∧ s.answers = say 0x83 :: say 0 :: [] ∧ (say 0x83).fails = false ∧ (say 0).fails = false) ∧
    (t.answers = broken :: say 0 :: [] ∧ broken.fails = true) ∧
    (u.answers = say 0x83 :: broken :: [] ∧ (say 0x83).fails = false ∧ broken.fails = true) := by decide

theorem witness_ClearBitsReadsThenWrites :
    let s := ready [say 0x87, say 0]
    let t := ready [broken, say 0]
    let u := ready [say 0x87, broken]
    (s.seq = none ∧ s.answers = say 0x87 :: say 0 :: [] ∧ (say 0x87).fails = false ∧ (say 0).fails = false) ∧
    (t.answers = broken :: say 0 :: [] ∧ broken.fails = true) ∧
    (u.answers = say 0x87 :: broken :: [] ∧ (say 0x87).fails = false ∧ broken.fails = true) := by decide

/-- Start-send after the Transceive command and without it, start-send clear, the programmed count written back and
another one; a FIFO with room and a full one; commands of R83 and another byte; a device that may be resetting; bits written
back, and a register outside the map. -/
theorem witness_ChipRecordFollowsTheTransactions :
    let c : Chip := { regs := [(Memory.key 0x28 0x01, 0x0C), (Memory.key 0x28 0x0D, 0x07)], resetting := [], pending := [],
                      fifo := [(0x28, 0x26)], runs := [], drawn := 0 }
    let d : Chip := { c with regs := [(Memory.key 0x28 0x01, 0x00)] }
    let e : Chip := { c with resetting := [(0x28, 0x0F)] }
    (c.mayReset 0x28 = false ∧ (0x87 : Byte) &&& 0x80 ≠ 0 ∧ c.held 0x28 0x01 = some 0x0C) ∧
    (d.mayReset 0x28 = false ∧ d.held 0x28 0x01 ≠ some 0x0C) ∧ (e.mayReset 0x28 = true ∧ e.mayReset 0x29 = false) ∧
    (0x07 : Byte) &&& 0x80 = 0 ∧ (c.held 0x28 0x0D).map (·.setWidth 3) = some ((0x87 : Byte).setWidth 3) ∧
    (c.held 0x28 0x0D).map (·.setWidth 3) ≠ some ((0x80 : Byte).setWidth 3) ∧
    ((c.staged 0x28).length < cfg.fifoCapacity ∧ { cfg with fifoCapacity := 1 }.fifoCapacity ≤ (c.staged 0x28).length) ∧
    (0x0C : Byte) ∈ [(0x00 : Byte), 0x03, 0x0C] ∧ (0x0F : Byte) ∉ [(0x00 : Byte), 0x03, 0x0C] ∧
    ((0x0D : Byte) ∈ [(0x01 : Byte), 0x0D, 0x11, 0x14, 0x15, 0x2A, 0x2B, 0x2C, 0x2D] ∧ (0x0D : Byte) ≠ 0x01 ∧
      (0x80 : Byte) ≠ 0xFF) ∧
    (0x3F : Byte) ∉ [(0x01 : Byte), 0x0D, 0x11, 0x14, 0x15, 0x2A, 0x2B, 0x2C, 0x2D] := by decide

theorem witness_FlushFifoSetsTheFlushBit :
    let s := ready [say 0x40, say 0]
    let t := ready [broken, say 0]
    let u := ready [say 0x40, broken]
    (s.seq = none ∧ s.answers = say 0x40 :: say 0 :: [] ∧ (say 0x40).fails = false ∧ (say 0).fails = false) ∧
    (t.answers = broken :: say 0 :: [] ∧ broken.fails = true) ∧
    (u.answers = say 0x40 :: broken :: [] ∧ (say 0x40).fails = false ∧ broken.fails = true) := by decide

/-- Both bits set; one of them set, in each of the remaining cases; the values where the clauses meet. -/
theorem witness_AntennaOnSetsBothBits :
    let s := ready [say 0x03, say 0, say 0]
    let t := ready [say 0x01, say 0x82, say 0]
    let u := ready [broken, say 0, say 0]
    let v := ready [say 0x02, broken, say 0]
    let w := ready [say 0x02, say 0x02, broken]
    (s.seq = none ∧ s.answers = say 0x03 :: say 0 :: say 0 :: [] ∧ (say 0x03).byte &&& 0x03 = 0x03) ∧
    (t.answers = say 0x01 :: say 0x82 :: say 0 :: [] ∧ (say 0x01).byte &&& 0x03 ≠ 0x03) ∧
    (u.answers = broken :: say 0 :: say 0 :: [] ∧ broken.fails = true) ∧
    (v.answers = say 0x02 :: broken :: say 0 :: [] ∧ (say 0x02).byte &&& 0x03 ≠ 0x03 ∧ broken.fails = true) ∧
    (w.answers = say 0x02 :: say 0x02 :: broken :: [] ∧ broken.fails = true) := by decide

/-- V41-12's poll: a turn at 50 ms, a timeout at 101 ms, one above the limit. -/
def resetTimeout : SoftResetRun :=
  ⟨say 0, say 0, ⟨late 1000 0, [⟨say 0xFF, late 50 0, say 0⟩], .timeout (say 0xFF) (late 50 0) (say 0)⟩⟩

/-- A reset poll that hits at its first read. -/
def resetHit : SoftResetRun := ⟨say 0, say 0, ⟨late 1000 0, [], .hit (say 0) (say 0)⟩⟩

/-- A poll of the comm-IRQ register that misses at an elapsed time equal to the limit, and then hits (V41-2). -/
def pollAtLimit : PollRun := ⟨say 0, [⟨say 0, late 30 0, say 0⟩], .hit (say 0x20) (say 0)⟩

/-- A poll of the comm-IRQ register that hits at its first read. -/
def pollHit : PollRun := ⟨say 0, [], .hit (say 0x30) (say 0)⟩

/-- A poll of the comm-IRQ register that times out at its first turn, one above the limit (V41-3). -/
def pollLate : PollRun := ⟨say 0, [], .timeout (say 0) (late 31 0) (say 0)⟩

theorem witness_SoftResetReturnsOnEitherVerdict :
    meets (resetTimeout.script cfg) (resetTimeout.ok cfg) ∧ meets (resetHit.script cfg) (resetHit.ok cfg) := by
  refine ⟨⟨⟨rfl, ?_⟩, ?_, ?_⟩, ⟨rfl, ?_⟩, ?_, ?_⟩ <;> decide

/-- initialize with the antenna to be turned on, after a reset poll that timed out. -/
def initRun : InitRun :=
  ⟨say 0, resetTimeout, say 0, say 0, say 0, say 0, say 0, say 0, .turnedOn (say 0x80) (say 0x80) (say 0), say 0⟩

/-- initialize with the antenna already on. -/
def initAgain : InitRun := { initRun with reset := resetHit, antenna := .alreadyOn (say 0x83) }

theorem witness_InitializeRunsTheWholeSequence :
    meets (initRun.script cfg) (initRun.ok cfg) ∧ meets (initAgain.script cfg) (initAgain.ok cfg) := by
  refine ⟨⟨⟨rfl, ?_⟩, ?_, ?_⟩, ⟨rfl, ?_⟩, ?_, ?_⟩ <;> decide

/-- The antenna turned on after a poll that timed out and after one that hit, and found on. -/
theorem witness_InitializeLeavesTheAntennaOn :
    let x : InitRun := { initRun with reset := resetHit }
    (meets (initRun.script cfg) (initRun.ok cfg) ∧ meets (initAgain.script cfg) (initAgain.ok cfg)) ∧
    (meets (x.script cfg) (x.ok cfg) ∧ x.reset.poll.verdict = .hit) := by
  refine ⟨witness_InitializeRunsTheWholeSequence, ⟨⟨rfl, ?_⟩, ?_, ?_⟩, ?_⟩ <;> decide

/-- A CRC run over two bytes that misses at 25 ms and then hits, and one over no bytes that times out at 26 ms. -/
def crcRun : CrcRun :=
  ⟨say 0, say 0, [say 0, say 0], say 0, ⟨say 0, [⟨say 0xFB, late 25 0, say 0⟩], .hit (say 0x04) (say 0)⟩, say 0x1E, say 0xA0⟩
def crcLate : CrcRun :=
  ⟨say 0, say 0, [], say 0, ⟨say 0, [], .timeout (say 0xFB) (late 26 0) (say 0)⟩, say 0xAA, say 0x55⟩

theorem witness_ComputeCrcReturnsTheTwoResultRegisters :
    meets (crcRun.script cfg [0x00, 0x00]) (crcRun.ok cfg [0x00, 0x00]) ∧
    meets (crcLate.script cfg []) (crcLate.ok cfg []) := by
  refine ⟨⟨⟨rfl, ?_⟩, ?_, ?_⟩, ⟨rfl, ?_⟩, ?_, ?_⟩ <;> decide

/-- An exchange of `n` bytes with the given poll and ending. -/
def xcvRun (n : Nat) (p : PollRun) (e : XcvEnd) : XcvRun :=
  ⟨say 0, say 0, say 0x03, say 0, List.replicate n (say 0), say 0, say 0, say 0x47, say 0, p, e⟩

/-- The three endings: no completion, a frame error, a reply of the given bytes. -/
def timedOut : XcvEnd := .timeout (say 0x87) (say 0) (say 0)
def spoilt : XcvEnd := .frameError (say 0x10) (say 0)
def replied (bytes : List Byte) : XcvEnd :=
  .success (say 0xEC) (say (BitVec.ofNat 8 (0x80 + bytes.length))) (bytes.map say) (say 0xFB) (say 0)

theorem witness_TransceiveRunsOneExchange :
    meets ((xcvRun 1 pollLate timedOut).script cfg [0x26] 7) ((xcvRun 1 pollLate timedOut).ok cfg [0x26]) ∧
    meets ((xcvRun 1 pollHit spoilt).script cfg [0x26] 7) ((xcvRun 1 pollHit spoilt).ok cfg [0x26]) ∧
    meets ((xcvRun 0 pollAtLimit (replied [])).script cfg [] 0) ((xcvRun 0 pollAtLimit (replied [])).ok cfg []) ∧
    meets ((xcvRun 1 pollHit (replied [0x04, 0x00])).script cfg [0x26] 7)
      ((xcvRun 1 pollHit (replied [0x04, 0x00])).ok cfg [0x26]) := by
  refine ⟨⟨⟨rfl, ?_⟩, ?_, ?_⟩, ⟨⟨rfl, ?_⟩, ?_, ?_⟩, ⟨⟨rfl, ?_⟩, ?_, ?_⟩, ⟨rfl, ?_⟩, ?_, ?_⟩ <;> decide

theorem witness_TransceiveEndsInOneOfThreeWays :
    ends (.transceive [0x26] ((7 : ValidBits).setWidth 8))
      (ready (answersOf ((xcvRun 1 pollHit spoilt).script cfg [0x26] 7))) = true ∧
    ends (.transceive [0x26] ((7 : ValidBits).setWidth 8)) (ready [broken]) = true := by decide

/-- A frame of one byte, and the empty one. -/
theorem witness_TransceiveSendsTheLoadedFrame :
    let x := xcvRun 1 pollHit spoilt
    let y := xcvRun 0 pollHit spoilt
    ((ready (answersOf (x.headScript cfg [0x26] 7))).seq = none ∧
      (ready (answersOf (x.headScript cfg [0x26] 7))).answers = answersOf (x.headScript cfg [0x26] 7) ∧
      noFault (x.headScript cfg [0x26] 7) = true ∧ x.loads.length = ([0x26] : List Byte).length) ∧
    ((ready (answersOf (x.headScript cfg [0x26] 7))).chip.mayReset 0x28 = false ∧
      ([0x26] : List Byte).length ≤ cfg.fifoCapacity ∧ x.sendRead.byte.setWidth 3 = (7 : ValidBits)) ∧
    (noFault (y.headScript cfg [] 0) = true ∧ y.loads.length = ([] : List Byte).length) := by decide

theorem witness_CardFramesIssuedAlone :
    meets ((xcvRun 1 pollHit (replied [0x04, 0x00])).script cfg [0x26] 7)
      ((xcvRun 1 pollHit (replied [0x04, 0x00])).ok cfg [0x26]) ∧
    meets ((xcvRun 1 pollHit (replied [0x04, 0x00])).script cfg [0x52] 7)
      ((xcvRun 1 pollHit (replied [0x04, 0x00])).ok cfg [0x52]) ∧
    meets ((xcvRun 2 pollHit spoilt).script cfg [0x93, 0x20] 0) ((xcvRun 2 pollHit spoilt).ok cfg [0x93, 0x20]) ∧
    meets ((xcvRun 9 pollLate timedOut).script cfg [0x93, 0x70, 0x04, 0x5A, 0x3C, 0x8E, 0xEC, 0x87, 0xE5] 0)
      ((xcvRun 9 pollLate timedOut).ok cfg [0x93, 0x70, 0x04, 0x5A, 0x3C, 0x8E, 0xEC, 0x87, 0xE5]) := by
  refine ⟨⟨⟨rfl, ?_⟩, ?_, ?_⟩, ⟨⟨rfl, ?_⟩, ?_, ?_⟩, ⟨⟨rfl, ?_⟩, ?_, ?_⟩, ⟨rfl, ?_⟩, ?_, ?_⟩ <;> decide

/-- reqa on a reply of these bytes; reqa without a reply. -/
def reqaRun (bytes : List Byte) : ReqaRun := ⟨say 0, xcvRun 1 pollHit (replied bytes), say 0⟩
def reqaLate : ReqaRun := ⟨say 0, xcvRun 1 pollLate timedOut, say 0⟩

/-- A reply of 2 bytes, of 1 byte, and none. -/
theorem witness_ReqaDetectsACard :
    (meets ((reqaRun [0x04, 0x00]).script cfg) ((reqaRun [0x04, 0x00]).ok cfg) ∧ (reqaRun [0x04, 0x00]).result = true) ∧
    (meets ((reqaRun [0x44]).script cfg) ((reqaRun [0x44]).ok cfg) ∧ (reqaRun [0x44]).result = false) ∧
    meets (reqaLate.script cfg) (reqaLate.ok cfg) := by
  refine ⟨⟨⟨⟨rfl, ?_⟩, ?_, ?_⟩, ?_⟩, ⟨⟨⟨rfl, ?_⟩, ?_, ?_⟩, ?_⟩, ⟨rfl, ?_⟩, ?_, ?_⟩ <;> decide

theorem witness_ReqaRestoresFullByteFraming :
    meets (reqaLate.script cfg) (reqaLate.ok cfg) ∧ reqaLate.exchange.result.ok = false ∧
      (ready (answersOf (reqaLate.script cfg))).chip.mayReset 0x28 = false := by
  refine ⟨⟨⟨rfl, ?_⟩, ?_, ?_⟩, ?_, ?_⟩ <;> decide

/-- anticollision on a reply of these bytes. -/
def anticollRun (bytes : List Byte) : AnticollRun := ⟨say 0, xcvRun 2 pollHit (replied bytes), say 0⟩

/-- A reply of 5 bytes and one of 4. -/
theorem witness_AnticollisionTakesTheFirstFiveBytes :
    (meets ((anticollRun [0x04, 0x5A, 0x3C, 0x8E, 0xEC]).script cfg) ((anticollRun [0x04, 0x5A, 0x3C, 0x8E, 0xEC]).ok cfg) ∧
      (anticollRun [0x04, 0x5A, 0x3C, 0x8E, 0xEC]).result.isSome = true) ∧
    (meets ((anticollRun [0x04, 0x5A, 0x3C, 0x8E]).script cfg) ((anticollRun [0x04, 0x5A, 0x3C, 0x8E]).ok cfg) ∧
      (anticollRun [0x04, 0x5A, 0x3C, 0x8E]).result.isSome = false) := by
  refine ⟨⟨⟨⟨rfl, ?_⟩, ?_, ?_⟩, ?_⟩, ⟨⟨rfl, ?_⟩, ?_, ?_⟩, ?_⟩ <;> decide

/-- select on a reply of these bytes. -/
def selectRun (bytes : List Byte) : SelectRun :=
  ⟨⟨say 0, say 0, List.replicate 7 (say 0), say 0, ⟨say 0, [], .hit (say 0x04) (say 0)⟩, say 0xE5, say 0x87⟩,
    xcvRun 9 pollHit (replied bytes), say 0⟩

/-- A reply of 1 byte and an empty one. -/
theorem witness_SelectTakesTheSak :
    (meets ((selectRun [0x08]).script cfg ⟨0x04, 0x5A, 0x3C, 0x8E, 0xEC⟩)
        ((selectRun [0x08]).ok cfg ⟨0x04, 0x5A, 0x3C, 0x8E, 0xEC⟩) ∧ (selectRun [0x08]).sak.isSome = true) ∧
    (meets ((selectRun []).script cfg ⟨0x04, 0x5A, 0x3C, 0x8E, 0xEC⟩)
        ((selectRun []).ok cfg ⟨0x04, 0x5A, 0x3C, 0x8E, 0xEC⟩) ∧ (selectRun []).sak.isSome = false) := by
  refine ⟨⟨⟨⟨rfl, ?_⟩, ?_, ?_⟩, ?_⟩, ⟨⟨rfl, ?_⟩, ?_, ?_⟩, ?_⟩ <;> decide

/-- readUid: no card; a card and no UID; a UID and no SAK; all three. -/
def noCardRun : ReadUidRun := .noCard reqaLate
def noUidRun : ReadUidRun := .noUid (reqaRun [0x04, 0x00]) (anticollRun [])
def noSakRun : ReadUidRun :=
  .selecting (reqaRun [0x04, 0x00]) (anticollRun [0x04, 0x5A, 0x3C, 0x8E, 0xEC]) ⟨0x04, 0x5A, 0x3C, 0x8E, 0xEC⟩ (selectRun [])
def cardRun : ReadUidRun :=
  .selecting (reqaRun [0x04, 0x00]) (anticollRun [0x04, 0x5A, 0x3C, 0x8E, 0xEC]) ⟨0x04, 0x5A, 0x3C, 0x8E, 0xEC⟩
    (selectRun [0x08])

set_option maxRecDepth 2000 in
theorem witness_ReadUidChainsTheThreeSteps :
    meets (noCardRun.script cfg) (noCardRun.ok cfg) ∧ meets (noUidRun.script cfg) (noUidRun.ok cfg) ∧
    meets (noSakRun.script cfg) (noSakRun.ok cfg) ∧
    meets (cardRun.script cfg) (cardRun.ok cfg) ∧ cardRun.result = some ⟨0x04, 0x5A, 0x3C, 0x8E⟩ := by
  refine ⟨⟨⟨rfl, ?_⟩, ?_, ?_⟩, ⟨⟨rfl, ?_⟩, ?_, ?_⟩, ⟨⟨rfl, ?_⟩, ?_, ?_⟩, ⟨⟨rfl, ?_⟩, ?_, ?_⟩, ?_⟩ <;> decide

/-- `meets` on the machine that is not yet initialised, with a second operation's own condition. -/
def meetsCold (script : List (Prim × Answer)) (ok ok' : Bool) : Prop :=
  { cold with answers := answersOf script }.init = false ∧
    readyFor script [] { cold with answers := answersOf script } ∧ noFault script = true ∧ ok = true ∧ ok' = true

set_option maxRecDepth 2000 in
theorem witness_IsCardPresentIsLazyReqa :
    (idle.init = true ∧ meets ((reqaRun [0x04, 0x00]).script cfg) ((reqaRun [0x04, 0x00]).ok cfg)) ∧
    meetsCold (initRun.script cfg ++ reqaLate.script cfg) (initRun.ok cfg) (reqaLate.ok cfg) := by
  refine ⟨⟨rfl, ⟨rfl, ?_⟩, ?_, ?_⟩, rfl, ⟨rfl, ?_⟩, ?_, ?_, ?_⟩ <;> decide

set_option maxRecDepth 2000 in
theorem witness_ReadUidHexIsLazyReadUid :
    (idle.init = true ∧ meets (cardRun.script cfg) (cardRun.ok cfg)) ∧
    meetsCold (initAgain.script cfg ++ noCardRun.script cfg) (initAgain.ok cfg) (noCardRun.ok cfg) ∧
    ((∀ u, cardRun.result = some u →
        ['0', '4', '5', 'a', '3', 'c', '8', 'e'] = hexText [u.uid0, u.uid1, u.uid2, u.uid3]) ∧
      (cardRun.result = none → ['0', '4', '5', 'a', '3', 'c', '8', 'e'] = [])) ∧
    noCardRun.result = none := by
  refine ⟨⟨rfl, ⟨rfl, ?_⟩, ?_, ?_⟩, ⟨rfl, ⟨rfl, ?_⟩, ?_, ?_, ?_⟩, ⟨?_, ?_⟩, ?_⟩
  case refine_8 =>
    intro u hu
    obtain rfl : ⟨0x04, 0x5A, 0x3C, 0x8E⟩ = u := Option.some.inj hu
    decide
  all_goals decide

theorem witness_VersionIsALazyReadOfTheVersionRegister :
    ((say 0x92).fails = false ∧ (ready [say 0x92]).init = true ∧ (ready [say 0x92]).seq = none ∧
      (ready [say 0x92]).answers = say 0x92 :: []) ∧
    meetsCold (initRun.script cfg ++ [(.rd 0x37, say 0x92)]) (initRun.ok cfg) (noFault (initRun.script cfg)) := by
  refine ⟨by decide, rfl, ⟨rfl, ?_⟩, ?_, ?_, ?_⟩ <;> decide

theorem witness_SetAddressMasksToSevenBits : cold.seq = none ∧ idle.seq = none := by decide

theorem witness_ToHexGivesTwoDigitsPerByte :
    idle.seq = none ∧ ([0x04, 0xEC] : List Byte)[1]? = some 0xEC := by decide

/-- A result, a BusFault, and an exchange that ended. -/
theorem witness_ResultsHaveTheShapeOfTheirOperation :
    ends .version (ready [say 0x92]) = true ∧ ends .version (ready [broken]) = true ∧
    ends .piccReqa (ready (answersOf ((xcvRun 1 pollHit (replied [0x04])).script cfg [0x26] 7))) = true := by decide

theorem witness_BusFaultEndsTheWholeChain :
    let s := busy (.setup .tmode) [.isCardPresentInit] [broken]
    let t := busy (.poll (xcvPoll cfg) .p1) [.transceive, .reqa, .readUidReqa, .readUidHexUid] [broken]
    (s.seq = some ⟨.setup .tmode, [.isCardPresentInit]⟩ ∧ seqOk s = true ∧ s.answers = broken :: [] ∧ broken.fails = true ∧
      primitive (.setup .tmode) s = .wr 0x2A 0x8D) ∧
    (t.seq = some ⟨.poll (xcvPoll cfg) .p1, [.transceive, .reqa, .readUidReqa, .readUidHexUid]⟩ ∧ seqOk t = true ∧
      t.answers = broken :: [] ∧ primitive (.poll (xcvPoll cfg) .p1) t = .rd 0x04) ∧
    ((ready [broken]).seq = none ∧ (ready [broken]).answers = broken :: [] ∧ (ready [broken]).init = true) := by decide

/-- A state in the middle of the deepest chain, five frames (R27). -/
def deep : State :=
  { busy (.poll (xcvPoll cfg) .p1) [.transceive, .reqa, .readUidReqa, .readUidHexUid] [say 0x20] with
    txbuf := [0x26], txvb := 7 }

theorem deep_inv : Inv deep := by
  refine ⟨?_, ?_, ?_, ?_⟩ <;> decide

theorem witness_EveryStepKeepsTheInvariant :
    Inv deep ∧ step deep = .next (oneStep deep) := ⟨deep_inv, rfl⟩

theorem witness_SequenceHoldsAtMostFiveFrames : Inv deep ∧ depth deep = 5 := ⟨deep_inv, by decide⟩

theorem witness_GoodStatesNeverFault : Inv deep := deep_inv

theorem witness_InitIsNeverReset : step deep = .next (oneStep deep) ∧ deep.init = true := ⟨rfl, by decide⟩

/-- INIT is set by the last assignment, which follows the read that finds both bits set, or the write that sets them. -/
theorem witness_InitBecomesTrueOnlyAtTheEndOfInitialize :
    let r := { busy .initFlag [.versionInit] [say 0] with init := false }
    let s := { busy .antennaOn [.initAntenna] [say 0x83] with init := false }
    let t := { busy (.setBits 0x14 0x03 (.write 0x80)) [.antennaOn, .initAntenna] [say 0] with init := false }
    (step r = .next (oneStep r) ∧ r.init = false ∧ (oneStep r).init = true) ∧
    (Inv s ∧ step s = .next (oneStep s) ∧ s.seq ≠ some ⟨.initFlag, []⟩ ∧ (oneStep s).seq = some ⟨.initFlag, []⟩ ∧
      s.answers = say 0x83 :: []) ∧
    (Inv t ∧ step t = .next (oneStep t) ∧ t.seq ≠ some ⟨.initFlag, []⟩ ∧ (oneStep t).seq = some ⟨.initFlag, []⟩) := by
  refine ⟨⟨rfl, ?_, ?_⟩, ⟨⟨?_, ?_, ?_, ?_⟩, rfl, ?_, ?_, ?_⟩, ⟨?_, ?_, ?_, ?_⟩, rfl, ?_, ?_⟩ <;> decide

/-- Each of the two operations, another one, and a step of initialize at its first phase and of another operation. -/
theorem witness_AddrChangesOnlyByItsTwoOperations :
    ends (.setAddress 0x128) idle = true ∧ ends (.initializeChip 0x1A9) (ready [say 0, broken]) = true ∧
    ends .version (ready [say 0]) = true ∧
    ((busy (.initAddress 0x1A9) [] [say 0]).seq = some ⟨.initAddress 0x1A9, []⟩ ∧
      step (busy (.initAddress 0x1A9) [] [say 0]) = .next (oneStep (busy (.initAddress 0x1A9) [] [say 0]))) ∧
    deep.seq = some ⟨.poll (xcvPoll cfg) .p1, [.transceive, .reqa, .readUidReqa, .readUidHexUid]⟩ ∧
    step deep = .next (oneStep deep) := by
  refine ⟨?_, ?_, ?_, ⟨?_, rfl⟩, ?_, rfl⟩ <;> decide

theorem witness_TransactionsGoToTheDeviceAtAddr : step deep = .next (oneStep deep) := rfl

/-- A pause of 50 ms. -/
theorem witness_ClockNeverRunsBackwards :
    let s := busy (.softReset .settle) [] [say 0]
    s.seq = some ⟨.softReset .settle, []⟩ ∧ primitive (.softReset .settle) s = .pause 50 ∧ step s = .next (oneStep s) := by
  refine ⟨?_, ?_, rfl⟩ <;> decide

theorem witness_OwnSequencesKeepToTheRegisterMap :
    (hostChosen .softReset = false ∧ ends .softReset (ready [broken]) = true) ∧
    (deep.seq = some ⟨.poll (xcvPoll cfg) .p1, [.transceive, .reqa, .readUidReqa, .readUidHexUid]⟩ ∧
      ownTop (.poll (xcvPoll cfg) .p1) = true ∧ step deep = .next (oneStep deep)) := by
  refine ⟨?_, ?_, ?_, rfl⟩ <;> decide

/-- Each of the instructions the statement names ends in some state. -/
theorem witness_FrameOfRegisterOperations :
    ([.writeRegister 0 0, .busWrite 0 0, .setBits 0 0, .clearBits 0 0, .readRegister 0, .busRead 0, .flushFifo, .antennaOn,
      .cmdIdle, .cmdCalcCrc, .cmdTransceive, .cmdSoftReset] : List Instr).all
      (fun i => ends i (ready [say 3, say 0])) = true := by decide

theorem witness_FrameOfSoftResetAndInitialize :
    ends .softReset (ready (answersOf (resetHit.script cfg))) = true ∧
    ends (.initializeChip 0x80) (ready (answersOf (initRun.script cfg))) = true := by decide

theorem witness_FrameOfComputeCrc :
    ends (.computeCrc []) (ready (answersOf (crcLate.script cfg []))) = true := by decide

theorem witness_FrameOfExchanges :
    ends (.transceive [] 0) (ready [broken]) = true ∧
    ([.piccReqa, .piccWupa, .piccAnticollCl1, .reqa, .anticollision] : List Instr).all (fun i => ends i (ready [broken])) = true ∧
    ends (.piccSelectCl1 ⟨0, 0, 0, 0, 0⟩ 0 0) (ready [broken]) = true ∧
    ends .reqa (ready (answersOf (reqaLate.script cfg))) = true := by decide

theorem witness_FrameOfSelectAndReadUid :
    ends (.select ⟨0x04, 0x5A, 0x3C, 0x8E, 0xEC⟩)
      (ready (answersOf ((selectRun [0x08]).script cfg ⟨0x04, 0x5A, 0x3C, 0x8E, 0xEC⟩))) = true ∧
    ends .readUid (ready (answersOf (noCardRun.script cfg))) = true := by decide

theorem witness_FrameOfLazyOperations :
    ends .isCardPresent (ready (answersOf (reqaLate.script cfg))) = true ∧
    ends .readUidHex (ready (answersOf (noCardRun.script cfg))) = true ∧
    ends .version (ready [say 0]) = true ∧
    ends .version { cold with answers := answersOf (initRun.script cfg) ++ [say 0] } = true := by decide

/-- A next state and a refusal, to be compared under another chip record. -/
theorem witness_ChipRecordIsNeverRead :
    step deep = .next (oneStep deep) ∧
    step { idle with requests := [⟨.host, [0x12]⟩] } = .refused (.undecodable .unknownOp) := ⟨rfl, rfl⟩

theorem witness_WorkingRegistersCarryNothingOver :
    idle.seq = none ∧ ends .reqa (ready (answersOf ((reqaRun [0x04, 0x00]).script cfg))) = true := by decide

/-- With a pause between polls, and with a clock that advances by itself. -/
theorem witness_EveryOperationEnds :
    (Inv deep ∧ deep.seq ≠ none ∧ 1 ≤ deep.config.pollIntervalMs) ∧
    (∀ a ∈ [late 1 0, late 2 0x20], 1 ≤ a.elapsed) ∧
    (Instr.transceive [] 7).wf = true ∧ idle.seq = none := by
  refine ⟨⟨deep_inv, ?_, ?_⟩, ?_, ?_, ?_⟩ <;> decide

end Sys2Proof.Tests
end

/-! Proofs of the statements about steps, the call depth and the clock (00_scope.md R13, R14, R16, R18;
60_exceptions.md R187). -/

namespace Sys2Proof.Machine

/-! ### A step at the host port (R16, R18, R187) -/

/-- With the answer `a` next, a meaning makes its step on `a` alone, and the answers after it stay ready. -/
theorem onFirstAnswer_cons {m : State → Host.Outcome State Fault Refusal} {s t : State} {a : Answer} {as : List Answer}
    (ha : s.answers = a :: as) (h : m (s.setAnswers [a]) = .next t) :
    onFirstAnswer m s = .next (t.setAnswers (t.answers ++ as)) := by
  simp only [onFirstAnswer, firstAnswer, ha, List.take_succ_cons, List.take_zero, h, List.drop_succ_cons, List.drop_zero]

/-- With SEQ = IDLE a step makes the first step of the instruction the next word decodes to. -/
theorem step_decoded {s : State} {r : Request} {rest : List Request} {i : Instr} (hs : s.seq = none)
    (hr : s.requests = r :: rest) (hd : decode r = .ok i) : step s = onFirstAnswer (exec i) (s.setRequests rest) := by
  simp only [step, hs, fetchRequest, hr, hd]

/-- With SEQ = IDLE a word that does not decode is refused. -/
theorem step_undecodable {s : State} {r : Request} {rest : List Request} {e : DecodeError} (hs : s.seq = none)
    (hr : s.requests = r :: rest) (hd : decode r = .error e) : step s = .refused (.undecodable e) := by
  simp only [step, hs, fetchRequest, hr, hd]

/-- With SEQ = IDLE and no word waiting a step does nothing. -/
theorem step_idle {s : State} (hs : s.seq = none) (hr : s.requests = []) : step s = .next s := by
  simp only [step, hs, fetchRequest, hr]

/-- With an operation in progress, at a SEQ value of R27, a step is one step of the block. -/
theorem step_busy {s : State} {q : Sequence} (hs : s.seq = some q) (hk : seqOk s = true) :
    step s = .next (oneStep s) := by
  simp only [step, hs, stepBusy, hk, if_true]

/-- A SEQ value no operation builds faults. -/
theorem step_illFormed {s : State} (hs : s.seq ≠ none) (hk : seqOk s = false) : step s = .fault .sequenceIllFormed := by
  obtain ⟨q, hq⟩ := Option.ne_none_iff_exists'.1 hs
  simp only [step, hq, stepBusy, hk, Bool.false_eq_true, if_false]

/-- With an operation in progress, SEQ is a value of R27 when its callers are legal and its top frame is in range. -/
theorem seqOk_iff {s : State} {q : Sequence} (hs : s.seq = some q) :
    seqOk s = true ↔ callersOk q.top.op q.callers = true ∧ topOk q s = true := by
  simp only [seqOk, hs, Bool.and_eq_true]

theorem oneStep_nil {s : State} (h : s.answers = []) : oneStep s = primStep (freeAnswer s.ticks) s := by
  simp only [oneStep, h]

theorem oneStep_cons {s : State} {a : Answer} {as : List Answer} (h : s.answers = a :: as) :
    oneStep s = primStep a (s.setAnswers as) := by
  simp only [oneStep, h]

/-- Settles O7: the cases of `step`, one equation each. -/
theorem stepRunsTheDecodedInstruction : Obligations.StepRunsTheDecodedInstruction := by
  refine ⟨fun s r rest i hs hr hd => ⟨fun ha => ?_, fun a as t ha h => ?_⟩,
    fun s q hs hk => ⟨fun ha => ?_, fun a as ha => ?_⟩, fun _ => step_idle, fun _ _ _ _ => step_undecodable,
    fun _ => step_illFormed⟩
  · rw [step_decoded hs hr hd]
    exact onFirstAnswer_nil ha
  · rw [step_decoded hs hr hd]
    exact onFirstAnswer_cons (s := s.setRequests rest) ha h
  · rw [step_busy hs hk, oneStep_nil ha]
  · rw [step_busy hs hk, oneStep_cons ha]
    rfl

/-! ### Refusal while an operation is in progress (R187, U10) -/

theorem start_busy {s : State} (hs : s.seq ≠ none) (f : Active) (ws : List Waiting) :
    start f ws s = .refused .operationInProgress := by
  obtain ⟨h, -⟩ | ⟨-, h⟩ := start_cases f ws s
  · exact absurd h hs
  · exact h

theorem startEnded_busy {s : State} (hs : s.seq ≠ none) (r : Result) :
    startEnded r s = .refused .operationInProgress := by
  obtain ⟨h, -⟩ | ⟨-, h⟩ := startEnded_cases r s
  · exact absurd h hs
  · exact h

/-- Every well-formed instruction starts an operation or ends one at once, and with SEQ busy both are refused. -/
theorem exec_busy {i : Instr} {s : State} (hw : i.wf = true) (hs : s.seq ≠ none) :
    exec i s = .refused .operationInProgress := by
  cases i
  case toHex => exact startEnded_busy hs _
  case setAddress n => exact startEnded_busy (s := s.setAddr (maskAddr n)) hs _
  case transceive fr v =>
    have hv : v.toNat ≤ 7 := of_decide_eq_true hw
    simp only [exec, execTransceive, hv, if_true]
    exact start_busy (s := s.setTxf fr _) hs _ _
  case isCardPresent =>
    simp only [exec, execIsCardPresent]
    split <;> exact start_busy hs _ _
  case readUidHex =>
    simp only [exec, execReadUidHex]
    split <;> exact start_busy hs _ _
  case version =>
    simp only [exec, execVersion]
    split <;> exact start_busy hs _ _
  case piccReqa => exact start_busy (s := s.setTxf reqaFrame 7) hs _ _
  case piccWupa => exact start_busy (s := s.setTxf wupaFrame 7) hs _ _
  case piccAnticollCl1 => exact start_busy (s := s.setTxf anticollFrame 0) hs _ _
  case piccSelectCl1 u lo hi => exact start_busy (s := s.setTxf (selectFrame u lo hi) 0) hs _ _
  all_goals exact start_busy hs _ _

/-- Settles O9, from the two ways an instruction can start. -/
theorem busyBlockRefusesEveryOperation : Obligations.BusyBlockRefusesEveryOperation :=
  fun _ _ _ hw hs => exec_busy hw (by simp [hs])

/-! ### The depth of SEQ (R13, R27) -/

/-- How many callers an operation can have: the longest chain of calls above it (R13). -/
def OpName.maxCallers : OpName → Nat
  | .pollUntil => 4
  | .setBits | .computeCrc | .transceive => 3
  | .softReset | .antennaOn | .reqa | .anticollision | .select => 2
  | .initializeChip | .readUid => 1
  | _ => 0

theorem maxCallers_op_lt_awaits (w : Waiting) : w.op.maxCallers < w.awaits.maxCallers := by
  cases w <;> simp [Waiting.op, Waiting.awaits, OpName.maxCallers]

theorem maxCallers_le (op : OpName) : op.maxCallers ≤ 4 := by
  cases op <;> decide

theorem callersOk_length {op : OpName} {ws : List Waiting} (h : callersOk op ws = true) :
    ws.length ≤ op.maxCallers := by
  induction ws generalizing op with
  | nil => exact Nat.zero_le _
  | cons w ws ih =>
    simp only [callersOk, Bool.and_eq_true, beq_iff_eq] at h
    obtain ⟨rfl, hws⟩ := h
    exact Nat.lt_of_le_of_lt (ih hws) (maxCallers_op_lt_awaits w)

theorem depth_le_of_seqOk {s : State} (h : seqOk s = true) : depth s ≤ 5 := by
  cases hs : s.seq with
  | none => simp [depth, hs]
  | some q =>
    have hlen := callersOk_length ((seqOk_iff hs).1 h).1
    have hmax := maxCallers_le q.top.op
    simp only [depth, hs]
    omega

/-- Settles O44: a caller can have fewer callers than the operation it waits for. -/
theorem sequenceHoldsAtMostFiveFrames : Obligations.SequenceHoldsAtMostFiveFrames :=
  fun _ h => depth_le_of_seqOk h.1

/-! ### The clock (R14) -/

/-- From `s` to `t` the clock does not run backwards, and the samples added to the trace lie between the two. -/
def ClockForward (s t : State) : Prop :=
  s.clock ≤ t.clock ∧ ∃ new, t.trace = s.trace ++ new ∧ ∀ x, Event.now x ∈ new → s.clock ≤ x ∧ x ≤ t.clock

theorem ClockForward.of_eq {s t : State} (hclock : t.clock = s.clock) (htrace : t.trace = s.trace) : ClockForward s t :=
  ⟨hclock.ge, [], by simp [htrace], by simp⟩

/-- A sample a primitive leaves is the clock it leaves. -/
theorem now_mem_eventOf {p : Prim} {a : Answer} {s : State} {x : Nat} (h : Event.now x ∈ eventOf p a s) :
    x = (perform p a s).state.clock := by
  cases p with
  | now => simpa [eventOf, perform_clock_now] using h
  | wr _ _ _ => simp only [eventOf, List.mem_singleton] at h; split at h <;> cases h
  | rd _ => simp only [eventOf, List.mem_singleton] at h; split at h <;> cases h
  | pause _ => simp [eventOf] at h
  | assign => simp [eventOf] at h

theorem perform_clockForward (p : Prim) (a : Answer) (s : State) : ClockForward s (perform p a s).state := by
  refine ⟨perform_clock_le p a s, eventOf p a s, perform_trace p a s, fun x hx => ?_⟩
  rw [now_mem_eventOf hx]
  exact ⟨perform_clock_le p a s, Nat.le_refl _⟩

theorem primStep_clockForward (a : Answer) (s : State) : ClockForward s (primStep a s) := by
  cases hs : s.seq with
  | none => exact .of_eq (by simp [primStep, hs]) (by simp [primStep, hs])
  | some q =>
    have hp := primStep_ports (a := a) hs
    simp only [ClockForward, hp.clock, hp.trace]
    exact perform_clockForward (primitive q.top s) a s

theorem oneStep_clockForward (s : State) : ClockForward s (oneStep s) := by
  simp only [oneStep]
  split
  · exact primStep_clockForward _ s
  · next a as _ => exact primStep_clockForward a (s.setAnswers as)

theorem firstStep_clockForward {i : Instr} {s t : State} (h : onFirstAnswer (exec i) s = .next t) : ClockForward s t := by
  obtain ⟨-, ⟨f, ws, s0, h0, -, rfl⟩ | ⟨r, s0, h0, rfl⟩⟩ := firstStep_next h
  · have hgo := oneStep_clockForward ((s0.setResult none).setSeq (some ⟨f, ws⟩))
    obtain rfl | ⟨fr, v, rfl⟩ := h0 <;> exact hgo
  · obtain rfl | ⟨n, -, rfl⟩ := h0 <;> exact .of_eq rfl rfl

theorem step_clockForward {s t : State} (h : step s = .next t) : ClockForward s t := by
  obtain ⟨-, -, rfl⟩ | ⟨-, -, rfl⟩ | ⟨r, rest, i, -, -, -, hi⟩ := step_next h
  · exact oneStep_clockForward s
  · exact .of_eq rfl rfl
  · exact firstStep_clockForward (s := s.setRequests rest) hi

theorem primStep_pause {a : Answer} {s : State} {q : Sequence} {n : Nat} (hs : s.seq = some q)
    (hp : primitive q.top s = .pause n) : (primStep a s).clock = s.clock + (n + a.elapsed) := by
  rw [(primStep_ports hs).clock, hp, perform_clock_pause]

@[simp] theorem primitive_setAnswers (f : Active) (s : State) (as : List Answer) :
    primitive f (s.setAnswers as) = primitive f s := by
  cases f <;> rfl

theorem oneStep_pause_le {s : State} {q : Sequence} {n : Nat} (hs : s.seq = some q)
    (hp : primitive q.top s = .pause n) : s.clock + n ≤ (oneStep s).clock := by
  cases ha : s.answers with
  | nil =>
    rw [oneStep_nil ha, primStep_pause hs hp]
    omega
  | cons a as =>
    rw [oneStep_cons ha, primStep_pause (s := s.setAnswers as) hs (by simpa using hp), State.setAnswers_clock]
    omega

/-- Settles O50: every step's clock and trace are those of its one primitive. -/
theorem clockNeverRunsBackwards : Obligations.ClockNeverRunsBackwards := by
  refine ⟨fun s t h => step_clockForward h, fun s t q n hs hp h => ?_⟩
  obtain ⟨-, -, rfl⟩ | ⟨hn, -⟩ | ⟨-, -, -, hn, -⟩ := step_next h
  · exact oneStep_pause_le hs hp
  · simp [hs] at hn
  · simp [hs] at hn

/-! ### Answers over steps (R16) -/

theorem stepsWhileBusy_idle {n : Nat} {s : State} (h : s.seq = none) : stepsWhileBusy n s = .next s := by
  cases n <;> simp only [stepsWhileBusy, h]

theorem stepsWhileBusy_succ {n : Nat} {s t : State} (hs : s.seq ≠ none) (h : step s = .next t) :
    stepsWhileBusy (n + 1) s = stepsWhileBusy n t := by
  obtain ⟨q, hq⟩ := Option.ne_none_iff_exists'.1 hs
  simp only [stepsWhileBusy, hq, h]

/-- The machine's steps on the answers that wait are the block's run over them. -/
theorem stepsWhileBusy_ready (as : List Answer) {s : State} (h : Inv s) :
    stepsWhileBusy as.length (s.setAnswers as) = .next (run as s) := by
  induction as generalizing s with
  | nil => rfl
  | cons a as ih =>
    cases hs : s.seq with
    | none => rw [run_idle hs, stepsWhileBusy_idle (s := s.setAnswers (a :: as)) hs]
    | some q =>
      have hstep : step (s.setAnswers (a :: as)) = .next ((primStep a s).setAnswers as) := by
        rw [step_busy (s := s.setAnswers (a :: as)) hs h.1, oneStep_ready]
      rw [run_cons hs, List.length_cons, stepsWhileBusy_succ (by simp [hs]) hstep, ih (primStep_inv a h)]

/-- Starting an operation with answers ready runs it over them. -/
theorem start_ready {f : Active} {ws : List Waiting} {s : State} (hs : s.seq = none) {as : List Answer} (hn : as ≠ []) :
    start f ws (s.setAnswers as) = .next (run as ((s.setResult none).setSeq (some ⟨f, ws⟩))) := by
  rw [start_idle (s := s.setAnswers as) hs, ← advance_ready hn]
  rfl

theorem startsFrom_seq {s s0 : State} (h : StartsFrom s s0) : s0.seq = s.seq := by
  obtain rfl | ⟨fr, v, rfl⟩ := h <;> rfl

theorem endsFrom_seq {i : Instr} {s s0 : State} (h : EndsFrom i s s0) : s0.seq = s.seq := by
  obtain rfl | ⟨n, -, rfl⟩ := h <;> rfl

theorem exec_splits {i : Instr} {s t : State} {a : Answer} (as : List Answer) (hI : Inv s) (hs : s.seq = none)
    (ht : exec i (s.setAnswers [a]) = .next t) :
    exec i (s.setAnswers (a :: as)) = stepsWhileBusy as.length (t.setAnswers (t.answers ++ as)) := by
  obtain ⟨f, ws, s0, h0, hgood, he⟩ | ⟨r, s0, h0, he⟩ | ⟨r, he⟩ := exec_shape i s <;> rw [he] at ht ⊢
  · have hs0 : s0.seq = none := (startsFrom_seq h0).trans hs
    rw [start_ready hs0 (by simp), run_cons rfl] at ht ⊢
    obtain rfl := Host.Outcome.next.inj ht
    exact (stepsWhileBusy_ready as (primStep_inv a (hgood hI))).symm
  · have hs0 : s0.seq = none := (endsFrom_seq h0).trans hs
    obtain ⟨-, h'⟩ | ⟨hn, -⟩ := startEnded_cases r (s0.setAnswers [a])
    · rw [h'] at ht
      obtain rfl := Host.Outcome.next.inj ht
      obtain ⟨-, h''⟩ | ⟨hn, -⟩ := startEnded_cases r (s0.setAnswers (a :: as))
      · rw [h'', stepsWhileBusy_idle rfl]
        rfl
      · exact absurd hs0 hn
    · exact absurd hs0 hn
  · cases ht

/-- Settles O11: the machine's steps on the answers that wait are the block's run over them, and so is an instruction's
meaning from its first phase on. -/
theorem answersSplitOverSteps : Obligations.AnswersSplitOverSteps := by
  refine ⟨fun i s t a as hI hs ht => exec_splits as hI hs ht, fun s q hs => ?_⟩
  simp only [step, State.setAnswers_seq, hs]
  rfl

/-! ### What a phase writes (R11, R16) -/

/-- The registers a phase's own assignments write: the "next" columns of the phase tables, register by register. -/
inductive PhaseWrites : Active → Reply → State → State → Prop
  | nothing (f r s) : PhaseWrites f r s s
  | addr (n r s) : PhaseWrites (.initAddress n) r s (s.setAddr (maskAddr n))
  | init (r s) : PhaseWrites .initFlag r s (s.setInit true)
  | t0 (p r s) : PhaseWrites (.poll p .p0) r s (s.setT0 r.time)
  | pv (p v r s) : PhaseWrites (.poll p (.verdict v)) r s (s.setPv v)
  | crcHi (bytes r s) : PhaseWrites (.computeCrc bytes .c5) r s (s.setCrcHi r.byte)
  | crcLo (bytes r s) : PhaseWrites (.computeCrc bytes .c6) r s (s.setCrcLo r.byte)
  | drained (i n r s) : PhaseWrites (.transceive (.x14 i n)) r s (s.setRes (storeByte s.res i r.byte))
  | failure (r s) : PhaseWrites (.transceive .failure) r s (s.setRes failedExchange)
  | success (n v r s) :
      PhaseWrites (.transceive (.success n v)) r s (s.setRes { ok := true, rxbuf := s.res.rxbuf.take n, rxvb := v })
  | reqaFrame (r s) : PhaseWrites .reqaFraming r s (s.setTxf reqaFrame 7)
  | anticollFrame (r s) : PhaseWrites .anticollision r s (s.setTxf anticollFrame 0)
  | uidb (r s) : PhaseWrites .storeUidb r s (s.setUidb (leadingUidb s.res.rxbuf))
  | sakr (r s) : PhaseWrites .storeSak r s (s.setSakr (s.res.rxbuf.headD 0))

theorem after_writes (f : Active) (r : Reply) (s : State) : PhaseWrites f r s (after f r s).1 := by
  cases f
  case initAddress n => exact .addr n r s
  case initFlag => exact .init r s
  case storeUidb => exact .uidb r s
  case storeSak => exact .sakr r s
  case reqaFraming => exact .reqaFrame r s
  case anticollision => exact .anticollFrame r s
  case poll p ph =>
    cases ph
    case p0 => exact .t0 p r s
    case verdict v => exact .pv p v r s
    all_goals exact .nothing _ r s
  case computeCrc bytes ph =>
    cases ph
    case c5 => exact .crcHi bytes r s
    case c6 => exact .crcLo bytes r s
    all_goals exact .nothing _ r s
  case transceive ph =>
    cases ph
    case x14 i n => exact .drained i n r s
    case failure => exact .failure r s
    case success n v => exact .success n v r s
    all_goals exact .nothing _ r s
  case antennaOn =>
    simp only [after, antennaOnAfter]
    split <;> exact .nothing _ r s
  case setBits ph => cases ph <;> exact .nothing _ r s
  case clearBits ph => cases ph <;> exact .nothing _ r s
  case softReset ph => cases ph <;> exact .nothing _ r s
  case setup ph => cases ph <;> exact .nothing _ r s
  all_goals exact .nothing _ r s

namespace PhaseWrites
variable {f : Active} {r : Reply} {s t : State}

theorem txf_eq (h : PhaseWrites f r s t) : t.txbuf = s.txbuf ∧ t.txvb = s.txvb ∨
    f = .reqaFraming ∧ t.txbuf = [0x26] ∧ t.txvb = 7 ∨ f = .anticollision ∧ t.txbuf = [0x93, 0x20] ∧ t.txvb = 0 := by
  cases h
  case reqaFrame => exact .inr (.inl ⟨rfl, rfl, rfl⟩)
  case anticollFrame => exact .inr (.inr ⟨rfl, rfl, rfl⟩)
  all_goals exact .inl ⟨rfl, rfl⟩

theorem res_eq (h : PhaseWrites f r s t) : t.res = s.res ∨
    (∃ i n, f = .transceive (.x14 i n) ∧ t.res = storeByte s.res i r.byte) ∨
    f = .transceive .failure ∧ t.res = ⟨false, [], 0⟩ ∨
    ∃ n v, f = .transceive (.success n v) ∧ t.res = ⟨true, s.res.rxbuf.take n, v⟩ := by
  cases h
  case drained i n => exact .inr (.inl ⟨i, n, rfl, rfl⟩)
  case failure => exact .inr (.inr (.inl ⟨rfl, rfl⟩))
  case success n v => exact .inr (.inr (.inr ⟨n, v, rfl, rfl⟩))
  all_goals exact .inl rfl

theorem crcHi_eq (h : PhaseWrites f r s t) :
    t.crcHi = s.crcHi ∨ ∃ bytes, f = .computeCrc bytes .c5 ∧ t.crcHi = r.byte := by
  cases h
  case crcHi bytes => exact .inr ⟨bytes, rfl, rfl⟩
  all_goals exact .inl rfl

theorem crcLo_eq (h : PhaseWrites f r s t) :
    t.crcLo = s.crcLo ∨ ∃ bytes, f = .computeCrc bytes .c6 ∧ t.crcLo = r.byte := by
  cases h
  case crcLo bytes => exact .inr ⟨bytes, rfl, rfl⟩
  all_goals exact .inl rfl

theorem uidb_eq (h : PhaseWrites f r s t) : t.uidb = s.uidb ∨ f = .storeUidb ∧ t.uidb = leadingUidb s.res.rxbuf := by
  cases h
  case uidb => exact .inr ⟨rfl, rfl⟩
  all_goals exact .inl rfl

theorem sakr_eq (h : PhaseWrites f r s t) : t.sakr = s.sakr ∨ f = .storeSak ∧ t.sakr = s.res.rxbuf.headD 0 := by
  cases h
  case sakr => exact .inr ⟨rfl, rfl⟩
  all_goals exact .inl rfl

theorem t0_eq (h : PhaseWrites f r s t) : t.t0 = s.t0 ∨ (∃ p, f = .poll p .p0) ∧ t.t0 = r.time := by
  cases h
  case t0 p => exact .inr ⟨⟨p, rfl⟩, rfl⟩
  all_goals exact .inl rfl

theorem pv_eq (h : PhaseWrites f r s t) : t.pv = s.pv ∨ ∃ p v, f = .poll p (.verdict v) ∧ t.pv = v := by
  cases h
  case pv p v => exact .inr ⟨p, v, rfl, rfl⟩
  all_goals exact .inl rfl

end PhaseWrites

/-! ### What a return writes: TXF at most, when a CRC goes back to select (R13, R152) -/

theorem kept_setSeq (e : Effect) (s : State) (q : Option Sequence) : Kept e s (s.setSeq q) :=
  ⟨.inr rfl, .inr ⟨rfl, rfl⟩, .inr rfl, .inr ⟨rfl, rfl⟩, .inr rfl, .inr rfl, .inr ⟨rfl, rfl⟩⟩

theorem kept_endOperation (e : Effect) (r : Result) (s : State) : Kept e s (endOperation r s) :=
  ⟨.inr rfl, .inr ⟨rfl, rfl⟩, .inr rfl, .inr ⟨rfl, rfl⟩, .inr rfl, .inr rfl, .inr ⟨rfl, rfl⟩⟩

/-- A caller that goes on writes no register, but for select with its CRC, which sends its frame. -/
theorem returned_state (w : Waiting) (r : Result) (s : State) :
    (∃ u, w = .selectCrc u) ∨ (returned w r s).1 = s := by
  cases w
  case selectCrc u => exact .inl ⟨u, rfl⟩
  case transceive => refine .inr ?_; simp only [returned, xcvPollReturned]; split <;> rfl
  case anticollision => refine .inr ?_; simp only [returned, anticollReturned]; split <;> rfl
  case selectExchange => refine .inr ?_; simp only [returned, selectReturned]; split <;> rfl
  case readUidReqa => refine .inr ?_; simp only [returned, readUidReqaReturned]; split <;> rfl
  case readUidAnticoll => refine .inr ?_; simp only [returned, readUidAnticollReturned]; split <;> rfl
  case readUidSelect => refine .inr ?_; simp only [returned, readUidSelectReturned]; split <;> rfl
  case readUidHexUid => refine .inr ?_; simp only [returned, readUidHexUidReturned]; split <;> rfl
  all_goals exact .inr rfl

/-- computeCrc does not return when its poll does. -/
theorem returned_computeCrc {w : Waiting} (h : w.op = .computeCrc) (r : Result) (s : State) :
    ∃ f callers, (returned w r s).2 = .enter f callers := by
  cases w
  case computeCrc bytes => exact ⟨_, _, rfl⟩
  all_goals cases h

/-- What handing a result back to its callers writes: nothing, or select's frame into TXF, when the result is the CRC. -/
theorem giveBack_writes {op : OpName} {ws : List Waiting} (hc : callersOk op ws = true) (r : Result) (s : State) :
    Kept ⟨[], []⟩ s (giveBack ws r s) ∨ op = .computeCrc ∧ ∃ u v q, ws = .selectCrc u :: v ∧
      giveBack ws r s = (s.setTxf (selectFrame u s.crcLo s.crcHi) 0).setSeq q := by
  induction ws generalizing op r s with
  | nil => exact .inl (kept_endOperation _ r s)
  | cons w ws ih =>
    simp only [callersOk, Bool.and_eq_true, beq_iff_eq] at hc
    obtain ⟨rfl, hws⟩ := hc
    obtain ⟨u, rfl⟩ | hst := returned_state w r s
    · exact .inr ⟨rfl, u, ws, _, rfl, rfl⟩
    · refine .inl ?_
      simp only [giveBack]
      rcases hr : returned w r s with ⟨s', ⟨f, callers⟩ | r'⟩ <;> rw [hr] at hst <;> obtain rfl : s' = s := hst
      · exact kept_setSeq _ s' _
      · obtain hk | ⟨hop, -⟩ := ih hws r' s'
        · exact hk
        · obtain ⟨f, callers, he⟩ := returned_computeCrc hop r s'
          simp [hr] at he

/-- computeCrc returns from its last phase only. -/
theorem after_computeCrc_ret {f : Active} {x : Reply} {r : Result} {s : State} (hop : f.op = .computeCrc)
    (h : (after f x s).2 = .ret r) : ∃ bytes, f = .computeCrc bytes .c6 := by
  cases f
  case computeCrc bytes p =>
    cases p
    case c6 => exact ⟨bytes, rfl⟩
    all_goals cases h
  all_goals cases hop

/-- What carrying out a phase's move writes: nothing, or select's frame into TXF after computeCrc's last phase. -/
theorem follow_writes {f : Active} {ws : List Waiting} (hc : callersOk f.op ws = true) (x : Reply) (s : State) :
    Kept ⟨[], []⟩ (after f x s).1 (follow ws (after f x s)) ∨
      ∃ bytes u v q, f = .computeCrc bytes .c6 ∧ ws = .selectCrc u :: v ∧ follow ws (after f x s) =
        ((after f x s).1.setTxf (selectFrame u (after f x s).1.crcLo (after f x s).1.crcHi) 0).setSeq q := by
  rcases hm : after f x s with ⟨u, ⟨g, callers⟩ | r⟩
  · exact .inl (kept_setSeq _ u _)
  · obtain hk | ⟨hop, u', v, q, hws, hg⟩ := giveBack_writes hc r u
    · exact .inl hk
    · obtain ⟨bytes, hf⟩ := after_computeCrc_ret hop (congrArg Prod.snd hm)
      exact .inr ⟨bytes, u', v, q, hf, hws, hg⟩


/-! ### One step of the block, register by register (R16, R20 to R28) -/

theorem perform_fault {p : Prim} {a : Answer} {s : State} (h : p.faults a = true) :
    perform p a s = .failed (perform p a s).state := by
  cases p <;> simp only [Prim.faults, Bool.false_eq_true] at h <;> simp only [perform, h, if_true, Performed.state]

theorem primStep_fault {a : Answer} {s : State} {q : Sequence} (hs : s.seq = some q)
    (ha : (primitive q.top s).faults a = true) :
    primStep a s = raiseBusFault (perform (primitive q.top s) a s).state := by
  simp only [primStep, hs]
  rw [perform_fault ha]
  rfl

/-- One step of the block: the phase's own writes `u` on what the primitive leaves, unless its transaction fails, then the
move, which writes TXF at most, when computeCrc returns to select. -/
theorem primStep_writes {a : Answer} {s : State} {q : Sequence} (hs : s.seq = some q)
    (hc : callersOk q.top.op q.callers = true) :
    ∃ u, ((primitive q.top s).faults a = false ∨ u = (perform (primitive q.top s) a s).state) ∧
      PhaseWrites q.top ⟨a.byte, (primStep a s).clock⟩ (perform (primitive q.top s) a s).state u ∧
      Kept ⟨[.tx], []⟩ u (primStep a s) ∧
      ((primStep a s).txbuf = u.txbuf ∧ (primStep a s).txvb = u.txvb ∨
        ∃ bytes w ws, q = ⟨.computeCrc bytes .c6, .selectCrc w :: ws⟩ ∧
          (primStep a s).txbuf = selectFrame w (primStep a s).crcLo (primStep a s).crcHi ∧ (primStep a s).txvb = 0) := by
  cases hf : (primitive q.top s).faults a with
  | true =>
    rw [primStep_fault hs hf]
    exact ⟨_, .inr rfl, .nothing _ _ _, kept_endOperation _ _ _, .inl ⟨rfl, rfl⟩⟩
  | false =>
    have hclock := (primStep_ports (a := a) hs).clock
    have hw := follow_writes hc ⟨a.byte, (primStep a s).clock⟩ (perform (primitive q.top s) a s).state
    rw [hclock, ← primStep_ok hs hf] at hw
    refine ⟨_, .inl rfl, after_writes _ _ _, ?_⟩
    rw [hclock]
    obtain hk | ⟨bytes, w, ws, q', htop, hws, ht⟩ := hw
    · exact ⟨hk.mono ⟨by simp, by simp⟩, .inl (hk.tx.resolve_left (by simp))⟩
    · rw [ht]
      refine ⟨(kept_setTxf _ _ _ (by simp)).trans (kept_setSeq _ _ _), .inr ⟨bytes, w, ws, ?_, rfl, rfl⟩⟩
      rw [← htop, ← hws]

/-- A drained byte is element `i`, and the other elements stay. -/
theorem storeByte_getElem? {r : ExchangeResult} {i : Nat} (b : Byte) (hi : i ≤ r.rxbuf.length) :
    (storeByte r i b).rxbuf[i]? = some b ∧ ∀ j, j ≠ i → (storeByte r i b).rxbuf[j]? = r.rxbuf[j]? := by
  have hlen : (r.rxbuf.take i).length = i := List.length_take_of_le hi
  refine ⟨by simp [storeByte, hlen], fun j hj => ?_⟩
  obtain h | h := Nat.lt_or_gt_of_ne hj
  · simp only [storeByte]
    rw [List.getElem?_append_left (by omega), List.getElem?_take_of_lt h]
  · obtain ⟨k, rfl⟩ := Nat.exists_eq_add_of_lt h
    simp only [storeByte]
    rw [List.getElem?_append_right (by omega), hlen, show i + k + 1 - i = k + 1 by omega, List.getElem?_cons_succ,
      List.getElem?_drop, show i + 1 + k = i + k + 1 by omega]

/-- An anticollision reply that is taken begins with the five bytes of UIDB. -/
theorem leadingUidb_cons {r : ExchangeResult} (h : anticollOk r = true) : ∃ rest, r.rxbuf =
    (leadingUidb r.rxbuf).uid0 :: (leadingUidb r.rxbuf).uid1 :: (leadingUidb r.rxbuf).uid2 ::
      (leadingUidb r.rxbuf).uid3 :: (leadingUidb r.rxbuf).bcc :: rest := by
  simp only [anticollOk, Bool.and_eq_true, decide_eq_true_eq] at h
  have hlen : 5 ≤ r.rxbuf.length := h.2
  match r.rxbuf, hlen with
  | _ :: _ :: _ :: _ :: _ :: rest, _ => exact ⟨rest, rfl⟩

/-- A SELECT reply that is taken begins with the SAK. -/
theorem headD_cons {r : ExchangeResult} (h : selectOk r = true) : ∃ rest, r.rxbuf = r.rxbuf.headD 0 :: rest := by
  simp only [selectOk, Bool.and_eq_true, decide_eq_true_eq] at h
  have hlen : 1 ≤ r.rxbuf.length := h.2
  match r.rxbuf, hlen with
  | _ :: rest, _ => exact ⟨rest, rfl⟩

theorem maskAddr_mod (n : Nat) : maskAddr n = BitVec.ofNat 7 (n % 128) :=
  BitVec.eq_of_toNat_eq (by simp [maskAddr])

/-- Every primitive but an assignment leaves one event. -/
theorem eventOf_single {p : Prim} (hp : p ≠ .assign) (a : Answer) (s : State) : ∃ e, eventOf p a s = [e] := by
  cases p
  case assign => exact absurd rfl hp
  all_goals exact ⟨_, rfl⟩

section
variable {a : Answer} {s : State} {q : Sequence}

theorem primStep_trace (hs : s.seq = some q) : (primStep a s).trace = s.trace ++ eventOf (primitive q.top s) a s := by
  rw [(primStep_ports hs).trace, perform_trace]

/-- A step that is an assignment leaves no event, lets the answer's time pass and leaves the chip record alone. -/
theorem primStep_assign (hs : s.seq = some q) (hp : primitive q.top s = .assign) :
    (primStep a s).trace = s.trace ∧ (primStep a s).chip = s.chip ∧ (primStep a s).clock = s.clock + a.elapsed := by
  have hports := primStep_ports (a := a) hs
  rw [hp] at hports
  exact ⟨hports.trace, hports.chip, hports.clock⟩

/-- A step writes TXF when it calls transceive, with the frame of the exchange called. -/
theorem primStep_txf (hs : s.seq = some q) (hk : seqOk s = true) :
    (primStep a s).txbuf = s.txbuf ∧ (primStep a s).txvb = s.txvb ∨
      q.top = .reqaFraming ∧ (primStep a s).txbuf = [0x26] ∧ (primStep a s).txvb = 7 ∨
      q.top = .anticollision ∧ (primStep a s).txbuf = [0x93, 0x20] ∧ (primStep a s).txvb = 0 ∨
      ∃ bytes w ws, q = ⟨.computeCrc bytes .c6, .selectCrc w :: ws⟩ ∧
        (primStep a s).txbuf = selectFrame w (primStep a s).crcLo (primStep a s).crcHi ∧ (primStep a s).txvb = 0 := by
  obtain ⟨hc, -⟩ := (seqOk_iff hs).1 hk
  obtain ⟨u, -, hw, -, ⟨hb, hv⟩ | hsel⟩ := primStep_writes (a := a) hs hc
  · rw [hb, hv]
    obtain ⟨h1, h2⟩ | h | h := hw.txf_eq
    · exact .inl ⟨by simp [h1], by simp [h2]⟩
    · exact .inr (.inl h)
    · exact .inr (.inr (.inl h))
  · exact .inr (.inr (.inr hsel))

/-- A step writes RES at the drain, byte by byte, and at the two returns of transceive. -/
theorem primStep_res (hs : s.seq = some q) (hk : seqOk s = true) :
    (primStep a s).res = s.res ∨
      (∃ i n, q.top = .transceive (.x14 i n) ∧ a.fails = false ∧ i < n ∧ n ≤ 127 ∧ i ≤ s.res.rxbuf.length ∧
        (primStep a s).res = storeByte s.res i a.byte) ∨
      q.top = .transceive .failure ∧ (primStep a s).res = ⟨false, [], 0⟩ ∨
      ∃ n v, q.top = .transceive (.success n v) ∧ n ≤ 127 ∧ n ≤ s.res.rxbuf.length ∧
        (primStep a s).res = ⟨true, s.res.rxbuf.take n, v⟩ := by
  obtain ⟨f, ws⟩ := q
  obtain ⟨hc, htop⟩ := (seqOk_iff hs).1 hk
  obtain ⟨u, hu, hw, hkept, -⟩ := primStep_writes (a := a) hs hc
  rw [hkept.res.resolve_left (by simp)]
  obtain hu | rfl := hu
  · obtain h | ⟨i, n, rfl, h⟩ | ⟨rfl, h⟩ | ⟨n, v, rfl, h⟩ := hw.res_eq
    · exact .inl (by simp [h])
    · simp only [topOk, Bool.and_eq_true, decide_eq_true_eq] at htop
      exact .inr (.inl ⟨i, n, rfl, hu, htop.1.1, htop.1.2, htop.2, by simp [h]⟩)
    · exact .inr (.inr (.inl ⟨rfl, h⟩))
    · simp only [topOk, Bool.and_eq_true, decide_eq_true_eq] at htop
      exact .inr (.inr (.inr ⟨n, v, rfl, htop.1, htop.2, by simp [h]⟩))
  · exact .inl (by simp)

/-- A step writes each half of the CRC when it reads it. -/
theorem primStep_crc (hs : s.seq = some q) (hk : seqOk s = true) :
    ((primStep a s).crcHi = s.crcHi ∨ ∃ bytes, q.top = .computeCrc bytes .c5 ∧ (primStep a s).crcHi = a.byte) ∧
      ((primStep a s).crcLo = s.crcLo ∨ ∃ bytes, q.top = .computeCrc bytes .c6 ∧ (primStep a s).crcLo = a.byte) := by
  obtain ⟨hc, -⟩ := (seqOk_iff hs).1 hk
  obtain ⟨u, -, hw, hkept, -⟩ := primStep_writes (a := a) hs hc
  obtain ⟨hhi, hlo⟩ := hkept.crc.resolve_left (by simp)
  rw [hhi, hlo]
  exact ⟨by simpa using hw.crcHi_eq, by simpa using hw.crcLo_eq⟩

/-- A step writes UIDB at the end of anticollision, with the first five bytes of the reply. -/
theorem primStep_uidb (hs : s.seq = some q) (hk : seqOk s = true) :
    (primStep a s).uidb = s.uidb ∨
      q.top = .storeUidb ∧ anticollOk s.res = true ∧ (primStep a s).uidb = leadingUidb s.res.rxbuf := by
  obtain ⟨f, ws⟩ := q
  obtain ⟨hc, htop⟩ := (seqOk_iff hs).1 hk
  obtain ⟨u, -, hw, hkept, -⟩ := primStep_writes (a := a) hs hc
  rw [hkept.uidb.resolve_left (by simp)]
  obtain h | ⟨rfl, h⟩ := hw.uidb_eq
  · exact .inl (by simp [h])
  · exact .inr ⟨rfl, htop, by simp [h]⟩

/-- A step writes SAKR at the end of select, with the first byte of the reply. -/
theorem primStep_sakr (hs : s.seq = some q) (hk : seqOk s = true) :
    (primStep a s).sakr = s.sakr ∨
      q.top = .storeSak ∧ selectOk s.res = true ∧ (primStep a s).sakr = s.res.rxbuf.headD 0 := by
  obtain ⟨f, ws⟩ := q
  obtain ⟨hc, htop⟩ := (seqOk_iff hs).1 hk
  obtain ⟨u, -, hw, hkept, -⟩ := primStep_writes (a := a) hs hc
  rw [hkept.sakr.resolve_left (by simp)]
  obtain h | ⟨rfl, h⟩ := hw.sakr_eq
  · exact .inl (by simp [h])
  · exact .inr ⟨rfl, htop, by simp [h]⟩

/-- A step writes T0 at a poll's first phase, and PV at its last. -/
theorem primStep_poll (hs : s.seq = some q) (hk : seqOk s = true) :
    ((primStep a s).t0 = s.t0 ∨ (∃ p, q.top = .poll p .p0) ∧ (primStep a s).t0 = (primStep a s).clock) ∧
      ((primStep a s).pv = s.pv ∨ ∃ p v, q.top = .poll p (.verdict v) ∧ (primStep a s).pv = v) := by
  obtain ⟨hc, -⟩ := (seqOk_iff hs).1 hk
  obtain ⟨u, -, hw, hkept, -⟩ := primStep_writes (a := a) hs hc
  obtain ⟨ht0, hpv⟩ := hkept.poll.resolve_left (by simp)
  rw [ht0, hpv]
  exact ⟨by simpa using hw.t0_eq, by simpa using hw.pv_eq⟩

end

/-- Settles O12: the step is `primStep` on the next answer, whose primitive acts on the ports and whose registers are
written phase by phase. -/
theorem everyStepIsOnePrimitiveOrOneAssignment : Obligations.EveryStepIsOnePrimitiveOrOneAssignment := by
  intro s t q a as hI hs ha h
  have hk : seqOk s = true := hI.1
  have ht : t = (primStep a s).setAnswers as := by
    rw [step_busy hs hk, oneStep_cons ha, primStep_withAnswers] at h
    exact (Host.Outcome.next.inj h).symm
  subst ht
  have hports := primStep_ports (a := a) hs
  obtain ⟨haddr, hinit⟩ := primStep_persistent (a := a) hs
  obtain ⟨hhi, hlo⟩ := primStep_crc (a := a) hs hk
  obtain ⟨ht0, hpv⟩ := primStep_poll (a := a) hs hk
  refine ⟨rfl, by simp [hports.config], by simp [hports.requests], primStep_assign hs, fun hp => ?_, ?_, hinit,
    primStep_txf hs hk, ?_, hhi, hlo, ?_, ?_, ht0, hpv⟩
  · obtain ⟨e, he⟩ := eventOf_single hp a s
    exact ⟨e, he ▸ primStep_trace hs⟩
  · obtain h | ⟨n, hn, h⟩ := haddr
    · exact .inl h
    · exact .inr ⟨n, hn, h.trans (maskAddr_mod n)⟩
  · obtain h | ⟨i, n, hf, hfails, hin, hn, hi, h⟩ | h | h := primStep_res (a := a) hs hk
    · exact .inl h
    · obtain ⟨hget, hother⟩ := storeByte_getElem? a.byte hi
      refine .inr (.inl ⟨i, n, hf, hfails, hin, hn, ?_⟩)
      rw [State.setAnswers_res, h]
      exact ⟨rfl, rfl, hget, hother⟩
    · exact .inr (.inr (.inl h))
    · exact .inr (.inr (.inr h))
  · obtain h | ⟨hf, hok, h⟩ := primStep_uidb (a := a) hs hk
    · exact .inl h
    · refine .inr ⟨hf, ?_⟩
      rw [State.setAnswers_uidb, h]
      exact leadingUidb_cons hok
  · obtain h | ⟨hf, hok, h⟩ := primStep_sakr (a := a) hs hk
    · exact .inl h
    · refine .inr ⟨hf, ?_⟩
      rw [State.setAnswers_sakr, h]
      exact headD_cons hok

end Sys2Proof.Machine

/-! Proofs of the statements about the state: the invariant, INIT and ADDR, the register map, the chip record
(10_state.md R20 to R46). -/

namespace Sys2Proof.Machine

/-! ### The invariant (R22, R23, R27) -/

/-- The first step of an instruction keeps the invariant: its operation starts at a good frame, or it ends at once. -/
theorem firstStep_inv {i : Instr} {s t : State} (hI : Inv s) (h : onFirstAnswer (exec i) s = .next t) : Inv t := by
  obtain ⟨-, ⟨f, ws, s0, -, hgood, rfl⟩ | ⟨r, s0, h0, rfl⟩⟩ := firstStep_next h
  · exact oneStep_inv (hgood hI)
  · have hstores : Stores s := hI.2.2
    obtain rfl | ⟨n, -, rfl⟩ := h0 <;> exact inv_end hstores

/-- Settles O43: a step is one step of the block, nothing, or the first step of an instruction. -/
theorem everyStepKeepsTheInvariant : Obligations.EveryStepKeepsTheInvariant := by
  intro s t hI h
  obtain ⟨-, -, rfl⟩ | ⟨-, -, rfl⟩ | ⟨r, rest, i, -, -, -, hi⟩ := step_next h
  · exact oneStep_inv hI
  · exact hI
  · exact firstStep_inv (s := s.setRequests rest) hI hi

/-- Settles O14: at reset SEQ is IDLE, and RXBUF and the chip record are empty. -/
theorem resetSatisfiesTheInvariant : Obligations.ResetSatisfiesTheInvariant :=
  ⟨rfl, rfl, Nat.zero_le _, rfl⟩

/-- No instruction faults: it starts an operation, ends one at once, or is refused. -/
theorem exec_ne_fault (i : Instr) (s : State) (r : Fault) : exec i s ≠ .fault r := by
  rw [← setAnswers_self s]
  obtain ⟨f, ws, s0, -, -, he⟩ | ⟨x, s0, -, he⟩ | ⟨x, he⟩ := exec_shape i s <;> rw [he]
  · obtain ⟨-, h⟩ | ⟨-, h⟩ := start_cases f ws (s0.setAnswers s.answers) <;> simp [h]
  · obtain ⟨-, h⟩ | ⟨-, h⟩ := startEnded_cases x (s0.setAnswers s.answers) <;> simp [h]
  · simp

theorem onFirstAnswer_fault {m : State → Host.Outcome State Fault Refusal} {s : State} {r : Fault}
    (h : onFirstAnswer m s = .fault r) : m (firstAnswer s) = .fault r := by
  simp only [onFirstAnswer] at h
  split at h
  · cases h
  · next f hf =>
    cases h
    exact hf
  · cases h

/-- At a SEQ value of R27 the step of the operation in progress is defined, and with SEQ = IDLE no word faults. -/
theorem step_ne_fault {s : State} (hk : seqOk s = true) (r : Fault) : step s ≠ .fault r := by
  cases hs : s.seq with
  | some q => simp [step_busy hs hk]
  | none =>
    cases hr : s.requests with
    | nil => simp [step_idle hs hr]
    | cons w rest =>
      cases hd : decode w with
      | error e => simp [step_undecodable hs hr hd]
      | ok i =>
        rw [step_decoded hs hr hd]
        exact fun h => exec_ne_fault i _ r (onFirstAnswer_fault h)

/-- Settles O45: the invariant makes SEQ a value of R27. -/
theorem goodStatesNeverFault : Obligations.GoodStatesNeverFault :=
  fun _ hI => step_ne_fault hI.1

/-! ### The frame an instruction starts at (R13, R92, R165) -/

/-- The value SEQ takes when an instruction is started, for an instruction that starts an operation: `toHex` and
`setAddress` end in the step that starts them. -/
def entry (i : Instr) (s : State) : Option Sequence :=
  match i with
  | .writeRegister a v => some ⟨.writeRegister a v, []⟩
  | .readRegister a => some ⟨.readRegister a, []⟩
  | .setBits a m => some ⟨.setBits a m .read, []⟩
  | .clearBits a m => some ⟨.clearBits a m .read, []⟩
  | .softReset => some ⟨.softReset .command, []⟩
  | .flushFifo => some ⟨.setBits Reg.fifoLevel Mask.fifoFlush .read, [.flushFifo]⟩
  | .antennaOn => some ⟨.antennaOn, []⟩
  | .initializeChip n => some ⟨.initAddress n, []⟩
  | .computeCrc bytes => some ⟨.computeCrc bytes .c0, []⟩
  | .transceive _ _ => some ⟨.transceive .x0, []⟩
  | .reqa => some ⟨.reqaFraming, []⟩
  | .anticollision => some ⟨.anticollision, []⟩
  | .select u => some ⟨.computeCrc (selectHead u) .c0, [.selectCrc u]⟩
  | .readUid => some ⟨.reqaFraming, [.readUidReqa]⟩
  | .toHex _ => none
  | .isCardPresent =>
    some (if s.init then ⟨.reqaFraming, [.isCardPresentReqa]⟩ else ⟨.initAddress s.addr.toNat, [.isCardPresentInit]⟩)
  | .readUidHex =>
    some (if s.init then ⟨.reqaFraming, [.readUidReqa, .readUidHexUid]⟩
      else ⟨.initAddress s.addr.toNat, [.readUidHexInit]⟩)
  | .version => some (if s.init then ⟨.version, []⟩ else ⟨.initAddress s.addr.toNat, [.versionInit]⟩)
  | .setAddress _ => none
  | .cmdIdle => some ⟨.command .idle, []⟩
  | .cmdCalcCrc => some ⟨.command .calcCrc, []⟩
  | .cmdTransceive => some ⟨.command .transceive, []⟩
  | .cmdSoftReset => some ⟨.command .softReset, []⟩
  | .busWrite a v => some ⟨.busWrite a v, []⟩
  | .busRead a => some ⟨.busRead a, []⟩
  | .piccReqa => some ⟨.transceive .x0, [.cardFrame .reqa]⟩
  | .piccWupa => some ⟨.transceive .x0, [.cardFrame .wupa]⟩
  | .piccAnticollCl1 => some ⟨.transceive .x0, [.cardFrame .anticollCl1]⟩
  | .piccSelectCl1 _ _ _ => some ⟨.transceive .x0, [.cardFrame .selectCl1]⟩

/-- The state an instruction that ends in the step that starts it leaves, but for its result. -/
def assigned (i : Instr) (s : State) : State :=
  match i with
  | .setAddress n => s.setAddr (maskAddr n)
  | _ => s

theorem assigned_init (i : Instr) (s : State) : (assigned i s).init = s.init := by
  cases i <;> rfl

theorem assigned_trace (i : Instr) (s : State) : (assigned i s).trace = s.trace := by
  cases i <;> rfl

theorem assigned_answers (i : Instr) (s : State) : (assigned i s).answers = s.answers := by
  cases i <;> rfl

/-- Whatever answers wait, an instruction starts its operation at its entry frame, ends at once, or is refused. -/
theorem exec_entry (i : Instr) (s : State) :
    (∃ q s0, entry i s = some q ∧ StartsFrom s s0 ∧
        ∀ l, exec i (s.setAnswers l) = start q.top q.callers (s0.setAnswers l)) ∨
      (entry i s = none ∧ ∃ r, ∀ l, exec i (s.setAnswers l) = startEnded r ((assigned i s).setAnswers l)) ∨
      ∃ r, ∀ l, exec i (s.setAnswers l) = .refused r := by
  cases i
  case toHex bytes => exact .inr (.inl ⟨rfl, _, fun l => rfl⟩)
  case setAddress n => exact .inr (.inl ⟨rfl, _, fun l => rfl⟩)
  case transceive fr v =>
    by_cases hv : v.toNat ≤ 7
    · refine .inl ⟨_, s.setTxf fr (v.setWidth 3), rfl, .inr ⟨fr, v.setWidth 3, rfl⟩, fun l => ?_⟩
      simp only [exec, execTransceive, hv, if_true]
      rfl
    · exact .inr (.inr ⟨.validBitsAboveSeven, fun l => by simp only [exec, execTransceive, hv, if_false]⟩)
  case isCardPresent =>
    refine .inl ⟨_, s, rfl, .inl rfl, fun l => ?_⟩
    cases h : s.init <;> simp [exec, execIsCardPresent, startInit, h]
  case readUidHex =>
    refine .inl ⟨_, s, rfl, .inl rfl, fun l => ?_⟩
    cases h : s.init <;> simp [exec, execReadUidHex, startInit, h]
  case version =>
    refine .inl ⟨_, s, rfl, .inl rfl, fun l => ?_⟩
    cases h : s.init <;> simp [exec, execVersion, startInit, h]
  case piccReqa => exact .inl ⟨_, s.setTxf reqaFrame 7, rfl, .inr ⟨_, _, rfl⟩, fun l => rfl⟩
  case piccWupa => exact .inl ⟨_, s.setTxf wupaFrame 7, rfl, .inr ⟨_, _, rfl⟩, fun l => rfl⟩
  case piccAnticollCl1 => exact .inl ⟨_, s.setTxf anticollFrame 0, rfl, .inr ⟨_, _, rfl⟩, fun l => rfl⟩
  case piccSelectCl1 u lo hi => exact .inl ⟨_, s.setTxf (selectFrame u lo hi) 0, rfl, .inr ⟨_, _, rfl⟩, fun l => rfl⟩
  all_goals exact .inl ⟨_, s, rfl, .inl rfl, fun l => rfl⟩

theorem startsFrom_setAnswers {s s0 : State} (h : StartsFrom s s0) : s0.setAnswers s.answers = s0 := by
  obtain rfl | ⟨fr, v, rfl⟩ := h <;> rfl

/-- What an instruction does when it answers a next state: it starts an operation at its entry frame, or ends at once. -/
theorem exec_next_entry {i : Instr} {s t : State} (h : exec i s = .next t) :
    (∃ q s0, entry i s = some q ∧ StartsFrom s s0 ∧ start q.top q.callers s0 = .next t) ∨
      entry i s = none ∧ ∃ r, t = endOperation r (assigned i s) := by
  rw [← setAnswers_self s] at h
  obtain ⟨q, s0, hq, h0, he⟩ | ⟨hn, r, he⟩ | ⟨r, he⟩ := exec_entry i s <;> rw [he] at h
  · rw [startsFrom_setAnswers h0] at h
    exact .inl ⟨q, s0, hq, h0, h⟩
  · rw [← assigned_answers i s, setAnswers_self] at h
    obtain ⟨-, h'⟩ | ⟨-, h'⟩ := startEnded_cases r (assigned i s) <;> rw [h'] at h <;> cases h
    exact .inr ⟨hn, r, rfl⟩
  · cases h

/-- Going on with the first of the answers alone is one step of the block. -/
theorem advance_firstAnswer {s : State} {q : Sequence} (hs : s.seq = some q) (as : List Answer) :
    ∃ a l, advance (s.setAnswers (as.take 1)) = (primStep a s).setAnswers l := by
  cases as with
  | nil => exact ⟨freeAnswer s.ticks, [], primStep_withAnswers _ s []⟩
  | cons a as =>
    refine ⟨a, [], ?_⟩
    rw [List.take_succ_cons, List.take_zero, advance_ready (by simp), run_cons hs]
    rfl

/-- The first step of an instruction: one step of the block from its entry frame, or its end. -/
theorem firstStep_entry {i : Instr} {s t : State} (h : onFirstAnswer (exec i) s = .next t) :
    (∃ q s0 a l, entry i s = some q ∧ StartsFrom s s0 ∧
        t = (primStep a ((s0.setResult none).setSeq (some q))).setAnswers l) ∨
      ∃ r l, t = (endOperation r (assigned i s)).setAnswers l := by
  obtain ⟨u, hu, rfl⟩ := onFirstAnswer_next h
  obtain ⟨q, s0, hq, h0, he⟩ | ⟨-, r, he⟩ | ⟨r, he⟩ := exec_entry i s <;> rw [he] at hu
  · obtain ⟨a, l, hadv⟩ := advance_firstAnswer (s := (s0.setResult none).setSeq (some q)) rfl s.answers
    obtain ⟨-, h'⟩ | ⟨-, h'⟩ := start_cases q.top q.callers (s0.setAnswers (s.answers.take 1)) <;> rw [h'] at hu
    · obtain rfl : (primStep a ((s0.setResult none).setSeq (some q))).setAnswers l = u :=
        hadv.symm.trans (Host.Outcome.next.inj hu)
      exact .inl ⟨q, s0, a, _, hq, h0, rfl⟩
    · cases hu
  · obtain ⟨-, h'⟩ | ⟨-, h'⟩ := startEnded_cases r ((assigned i s).setAnswers (s.answers.take 1)) <;>
      rw [h'] at hu <;> cases hu
    exact .inr ⟨r, _, rfl⟩
  · cases hu

/-- Every entry frame has callers that wait for it. -/
theorem entry_callersOk {i : Instr} {s : State} {q : Sequence} (h : entry i s = some q) :
    callersOk q.top.op q.callers = true := by
  cases i
  case isCardPresent => obtain rfl := Option.some.inj h; split <;> rfl
  case readUidHex => obtain rfl := Option.some.inj h; split <;> rfl
  case version => obtain rfl := Option.some.inj h; split <;> rfl
  case toHex => cases h
  case setAddress => cases h
  all_goals obtain rfl := Option.some.inj h; rfl

/-! ### INIT (R21, R124) -/

/-- initializeChip's antennaOn may end at this SEQ value: at its read of 0x14, or at the write of its setBits. -/
def EndsAntenna (q : Sequence) (ws : List Waiting) : Prop :=
  q = ⟨.antennaOn, .initAntenna :: ws⟩ ∨
    ∃ addr mask v, q = ⟨.setBits addr mask (.write v), .antennaOn :: .initAntenna :: ws⟩

/-- No instruction starts near the end of initializeChip: at its last assignment, or where its antennaOn may end. -/
theorem entry_not_last {i : Instr} {s : State} {q : Sequence} (h : entry i s = some q) :
    q.top ≠ .initFlag ∧ ∀ ws, ¬ EndsAntenna q ws := by
  cases i
  case isCardPresent => obtain rfl := Option.some.inj h; split <;> simp [EndsAntenna]
  case readUidHex => obtain rfl := Option.some.inj h; split <;> simp [EndsAntenna]
  case version => obtain rfl := Option.some.inj h; split <;> simp [EndsAntenna]
  case toHex => cases h
  case setAddress => cases h
  all_goals obtain rfl := Option.some.inj h; simp [EndsAntenna]

/-- The next step of the block is made on the next answer, or on a free one when none is ready. -/
theorem oneStep_primStep (s : State) : ∃ a as, oneStep s = primStep a (s.setAnswers as) ∧
    (s.answers = a :: as ∨ s.answers = [] ∧ a = freeAnswer s.ticks) := by
  cases ha : s.answers with
  | nil =>
    refine ⟨freeAnswer s.ticks, [], ?_, .inr ⟨rfl, rfl⟩⟩
    rw [oneStep_nil ha, ← ha, setAnswers_self]
  | cons a as => exact ⟨a, as, oneStep_cons ha, .inl rfl⟩

/-- With an operation in progress the next state is that of one step of the block. -/
theorem step_busy_next {s t : State} {q : Sequence} (hs : s.seq = some q) (h : step s = .next t) : t = oneStep s := by
  obtain ⟨-, -, ht⟩ | ⟨hn, -⟩ | ⟨-, -, -, hn, -⟩ := step_next h
  · exact ht
  · simp [hs] at hn
  · simp [hs] at hn

theorem oneStep_persistent {s : State} {q : Sequence} (hs : s.seq = some q) :
    ((oneStep s).addr = s.addr ∨ ∃ n, q.top = .initAddress n ∧ (oneStep s).addr = maskAddr n) ∧
      ((oneStep s).init = s.init ∨ q.top = .initFlag ∧ (oneStep s).init = true) := by
  obtain ⟨a, as, h, -⟩ := oneStep_primStep s
  rw [h]
  exact primStep_persistent (s := s.setAnswers as) hs

/-- A step leaves INIT as it is, or sets it, with SEQ at initializeChip's last assignment. -/
theorem step_init {s t : State} (h : step s = .next t) :
    t.init = s.init ∨ t.init = true ∧ ∃ ws, s.seq = some ⟨.initFlag, ws⟩ := by
  obtain ⟨hn, -, rfl⟩ | ⟨-, -, rfl⟩ | ⟨r, rest, i, -, -, -, hi⟩ := step_next h
  · obtain ⟨⟨f, ws⟩, hq⟩ := Option.ne_none_iff_exists'.1 hn
    obtain hk | ⟨rfl, hset⟩ := (oneStep_persistent hq).2
    · exact .inl hk
    · exact .inr ⟨hset, ws, hq⟩
  · exact .inl rfl
  · refine .inl ?_
    obtain ⟨q, s0, a, l, hq, h0, rfl⟩ | ⟨r, l, rfl⟩ := firstStep_entry hi
    · obtain ⟨-, hk | ⟨hf, -⟩⟩ := primStep_persistent (a := a) (s := (s0.setResult none).setSeq (some q)) rfl
      · rw [State.setAnswers_init, hk]
        obtain rfl | ⟨fr, v, rfl⟩ := h0 <;> rfl
      · exact absurd hf (entry_not_last hq).1
    · exact assigned_init i _

/-- Settles O46: what a step writes to INIT is 1. -/
theorem initIsNeverReset : Obligations.InitIsNeverReset := by
  intro s t h hset
  obtain hk | ⟨ht, -⟩ := step_init h
  · rw [hk, hset]
  · exact ht

/-- Where SEQ is after a result is handed back: a caller went on, and the callers below it still wait. -/
theorem giveBack_seq {ws : List Waiting} {r : Result} {s : State} {q : Sequence} (h : (giveBack ws r s).seq = some q) :
    ∃ pre w post cs r' s', ws = pre ++ w :: post ∧ (returned w r' s').2 = .enter q.top cs ∧ q.callers = cs ++ post := by
  induction ws generalizing r s with
  | nil => cases h
  | cons w ws ih =>
    simp only [giveBack] at h
    rcases hw : returned w r s with ⟨u, ⟨f, cs⟩ | r'⟩ <;> rw [hw] at h
    · obtain rfl := Option.some.inj h
      exact ⟨[], w, ws, cs, r, s, rfl, congrArg Prod.snd hw, rfl⟩
    · obtain ⟨pre, v, post, cs, r'', s', rfl, hv, hq⟩ := ih h
      exact ⟨w :: pre, v, post, cs, r'', s', rfl, hv, hq⟩

/-- Where SEQ is after a move: where it enters, or where a caller goes on. -/
theorem follow_seq {ws : List Waiting} {m : State × Move} {q : Sequence} (h : (follow ws m).seq = some q) :
    (∃ cs, m.2 = .enter q.top cs) ∨ (∃ r, m.2 = .ret r) ∧
      ∃ pre w post cs r' s', ws = pre ++ w :: post ∧ (returned w r' s').2 = .enter q.top cs ∧ q.callers = cs ++ post := by
  obtain ⟨u, ⟨f, cs⟩ | r⟩ := m
  · obtain rfl := Option.some.inj h
    exact .inl ⟨cs, rfl⟩
  · exact .inr ⟨⟨r, rfl⟩, giveBack_seq h⟩

/-- What a phase enters is never initializeChip's last assignment, and after one of the block's own frames it is one of
them. -/
theorem after_enter {f g : Active} {cs : List Waiting} {r : Reply} {s : State} (h : (after f r s).2 = .enter g cs) :
    g ≠ .initFlag ∧ (ownTop f = true → ownTop g = true) := by
  cases f
  case setBits a m p =>
    cases p <;> cases h
    exact ⟨by simp, id⟩
  case clearBits a m p =>
    cases p <;> cases h
    exact ⟨by simp, id⟩
  case poll p ph => cases ph <;> cases h <;> exact ⟨by simp, id⟩
  case softReset p => cases p <;> cases h <;> exact ⟨by simp, fun _ => rfl⟩
  case antennaOn =>
    simp only [after, antennaOnAfter] at h
    split at h <;> cases h
    exact ⟨by simp, fun _ => rfl⟩
  case setup p => cases p <;> cases h <;> exact ⟨by simp, fun _ => rfl⟩
  case computeCrc bytes p => cases p <;> cases h <;> exact ⟨by simp, fun _ => rfl⟩
  case transceive p => cases p <;> cases h <;> exact ⟨by simp, fun _ => rfl⟩
  case initAddress => cases h; exact ⟨by simp, fun _ => rfl⟩
  case reqaFraming => cases h; exact ⟨by simp, fun _ => rfl⟩
  case anticollision => cases h; exact ⟨by simp, fun _ => rfl⟩
  all_goals cases h

/-- What a caller enters is one of the block's own frames, and initializeChip's last assignment only when antennaOn has
returned to it. -/
theorem returned_enter {w : Waiting} {g : Active} {cs : List Waiting} {r : Result} {s : State}
    (h : (returned w r s).2 = .enter g cs) : ownTop g = true ∧ (g = .initFlag → w = .initAntenna ∧ cs = []) := by
  cases w
  case initAntenna => cases h; exact ⟨rfl, fun _ => ⟨rfl, rfl⟩⟩
  case transceive =>
    simp only [returned, xcvPollReturned] at h
    split at h <;> cases h <;> exact ⟨rfl, by simp⟩
  case anticollision =>
    simp only [returned, anticollReturned] at h
    split at h <;> cases h
    exact ⟨rfl, by simp⟩
  case selectExchange =>
    simp only [returned, selectReturned] at h
    split at h <;> cases h
    exact ⟨rfl, by simp⟩
  case readUidReqa =>
    simp only [returned, readUidReqaReturned] at h
    split at h <;> cases h
    exact ⟨rfl, by simp⟩
  case readUidAnticoll =>
    simp only [returned, readUidAnticollReturned] at h
    split at h <;> cases h
    exact ⟨rfl, by simp⟩
  case readUidSelect =>
    simp only [returned, readUidSelectReturned] at h
    split at h <;> cases h
  case readUidHexUid =>
    simp only [returned, readUidHexUidReturned] at h
    split at h <;> cases h
  all_goals cases h <;> exact ⟨rfl, by simp⟩

/-- Above initializeChip waiting for antennaOn there is antennaOn itself, or antennaOn waiting for its setBits. -/
theorem callersOk_initAntenna {op : OpName} {pre ws : List Waiting}
    (h : callersOk op (pre ++ .initAntenna :: ws) = true) :
    pre = [] ∧ op = .antennaOn ∨ pre = [.antennaOn] ∧ op = .setBits := by
  induction pre generalizing op with
  | nil =>
    simp only [List.nil_append, callersOk, Bool.and_eq_true, beq_iff_eq] at h
    exact .inl ⟨rfl, h.1.symm⟩
  | cons w pre ih =>
    simp only [List.cons_append, callersOk, Bool.and_eq_true, beq_iff_eq] at h
    obtain ⟨rfl, h⟩ := h
    obtain ⟨rfl, hop⟩ | ⟨-, hop⟩ := ih h <;> cases w <;> cases hop
    exact .inr ⟨rfl, rfl⟩

theorem Active.eq_antennaOn {f : Active} (h : f.op = .antennaOn) : f = .antennaOn := by
  cases f <;> cases h
  rfl

theorem Active.eq_setBits {f : Active} (h : f.op = .setBits) : ∃ addr mask p, f = .setBits addr mask p := by
  cases f <;> cases h
  exact ⟨_, _, _, rfl⟩

/-- A step of the block that arrives at initializeChip's last assignment: its transaction completed and ended antennaOn. -/
theorem primStep_initFlag {a : Answer} {s : State} {q : Sequence} {ws : List Waiting} (hs : s.seq = some q)
    (hc : callersOk q.top.op q.callers = true) (h : (primStep a s).seq = some ⟨.initFlag, ws⟩) :
    a.fails = false ∧ EndsAntenna q ws := by
  have hok : (primitive q.top s).faults a = false := by
    rw [← Bool.not_eq_true]
    intro hf
    rw [primStep_fault hs hf] at h
    cases h
  obtain ⟨f, callers⟩ := q
  rw [primStep_ok hs hok] at h
  obtain ⟨cs, hm⟩ | ⟨⟨r, hr⟩, pre, w, post, cs, r', s', rfl, hw, hq⟩ := follow_seq h
  · exact absurd rfl (after_enter hm).1
  · obtain ⟨rfl, rfl⟩ := (returned_enter hw).2 rfl
    obtain rfl : ws = post := hq
    obtain ⟨rfl, hop⟩ | ⟨rfl, hop⟩ := callersOk_initAntenna hc
    · obtain rfl := Active.eq_antennaOn hop
      exact ⟨hok, .inl rfl⟩
    · obtain ⟨addr, mask, p, rfl⟩ := Active.eq_setBits hop
      cases p with
      | read => cases hr
      | write v => exact ⟨hok, .inr ⟨addr, mask, v, rfl⟩⟩

/-- Settles O47: INIT is written by its one assignment, which is entered when antennaOn returns to initializeChip; no
instruction starts at or next to it. -/
theorem initBecomesTrueOnlyAtTheEndOfInitialize : Obligations.InitBecomesTrueOnlyAtTheEndOfInitialize := by
  refine ⟨fun s t h hclear hset => ?_, fun s t ws hI h _ ht => ?_⟩
  · obtain hk | ⟨-, hq⟩ := step_init h
    · rw [hk, hclear] at hset
      cases hset
    · exact hq
  · obtain ⟨hn, hk, rfl⟩ | ⟨hn, -, rfl⟩ | ⟨r, rest, i, -, -, -, hi⟩ := step_next h
    · obtain ⟨q, hq⟩ := Option.ne_none_iff_exists'.1 hn
      obtain ⟨a, as, he, ha⟩ := oneStep_primStep s
      rw [he] at ht
      obtain ⟨hok, hends⟩ := primStep_initFlag (s := s.setAnswers as) hq ((seqOk_iff hq).1 hk).1 ht
      refine ⟨fun b bs hb => ?_, fun hb => ?_, ?_⟩
      · obtain ha | ⟨ha, -⟩ := ha <;> rw [ha] at hb <;> cases hb
        exact hok
      · obtain ha | ⟨-, rfl⟩ := ha
        · simp [ha] at hb
        · exact hok
      · rw [hq]
        exact hends.imp (congrArg some) fun ⟨addr, mask, v, h⟩ => ⟨addr, mask, v, congrArg some h⟩
    · rw [hn] at ht
      cases ht
    · obtain ⟨q, s0, a, l, hq, -, rfl⟩ | ⟨r, l, rfl⟩ := firstStep_entry hi
      · exact absurd (primStep_initFlag (s := (s0.setResult none).setSeq (some q)) rfl (entry_callersOk hq) ht).2
          ((entry_not_last hq).2 ws)
      · cases ht

/-! ### ADDR (R20, R50, R124, R164) -/

/-- Everything a step may change but ADDR. -/
def Effect.any : Effect := ⟨[.init, .tx, .res, .crc, .uidb, .sakr, .poll], everyReg⟩

theorem Effect.le_any (e : Effect) : e.le .any :=
  ⟨fun g _ => by cases g <;> simp [Effect.any], fun r _ => mem_everyReg r⟩

theorem start_addr {f : Active} {ws : List Waiting} {s t : State} (hf : f.fixesAddr) (h : start f ws s = .next t) :
    t.addr = s.addr :=
  (start_framed h hf f.effect.le_any fun w _ => w.effect.le_any).addr

theorem startInit_addr {n : Nat} {ws : List Waiting} {s t : State} (h : startInit n ws s = .next t) :
    t.addr = maskAddr n :=
  (startInit_framed h (Active.effect _).le_any fun w _ => w.effect.le_any).addr

/-- The device address an instruction asks for (R20, R91): its operand modulo 128. -/
def addrOperand : Instr → Option DevAddr
  | .setAddress n => some (maskAddr n)
  | .initializeChip n => some (maskAddr n)
  | _ => none

/-- An instruction starts initializeChip for the address it asks for, or for the one ADDR holds, or not at all. -/
theorem entry_addr {i : Instr} {s : State} {q : Sequence} (h : entry i s = some q) :
    q.top.fixesAddr ∧ addrOperand i = none ∨
      ∃ n, q.top = .initAddress n ∧ maskAddr n = (addrOperand i).getD s.addr := by
  have hself : maskAddr s.addr.toNat = s.addr := by simp [maskAddr]
  have lazily : ∀ {f ws w}, (if s.init then ⟨f, ws⟩ else ⟨.initAddress s.addr.toNat, [w]⟩) = q →
      f.fixesAddr → addrOperand i = none →
      q.top.fixesAddr ∧ addrOperand i = none ∨
        ∃ n, q.top = .initAddress n ∧ maskAddr n = (addrOperand i).getD s.addr := by
    rintro f ws w rfl hf hi
    split
    · exact .inl ⟨hf, hi⟩
    · exact .inr ⟨_, rfl, by rw [hi]; exact hself⟩
  cases i
  case initializeChip n => obtain rfl := Option.some.inj h; exact .inr ⟨n, rfl, rfl⟩
  case isCardPresent => exact lazily (Option.some.inj h) trivial rfl
  case readUidHex => exact lazily (Option.some.inj h) trivial rfl
  case version => exact lazily (Option.some.inj h) trivial rfl
  case toHex => cases h
  case setAddress => cases h
  all_goals obtain rfl := Option.some.inj h; exact .inl ⟨trivial, rfl⟩

theorem assigned_addr {i : Instr} {s : State} (h : entry i s = none) :
    (assigned i s).addr = (addrOperand i).getD s.addr := by
  cases i
  case initializeChip => cases h
  all_goals rfl

/-- After an instruction ADDR is the address it asks for, or what it was. -/
theorem exec_addr {i : Instr} {s t : State} (h : exec i s = .next t) : t.addr = (addrOperand i).getD s.addr := by
  obtain ⟨⟨f, ws⟩, s0, hq, h0, hstart⟩ | ⟨hn, r, rfl⟩ := exec_next_entry h
  · obtain ⟨hf, hnone⟩ | ⟨n, rfl, hn⟩ := entry_addr hq
    · rw [start_addr hf hstart, hnone]
      obtain rfl | ⟨fr, v, rfl⟩ := h0 <;> rfl
    · exact (startInit_addr hstart).trans hn
  · exact assigned_addr hn

theorem addrOperand_none {i : Instr} (h : ∀ n, i ≠ .setAddress n ∧ i ≠ .initializeChip n) : addrOperand i = none := by
  cases i
  case setAddress n => exact absurd rfl (h n).1
  case initializeChip n => exact absurd rfl (h n).2
  all_goals rfl

/-- Settles O48: initializeChip's first step is the first step of every operation that contains it, and no other phase
writes ADDR. -/
theorem addrChangesOnlyByItsTwoOperations : Obligations.AddrChangesOnlyByItsTwoOperations := by
  refine ⟨fun i s t h => ⟨fun n hi => ?_, fun hi => ?_⟩, fun s t q hs h => ?_⟩
  · rw [exec_addr h, ← maskAddr_mod]
    obtain rfl | rfl := hi <;> rfl
  · rw [exec_addr h, addrOperand_none hi]
    rfl
  · obtain rfl := step_busy_next hs h
    obtain ⟨hk | ⟨n, hf, hset⟩, -⟩ := oneStep_persistent hs
    · exact .inl hk
    · exact .inr ⟨n, hf, hset.trans (maskAddr_mod n)⟩

/-! ### The register map (R30, R60, R83) -/

/-- From `s` to `t` the trace grew by events of the block's own sequences, and SEQ is at one of them or IDLE. -/
def OwnRun (s t : State) : Prop :=
  (∃ new, t.trace = s.trace ++ new ∧ ∀ e ∈ new, ownEvent e = true) ∧ ∀ q, t.seq = some q → ownTop q.top = true

theorem OwnRun.of_trace {s t : State} (htrace : t.trace = s.trace) (hseq : ∀ q, t.seq = some q → ownTop q.top = true) :
    OwnRun s t := ⟨⟨[], by simp [htrace], by simp⟩, hseq⟩

theorem OwnRun.trans {s t u : State} (h : OwnRun s t) (h' : OwnRun t u) : OwnRun s u := by
  obtain ⟨⟨new, htrace, hnew⟩, -⟩ := h
  obtain ⟨⟨new', htrace', hnew'⟩, hseq⟩ := h'
  refine ⟨⟨new ++ new', by rw [htrace', htrace, List.append_assoc], fun e he => ?_⟩, hseq⟩
  obtain he | he := List.mem_append.1 he
  · exact hnew e he
  · exact hnew' e he

/-- A primitive R30 and R83 give the block. -/
def ownPrim : Prim → Bool
  | .wr addr value _ => ownWrite addr value
  | .rd addr => readByBlock.contains addr
  | _ => true

/-- A write to a register of R30 other than 0x01 is the block's, whatever its value. -/
theorem ownWrite_plain {addr : Byte} (v : Byte) (h : (writtenByBlock.contains addr && addr != 0x01) = true) :
    ownWrite addr v = true := by
  rw [Bool.and_eq_true] at h
  rw [ownWrite, h.1, h.2]
  rfl

theorem ownWrite_command (c : Command) : ownWrite Reg.command c.code = true := by
  cases c <;> decide

/-- The phases of the block's own sequences perform the block's primitives. -/
theorem primitive_own {f : Active} (s : State) (h : ownTop f = true) : ownPrim (primitive f s) = true := by
  cases f
  case command c => exact ownWrite_command c
  case setBits addr mask p =>
    simp only [ownTop, Bool.or_eq_true, Bool.and_eq_true, beq_iff_eq] at h
    cases p with
    | read => obtain ⟨rfl, -⟩ | ⟨rfl, -⟩ := h <;> rfl
    | write v => obtain ⟨rfl, rfl⟩ | ⟨rfl, rfl⟩ := h <;> exact ownWrite_plain _ rfl
  case poll q p =>
    cases p
    case p1 =>
      simp only [ownTop, List.contains_iff_mem, List.mem_cons, List.not_mem_nil, or_false] at h
      simp only [primitive, pollPrim, ownPrim]
      obtain h | h | h := h <;> rw [h] <;> rfl
    all_goals rfl
  case softReset p =>
    cases p
    · exact ownWrite_command .softReset
    · rfl
  case setup p => cases p <;> exact ownWrite_plain _ rfl
  case computeCrc bytes p =>
    cases p
    case c1 v => exact ownWrite_plain _ rfl
    case c2 i => exact ownWrite_plain _ rfl
    case c3 => exact ownWrite_command .calcCrc
    all_goals rfl
  case transceive p =>
    cases p
    case x0 => exact ownWrite_command .idle
    case x6 => exact ownWrite_command .transceive
    case x1 => exact ownWrite_plain _ rfl
    case x3 v => exact ownWrite_plain _ rfl
    case x4 i => exact ownWrite_plain _ rfl
    case x5 => exact ownWrite_plain _ rfl
    case x8 v => exact ownWrite_plain _ rfl
    case x11 v => exact ownWrite_plain _ rfl
    all_goals rfl
  case reqaFraming => exact ownWrite_plain _ rfl
  case reqaRestore => exact ownWrite_plain _ rfl
  case anticollision => exact ownWrite_plain _ rfl
  case writeRegister => cases h
  case readRegister => cases h
  case busWrite => cases h
  case busRead => cases h
  case clearBits => cases h
  all_goals rfl

/-- The block's primitives leave the block's events. -/
theorem eventOf_own {p : Prim} (h : ownPrim p = true) (a : Answer) (s : State) :
    ∀ e ∈ eventOf p a s, ownEvent e = true := by
  intro e he
  cases p
  case wr reg v own => obtain rfl := List.mem_singleton.1 he; split <;> exact h
  case rd reg => obtain rfl := List.mem_singleton.1 he; split <;> exact h
  case now => obtain rfl := List.mem_singleton.1 he; rfl
  case pause n => obtain rfl := List.mem_singleton.1 he; rfl
  case assign => cases he

/-- A step from a frame of the block's own sequences is theirs, and what follows it is a frame of theirs. -/
theorem primStep_own (a : Answer) {s : State} (h : ∀ q, s.seq = some q → ownTop q.top = true) :
    OwnRun s (primStep a s) := by
  obtain ⟨-, h'⟩ | ⟨q, hq, hstep⟩ := primStep_cases a s
  · rw [h']
    exact .of_trace rfl h
  · refine ⟨⟨_, primStep_trace hq, eventOf_own (primitive_own s (h q hq)) a s⟩, fun q' hq' => ?_⟩
    obtain ⟨r, -, h'⟩ | ⟨-, h'⟩ := hstep <;> rw [h'] at hq'
    · obtain ⟨cs, hm⟩ | ⟨-, pre, w, post, cs, r', s', -, hw, -⟩ := follow_seq hq'
      · exact (after_enter hm).2 (h q hq)
      · exact (returned_enter hw).1
    · cases hq'

theorem OwnRun.step {s t : State} (a : Answer) (h : OwnRun s t) : OwnRun s (primStep a t) :=
  h.trans (primStep_own a h.2)

theorem oneStep_own {s : State} {q : Sequence} (hs : s.seq = some q) (hq : ownTop q.top = true) : OwnRun s (oneStep s) := by
  refine oneStep_induct (P := OwnRun s) (fun t l ht => ht) (fun a t ht => ht.step a) (.of_trace rfl fun q' hq' => ?_)
  obtain rfl : q = q' := Option.some.inj (hs.symm.trans hq')
  exact hq

theorem start_own {f : Active} {ws : List Waiting} {s t : State} (hf : ownTop f = true) (h : start f ws s = .next t) :
    OwnRun s t := by
  obtain ⟨-, h'⟩ | ⟨-, h'⟩ := start_cases f ws s <;> rw [h'] at h <;> cases h
  refine advance_induct (P := OwnRun s) (fun t l ht => ht) (fun a t ht => ht.step a) (.of_trace rfl fun q hq => ?_)
  obtain rfl := Option.some.inj hq
  exact hf

/-- An instruction whose register the host does not choose starts at a frame of the block's own sequences. -/
theorem entry_own {i : Instr} {s : State} {q : Sequence} (hi : hostChosen i = false) (h : entry i s = some q) :
    ownTop q.top = true := by
  cases i
  case isCardPresent => obtain rfl := Option.some.inj h; split <;> rfl
  case readUidHex => obtain rfl := Option.some.inj h; split <;> rfl
  case version => obtain rfl := Option.some.inj h; split <;> rfl
  case writeRegister => cases hi
  case readRegister => cases hi
  case setBits => cases hi
  case clearBits => cases hi
  case busWrite => cases hi
  case busRead => cases hi
  case toHex => cases h
  case setAddress => cases h
  all_goals obtain rfl := Option.some.inj h; rfl

theorem exec_own {i : Instr} {s t : State} (hi : hostChosen i = false) (h : exec i s = .next t) : OwnRun s t := by
  obtain ⟨q, s0, hq, h0, hstart⟩ | ⟨-, r, rfl⟩ := exec_next_entry h
  · have hrun : OwnRun s0 t := start_own (entry_own hi hq) hstart
    obtain rfl | ⟨fr, v, rfl⟩ := h0 <;> exact hrun
  · exact .of_trace (assigned_trace i s) fun q hq => by cases hq

/-- Settles O51: each phase's primitive is one R30 and R83 give the block, and only frames of the block's own sequences
follow. -/
theorem ownSequencesKeepToTheRegisterMap : Obligations.OwnSequencesKeepToTheRegisterMap :=
  ⟨fun _ _ _ hi h => exec_own hi h, fun _ _ _ hs hq h => step_busy_next hs h ▸ oneStep_own hs hq⟩

/-! ### The chip record (R45, R46) -/

/-- The same outcome, but for the chip record of the next state. -/
inductive SameButChip :
    Host.Outcome State Fault Refusal → Host.Outcome State Fault Refusal → Prop
  | next (t : State) (c : Chip) : SameButChip (.next t) (.next (t.setChip c))
  | fault (f : Fault) : SameButChip (.fault f) (.fault f)
  | refused (r : Refusal) : SameButChip (.refused r) (.refused r)

/-- A primitive ends the same way whatever the chip record holds, and leaves the same but the record. -/
theorem perform_setChip (p : Prim) (a : Answer) (s : State) (c : Chip) :
    ∃ c', perform p a (s.setChip c) =
      match perform p a s with
      | .replied r t => .replied r (t.setChip c')
      | .failed t => .failed (t.setChip c') := by
  cases p
  case wr reg v own => cases h : a.fails <;> simp only [perform, h] <;> exact ⟨_, rfl⟩
  case rd reg => cases h : a.fails <;> simp only [perform, h] <;> exact ⟨_, rfl⟩
  all_goals exact ⟨c, rfl⟩

/-- No phase reads the chip record: neither its primitive nor what follows it. -/
theorem primitive_setChip (f : Active) (s : State) (c : Chip) : primitive f (s.setChip c) = primitive f s := by
  cases f <;> rfl

theorem after_setChip (f : Active) (r : Reply) (s : State) (c : Chip) :
    after f r (s.setChip c) = ((after f r s).1.setChip c, (after f r s).2) := by
  cases f
  case setBits p => cases p <;> rfl
  case clearBits p => cases p <;> rfl
  case poll q p => cases p <;> rfl
  case softReset p => cases p <;> rfl
  case antennaOn => simp only [after, antennaOnAfter]; split <;> rfl
  case setup p => cases p <;> rfl
  case computeCrc bytes p => cases p <;> rfl
  case transceive p => cases p <;> rfl
  all_goals rfl

/-- Nor does a caller that goes on. -/
theorem returned_setChip (w : Waiting) (r : Result) (s : State) (c : Chip) :
    returned w r (s.setChip c) = ((returned w r s).1.setChip c, (returned w r s).2) := by
  cases w
  case transceive => simp only [returned, xcvPollReturned, State.setChip_pv]; split <;> rfl
  case anticollision => simp only [returned, anticollReturned, State.setChip_res]; split <;> rfl
  case selectExchange => simp only [returned, selectReturned, State.setChip_res]; split <;> rfl
  case readUidReqa => simp only [returned, readUidReqaReturned]; split <;> rfl
  case readUidAnticoll => simp only [returned, readUidAnticollReturned]; split <;> rfl
  case readUidSelect => simp only [returned, readUidSelectReturned]; split <;> rfl
  case readUidHexUid => simp only [returned, readUidHexUidReturned]; split <;> rfl
  all_goals rfl

theorem giveBack_setChip (ws : List Waiting) (r : Result) (s : State) (c : Chip) :
    giveBack ws r (s.setChip c) = (giveBack ws r s).setChip c := by
  induction ws generalizing r s with
  | nil => rfl
  | cons w ws ih =>
    simp only [giveBack, returned_setChip]
    rcases returned w r s with ⟨u, ⟨f, cs⟩ | r'⟩
    · rfl
    · exact ih r' u

theorem follow_setChip (ws : List Waiting) (s : State) (m : Move) (c : Chip) :
    follow ws (s.setChip c, m) = (follow ws (s, m)).setChip c := by
  cases m with
  | enter f cs => rfl
  | ret r => exact giveBack_setChip ws r s c

theorem primStep_setChip (a : Answer) (s : State) (c : Chip) :
    ∃ c', primStep a (s.setChip c) = (primStep a s).setChip c' := by
  cases hs : s.seq with
  | none => exact ⟨c, by simp only [primStep, State.setChip_seq, hs]⟩
  | some q =>
    obtain ⟨c', hp⟩ := perform_setChip (primitive q.top s) a s c
    refine ⟨c', ?_⟩
    simp only [primStep, State.setChip_seq, hs, primitive_setChip, hp]
    cases perform (primitive q.top s) a s with
    | replied r t => simp only [after_setChip, follow_setChip]
    | failed t => rfl

theorem run_setChip (as : List Answer) (s : State) (c : Chip) :
    ∃ c', run as (s.setChip c) = (run as s).setChip c' := by
  induction as generalizing s c with
  | nil => exact ⟨c, rfl⟩
  | cons a as ih =>
    cases hs : s.seq with
    | none => exact ⟨c, by rw [run_idle hs, run_idle (s := s.setChip c) hs]; rfl⟩
    | some q =>
      obtain ⟨c', h⟩ := primStep_setChip a s c
      rw [run_cons hs, run_cons (s := s.setChip c) hs, h]
      exact ih (primStep a s) c'

theorem advance_setChip (s : State) (c : Chip) : ∃ c', advance (s.setChip c) = (advance s).setChip c' := by
  simp only [advance, State.setChip_answers, State.setChip_ticks]
  split
  · exact primStep_setChip _ s c
  · exact run_setChip _ s c

theorem oneStep_setChip (s : State) (c : Chip) : ∃ c', oneStep (s.setChip c) = (oneStep s).setChip c' := by
  simp only [oneStep, State.setChip_answers, State.setChip_ticks]
  split
  · exact primStep_setChip _ s c
  · next a as _ => exact primStep_setChip a (s.setAnswers as) c

theorem start_setChip (f : Active) (ws : List Waiting) (s : State) (c : Chip) :
    SameButChip (start f ws s) (start f ws (s.setChip c)) := by
  cases hs : s.seq with
  | none =>
    obtain ⟨c', h⟩ := advance_setChip ((s.setResult none).setSeq (some ⟨f, ws⟩)) c
    rw [start_idle hs, start_idle (s := s.setChip c) hs,
      show advance (((s.setChip c).setResult none).setSeq (some ⟨f, ws⟩)) = _ from h]
    exact .next _ c'
  | some q =>
    rw [start_busy (by simp [hs]), start_busy (s := s.setChip c) (by simp [hs])]
    exact .refused _

theorem startEnded_setChip (r : Result) (s : State) (c : Chip) :
    SameButChip (startEnded r s) (startEnded r (s.setChip c)) := by
  cases hs : s.seq with
  | none => simp only [startEnded, State.setChip_seq, hs]; exact .next (endOperation r s) c
  | some q => simp only [startEnded, State.setChip_seq, hs]; exact .refused _

/-- No instruction reads the chip record. -/
theorem exec_setChip (i : Instr) (s : State) (c : Chip) : SameButChip (exec i s) (exec i (s.setChip c)) := by
  cases i
  case toHex bytes => exact startEnded_setChip _ s c
  case setAddress n => exact startEnded_setChip _ (s.setAddr (maskAddr n)) c
  case transceive fr v =>
    simp only [exec, execTransceive]
    split
    · exact start_setChip _ _ (s.setTxf fr (v.setWidth 3)) c
    · exact .refused _
  case isCardPresent =>
    cases hinit : s.init <;> simp only [exec, execIsCardPresent, State.setChip_init, hinit, if_true, if_false, reduceCtorEq]
    all_goals exact start_setChip _ _ s c
  case readUidHex =>
    cases hinit : s.init <;> simp only [exec, execReadUidHex, State.setChip_init, hinit, if_true, if_false, reduceCtorEq]
    all_goals exact start_setChip _ _ s c
  case version =>
    cases hinit : s.init <;> simp only [exec, execVersion, State.setChip_init, hinit, if_true, if_false, reduceCtorEq]
    all_goals exact start_setChip _ _ s c
  case piccReqa => exact start_setChip _ _ (s.setTxf reqaFrame 7) c
  case piccWupa => exact start_setChip _ _ (s.setTxf wupaFrame 7) c
  case piccAnticollCl1 => exact start_setChip _ _ (s.setTxf anticollFrame 0) c
  case piccSelectCl1 u lo hi => exact start_setChip _ _ (s.setTxf (selectFrame u lo hi) 0) c
  all_goals exact start_setChip _ _ s c

theorem onFirstAnswer_setChip {m : State → Host.Outcome State Fault Refusal} {s : State} {c : Chip}
    (h : SameButChip (m (firstAnswer s)) (m ((firstAnswer s).setChip c))) :
    SameButChip (onFirstAnswer m s) (onFirstAnswer m (s.setChip c)) := by
  have hf : firstAnswer (s.setChip c) = (firstAnswer s).setChip c := rfl
  simp only [onFirstAnswer, hf]
  generalize m (firstAnswer s) = o, m ((firstAnswer s).setChip c) = o' at h
  cases h with
  | next t c' => exact .next _ c'
  | fault f => exact .fault f
  | refused r => exact .refused r

/-- A step is the same whatever the chip record holds. -/
theorem step_setChip (s : State) (c : Chip) : SameButChip (step s) (step (s.setChip c)) := by
  cases hs : s.seq with
  | some q =>
    cases hk : seqOk s with
    | true =>
      obtain ⟨c', h⟩ := oneStep_setChip s c
      rw [step_busy hs hk, step_busy (s := s.setChip c) hs hk, h]
      exact .next _ c'
    | false =>
      rw [step_illFormed (by simp [hs]) hk, step_illFormed (s := s.setChip c) (by simp [hs]) hk]
      exact .fault _
  | none =>
    cases hr : s.requests with
    | nil =>
      rw [step_idle hs hr, step_idle (s := s.setChip c) hs hr]
      exact .next s c
    | cons w rest =>
      cases hd : decode w with
      | error e =>
        rw [step_undecodable hs hr hd, step_undecodable (s := s.setChip c) hs hr hd]
        exact .refused _
      | ok i =>
        rw [step_decoded hs hr hd, step_decoded (s := s.setChip c) hs hr hd]
        exact onFirstAnswer_setChip (s := s.setRequests rest) (exec_setChip i _ c)

/-- Settles O58: a step on another chip record has the same outcome, but for the record. -/
theorem chipRecordIsNeverRead : Obligations.ChipRecordIsNeverRead := by
  intro s c
  have h := step_setChip s c
  generalize step s = o, step (s.setChip c) = o' at h
  cases h with
  | next t c' => exact ⟨fun u hu => ⟨c', by cases hu; rfl⟩, by simp, by simp⟩
  | fault f => exact ⟨by simp, by simp, fun _ hf => hf⟩
  | refused r => exact ⟨by simp, fun _ hr => hr, by simp⟩

end Sys2Proof.Machine

/-! Proofs of the statements about the bus and the chip record (20_memory.md R50, R58, R62, R64). -/

namespace Sys2Proof.Machine

/-! ### Transactions go to the device at ADDR (R50, R64) -/

/-- From `s` to `t` the trace only grew, and the transactions added are addressed to the device at ADDR. -/
def TransactsAtAddr (s t : State) : Prop :=
  ∃ new, t.trace = s.trace ++ new ∧ ∀ e ∈ new, e.device = none ∨ e.device = some t.addr

theorem TransactsAtAddr.of_trace {s t : State} (h : t.trace = s.trace) : TransactsAtAddr s t :=
  ⟨[], by simp [h], by simp⟩

/-- The event of a primitive names the device at ADDR, or none. -/
theorem eventOf_device {p : Prim} {a : Answer} {s : State} {e : Event} (h : e ∈ eventOf p a s) :
    e.device = none ∨ e.device = some s.addr := by
  cases p with
  | wr reg v own => obtain rfl := List.mem_singleton.1 h; split <;> exact .inr rfl
  | rd reg => obtain rfl := List.mem_singleton.1 h; split <;> exact .inr rfl
  | now => obtain rfl := List.mem_singleton.1 h; exact .inl rfl
  | pause n => obtain rfl := List.mem_singleton.1 h; exact .inl rfl
  | assign => cases h

/-- A step that transacts leaves ADDR alone: the one phase that writes ADDR is an assignment. -/
theorem primStep_transactsAtAddr (a : Answer) (s : State) : TransactsAtAddr s (primStep a s) := by
  cases hs : s.seq with
  | none => exact .of_trace (by simp [primStep, hs])
  | some q =>
    refine ⟨_, primStep_trace hs, fun e he => ?_⟩
    obtain ⟨hk | ⟨n, hf, -⟩, -⟩ := primStep_persistent (a := a) hs
    · rw [hk]
      exact eventOf_device he
    · rw [hf] at he
      cases he

theorem oneStep_transactsAtAddr (s : State) : TransactsAtAddr s (oneStep s) := by
  obtain ⟨a, as, h, -⟩ := oneStep_primStep s
  rw [h]
  exact primStep_transactsAtAddr a (s.setAnswers as)

theorem firstStep_transactsAtAddr {i : Instr} {s t : State} (h : onFirstAnswer (exec i) s = .next t) :
    TransactsAtAddr s t := by
  obtain ⟨-, ⟨f, ws, s0, h0, -, rfl⟩ | ⟨r, s0, h0, rfl⟩⟩ := firstStep_next h
  · have hgo := oneStep_transactsAtAddr ((s0.setResult none).setSeq (some ⟨f, ws⟩))
    obtain rfl | ⟨fr, v, rfl⟩ := h0 <;> exact hgo
  · obtain rfl | ⟨n, -, rfl⟩ := h0 <;> exact .of_trace rfl

/-- Settles O49: a step's transaction is its one primitive's, and a step that makes one keeps ADDR. -/
theorem transactionsGoToTheDeviceAtAddr : Obligations.TransactionsGoToTheDeviceAtAddr := by
  intro s t h
  obtain ⟨-, -, rfl⟩ | ⟨-, -, rfl⟩ | ⟨r, rest, i, -, -, -, hi⟩ := step_next h
  · exact oneStep_transactsAtAddr s
  · exact TransactsAtAddr.of_trace rfl
  · exact firstStep_transactsAtAddr (s := s.setRequests rest) hi

end Sys2Proof.Machine

namespace Sys2Proof.Machine.Chip

/-! ### The FIFO of the chip record (R35, R45) -/

theorem staged_of_drop {c c' : Chip} {dev : DevAddr} (h : c'.fifo = c.dropStaged dev) : c'.staged dev = [] := by
  simp [staged, h, dropStaged, List.filter_filter]

theorem staged_of_append {c c' : Chip} {dev : DevAddr} {bytes : List Byte}
    (h : c'.fifo = c.fifo ++ bytes.map fun b => (dev, b)) : c'.staged dev = c.staged dev ++ bytes := by
  simp [staged, h, List.filter_map, Function.comp_def]

theorem staged_of_dropOldest {c c' : Chip} {dev : DevAddr} (h : c'.fifo = dropOldest dev c.fifo) :
    c'.staged dev = (c.staged dev).tail := by
  simp only [staged, h]
  induction c.fifo with
  | nil => rfl
  | cons x xs ih =>
    by_cases hx : x.1 = dev
    · simp [dropOldest, hx]
    · simpa [dropOldest, hx] using ih

@[simp] theorem freeFifo_staged (c : Chip) (dev : DevAddr) :
    (c.freeFifo dev).staged dev = Config.freeStaged c.drawn := by
  rw [staged_of_append (c := { c with fifo := c.dropStaged dev }) rfl, staged_of_drop (c := c) rfl, List.nil_append]

@[simp] theorem send_staged (c : Chip) (dev : DevAddr) (v : Byte) : (c.send dev v).staged dev = [] :=
  staged_of_drop rfl

@[simp] theorem settle_staged (c : Chip) (dev d : DevAddr) (reg v own : Byte) :
    (c.settle dev reg v own).staged d = c.staged d := rfl

@[simp] theorem settle_pendingFlags (c : Chip) (dev d : DevAddr) (reg v own : Byte) :
    (c.settle dev reg v own).pendingFlags d = c.pendingFlags d := rfl

@[simp] theorem unsettle_staged (c : Chip) (dev d : DevAddr) (reg : Byte) :
    (c.unsettle dev reg).staged d = (c.freeFifo dev).staged d := rfl

theorem load_full {c : Chip} {capacity : Nat} {dev : DevAddr} {v : Byte} (h : capacity ≤ (c.staged dev).length) :
    c.load capacity dev v = c.freeFifo dev := if_neg (Nat.not_lt.2 h)

theorem load_staged_room {c : Chip} {capacity : Nat} {dev : DevAddr} {v : Byte} (h : (c.staged dev).length < capacity) :
    (c.load capacity dev v).staged dev = c.staged dev ++ [v] := by
  rw [load, if_pos h]
  exact staged_of_append (bytes := [v]) rfl

theorem resets_eq_false_iff {v : Byte} : resets v = false ↔ v ∈ [0x00, 0x03, 0x0C] := by
  rw [← Bool.not_eq_true, resets_iff, not_not]

/-- A CalcCRC leaves a free FIFO, every other command the bytes loaded. -/
theorem startCommand_fifo (c : Chip) (dev : DevAddr) (v : Byte) :
    ((c.startCommand dev v).fifo, (c.startCommand dev v).drawn) =
      if v = 0x03 then ((c.freeFifo dev).fifo, c.drawn + 1) else (c.fifo, c.drawn) := by
  unfold startCommand
  by_cases h3 : v = 0x03
  · subst h3; rfl
  · rw [if_neg h3]
    dsimp only
    split
    · rfl
    · next hk =>
      have hr : resets v = true := by
        rw [resets_iff]
        simp only [List.mem_cons, List.not_mem_nil, or_false, h3, false_or]
        exact hk
      rw [if_pos hr]
      rfl

@[simp] theorem startCommand_staged (c : Chip) (dev d : DevAddr) (v : Byte) :
    (c.startCommand dev v).staged d = if v = 0x03 then (c.freeFifo dev).staged d else c.staged d := by
  have h := congrArg Prod.fst (startCommand_fifo c dev v)
  rw [apply_ite Prod.fst] at h
  simp only [staged] at *
  rw [h]
  split <;> rfl

@[simp] theorem startCommand_drawn (c : Chip) (dev : DevAddr) (v : Byte) :
    (c.startCommand dev v).drawn = if v = 0x03 then c.drawn + 1 else c.drawn := by
  have h := congrArg Prod.snd (startCommand_fifo c dev v)
  rw [apply_ite Prod.snd] at h
  exact h

/-! ### What a write's effect does beyond the register (R58) -/

/-- The effects a write can have on the record, each with the register that has it. -/
theorem writeEffect_cases {P : Chip → Prop} {c : Chip} {cfg : Config} {dev : DevAddr} {reg v : Byte} (hnone : P c)
    (hload : reg = 0x09 → P (c.load cfg.fifoCapacity dev v)) (hflags : reg = 0x04 → ∀ m, P { c with pending := m })
    (hdrop : reg = 0x0A → P { c with fifo := c.dropStaged dev }) (hcommand : reg = 0x01 → P (c.startCommand dev v))
    (hsend : reg = 0x0D → P (c.send dev v)) : P (c.writeEffect cfg dev reg v) := by
  unfold writeEffect
  split
  · next h => exact hload h
  split
  · next h => split <;> exact hflags h _
  split
  · next h =>
    split
    · exact hdrop h
    · exact hnone
  split
  · next h => exact hcommand h
  split
  · next h =>
    split
    · exact hsend h
    · exact hnone
  · exact hnone

/-- The record draws its free values in order. -/
theorem writeEffect_drawn_le (c : Chip) (cfg : Config) (dev : DevAddr) (reg v : Byte) :
    c.drawn ≤ (c.writeEffect cfg dev reg v).drawn := by
  refine writeEffect_cases (P := fun c' => c.drawn ≤ c'.drawn) (Nat.le_refl _) (fun _ => ?_) (fun _ _ => Nat.le_refl _)
    (fun _ => Nat.le_refl _) (fun _ => ?_) fun _ => Nat.le_succ _
  · unfold load
    split
    · exact Nat.le_refl _
    · exact Nat.le_succ _
  · rw [startCommand_drawn]
    split
    · exact Nat.le_succ _
    · exact Nat.le_refl _

/-- Only a command and a transmission are begun. -/
theorem writeEffect_runs {c : Chip} {cfg : Config} {dev : DevAddr} {reg v : Byte} (h : reg ∉ [0x01, 0x0D]) :
    (c.writeEffect cfg dev reg v).runs = c.runs :=
  writeEffect_cases (P := fun c' => c'.runs = c.runs) rfl (fun _ => load_runs ..) (fun _ _ => rfl) (fun _ => rfl)
    (fun hr => absurd hr (by rintro rfl; simp at h)) fun hr => absurd hr (by rintro rfl; simp at h)

/-- Only a write of 0x01, 0x09, 0x0A and 0x0D has an effect on the FIFO. -/
theorem writeEffect_fifo {c : Chip} {cfg : Config} {dev : DevAddr} {reg v : Byte} (h : reg ∉ [0x01, 0x09, 0x0A, 0x0D]) :
    (c.writeEffect cfg dev reg v).fifo = c.fifo := by
  refine writeEffect_cases (P := fun c' => c'.fifo = c.fifo) rfl (fun hr => ?_) (fun _ _ => rfl) (fun hr => ?_)
    (fun hr => ?_) fun hr => ?_ <;> simp [hr] at h

/-! ### A write, to a device that may be resetting and to one that is not (R58, R203) -/

theorem written_eq (c : Chip) (cfg : Config) (dev : DevAddr) (reg v own : Byte) :
    c.written cfg dev reg v own = if (c.written cfg dev reg v own).mayReset dev then
      (c.writeEffect cfg dev reg v).unsettle dev reg else (c.writeEffect cfg dev reg v).settle dev reg v own := by
  rw [mayReset, written_resetting]
  rfl

/-- A write that does not reset the device leaves it so. -/
theorem mayReset_written_live {c : Chip} {cfg : Config} {dev : DevAddr} {reg v own : Byte} (hm : c.mayReset dev = false)
    (h : reg ≠ 0x01 ∨ v ∈ [0x00, 0x03, 0x0C]) : (c.written cfg dev reg v own).mayReset dev = false := by
  rw [mayReset_written, hm]
  obtain h | h := h
  · rw [decide_eq_false fun h' => h h'.2]
    rfl
  · rw [resets_eq_false_iff.2 h, Bool.and_false]
    rfl

/-- To a device that is not resetting a write has its effect, and settles its register. -/
theorem written_live {c : Chip} {cfg : Config} {dev : DevAddr} {reg v own : Byte} (hm : c.mayReset dev = false)
    (h : reg ≠ 0x01 ∨ v ∈ [0x00, 0x03, 0x0C]) :
    c.written cfg dev reg v own = (c.writeEffect cfg dev reg v).settle dev reg v own := by
  rw [written_eq, if_neg (by simp [mayReset_written_live hm h])]

@[simp] theorem written_runs (c : Chip) (cfg : Config) (dev : DevAddr) (reg v own : Byte) :
    (c.written cfg dev reg v own).runs = (c.writeEffect cfg dev reg v).runs := by
  rw [written_eq]
  split <;> rfl

/-- Of a device that may be resetting after a write of it nothing is known: the register and the flags have no value, the
FIFO a free one. -/
theorem written_unknown_of_mayReset {c : Chip} {cfg : Config} {dev : DevAddr} {reg v own : Byte}
    (h : (c.written cfg dev reg v own).mayReset dev = true) :
    (c.written cfg dev reg v own).held dev reg = none ∧ (c.written cfg dev reg v own).pendingFlags dev = none ∧
      ∃ k, c.drawn ≤ k ∧ k < (c.written cfg dev reg v own).drawn ∧
        (c.written cfg dev reg v own).staged dev = Config.freeStaged k := by
  refine ⟨by rw [held, read_written, if_pos rfl, if_pos h], ?_⟩
  rw [written_eq, if_pos h]
  exact ⟨pendingFlags_forgetFlags _ dev, _, writeEffect_drawn_le c cfg dev reg v, Nat.lt_succ_self _, by simp⟩

/-- A SoftReset, or a byte outside R83, leaves the device resetting and its registers without a value. -/
theorem written_softReset (c : Chip) (cfg : Config) (dev : DevAddr) {v : Byte} (own : Byte)
    (h : v ∉ [0x00, 0x03, 0x0C]) : (c.written cfg dev 0x01 v own).mayReset dev = true ∧
      ∀ r, (c.written cfg dev 0x01 v own).held dev r = none := by
  have hv : resets v = true := (resets_iff v).2 h
  have hm : (c.written cfg dev 0x01 v own).mayReset dev = true := by simp [mayReset_written, hv]
  refine ⟨hm, fun r => ?_⟩
  simp only [held, read_written, hm, hv, Memory.key_div, and_self, if_true, ite_self]

/-- After a command the flags have no value. -/
theorem pendingFlags_written_command (c : Chip) (cfg : Config) (dev : DevAddr) (v own : Byte) :
    (c.written cfg dev 0x01 v own).pendingFlags dev = none := by
  rw [written_eq]
  split
  · exact pendingFlags_forgetFlags _ dev
  · simp only [pendingFlags, settle_pending, writeEffect_pending]
    simp [Memory.read_keep, Memory.unlisted]

/-! ### What the register written holds (R30, R200) -/

theorem keepsWrites_iff {reg : Byte} :
    keepsWrites reg = true ↔ reg ∈ [0x01, 0x0D, 0x11, 0x14, 0x15, 0x2A, 0x2B, 0x2C, 0x2D] := List.contains_iff_mem

/-- A register that holds what is written to it holds the block's bits as they are written, and in the others, when the
write is not whole, the n-th free value. -/
theorem settled_bits {reg v own : Byte} {n : Nat} (h : keepsWrites reg = true) :
    ∃ b, settled reg v own n = some b ∧ b &&& own = v &&& own ∧ (reg = 0x01 ∨ own = 0xFF → b = v) ∧
      (reg ≠ 0x01 → own ≠ 0xFF → b &&& ~~~own = Config.freeWrittenBack n &&& ~~~own) := by
  obtain ⟨b, hb, hown⟩ := settled_own (v := v) (own := own) (n := n) h
  refine ⟨b, hb, hown, fun hw => ?_, fun hr ho => ?_⟩ <;>
    rw [settled, if_neg (by simp [h]), Reg.command] at hb
  · rw [if_pos hw.symm] at hb
    exact (Option.some.inj hb).symm
  · rw [if_neg (not_or.2 ⟨ho, hr⟩)] at hb
    obtain rfl := Option.some.inj hb
    refine BitVec.eq_of_getElem_eq fun i hi => ?_
    cases hi' : own[i] <;> simp [hi']

/-- After a write to a device that is not resetting the register holds its byte, if it is one that does. -/
theorem held_written_some {c : Chip} {cfg : Config} {dev : DevAddr} {r v own : Byte} (hm : c.mayReset dev = false)
    (h : r ≠ 0x01 ∨ v ∈ [0x00, 0x03, 0x0C]) (hr : r ∈ [0x01, 0x0D, 0x11, 0x14, 0x15, 0x2A, 0x2B, 0x2C, 0x2D]) :
    ∃ b : Byte, (c.written cfg dev r v own).held dev r = some b ∧ b &&& own = v &&& own ∧
      (r = 0x01 ∨ own = 0xFF → b = v) ∧ (r ≠ 0x01 → own ≠ 0xFF → ∃ k, c.drawn ≤ k ∧
        k < (c.written cfg dev r v own).drawn ∧ b &&& ~~~own = Config.freeWrittenBack k &&& ~~~own) := by
  rw [held_written_same (mayReset_written_live hm h), written_live hm h]
  obtain ⟨b, hb, hown, hwhole, hback⟩ := settled_bits (keepsWrites_iff.2 hr)
  refine ⟨b, hb, hown, hwhole, fun hr' ho => ⟨_, writeEffect_drawn_le c cfg dev r v, ?_, hback hr' ho⟩⟩
  rw [settle_drawn, if_neg ho]
  exact Nat.lt_succ_self _

/-- The other registers have no value after a write. -/
theorem held_written_none {c : Chip} {cfg : Config} {dev : DevAddr} {r v own : Byte} (hm : c.mayReset dev = false)
    (h : r ≠ 0x01 ∨ v ∈ [0x00, 0x03, 0x0C]) (hr : r ∉ [0x01, 0x0D, 0x11, 0x14, 0x15, 0x2A, 0x2B, 0x2C, 0x2D]) :
    (c.written cfg dev r v own).held dev r = none := by
  rw [held_written_same (mayReset_written_live hm h), settled_none]
  rwa [← Bool.not_eq_true, keepsWrites_iff]

/-- A write to a device that is not resetting leaves its other registers alone. -/
theorem held_written_kept {c : Chip} {cfg : Config} {dev : DevAddr} {r r' v own : Byte}
    (h : r ≠ 0x01 ∨ v ∈ [0x00, 0x03, 0x0C]) (hne : r' ≠ r) :
    (c.written cfg dev r v own).held dev r' = c.held dev r' := by
  refine held_written_other (fun h' => hne h'.2) fun h1 hv => ?_
  rw [resets_eq_false_iff.2 (h.resolve_left (not_not.2 h1))] at hv
  cases hv

/-! ### Each register's effect on a device that is not resetting (R58, R62) -/

section
variable {c : Chip} {cfg : Config} {dev : DevAddr} {v own : Byte}

theorem written_load_room (hm : c.mayReset dev = false) (h : (c.staged dev).length < cfg.fifoCapacity) :
    (c.written cfg dev 0x09 v own).staged dev = c.staged dev ++ [v] := by
  rw [written_live hm (.inl (by decide))]
  exact load_staged_room h

theorem written_load_full (hm : c.mayReset dev = false) (h : cfg.fifoCapacity ≤ (c.staged dev).length) :
    (c.written cfg dev 0x09 v own).staged dev = Config.freeStaged c.drawn ∧
      (c.written cfg dev 0x09 v own).drawn = c.drawn + if own = 0xFF then 1 else 2 := by
  have he : c.writeEffect cfg dev 0x09 v = c.freeFifo dev := load_full h
  rw [written_live hm (.inl (by decide)), he]
  exact ⟨by simp, by rw [settle_drawn]; split <;> rfl⟩

theorem written_flush (hm : c.mayReset dev = false) :
    (c.written cfg dev 0x0A v own).staged dev = if v &&& 0x80 = 0 then c.staged dev else [] := by
  have he : c.writeEffect cfg dev 0x0A v =
      if v &&& 0x80 != 0 then { c with fifo := c.dropStaged dev } else c := rfl
  rw [written_live hm (.inl (by decide)), settle_staged, he]
  by_cases h : v &&& 0x80 = 0
  · rw [if_neg (by simpa using h), if_pos h]
  · rw [if_pos (by simpa using h), if_neg h]
    exact staged_of_drop rfl

theorem written_command_keepsFifo (hm : c.mayReset dev = false) (h : v ∈ [0x00, 0x0C]) :
    (c.written cfg dev 0x01 v own).staged dev = c.staged dev := by
  have hv : v ∈ [0x00, 0x03, 0x0C] ∧ v ≠ 0x03 := by
    simp only [List.mem_cons, List.not_mem_nil, or_false] at h
    obtain rfl | rfl := h <;> decide
  rw [written_live hm (.inr hv.1)]
  exact (startCommand_staged ..).trans (if_neg hv.2)

theorem written_calcCrc (hm : c.mayReset dev = false) (hv : v = 0x03) :
    (c.written cfg dev 0x01 v own).staged dev = Config.freeStaged c.drawn ∧
      (c.written cfg dev 0x01 v own).drawn = c.drawn + if own = 0xFF then 1 else 2 := by
  subst hv
  have he : c.writeEffect cfg dev 0x01 0x03 = c.startCommand dev 0x03 := rfl
  rw [written_live hm (.inr (by decide)), he]
  exact ⟨by simp, by rw [settle_drawn]; split <;> rfl⟩

theorem written_clearFlags (hm : c.mayReset dev = false) :
    (c.written cfg dev 0x04 v own).pendingFlags dev = if v = cfg.comIrqClearVal then some 0x00 else none := by
  have he : c.writeEffect cfg dev 0x04 v = if v = cfg.comIrqClearVal then
      { c with pending := Memory.write c.pending dev.toNat 0x00 } else c.forgetFlags dev := rfl
  rw [written_live hm (.inl (by decide)), settle_pendingFlags, he]
  split
  · exact Memory.read_write_same ..
  · exact pendingFlags_forgetFlags c dev

theorem written_staged_kept {r : Byte} (hm : c.mayReset dev = false) (h : r ∉ [0x01, 0x09, 0x0A, 0x0D]) :
    (c.written cfg dev r v own).staged dev = c.staged dev := by
  have h1 : r ≠ 0x01 := by rintro rfl; simp at h
  rw [written_live hm (.inl h1), settle_staged, staged, writeEffect_fifo h, staged]

theorem written_pendingFlags_kept {r : Byte} (hm : c.mayReset dev = false) (h : r ∉ [0x01, 0x04, 0x0D]) :
    (c.written cfg dev r v own).pendingFlags dev = c.pendingFlags dev := by
  simp only [List.mem_cons, List.not_mem_nil, or_false, not_or] at h
  obtain ⟨h1, h4, hd⟩ := h
  rw [written_live hm (.inl h1), settle_pendingFlags, pendingFlags, writeEffect_pending, if_neg fun h => h4 h.1,
    if_neg (by rintro (h | h | ⟨h, -⟩) <;> contradiction), pendingFlags]

theorem starts_iff : c.starts dev v = true ↔ v &&& 0x80 ≠ 0 ∧ c.held dev 0x01 = some 0x0C := by
  unfold starts
  rw [Bool.and_eq_true, bne_iff_ne, beq_iff_eq]
  rfl

theorem written_send (hm : c.mayReset dev = false) (hv : v &&& 0x80 ≠ 0) (hc : c.held dev 0x01 = some 0x0C) :
    (∃ bits, (c.written cfg dev 0x0D v own).runs = c.runs ++ [.sent dev (c.staged dev) bits] ∧
      ((c.held dev 0x0D).map (·.setWidth 3) = some (v.setWidth 3) → bits = v.setWidth 3) ∧
      ((c.held dev 0x0D).map (·.setWidth 3) ≠ some (v.setWidth 3) → bits = Config.freeValidBits c.drawn)) ∧
    (c.written cfg dev 0x0D v own).staged dev = [] ∧ (c.written cfg dev 0x0D v own).pendingFlags dev = none ∧
    (c.written cfg dev 0x0D v own).drawn = c.drawn + if own = 0xFF then 1 else 2 := by
  have he : c.writeEffect cfg dev 0x0D v = c.send dev v := if_pos (starts_iff.2 ⟨hv, hc⟩)
  rw [written_live hm (.inl (by decide)), he]
  exact ⟨⟨c.sentBits dev v, rfl, fun h => if_pos h, fun h => if_neg h⟩, by simp, pendingFlags_forgetFlags _ dev,
    by rw [settle_drawn]; split <;> rfl⟩

theorem written_framing (hm : c.mayReset dev = false) (h : v &&& 0x80 = 0 ∨ c.held dev 0x01 ≠ some 0x0C) :
    (c.written cfg dev 0x0D v own).runs = c.runs ∧ (c.written cfg dev 0x0D v own).staged dev = c.staged dev ∧
      (c.written cfg dev 0x0D v own).pendingFlags dev = c.pendingFlags dev := by
  have hs : ¬ c.starts dev v = true := by rw [starts_iff]; tauto
  have he : c.writeEffect cfg dev 0x0D v = c := if_neg hs
  rw [written_live hm (.inl (by decide)), he]
  exact ⟨rfl, rfl, rfl⟩

end

/-! ### A read (R35, R58, R60) -/

theorem readFrom_fifo {c : Chip} {cfg : Config} {dev : DevAddr} {r v : Byte} (h : r ≠ 0x09) :
    (c.readFrom cfg dev r v).fifo = c.fifo := by
  unfold readFrom
  rw [if_neg (show ¬ r = Reg.fifoData from h)]
  (repeat' split) <;> rfl

theorem readFrom_runs (c : Chip) (cfg : Config) (dev : DevAddr) (r v : Byte) :
    (c.readFrom cfg dev r v).runs = c.runs := by
  unfold readFrom
  (repeat' split) <;> rfl

theorem mayReset_readFrom_command (c : Chip) (cfg : Config) (dev : DevAddr) (v : Byte) :
    (c.readFrom cfg dev 0x01 v).mayReset dev = if v &&& cfg.softResetBusyMask = 0 then false else c.mayReset dev := by
  rw [mayReset, readFrom_resetting]
  by_cases h : v &&& cfg.softResetBusyMask = 0
  · rw [if_pos ⟨rfl, h⟩, if_pos h, Memory.read_keep, if_neg (by simp)]
    rfl
  · rw [if_neg fun h' => h h'.2, if_neg h, mayReset]

theorem held_readFrom (c : Chip) (cfg : Config) (dev d : DevAddr) (r r' v : Byte) :
    (c.readFrom cfg dev r v).held d r' =
      if d = dev ∧ r' = r ∧ r ∈ [0x04, 0x05, 0x06] then none else c.held d r' := by
  rw [held, read_readFrom, held]
  simp only [Memory.key_inj, and_assoc]

end Sys2Proof.Machine.Chip

namespace Sys2Proof.Machine

/-- Settles O20: a write is its effect, settled or not as the device may be resetting, and each clause is one lemma about
one of the two, or about a read. -/
theorem chipRecordFollowsTheTransactions : Obligations.ChipRecordFollowsTheTransactions := by
  intro c cfg dev v own
  refine ⟨fun hm => ⟨fun r hr => ?register, fun r => ⟨Chip.written_staged_kept hm, Chip.written_pendingFlags_kept hm⟩,
      Chip.written_load_room hm, Chip.written_load_full hm, Chip.written_flush hm, Chip.written_command_keepsFifo hm,
      Chip.written_calcCrc hm, Chip.written_clearFlags hm, Chip.written_send hm, Chip.written_framing hm⟩,
    Chip.written_softReset c cfg dev own, fun r => ?anyDevice, ?started, Chip.pendingFlags_written_command c cfg dev v own,
    Chip.staged_of_dropOldest rfl, Chip.pendingFlags_forgetFlags c dev, Chip.mayReset_readFrom_command c cfg dev v,
    fun r => ?read⟩
  case register =>
    exact ⟨Chip.mayReset_written_live hm hr, Chip.held_written_some hm hr, Chip.held_written_none hm hr,
      fun r' => Chip.held_written_kept hr⟩
  case anyDevice =>
    refine ⟨fun hm => by simp [Chip.mayReset_written, hm], Chip.written_unknown_of_mayReset, fun hr => ?_, fun d hd => ?_⟩
    · rw [Chip.written_runs, Chip.writeEffect_runs hr]
    · exact ⟨staged_written c cfg dev d r v own hd, Chip.pendingFlags_written_other hd,
        by simp [Chip.mayReset_written, hd], fun r' => Chip.held_written_other (fun h => hd h.1) fun _ _ => hd⟩
  case started =>
    rw [Chip.written_runs]
    exact Chip.startCommand_runs ..
  case read =>
    refine ⟨fun hr => ?_, fun d r' h => ?_, Chip.readFrom_fifo, fun h => ?_, fun h => ?_, Chip.readFrom_runs c cfg dev r v,
      fun d hd => ?_⟩
    · rw [Chip.held_readFrom, if_pos ⟨rfl, rfl, hr⟩]
    · rw [Chip.held_readFrom, if_neg h]
    · rw [Chip.readFrom_pending, if_neg h]
    · rw [Chip.readFrom_resetting, if_neg fun h' => h h'.1]
    · exact ⟨staged_readFrom c cfg dev d r v hd, Chip.pendingFlags_readFrom_other hd, Chip.mayReset_readFrom_other hd⟩

end Sys2Proof.Machine

/-! Proofs of the statements about the encodings, the words issued alone and the results of operations
(30_encoding.md R80 to R94). -/

namespace Sys2Proof

/-! ### Numbers in base 256 (R93) -/

theorem natOfBytes_concat (bs : List Byte) (b : Byte) : natOfBytes (bs ++ [b]) = natOfBytes bs * 256 + b.toNat := by
  simp [natOfBytes]

/-- The digits of a number write that number, when there is fuel for all of them. -/
theorem natOfBytes_bytesOfNatFuel {fuel n : Nat} (h : n ≤ fuel) : natOfBytes (bytesOfNatFuel fuel n) = n := by
  induction fuel generalizing n with
  | zero =>
    obtain rfl := Nat.le_zero.1 h
    rfl
  | succ fuel ih =>
    rw [bytesOfNatFuel]
    split
    · next hlt => simpa [natOfBytes] using hlt
    · rw [natOfBytes_concat, ih (by omega), BitVec.toNat_ofNat]
      omega

theorem natOfBytes_bytesOfNat (n : Nat) : natOfBytes (bytesOfNat n) = n :=
  natOfBytes_bytesOfNatFuel (Nat.le_refl n)

theorem bytesOfNat_ne_nil (n : Nat) : bytesOfNat n ≠ [] := by
  unfold bytesOfNat
  generalize hfuel : n = fuel
  cases fuel with
  | zero => simp [bytesOfNatFuel]
  | succ fuel =>
    rw [bytesOfNatFuel]
    split <;> simp

/-! ### The words of an instruction (R80 to R87, R92) -/

/-- The words that stand for an instruction: its encoding alone, or for an address operand any byte string that writes
the number. -/
def Instr.HasWord (i : Instr) (w : Request) : Prop :=
  match i with
  | .initializeChip n => ∃ bs, bs ≠ [] ∧ w = ⟨.host, 0x33 :: bs⟩ ∧ natOfBytes bs = n
  | .setAddress n => ∃ bs, bs ≠ [] ∧ w = ⟨.host, 0x83 :: bs⟩ ∧ natOfBytes bs = n
  | i => encode i = w

theorem Instr.hasWord_encode (i : Instr) : i.HasWord (encode i) := by
  cases i
  case initializeChip n => exact ⟨bytesOfNat n, bytesOfNat_ne_nil n, rfl, natOfBytes_bytesOfNat n⟩
  case setAddress n => exact ⟨bytesOfNat n, bytesOfNat_ne_nil n, rfl, natOfBytes_bytesOfNat n⟩
  all_goals rfl

/-- The encoding is the one word of an instruction without an address operand. -/
theorem Instr.HasWord.encode_eq {i : Instr} {w : Request} (h : i.HasWord w) :
    encode i = w ∨ (∃ n, i = .initializeChip n) ∨ ∃ n, i = .setAddress n := by
  cases i
  case initializeChip n => exact .inr (.inl ⟨n, rfl⟩)
  case setAddress n => exact .inr (.inr ⟨n, rfl⟩)
  all_goals exact .inl h

/-! ### The operands a decoder accepts (R92, R93) -/

section operands
variable {i : Instr} {bs : List Byte}

theorem decodeNone_eq_ok {op : Instr} (h : decodeNone op bs = .ok i) : bs = [] ∧ op = i := by
  cases bs with
  | nil => exact ⟨rfl, Except.ok.inj h⟩
  | cons b bs => cases h

theorem decodeByte_eq_ok {op : Byte → Instr} (h : decodeByte op bs = .ok i) : ∃ a, bs = [a] ∧ op a = i := by
  unfold decodeByte at h
  split at h <;> cases h
  exact ⟨_, rfl, rfl⟩

theorem decodeTwoBytes_eq_ok {op : Byte → Byte → Instr} (h : decodeTwoBytes op bs = .ok i) :
    ∃ a b, bs = [a, b] ∧ op a b = i := by
  unfold decodeTwoBytes at h
  split at h <;> cases h
  exact ⟨_, _, rfl, rfl⟩

theorem decodeAddress_of_ne_nil (op : Nat → Instr) (h : bs ≠ []) : decodeAddress op bs = .ok (op (natOfBytes bs)) := by
  cases bs with
  | nil => exact absurd rfl h
  | cons b bs => rfl

theorem decodeAddress_eq_ok {op : Nat → Instr} (h : decodeAddress op bs = .ok i) :
    bs ≠ [] ∧ op (natOfBytes bs) = i := by
  cases bs with
  | nil => cases h
  | cons b bs => exact ⟨by simp, Except.ok.inj h⟩

theorem decodeTransceive_eq_ok (h : decodeTransceive bs = .ok i) :
    ∃ vb frame, bs = vb :: frame ∧ vb.toNat ≤ 7 ∧ .transceive frame vb = i := by
  cases bs with
  | nil => cases h
  | cons vb frame =>
    rw [decodeTransceive] at h
    split at h <;> cases h
    exact ⟨vb, frame, rfl, ‹_›, rfl⟩

theorem decodeSelect_eq_ok (h : decodeSelect bs = .ok i) : ∃ u : Uidb, bs = u.toList ∧ .select u = i := by
  unfold decodeSelect at h
  split at h <;> cases h
  exact ⟨_, rfl, rfl⟩

end operands

/-! ### What each format's decoder accepts -/

theorem eq_ofNat_of_toNat {b : Byte} {n : Nat} (h : b.toNat = n) : b = BitVec.ofNat 8 n := by
  rw [← h, BitVec.ofNat_toNat, BitVec.setWidth_eq]

/-- The OP format: the code is one of R92's, which names the operation and its operands. -/
theorem hasWord_of_decodeOp {op : Byte} {operands : List Byte} {i : Instr} (h : decodeOp op operands = .ok i) :
    i.wf = true ∧ i.HasWord ⟨.host, op :: operands⟩ := by
  unfold decodeOp at h
  split at h
  case h_20 => cases h
  all_goals
    rename_i hop
    rw [eq_ofNat_of_toNat hop]
  -- writeRegister, readRegister, setBits, clearBits
  case h_1 => obtain ⟨a, v, rfl, rfl⟩ := decodeTwoBytes_eq_ok h; exact ⟨rfl, rfl⟩
  case h_2 => obtain ⟨a, rfl, rfl⟩ := decodeByte_eq_ok h; exact ⟨rfl, rfl⟩
  case h_3 => obtain ⟨a, m, rfl, rfl⟩ := decodeTwoBytes_eq_ok h; exact ⟨rfl, rfl⟩
  case h_4 => obtain ⟨a, m, rfl, rfl⟩ := decodeTwoBytes_eq_ok h; exact ⟨rfl, rfl⟩
  -- initializeChip, computeCrc, transceive
  case h_8 => obtain ⟨hne, rfl⟩ := decodeAddress_eq_ok h; exact ⟨rfl, _, hne, rfl, rfl⟩
  case h_9 => cases h; exact ⟨rfl, rfl⟩
  case h_10 => obtain ⟨vb, frame, rfl, hvb, rfl⟩ := decodeTransceive_eq_ok h; exact ⟨decide_eq_true hvb, rfl⟩
  -- select, toHex, setAddress
  case h_13 => obtain ⟨u, rfl, rfl⟩ := decodeSelect_eq_ok h; exact ⟨rfl, rfl⟩
  case h_15 => cases h; exact ⟨rfl, rfl⟩
  case h_19 => obtain ⟨hne, rfl⟩ := decodeAddress_eq_ok h; exact ⟨rfl, _, hne, rfl, rfl⟩
  -- the operations without operands
  all_goals obtain ⟨rfl, rfl⟩ := decodeNone_eq_ok h; exact ⟨rfl, rfl⟩

theorem hasWord_of_decodeCommand {bytes : List Byte} {i : Instr} (h : decodeCommand bytes = .ok i) :
    i.wf = true ∧ i.HasWord ⟨.command, bytes⟩ := by
  unfold decodeCommand at h
  split at h
  · next c =>
    split at h <;> cases h <;> rename_i hc <;> rw [eq_ofNat_of_toNat hc] <;> exact ⟨rfl, rfl⟩
  · cases h

theorem hasWord_of_decodeBusWrite {bytes : List Byte} {i : Instr} (h : decodeBusWrite bytes = .ok i) :
    i.wf = true ∧ i.HasWord ⟨.busWrite, bytes⟩ := by
  unfold decodeBusWrite at h
  split at h <;> cases h
  exact ⟨rfl, rfl⟩

theorem hasWord_of_decodeBusRead {bytes : List Byte} {i : Instr} (h : decodeBusRead bytes = .ok i) :
    i.wf = true ∧ i.HasWord ⟨.busRead, bytes⟩ := by
  unfold decodeBusRead at h
  split at h <;> cases h
  exact ⟨rfl, rfl⟩

theorem hasWord_of_decodeCascadeFrame {bytes : List Byte} {i : Instr} (h : decodeCascadeFrame bytes = .ok i) :
    i.wf = true ∧ i.HasWord ⟨.picc, 0x93 :: bytes⟩ := by
  unfold decodeCascadeFrame at h
  split at h
  · next nvb =>
    split at h <;> cases h
    next hnvb => rw [eq_ofNat_of_toNat hnvb]; exact ⟨rfl, rfl⟩
  · next nvb _ _ _ _ _ _ _ =>
    split at h <;> cases h
    next hnvb => rw [eq_ofNat_of_toNat hnvb]; exact ⟨rfl, rfl⟩
  · cases h

theorem hasWord_of_decodeCardFrame {bytes : List Byte} {i : Instr} (h : decodeCardFrame bytes = .ok i) :
    i.wf = true ∧ i.HasWord ⟨.picc, bytes⟩ := by
  cases bytes with
  | nil => cases h
  | cons b rest =>
    unfold decodeCardFrame at h
    dsimp only at h
    split at h
    · next hb => cases h; rw [eq_ofNat_of_toNat hb]; exact ⟨rfl, rfl⟩
    · next hb => cases h; rw [eq_ofNat_of_toNat hb]; exact ⟨rfl, rfl⟩
    · next hb => rw [eq_ofNat_of_toNat hb]; exact hasWord_of_decodeCascadeFrame h
    · cases h

/-- The decoder accepts exactly the words of the well-formed instructions. -/
theorem decode_eq_ok_iff {w : Request} {i : Instr} : decode w = .ok i ↔ i.wf = true ∧ i.HasWord w := by
  constructor
  · intro h
    obtain ⟨port, bytes⟩ := w
    cases port
    case host =>
      cases bytes with
      | nil => cases h
      | cons op operands => exact hasWord_of_decodeOp h
    case command => exact hasWord_of_decodeCommand h
    case busWrite => exact hasWord_of_decodeBusWrite h
    case busRead => exact hasWord_of_decodeBusRead h
    case picc => exact hasWord_of_decodeCardFrame h
  · rintro ⟨hwf, hw⟩
    cases i
    case initializeChip n =>
      obtain ⟨bs, hne, rfl, rfl⟩ := hw
      exact decodeAddress_of_ne_nil .initializeChip hne
    case setAddress n =>
      obtain ⟨bs, hne, rfl, rfl⟩ := hw
      exact decodeAddress_of_ne_nil .setAddress hne
    case transceive frame vb =>
      obtain rfl : encode (.transceive frame vb) = w := hw
      exact if_pos (of_decide_eq_true hwf)
    all_goals
      obtain rfl := show encode _ = w from hw
      rfl

/-- Settles O2: the encoding is a word of its instruction, and the decoder accepts every word of a well-formed one. -/
theorem decodeOfEncodeIsTheInstruction : Obligations.DecodeOfEncodeIsTheInstruction :=
  fun i hwf => decode_eq_ok_iff.2 ⟨hwf, i.hasWord_encode⟩

/-- Settles O3: what decodes to an instruction is one of its words. -/
theorem encodeOfDecodeIsTheWord : Obligations.EncodeOfDecodeIsTheWord := by
  intro w i h
  have hw := (decode_eq_ok_iff.1 h).2
  exact ⟨hw.encode_eq, fun n hi => by subst hi; exact hw, fun n hi => by subst hi; exact hw⟩

/-- Settles O4: the decoder accepts words of well-formed instructions only. -/
theorem decodedInstructionsAreWellFormed : Obligations.DecodedInstructionsAreWellFormed :=
  fun _ _ h => (decode_eq_ok_iff.1 h).1

/-- Settles O1: the words are literals, and the decoder computes. -/
theorem tableWordsDecodeToTheirRows : Obligations.TableWordsDecodeToTheirRows := by
  unfold Obligations.TableWordsDecodeToTheirRows
  decide

/-- An OP code outside R92's table is none of the decoder's. -/
theorem decodeOp_unknown {op : Byte} (operands : List Byte)
    (h : op ∉ [0x10, 0x11, 0x20, 0x21, 0x30, 0x31, 0x32, 0x33, 0x40, 0x50, 0x60, 0x61, 0x62, 0x63, 0x70, 0x80, 0x81, 0x82, 0x83]) :
    decodeOp op operands = .error .unknownOp := by
  unfold decodeOp
  split <;> rename_i hop
  case h_20 => rfl
  all_goals exact absurd (by rw [eq_ofNat_of_toNat hop]; decide) h

/-- Settles O5: with SEQ = IDLE the word is fetched, and it does not decode. -/
theorem opCodesOutsideTheTableAreRefused : Obligations.OpCodesOutsideTheTableAreRefused :=
  fun _ operands _ _ hop hs hr => Machine.step_undecodable hs hr (decodeOp_unknown operands hop)

/-- Settles O6: the decoder and the meaning test the count first. -/
theorem validBitsAboveSevenAreRefused : Obligations.ValidBitsAboveSevenAreRefused := by
  intro frame vb s h
  have hvb : ¬ vb.toNat ≤ 7 := Nat.not_le.2 h
  exact ⟨if_neg hvb, if_neg hvb⟩

end Sys2Proof

namespace Sys2Proof.Machine

/-! ### Words at the host port (R187) -/

theorem decode_tableRequest {nbits w : Nat} {i : Instr} (h : decodeTableWord nbits w = some i) :
    decode (tableRequest nbits w) = .ok i := by
  unfold decodeTableWord at h
  cases hd : decode (tableRequest nbits w) with
  | error e => rw [hd] at h; cases h
  | ok j => rw [hd] at h; rw [Option.some.inj h]

/-- The step that takes a table word makes the first step of its instruction on the state without the word. -/
theorem step_withFetchWord {nbits w : Nat} {i : Instr} (s : State) (h : decodeTableWord nbits w = some i) :
    step (s.withFetchWord nbits w) = onFirstAnswer (exec i) (s.setSeq none) :=
  step_decoded (s := s.withFetchWord nbits w) rfl rfl (decode_tableRequest h)

/-- Settles O8: the word is taken out of the port again, and its instruction makes its first step. -/
theorem placedWordRunsNext : Obligations.PlacedWordRunsNext := by
  intro s nbits w i h
  rw [step_withFetchWord s h]
  exact ⟨fun ha => onFirstAnswer_nil (s := s.setSeq none) ha,
    fun a as t ha ht => onFirstAnswer_cons (s := s.setSeq none) ha ht⟩

/-! ### Words that are one transaction (R80 to R83) -/

section transaction
variable {f : Active} {s : State} {a : Answer} {rest : List Answer}

/-- Starting an operation of one phase with no caller: its primitive, and its return or the BusFault. -/
theorem start_onePhase {p : Prim} {x : Result} (hs : s.seq = none) (ha : s.answers = a :: rest)
    (hp : ∀ t, primitive f t = p) (hret : ∀ t, after f ⟨a.byte, t.clock⟩ t = (t, .ret x)) :
    start f [] s = .next (ended (if p.faults a then .busFault else x) rest (perform p a s).state) := by
  have hready : ((s.setResult none).setSeq (some ⟨f, []⟩)).answers = a :: rest := ha
  rw [start_idle hs, advance, hready]
  dsimp only
  rw [run_cons (q := ⟨f, []⟩) rfl]
  cases hf : p.faults a with
  | false =>
    rw [primStep_ok (q := ⟨f, []⟩) rfl (by rw [hp]; exact hf), hp, hret, perform_setSeq, perform_setResult,
      follow_setSeq, follow, run_ended, ended_setResult]
    rfl
  | true =>
    rw [primStep_fault (q := ⟨f, []⟩) rfl (by rw [hp]; exact hf), hp, perform_setSeq, perform_setResult,
      raiseBusFault, endOperation_setSeq, run_idle rfl, ← ended_setResult _ _ _ none]
    rfl

/-- One transaction and its return leave the block's registers as they were. -/
theorem ended_transaction {ms : Nat} {e : Event} {c : Chip} {x : Result} (hs : s.seq = none) :
    ended x rest (((s.elapse ms).record e).setChip c) = afterBus [e] ms 1 c x rest s := by
  simp only [ended, endOperation, State.setResult, State.setSeq, State.setAnswers, State.setChip, State.record,
    State.elapse, afterBus, hs]

/-- An operation of one write: the transaction completes, or the BusFault ends it. -/
theorem start_write {reg v : Byte} (hs : s.seq = none) (ha : s.answers = a :: rest)
    (hp : ∀ t, primitive f t = .wr reg v) (hret : ∀ r t, after f r t = (t, .ret .done)) :
    (a.fails = false → start f [] s =
      .next (afterBus [.wr s.addr reg v] a.elapsed 1 (s.chip.written s.config s.addr reg v) .done rest s)) ∧
    (a.fails = true → start f [] s = .next (afterBus [.wrFailed s.addr reg v] a.elapsed 1 s.chip .busFault rest s)) := by
  rw [start_onePhase hs ha hp fun t => hret _ t]
  constructor <;> intro hf <;> rw [← ended_transaction hs] <;> simp only [Prim.faults, perform, hf] <;> rfl

/-- An operation of one read, whose byte is the result. -/
theorem start_read {reg : Byte} (hs : s.seq = none) (ha : s.answers = a :: rest)
    (hp : ∀ t, primitive f t = .rd reg) (hret : ∀ r t, after f r t = (t, .ret (.byte r.byte))) :
    (a.fails = false → start f [] s =
      .next (afterBus [.rd s.addr reg a.byte] a.elapsed 1 (s.chip.readFrom s.config s.addr reg a.byte) (.byte a.byte) rest s)) ∧
    (a.fails = true → start f [] s = .next (afterBus [.rdFailed s.addr reg] a.elapsed 1 s.chip .busFault rest s)) := by
  rw [start_onePhase (x := .byte a.byte) hs ha hp fun t => hret _ t]
  constructor <;> intro hf <;> rw [← ended_transaction hs] <;> simp only [Prim.faults, perform, hf] <;> rfl

end transaction

/-- Settles O17: each word is one write or one read of the block. -/
theorem busAndCommandWordsIssuedAlone : Obligations.BusAndCommandWordsIssuedAlone := by
  intro addr value s a rest hs ha
  have write := start_write (f := .busWrite addr value) hs ha (fun _ => rfl) (fun _ _ => rfl)
  have read := start_read (f := .busRead addr) hs ha (fun _ => rfl) (fun _ _ => rfl)
  have command := fun c : Command => start_write (f := .command c) hs ha (fun _ => rfl) (fun _ _ => rfl)
  exact ⟨fun hf => ⟨write.1 hf, read.1 hf, (command .idle).1 hf, (command .calcCrc).1 hf, (command .transceive).1 hf,
      (command .softReset).1 hf⟩,
    fun hf => ⟨write.2 hf, read.2 hf, (command .idle).2 hf, (command .calcCrc).2 hf, (command .transceive).2 hf,
      (command .softReset).2 hf⟩⟩

/-! ### Card frames (R84 to R87, R140) -/

/-- A card frame issued alone, when the answers are those of an exchange of it: the exchange runs, and its result is
handed back. -/
theorem start_cardFrame {s : State} {frame : List Byte} {vb : ValidBits} {x : XcvRun} {rest : List Answer}
    (c : CardFrame) (hs : readyFor (x.script s.config frame vb) rest s)
    (hf : noFault (x.script s.config frame vb) = true) (hok : x.ok s.config frame = true) :
    start (.transceive .x0) [.cardFrame c] (s.setTxf frame vb) =
      .next (ended (.exchange x.result) rest (x.after s.config frame vb s)) := by
  have hrun := run_transceive (ws := [.cardFrame c]) (rest := rest) frame vb x (s.setResult none) hok hf
  rw [State.setResult_config, XcvRun.after_setResult] at hrun
  exact start_ended (s := s.setTxf frame vb) hs (by simp [XcvRun.script, XcvRun.headScript]) hrun

/-- Settles O30: each frame is one exchange, with the frame and the count of its row. -/
theorem cardFramesIssuedAlone : Obligations.CardFramesIssuedAlone :=
  fun _ _ _ _ _ _ => ⟨start_cardFrame .reqa, start_cardFrame .wupa, start_cardFrame .anticollCl1,
    start_cardFrame .selectCl1⟩

/-! ### What an operation hands back (R92, R155, R160, R162, R23) -/

/-- The results an operation may return, in the state it returns in: an exchange's is RES. -/
def OpName.Returns (op : OpName) (r : Result) (s : State) : Prop :=
  match op with
  | .readRegister | .busRead | .version => ∃ b, r = .byte b
  | .computeCrc => ∃ hi lo, r = .crc hi lo
  | .transceive | .cardFrame => r = .exchange s.res ∧ resOk s.res = true
  | .reqa | .select | .isCardPresent => ∃ b, r = .flag b
  | .anticollision => ∃ u, r = .uidb u
  | .readUid => ∃ u, r = .uid u
  | .readUidHex => ∃ t, r = .text t ∧ (t.length = 0 ∨ t.length = 8)
  | _ => r = .done

/-- The outermost operation, when every caller waits for the operation above it. -/
def outermost : OpName → List Waiting → Option OpName
  | op, [] => some op
  | op, w :: ws => if w.awaits = op then outermost w.op ws else none

/-- The calls `cs` from `op'` up to `op`, on top of `op`'s own callers, leave the outermost operation as it is. -/
theorem outermost_append {op op' : OpName} {cs : List Waiting} (h : outermost op' cs = some op) (ws : List Waiting) :
    outermost op' (cs ++ ws) = outermost op ws := by
  induction cs generalizing op' with
  | nil => rw [List.nil_append, Option.some.inj h]
  | cons w cs ih =>
    rw [outermost] at h
    split at h
    · next hw => rw [List.cons_append, outermost, if_pos hw, ih h]
    · cases h

/-- The bytes a drain takes are at most 127 (R23, R91). -/
def Active.countOk : Active → Prop
  | .transceive (.x14 _ n) => n ≤ 127
  | .transceive (.x15 n) => n ≤ 127
  | .transceive (.success n _) => n ≤ 127
  | _ => True

/-- A move keeps the promise of the operation `op`: it goes on inside `op`, or returns one of `op`'s results. -/
def Keeps (op : OpName) (m : State × Move) : Prop :=
  match m with
  | (_, .enter g cs) => outermost g.op cs = some op ∧ g.countOk
  | (s, .ret r) => op.Returns r s

/-- The operation in progress is one of `root`'s, or `root` has ended with one of its results or a BusFault. -/
def Promises (root : OpName) (s : State) : Prop :=
  match s.seq with
  | some q => outermost q.top.op q.callers = some root ∧ q.top.countOk
  | none => ∃ r, s.result = some r ∧ (r = .busFault ∨ root.Returns r s)

theorem resOk_success {n : Nat} (bytes : List Byte) (vb : ValidBits) (h : n ≤ 127) :
    resOk ⟨true, bytes.take n, vb⟩ = true := by
  simp only [resOk, Bool.true_or, Bool.true_and, decide_eq_true_eq, List.length_take]
  omega

theorem countOk_xcvDrain {n : Nat} (i : Nat) (h : n ≤ 127) : (Active.transceive (xcvDrain i n)).countOk := by
  unfold xcvDrain
  split <;> exact h

/-- Every phase goes on inside its operation, or returns one of its results. -/
theorem after_keeps {f : Active} (x : Reply) (s : State) (h : f.countOk) : Keeps f.op (after f x s) := by
  cases f
  case readRegister => exact ⟨_, rfl⟩
  case busRead => exact ⟨_, rfl⟩
  case version => exact ⟨_, rfl⟩
  case setBits p => cases p; exacts [⟨rfl, trivial⟩, rfl]
  case clearBits p => cases p; exacts [⟨rfl, trivial⟩, rfl]
  case poll q p =>
    cases p
    case verdict => rfl
    all_goals exact ⟨rfl, trivial⟩
  case softReset p => cases p <;> exact ⟨rfl, trivial⟩
  case antennaOn =>
    simp only [after, antennaOnAfter]
    split
    exacts [rfl, ⟨rfl, trivial⟩]
  case initAddress => exact ⟨rfl, trivial⟩
  case setup p => cases p <;> exact ⟨rfl, trivial⟩
  case computeCrc bytes p =>
    cases p
    case c6 => exact ⟨_, _, rfl⟩
    all_goals exact ⟨rfl, trivial⟩
  case transceive p =>
    cases p
    case x3 => exact ⟨rfl, by unfold xcvLoad; split <;> trivial⟩
    case x4 => exact ⟨rfl, by unfold xcvLoad; split <;> trivial⟩
    case x12 => exact ⟨rfl, by split <;> trivial⟩
    case x13 => exact ⟨rfl, countOk_xcvDrain 0 (fifoCount_le _)⟩
    case x14 i n => exact ⟨rfl, countOk_xcvDrain (i + 1) h⟩
    case x15 => exact ⟨rfl, h⟩
    case failure => exact ⟨rfl, rfl⟩
    case success n vb => exact ⟨rfl, resOk_success _ vb h⟩
    all_goals exact ⟨rfl, trivial⟩
  case reqaFraming => exact ⟨rfl, trivial⟩
  case reqaRestore => exact ⟨_, rfl⟩
  case anticollision => exact ⟨rfl, trivial⟩
  case storeUidb => exact ⟨_, rfl⟩
  case storeSak => exact ⟨_, rfl⟩
  all_goals rfl

/-- A caller that gets one of the results of the operation it waits for goes on inside its own, or returns one of its
results. -/
theorem returned_keeps {w : Waiting} {r : Result} {s : State} (h : w.awaits.Returns r s) : Keeps w.op (returned w r s) := by
  cases w
  case flushFifo => rfl
  case softReset => rfl
  case antennaOn => rfl
  case transceive =>
    simp only [returned, xcvPollReturned]
    split <;> exact ⟨rfl, trivial⟩
  case anticollision =>
    simp only [returned, anticollReturned]
    split
    exacts [⟨rfl, trivial⟩, ⟨_, rfl⟩]
  case selectExchange =>
    simp only [returned, selectReturned]
    split
    exacts [⟨rfl, trivial⟩, ⟨_, rfl⟩]
  case readUidReqa =>
    simp only [returned, readUidReqaReturned]
    split
    exacts [⟨rfl, trivial⟩, ⟨_, rfl⟩]
  case readUidAnticoll =>
    simp only [returned, readUidAnticollReturned]
    split
    exacts [⟨rfl, trivial⟩, ⟨_, rfl⟩]
  case readUidSelect =>
    simp only [returned, readUidSelectReturned]
    split <;> exact ⟨_, rfl⟩
  case isCardPresentReqa => exact h
  case readUidHexUid =>
    simp only [returned, readUidHexUidReturned]
    split
    exacts [⟨_, rfl, .inr rfl⟩, ⟨_, rfl, .inl rfl⟩]
  case cardFrame => exact ⟨rfl, h.2⟩
  all_goals exact ⟨rfl, trivial⟩

/-- A result handed outward keeps the promise of the outermost operation. -/
theorem giveBack_promises {root op : OpName} {ws : List Waiting} {r : Result} {s : State}
    (hws : outermost op ws = some root) (h : op.Returns r s) : Promises root (giveBack ws r s) := by
  induction ws generalizing op r s with
  | nil =>
    obtain rfl := Option.some.inj hws
    refine ⟨r, rfl, .inr ?_⟩
    cases op <;> exact h
  | cons w ws ih =>
    rw [outermost] at hws
    split at hws
    · next hw =>
      have hk := returned_keeps (w := w) (hw ▸ h)
      rw [giveBack]
      rcases hret : returned w r s with ⟨u, ⟨g, cs⟩ | r'⟩ <;> rw [hret] at hk
      · exact ⟨(outermost_append hk.1 ws).trans hws, hk.2⟩
      · exact ih hws hk
    · cases hws

theorem follow_promises {root op : OpName} {ws : List Waiting} {m : State × Move} (hws : outermost op ws = some root)
    (h : Keeps op m) : Promises root (follow ws m) := by
  obtain ⟨s, ⟨g, cs⟩ | r⟩ := m
  · exact ⟨(outermost_append h.1 ws).trans hws, h.2⟩
  · exact giveBack_promises hws h

theorem primStep_promises {root : OpName} (a : Answer) (s : State) (h : Promises root s) :
    Promises root (primStep a s) := by
  obtain ⟨-, hstep⟩ | ⟨q, hq, ⟨x, -, hstep⟩ | ⟨-, hstep⟩⟩ := primStep_cases a s <;> rw [hstep]
  · exact h
  · unfold Promises at h
    rw [hq] at h
    exact follow_promises h.1 (after_keeps x _ h.2)
  · exact ⟨.busFault, rfl, .inl rfl⟩

theorem setAnswers_promises {root : OpName} (s : State) (as : List Answer) (h : Promises root s) :
    Promises root (s.setAnswers as) := h

/-- The operation an instruction starts is one whose results are the instruction's. -/
theorem entry_outermost {i : Instr} {s : State} {q : Sequence} (h : entry i s = some q) :
    ∃ root, outermost q.top.op q.callers = some root ∧ q.top.countOk ∧
      ∀ r t, root.Returns r t → resultShape i r = true := by
  cases i
  case toHex => cases h
  case setAddress => cases h
  all_goals obtain rfl := Option.some.inj h
  case isCardPresent =>
    refine ⟨.isCardPresent, by split <;> rfl, by split <;> trivial, ?_⟩
    rintro _ _ ⟨b, rfl⟩
    rfl
  case readUidHex =>
    refine ⟨.readUidHex, by split <;> rfl, by split <;> trivial, ?_⟩
    rintro _ _ ⟨text, rfl, hlen⟩
    exact Bool.or_eq_true_iff.2 (hlen.imp decide_eq_true decide_eq_true)
  case version =>
    refine ⟨.version, by split <;> rfl, by split <;> trivial, ?_⟩
    rintro _ _ ⟨b, rfl⟩
    rfl
  case readRegister => exact ⟨_, rfl, trivial, by rintro _ _ ⟨b, rfl⟩; rfl⟩
  case busRead => exact ⟨_, rfl, trivial, by rintro _ _ ⟨b, rfl⟩; rfl⟩
  case computeCrc => exact ⟨_, rfl, trivial, by rintro _ _ ⟨hi, lo, rfl⟩; rfl⟩
  case transceive => exact ⟨_, rfl, trivial, by rintro _ t ⟨rfl, hres⟩; exact hres⟩
  case piccReqa => exact ⟨_, rfl, trivial, by rintro _ t ⟨rfl, hres⟩; exact hres⟩
  case piccWupa => exact ⟨_, rfl, trivial, by rintro _ t ⟨rfl, hres⟩; exact hres⟩
  case piccAnticollCl1 => exact ⟨_, rfl, trivial, by rintro _ t ⟨rfl, hres⟩; exact hres⟩
  case piccSelectCl1 => exact ⟨_, rfl, trivial, by rintro _ t ⟨rfl, hres⟩; exact hres⟩
  case reqa => exact ⟨_, rfl, trivial, by rintro _ _ ⟨b, rfl⟩; rfl⟩
  case select => exact ⟨_, rfl, trivial, by rintro _ _ ⟨b, rfl⟩; rfl⟩
  case anticollision => exact ⟨_, rfl, trivial, by rintro _ _ ⟨u, rfl⟩; rfl⟩
  case readUid => exact ⟨_, rfl, trivial, by rintro _ _ ⟨u, rfl⟩; rfl⟩
  all_goals exact ⟨_, rfl, trivial, by rintro _ _ rfl; rfl⟩

/-- An instruction that starts an operation is over with one of its results, or with a BusFault. -/
theorem exec_started_result {i : Instr} {s t : State} {q : Sequence} (hq : entry i s = some q) (h : exec i s = .next t)
    (ht : t.seq = none) : ∃ r, t.result = some r ∧ (r = .busFault ∨ resultShape i r = true) := by
  obtain ⟨root, hroot, hcount, hshape⟩ := entry_outermost hq
  have hp : Promises root t := by
    obtain ⟨q', s0, hq', -, hstart⟩ | ⟨hn, -⟩ := exec_next_entry h
    · obtain rfl := Option.some.inj (hq.symm.trans hq')
      obtain ⟨-, he⟩ | ⟨-, he⟩ := start_cases q.top q.callers s0 <;> rw [he] at hstart <;> cases hstart
      exact advance_induct setAnswers_promises primStep_promises ⟨hroot, hcount⟩
    · rw [hq] at hn
      cases hn
  unfold Promises at hp
  rw [ht] at hp
  obtain ⟨r, hr, hr'⟩ := hp
  exact ⟨r, hr, hr'.imp_right (hshape r t)⟩

/-- What ends in the step that starts it hands back its result. -/
theorem startEnded_result {x : Result} {s t : State} (h : startEnded x s = .next t) : t.result = some x := by
  obtain ⟨-, h'⟩ | ⟨-, h'⟩ := startEnded_cases x s <;> rw [h'] at h <;> cases h
  rfl

theorem length_hexText (bytes : List Byte) : (hexText bytes).length = 2 * bytes.length := by
  simp [hexText, hexByte, List.length_flatMap, Nat.mul_comm]

/-- Settles O41: the operation an instruction starts keeps its promise at every step of the block; `toHex` and
`setAddress` hand back their result at once. -/
theorem resultsHaveTheShapeOfTheirOperation : Obligations.ResultsHaveTheShapeOfTheirOperation := by
  intro i s t h ht
  cases i
  case toHex bytes => exact ⟨_, startEnded_result h, .inr (decide_eq_true (length_hexText bytes))⟩
  case setAddress n => exact ⟨_, startEnded_result h, .inr rfl⟩
  all_goals exact exec_started_result rfl h ht

end Sys2Proof.Machine

/-! Proofs of the statements about register access (40_register_access.md R110 to R114). -/

namespace Sys2Proof.Machine

/-! ### One transaction (R110, R111) -/

/-- Settles O15: a write of one phase, and R51's payload of its event. -/
theorem writeRegisterIsOneTransaction : Obligations.WriteRegisterIsOneTransaction := by
  intro addr value s a rest hs ha
  obtain ⟨completed, failed⟩ :=
    start_write (f := .writeRegister addr value) hs ha (fun _ => rfl) (fun _ _ => rfl)
  exact ⟨completed, failed, rfl⟩

/-- Settles O16: a read of one phase, and R52's payload of its event. -/
theorem readRegisterIsOneTransaction : Obligations.ReadRegisterIsOneTransaction := by
  intro addr s a rest hs ha
  obtain ⟨completed, failed⟩ := start_read (f := .readRegister addr) hs ha (fun _ => rfl) (fun _ _ => rfl)
  exact ⟨completed, failed, rfl⟩

/-! ### A read and a write back (R112, R113) -/

/-- A write takes the time its answer says, completed or failed. -/
theorem perform_clock_wr (a : Answer) (s : State) (reg v own : Byte) :
    (perform (.wr reg v own) a s).state.clock = s.clock + a.elapsed := by
  simp only [perform]
  split <;> rfl

/-- What a read leaves in the chip record: nothing when it fails. -/
theorem perform_chip_rd (a : Answer) (s : State) (reg : Byte) :
    (perform (.rd reg) a s).state.chip =
      if a.fails then s.chip else s.chip.readFrom s.config s.addr reg a.byte := by
  simp only [perform]
  split <;> rfl

/-- What a write leaves in the chip record: nothing when it fails. -/
theorem perform_chip_wr (a : Answer) (s : State) (reg v own : Byte) :
    (perform (.wr reg v own) a s).state.chip =
      if a.fails then s.chip else s.chip.written s.config s.addr reg v own := by
  simp only [perform]
  split <;> rfl

section readModifyWrite
variable {f : Active} {ws : List Waiting} {s : State} {r w : Answer} {rest : List Answer}

/-- An operation started with answers ready runs over them. -/
theorem start_run {as : List Answer} (hs : s.seq = none) (ha : s.answers = as) (hn : as ≠ []) :
    start f ws s = .next (run as ((s.setResult none).setSeq (some ⟨f, ws⟩))) := by
  subst ha
  exact start_ready hs hn

/-- A transaction that fails ends the operation and its callers, whatever their phases, with a BusFault (R173). -/
theorem run_busFault (hf : (primitive f s).faults r = true) :
    run (r :: rest) (s.setSeq (some ⟨f, ws⟩)) = ended .busFault rest (perform (primitive f s) r s).state := by
  rw [run_cons (q := ⟨f, ws⟩) rfl, primStep_fault (q := ⟨f, ws⟩) rfl (by rw [primitive_setSeq]; exact hf),
    primitive_setSeq, perform_setSeq, raiseBusFault, endOperation_setSeq, run_idle rfl]
  rfl

/-- Transactions and a return leave the block's registers as they were. -/
theorem ended_played {xs : List (Prim × Answer)} {events : List Event} {ms : Nat} {c : Chip} {x : Result}
    (hs : s.seq = none) (htrace : (played xs s).trace = s.trace ++ events) (hclock : (played xs s).clock = s.clock + ms)
    (hchip : (played xs s).chip = c) : ended x rest (played xs s) = afterBus events ms xs.length c x rest s := by
  rw [played_state, htrace, hclock, hchip]
  simp only [ended, endOperation, State.setResult, State.setSeq, State.setAnswers, afterBus, hs]

/-- An operation of two phases, a read of `reg` and a write of `v b` to it, `b` the byte read and the bits of `mask` the
block's: both complete, or the BusFault of the first that fails ends it. -/
theorem start_readModifyWrite {g : Byte → Active} {reg mask : Byte} {v : Byte → Byte} (hs : s.seq = none)
    (ha : s.answers = r :: w :: rest) (hread : ∀ t, primitive f t = .rd reg)
    (henter : ∀ x t, after f x t = (t, .enter (g x.byte) [])) (hwrite : ∀ b t, primitive (g b) t = .wr reg (v b) mask)
    (hret : ∀ b x t, after (g b) x t = (t, .ret .done)) :
    (r.fails = false → w.fails = false → start f [] s =
      .next (afterBus [.rd s.addr reg r.byte, .wr s.addr reg (v r.byte)] (r.elapsed + w.elapsed) 2
        ((s.chip.readFrom s.config s.addr reg r.byte).written s.config s.addr reg (v r.byte) mask) .done rest s)) ∧
    (r.fails = true → start f [] s =
      .next (afterBus [.rdFailed s.addr reg] r.elapsed 1 s.chip .busFault (w :: rest) s)) ∧
    (r.fails = false → w.fails = true → start f [] s =
      .next (afterBus [.rd s.addr reg r.byte, .wrFailed s.addr reg (v r.byte)] (r.elapsed + w.elapsed) 2
        (s.chip.readFrom s.config s.addr reg r.byte) .busFault rest s)) := by
  have reads : r.fails = false → run (r :: w :: rest) ((s.setResult none).setSeq (some ⟨f, []⟩)) =
      run (w :: rest) (((perform (.rd reg) r s).state.setResult none).setSeq (some ⟨g r.byte, []⟩)) := fun hr => by
    rw [run_next (g r.byte) (.rd reg) hr (hread _) fun _ => henter _ _, perform_setResult]
  have hclock : (played [(.rd reg, r), (.wr reg (v r.byte) mask, w)] s).clock = s.clock + (r.elapsed + w.elapsed) := by
    simp only [played_cons, played_nil, perform_clock_wr, perform_clock_rd, Nat.add_assoc]
  rw [start_run hs ha (List.cons_ne_nil _ _)]
  refine ⟨fun hr hw => ?_, fun hr => ?_, fun hr hw => ?_⟩
  · rw [reads hr, run_ret (p := .wr reg (v r.byte) mask) hw (hwrite _ _) (hret _ _ _), run_ended, perform_setResult,
      ended_setResult]
    exact congrArg _ (ended_played hs (by simp [perform_trace, eventOf, hr, hw]) hclock
      (by simp [perform_chip_wr, perform_chip_rd, hr, hw]))
  · rw [run_busFault (by rw [hread]; exact hr), hread, perform_setResult, ended_setResult]
    exact congrArg _ (ended_played (xs := [(.rd reg, r)]) hs (by simp [perform_trace, eventOf, hr])
      (perform_clock_rd r s reg) (by simp [perform_chip_rd, hr]))
  · rw [reads hr, run_busFault (by rw [hwrite]; exact hw), hwrite, perform_setResult, ended_setResult]
    exact congrArg _ (ended_played hs (by simp [perform_trace, eventOf, hr, hw]) hclock
      (by simp [perform_chip_wr, perform_chip_rd, hr, hw]))

end readModifyWrite

/-- Settles O18: the write sets the mask's bits in the byte read. -/
theorem setBitsReadsThenWrites : Obligations.SetBitsReadsThenWrites :=
  fun addr mask _ _ _ _ hs ha =>
    start_readModifyWrite (g := fun b => .setBits addr mask (.write b)) (v := (· ||| mask)) hs ha (fun _ => rfl)
      (fun _ _ => rfl) (fun _ _ => rfl) fun _ _ _ => rfl

/-- Settles O19: the write clears the mask's bits in the byte read; R113 writes the complement as `0xFF ^ mask`. -/
theorem clearBitsReadsThenWrites : Obligations.ClearBitsReadsThenWrites := by
  intro addr mask s r w rest hs ha
  have hnot : 0xFF ^^^ mask = ~~~mask := BitVec.allOnes_xor
  exact start_readModifyWrite (g := fun b => .clearBits addr mask (.write b)) (v := (· &&& ~~~mask)) hs ha (fun _ => rfl)
    (fun _ _ => rfl) (fun b _ => congrArg (fun m => Prim.wr addr (b &&& m) mask) hnot) fun _ _ _ => rfl

/-! ### What register accesses leave alone (R30, R58) -/

/-- An operation that may change no register of the block, and of the chips' registers only `regs` of the device at
ADDR. -/
theorem Framed.keeps_registers {regs : List Byte} {s t : State} (h : Framed ⟨[], regs⟩ s t) :
    keptPorts s t ∧ keptPersistent s t ∧ keptExchange s t ∧ keptCrc s t ∧ t.uidb = s.uidb ∧ t.sakr = s.sakr ∧
      keptPoll s t ∧ storesOnly s.addr regs s t := by
  have kept {g : Group} {P : Prop} (hg : g ∈ ([] : List Group) ∨ P) : P := hg.resolve_left List.not_mem_nil
  obtain ⟨htxbuf, htxvb⟩ := kept h.kept.tx
  exact ⟨⟨h.config, h.requests⟩, ⟨h.addr, kept h.kept.init⟩, ⟨htxbuf, htxvb, kept h.kept.res⟩, kept h.kept.crc,
    kept h.kept.uidb, kept h.kept.sakr, kept h.kept.poll, h.stores⟩

/-- An operation whose first frame may change `regs` only and whose callers may change nothing. -/
theorem start_framed_regs {f : Active} {ws : List Waiting} {s t : State} {regs : List Byte} (h : start f ws s = .next t)
    (hf : f.effect = ⟨[], regs⟩) (hw : ∀ w ∈ ws, w.effect = ⟨[], []⟩) : Framed ⟨[], regs⟩ s t := by
  refine start_framed h ?_ (hf ▸ Effect.le_refl _) fun w hmem => ?_
  · cases f
    case initAddress => cases hf
    all_goals trivial
  · rw [hw w hmem]
    exact ⟨fun _ h => h, fun _ h => absurd h List.not_mem_nil⟩

/-- Settles O52: each instruction starts at a frame whose effect is the registers it names. -/
theorem frameOfRegisterOperations : Obligations.FrameOfRegisterOperations := by
  intro i s t regs h hi
  refine Framed.keeps_registers ?_
  simp only [List.mem_cons, List.not_mem_nil, or_false] at hi
  obtain ⟨a, v, rfl | rfl, rfl⟩ | ⟨a, m, rfl | rfl, rfl⟩ | ⟨a, rfl | rfl, rfl⟩ | ⟨rfl, rfl⟩ | ⟨rfl, rfl⟩ |
    ⟨rfl | rfl | rfl, rfl⟩ | ⟨rfl, rfl⟩ := hi
  all_goals exact start_framed_regs h rfl (by simp [Waiting.effect])

end Sys2Proof.Machine

/-! Proofs of the statements about reset, the FIFO flush, the antenna and initialisation (41_reset_antenna.md R120 to R124). -/

namespace Sys2Proof.Machine

/-! ### A read-modify-write below its caller (R112, R122, R123) -/

/-- The reads that leave no mark in the chip record (R35, R58, R62 a). -/
theorem Chip.readFrom_unmarked (c : Chip) (cfg : Config) (dev : DevAddr) {reg : Byte} (v : Byte)
    (h : reg ∉ [0x01, 0x04, 0x05, 0x06, 0x09]) : c.readFrom cfg dev reg v = c := by
  simp only [List.mem_cons, List.not_mem_nil, or_false, not_or] at h
  obtain ⟨h1, h4, h5, h6, h9⟩ := h
  simp only [Chip.readFrom, Reg.fifoData, Reg.command, Reg.comIrq, Reg.divIrq, Reg.error, h1, h4, h5, h6, h9, if_false,
    or_self]

theorem perform_chip_rd_unmarked (a : Answer) (s : State) {reg : Byte} (h : reg ∉ [0x01, 0x04, 0x05, 0x06, 0x09]) :
    (perform (.rd reg) a s).state.chip = s.chip := by
  rw [perform_chip_rd, Chip.readFrom_unmarked _ _ _ _ h, ite_self]

/-- The result of the operation before is overwritten. -/
@[simp] theorem ended_played_setResult (x : Result) (rest : List Answer) (xs : List (Prim × Answer)) (s : State)
    (r : Option Result) : ended x rest (played xs (s.setResult r)) = ended x rest (played xs s) := by
  rw [played_setResult, ended_setResult]

/-- setBits below callers that pass its return on to the host: both transactions complete, or the BusFault of the first
that fails ends the operation. -/
theorem run_setBits_outcome {s : State} {rest : List Answer} {ws : List Waiting} {reg mask : Byte} (r w : Answer)
    (hws : ∀ t, giveBack ws .done t = giveBack [] .done t) :
    run (r :: w :: rest) (s.setSeq (some ⟨.setBits reg mask .read, ws⟩)) =
      if r.fails then ended .busFault (w :: rest) (played [(.rd reg, r)] s)
      else ended (if w.fails then .busFault else .done) rest
        (played [(.rd reg, r), (.wr reg (r.byte ||| mask) mask, w)] s) := by
  cases hr : r.fails with
  | true => exact run_busFault (f := .setBits reg mask .read) hr
  | false =>
    cases hw : w.fails with
    | false => rw [run_setBits r w s hr hw, hws, run_ended]; rfl
    | true =>
      rw [run_next (.setBits reg mask (.write r.byte)) (.rd reg) hr rfl fun _ => rfl]
      exact run_busFault (f := .setBits reg mask (.write r.byte)) hw

/-- Settles O21: flushFifo is setBits below a caller that passes its return on; a read of 0x0A leaves no mark in the
chip record. -/
theorem flushFifoSetsTheFlushBit : Obligations.FlushFifoSetsTheFlushBit := by
  intro s r w rest hs ha
  have hexec : exec .flushFifo s = _ :=
    (start_run (f := .setBits 0x0A 0x80 .read) (ws := [.flushFifo]) hs ha (List.cons_ne_nil _ _)).trans
      (congrArg _ (run_setBits_outcome r w fun _ => rfl))
  rw [hexec]
  simp only [ended_played_setResult]
  refine ⟨fun hr hw => ?_, fun hr => ?_, fun hr hw => ?_⟩
  all_goals
    -- the clause's answers choose the branch of the run; its script gives the trace, the clock and the chip record
    simp only [*, if_true, Bool.false_eq_true, if_false]
    refine congrArg _ (ended_played hs ?_ ?_ ?_)
    all_goals simp [perform_trace, eventOf, perform_clock_rd, perform_clock_wr, perform_chip_wr,
      perform_chip_rd_unmarked, Nat.add_assoc, *]

/-- antennaOn with no caller: it ends with the BusFault of the first transaction that fails, after a read that shows
both bits set, or after the setBits. -/
theorem run_antennaOn_outcome {s : State} {rest : List Answer} (r v w : Answer) :
    run (r :: v :: w :: rest) (s.setSeq (some ⟨.antennaOn, []⟩)) =
      if r.fails then ended .busFault (v :: w :: rest) (played [(.rd 0x14, r)] s)
      else if r.byte &&& 0x03 = 0x03 then ended .done (v :: w :: rest) (played [(.rd 0x14, r)] s)
      else if v.fails then ended .busFault (w :: rest) (played [(.rd 0x14, r), (.rd 0x14, v)] s)
      else ended (if w.fails then .busFault else .done) rest
        (played [(.rd 0x14, r), (.rd 0x14, v), (.wr 0x14 (v.byte ||| 0x03) 0x03, w)] s) := by
  cases hr : r.fails with
  | true => exact run_busFault (f := .antennaOn) hr
  | false =>
    rw [if_neg Bool.false_ne_true]
    by_cases hb : r.byte &&& 0x03 = 0x03
    · rw [if_pos hb]
      have hon := run_antennaOn (ws := []) (rest := v :: w :: rest) (.alreadyOn r) s (beq_iff_eq.2 hb)
        (noFault_cons.2 ⟨hr, rfl⟩)
      exact hon.trans run_ended
    · rw [if_neg hb]
      have hset : antennaSet r.byte = false := beq_eq_false_iff_ne.2 hb
      rw [run_enter (p := .rd 0x14) (g := .setBits 0x14 0x03 .read) (cs := [.antennaOn]) hr rfl
        (by simp only [after, antennaOnAfter, hset]; rfl)]
      exact run_setBits_outcome v w fun _ => rfl

/-- Settles O22: the run of antennaOn on its three answers; a read of 0x14 leaves no mark in the chip record. -/
theorem antennaOnSetsBothBits : Obligations.AntennaOnSetsBothBits := by
  intro s r v w rest hs ha
  have hexec : exec .antennaOn s = _ :=
    (start_run (f := .antennaOn) (ws := []) hs ha (List.cons_ne_nil _ _)).trans
      (congrArg _ (run_antennaOn_outcome r v w))
  rw [hexec]
  simp only [ended_played_setResult]
  refine ⟨fun hr hb => ?_, fun hr hb hv hw => ?_, fun hr => ?_, fun hr hb hv => ?_, fun hr hb hv hw => ?_⟩
  all_goals
    -- as for flushFifo
    simp only [*, if_true, Bool.false_eq_true, if_false]
    refine congrArg _ (ended_played hs ?_ ?_ ?_)
    all_goals simp [perform_trace, eventOf, perform_clock_rd, perform_clock_wr, perform_chip_wr,
      perform_chip_rd_unmarked, Nat.add_assoc, *]

/-! ### softReset and initialize as whole runs (R121, R124) -/

/-- Settles O23: softReset's run is its script's, on either verdict of its poll. -/
theorem softResetReturnsOnEitherVerdict : Obligations.SoftResetReturnsOnEitherVerdict := by
  intro s x rest hs hf hok
  have hrun := run_softReset (ws := []) (rest := rest) x (s.setResult none) hok hf
  rw [State.setResult_config, SoftResetRun.after_setResult] at hrun
  exact start_ended hs (by simp [SoftResetRun.script, SoftResetRun.headScript]) hrun

/-- Settles O24: initialize's run is its script's; no phase of it looks at INIT or at the verdict. -/
theorem initializeRunsTheWholeSequence : Obligations.InitializeRunsTheWholeSequence := by
  intro s address x rest hs hf hok
  have hrun := run_initialize (ws := []) (rest := rest) x address (s.setResult none) hok hf
  rw [State.setResult_config, InitRun.after_setResult] at hrun
  exact start_ended hs (List.cons_ne_nil _ _) hrun

/-! ### What softReset and initialize leave alone (R121, R124, R191) -/

/-- An operation that may change INIT, T0 and PV only keeps the ports and the working registers of the exchanges. -/
theorem Framed.keeps_exchange {gs : List Group} {regs : List Byte} {s t : State} (h : Framed ⟨gs, regs⟩ s t)
    (hgs : ∀ g ∈ gs, g = .init ∨ g = .poll) :
    keptPorts s t ∧ keptExchange s t ∧ keptCrc s t ∧ t.uidb = s.uidb ∧ t.sakr = s.sakr := by
  have kept {g : Group} {P : Prop} (hg : g ∈ gs ∨ P) (hne : g ≠ .init ∧ g ≠ .poll) : P :=
    hg.resolve_left fun hmem => (hgs g hmem).elim hne.1 hne.2
  obtain ⟨htxbuf, htxvb⟩ := kept h.kept.tx (by decide)
  exact ⟨⟨h.config, h.requests⟩, ⟨htxbuf, htxvb, kept h.kept.res (by decide)⟩, kept h.kept.crc (by decide),
    kept h.kept.uidb (by decide), kept h.kept.sakr (by decide)⟩

/-- Settles O53: softReset starts at a frame whose effect is T0, PV and the device at ADDR; initialize's first step
writes ADDR, and from it on its effect is INIT, T0, PV and the device addressed. -/
theorem frameOfSoftResetAndInitialize : Obligations.FrameOfSoftResetAndInitialize := by
  refine ⟨fun s t h => ?_, fun s t address h => ?_⟩
  · have hframe : Framed ⟨[.poll], everyReg⟩ s t :=
      start_framed (f := .softReset .command) (ws := []) h trivial (Effect.le_refl _) (by simp)
    obtain ⟨hports, hexchange, hcrc, huidb, hsakr⟩ := hframe.keeps_exchange (by simp)
    exact ⟨hports, ⟨hframe.addr, hframe.kept.init.resolve_left (by simp)⟩, hexchange, hcrc, huidb, hsakr, hframe.stores⟩
  · have hframe : Framed ⟨[.init, .poll], everyReg⟩ (s.setAddr (maskAddr address)) t :=
      startInit_framed (ws := []) h (by simp [Effect.le, Active.effect]) (by simp [Effect.le, Waiting.effect])
    obtain ⟨hports, hexchange, hcrc, huidb, hsakr⟩ := hframe.keeps_exchange (by simp)
    exact ⟨hports, hexchange, hcrc, huidb, hsakr, maskAddr_mod address ▸ hframe.stores⟩

/-! ### The antenna after initialize (R40, R123, R194, R203) -/

/-- The primitive is no transaction with the command register. -/
def Prim.offCommand : Prim → Bool
  | .wr reg _ _ => reg != 0x01
  | .rd reg => reg != 0x01
  | _ => true

/-- Only a transaction with the command register starts or ends a device's reset (R31, R62 a). -/
theorem perform_resetting {p : Prim} (a : Answer) (s : State) (hp : p.offCommand = true) :
    (perform p a s).state.chip.resetting = s.chip.resetting := by
  cases p with
  | wr reg v own =>
    have hreg : reg ≠ 0x01 := bne_iff_ne.1 hp
    rw [perform_chip_wr]
    split
    · rfl
    · rw [Chip.written_resetting, Chip.writeEffect_resetting, if_neg fun h => hreg h.1]
  | rd reg =>
    have hreg : reg ≠ 0x01 := bne_iff_ne.1 hp
    rw [perform_chip_rd]
    split
    · rfl
    · rw [Chip.readFrom_resetting, if_neg fun h => hreg h.1]
  | now => rfl
  | pause n => rfl
  | assign => rfl

theorem played_resetting {xs : List (Prim × Answer)} (s : State) (hxs : xs.all (fun x => x.1.offCommand) = true) :
    (played xs s).chip.resetting = s.chip.resetting := by
  induction xs generalizing s with
  | nil => rfl
  | cons x xs ih =>
    rw [List.all_cons, Bool.and_eq_true] at hxs
    rw [played_cons, ih _ hxs.2, perform_resetting _ _ hxs.1]

/-- A read of 0x01 that shows the "still resetting" bit clear ends the reset of the device at ADDR (R31, R203). -/
theorem perform_endsReset {r : Answer} {s : State} {d : DevAddr} (hr : r.fails = false) (hd : s.addr = d)
    (hclear : r.byte &&& s.config.softResetBusyMask = 0) : (perform (.rd 0x01) r s).state.chip.mayReset d = false := by
  rw [perform_chip_rd, if_neg (by simp [hr]), hd, Chip.mayReset_readFrom_command, if_pos hclear]

/-- The turn of a poll that hits shows the condition met. -/
theorem turnsOk_hit {hit : Byte → Bool} {limit interval e : Nat} {turns : List PollTurn} {r v : Answer}
    (h : PollRun.turnsOk hit limit interval e turns (.hit r v) = true) : hit r.byte = true := by
  induction turns generalizing e with
  | nil => exact h
  | cons t ts ih =>
    rw [PollRun.turnsOk, Bool.and_eq_true] at h
    exact ih h.2

@[simp] theorem SoftResetRun.after_addr (c : Config) (x : SoftResetRun) (s : State) : (x.after c s).addr = s.addr := by
  simp [SoftResetRun.after, PollRun.after]

/-- A soft reset whose poll hit has ended, by the poll's last read. -/
theorem SoftResetRun.after_notResetting {x : SoftResetRun} {c : Config} {s : State} (hc : s.config = c)
    (hok : x.ok c = true) (hf : noFault (x.script c) = true) (hhit : x.poll.verdict = .hit) :
    (x.after c s).chip.mayReset s.addr = false := by
  obtain ⟨command, settle, start, misses, last⟩ := x
  cases last with
  | timeout => cases hhit
  | hit r v =>
    have hclear : r.byte &&& c.softResetBusyMask = 0 := beq_iff_eq.1 (turnsOk_hit hok)
    simp only [SoftResetRun.script, PollRun.script, PollRun.lastScript, noFault_append, noFault_cons] at hf
    obtain ⟨-, -, -, hr, -⟩ := hf
    simp only [SoftResetRun.after, PollRun.after, PollRun.script, PollRun.lastScript, played_cons, played_append]
    exact perform_endsReset hr (by simp) (by simpa [hc] using hclear)

/-- The bits a read-modify-write sets are set in the byte it writes. -/
theorem or_and_mask (v mask : Byte) : (v ||| mask) &&& mask = mask := by
  refine BitVec.eq_of_getElem_eq fun i hi => ?_
  cases h : mask[i] <;> simp [h]

/-- The last transaction before `t` shows both bits of 0x14 set, or writes them set, at the device that `s` addresses;
and if that device was not resetting in `s`, it holds in `t` what was written. -/
def AntennaLeftOn (s t : State) : Prop :=
  ∃ v : Byte, v &&& 0x03 = 0x03 ∧
    (t.trace.getLast? = some (.rd s.addr 0x14 v) ∨
      t.trace.getLast? = some (.wr s.addr 0x14 v) ∧
        (s.chip.mayReset s.addr = false → ∃ b : Byte, t.chip.held s.addr 0x14 = some b ∧ b &&& 0x03 = 0x03))

/-- antennaOn leaves the antenna on: the two bits are the block's (R123, R200). -/
theorem AntennaRun.leftOn {x : AntennaRun} (s : State) (hok : x.ok = true) (hf : noFault x.script = true) :
    AntennaLeftOn s (played x.script s) := by
  cases x with
  | alreadyOn r =>
    have hr : r.fails = false := (noFault_cons.1 hf).1
    exact ⟨r.byte, beq_iff_eq.1 hok, .inl (by simp [AntennaRun.script, perform_trace, eventOf, hr])⟩
  | turnedOn r v w =>
    simp only [AntennaRun.script, noFault_cons] at hf
    obtain ⟨-, -, hwrite, -⟩ := hf
    have hw : w.fails = false := hwrite
    refine ⟨v.byte ||| 0x03, or_and_mask _ _, .inr ⟨by simp [AntennaRun.script, perform_trace, eventOf, hw], fun hm => ?_⟩⟩
    have hreads : (played [(.rd 0x14, r), (.rd 0x14, v)] s).chip.mayReset s.addr = false := by
      rw [Chip.mayReset, played_resetting s rfl]
      exact hm
    obtain ⟨b, hb, hown, -⟩ := Chip.held_written_some (cfg := s.config) (v := v.byte ||| 0x03) (own := 0x03) hreads
      (.inl (by decide : (0x14 : Byte) ≠ 0x01)) (by decide)
    refine ⟨b, ?_, hown.trans (or_and_mask _ _)⟩
    rw [← hb]
    simp [AntennaRun.script, perform_chip_wr, hw]

/-- initialize from its plain writes on leaves the antenna on: they reset nothing, and the assignment to INIT makes no
transaction. -/
theorem InitRun.setup_leftOn {c : Config} {x : InitRun} (s : State) (hok : x.antenna.ok = true)
    (hf : noFault (x.setupScript c) = true) : AntennaLeftOn s (played (x.setupScript c) s) := by
  rw [InitRun.setupScript, noFault_append, noFault_append] at hf
  obtain ⟨⟨-, hantenna⟩, -⟩ := hf
  rw [InitRun.setupScript, played_append, played_append]
  obtain ⟨v, hv, hlast⟩ := AntennaRun.leftOn (played _ s) hok hantenna
  rw [played_addr, Chip.mayReset, played_resetting s] at hlast
  · exact ⟨v, hv, hlast⟩
  · rfl

/-- Settles O25: the poll that hit has ended the reset of the new device, and the steps after it leave the antenna on. -/
theorem initializeLeavesTheAntennaOn : Obligations.InitializeLeavesTheAntennaOn := by
  intro s address x rest hs hf hok
  refine ⟨_, initializeRunsTheWholeSequence s address x rest hs hf hok, ?_⟩
  rw [InitRun.ok, Bool.and_eq_true] at hok
  rw [InitRun.script, noFault_cons, noFault_append] at hf
  obtain ⟨hreset, hantenna⟩ := hok
  obtain ⟨-, hfreset, hfsetup⟩ := hf
  let new := (played [(.assign, x.address)] s).setAddr (BitVec.ofNat 7 (address % 128))
  obtain ⟨v, hv, hlast⟩ := InitRun.setup_leftOn (x := x) (x.reset.after s.config new) hantenna hfsetup
  rw [SoftResetRun.after_addr] at hlast
  simp only [InitRun.after, ended, endOperation]
  refine ⟨by simp, rfl, v, hv, ?_⟩
  simp only [State.setResult_addr, State.setSeq_addr, State.setAnswers_addr, State.setInit_addr, played_addr,
    SoftResetRun.after_addr]
  exact hlast.imp id (And.imp id fun hheld hhit =>
    hheld (SoftResetRun.after_notResetting (s := new) rfl hreset hfreset hhit))

end Sys2Proof.Machine

/-! Proofs of the statements about transceive (43_transceive.md R140 to R146). -/

namespace Sys2Proof.Machine

/-! ### A whole exchange (R140 to R144) -/

/-- A count of valid bits is 0 to 7: transceive starts with its operands in TXF (R22, R146). -/
theorem exec_transceive (frame : List Byte) (vb : ValidBits) (s : State) :
    exec (.transceive frame (vb.setWidth 8)) s = start (.transceive .x0) [] (s.setTxf frame vb) := by
  have hcount : (vb.setWidth 8).toNat ≤ 7 := by
    have := vb.isLt
    rw [BitVec.toNat_setWidth]
    omega
  have hbits : (vb.setWidth 8).setWidth 3 = vb := BitVec.eq_of_toNat_eq (by simp)
  simp only [exec, execTransceive, hcount, if_true, hbits]

/-- Settles O27: transceive's run is its script's, in each of the three endings. -/
theorem transceiveRunsOneExchange : Obligations.TransceiveRunsOneExchange := by
  intro s frame vb x rest hs hf hok
  have hrun := run_transceive (ws := []) (rest := rest) frame vb x (s.setResult none) hok hf
  rw [State.setResult_config, XcvRun.after_setResult] at hrun
  rw [exec_transceive]
  exact start_ended (s := s.setTxf frame vb) hs (by simp [XcvRun.script, XcvRun.headScript]) hrun

/-! ### Every run of transceive that is over (R141, R173, R176) -/

/-- The run over these answers is over, and no BusFault ended it. -/
def Completed (as : List Answer) (s : State) : Prop := Over as s ∧ ¬ Faulted as s

theorem Completed.congr {as as' : List Answer} {s s' : State} (h : Completed as s) (hrun : run as s = run as' s') :
    Completed as' s' := by
  simp only [Completed, Over, Faulted, hrun] at h ⊢
  exact h

/-- A completed run performed the primitive of its first phase, and the run from the next phase on is completed too. -/
theorem Completed.next {as : List Answer} {s : State} {f : Active} {ws : List Waiting} (p : Prim) (g : Answer → Active)
    (hp : primitive f s = p)
    (hg : ∀ a t, after f ⟨a.byte, t⟩ (perform p a s).state = ((perform p a s).state, .enter (g a) []))
    (h : Completed as (s.setSeq (some ⟨f, ws⟩))) :
    ∃ a as', as = a :: as' ∧ p.faults a = false ∧ Completed as' ((perform p a s).state.setSeq (some ⟨g a, ws⟩)) := by
  obtain ⟨a, as', rfl, hok, hrun⟩ := (over_next p g hp hg h.1).resolve_left h.2
  exact ⟨a, as', rfl, hok, h.congr hrun⟩

/-- A completed run performed the primitive of its first phase. -/
theorem Completed.first {as : List Answer} {s : State} {f : Active} {ws : List Waiting}
    (h : Completed as (s.setSeq (some ⟨f, ws⟩))) : ∃ a as', as = a :: as' ∧ (primitive f s).faults a = false := by
  obtain ⟨a, as', has, hok, -⟩ := (over_step h.1).resolve_left h.2
  exact ⟨a, as', has, hok⟩

/-- Steps 1 to 4 of transceive, in a completed run: the poll is next. The poll and the ending of `x` are not theirs. -/
theorem Completed.xcv_send {ws : List Waiting} {as : List Answer} {frame : List Byte} {vb : ValidBits} {s : State}
    (h : Completed as ((s.setTxf frame vb).setSeq (some ⟨.transceive .x0, ws⟩))) :
    ∃ (x : XcvRun) (rest : List Answer), as = answersOf (x.headScript s.config frame vb) ++ rest ∧
      noFault (x.headScript s.config frame vb) = true ∧ x.loads.length = frame.length := by
  obtain ⟨idle, as, rfl, f1, h⟩ := h.next (.wr 0x01 0x00) (fun _ => .transceive .x1) rfl fun _ _ => rfl
  obtain ⟨clear, as, rfl, f2, h⟩ := h.next (.wr 0x04 s.config.comIrqClearVal) (fun _ => .transceive .x2)
    (by simp [primitive, xcvPrim]; rfl) fun _ _ => rfl
  obtain ⟨level, as, rfl, f3, h⟩ := h.next (.rd 0x0A) (fun level => .transceive (.x3 level.byte)) rfl fun _ _ => rfl
  obtain ⟨flush, as, rfl, f4, h⟩ := h.next (.wr 0x0A (level.byte ||| 0x80) 0x80) (fun _ => .transceive (xcvLoad frame 0))
    rfl fun _ _ => by simp [after, xcvAfter]
  obtain ⟨loads, rest, rfl, f5, hl⟩ := (over_xcv_load [] frame (by simp) h.1).resolve_left h.2
  have h := h.congr (run_xcv_load [] frame loads _ (by simp) hl f5)
  obtain ⟨framing, as, rfl, f6, h⟩ := h.next (.wr 0x0D (vb.setWidth 8)) (fun _ => .transceive .x6)
    (by simp [primitive, xcvPrim, framingValue]; rfl) fun _ _ => rfl
  obtain ⟨command, as, rfl, f7, h⟩ := h.next (.wr 0x01 0x0C) (fun _ => .transceive .x7) rfl fun _ _ => rfl
  obtain ⟨sendRead, as, rfl, f8, h⟩ := h.next (.rd 0x0D) (fun read => .transceive (.x8 read.byte)) rfl fun _ _ => rfl
  obtain ⟨sendWrite, as, rfl, f9⟩ := h.first
  refine ⟨⟨idle, clear, level, flush, loads, framing, command, sendRead, sendWrite, ⟨idle, [], .hit idle idle⟩,
    .frameError idle idle⟩, as, ?_, ?_, hl⟩
  · simp [XcvRun.headScript, answersOf_append, answersOf_cons, answersOf_nil]
  · simp only [XcvRun.headScript, List.cons_append, List.nil_append, noFault_append, noFault_cons]
    exact ⟨f1, f2, f3, f4, f5, f6, f7, f8, f9, rfl⟩

/-- What follows transceive's poll, in a completed run: the verdict decides, and on HIT the error register (R141). -/
theorem Completed.xcv_end {ws : List Waiting} {as : List Answer} {s : State}
    (h : Completed as (giveBack (.transceive :: ws) .done s)) :
    ∃ (e : XcvEnd) (rest : List Answer), as = answersOf (XcvRun.endScript e) ++ rest ∧
      noFault (XcvRun.endScript e) = true ∧ XcvRun.endOk s.pv e = true := by
  simp only [giveBack, returned, xcvPollReturned] at h
  cases hpv : s.pv with
  | timeout =>
    simp only [hpv, List.nil_append] at h
    obtain ⟨read, as, rfl, f1, h⟩ := h.next (.rd 0x0D) (fun read => .transceive (.x11 read.byte)) rfl fun _ _ => rfl
    obtain ⟨write, as, rfl, f2, h⟩ := h.next (.wr 0x0D (read.byte &&& 0x7F) 0x80) (fun _ => .transceive .failure) rfl
      fun _ _ => rfl
    obtain ⟨assign, rest, rfl, -⟩ := h.first
    exact ⟨.timeout read write assign, rest, rfl, noFault_cons.2 ⟨f1, noFault_cons.2 ⟨f2, rfl⟩⟩, rfl⟩
  | hit =>
    simp only [hpv, List.nil_append] at h
    obtain ⟨error, as, rfl, f1, h⟩ := h.next (.rd 0x06)
      (fun error => .transceive (if frameError error.byte then .failure else .x13)) rfl fun _ _ => rfl
    cases herror : frameError error.byte with
    | true =>
      rw [herror, if_pos rfl] at h
      obtain ⟨assign, rest, rfl, -⟩ := h.first
      exact ⟨.frameError error assign, rest, rfl, noFault_cons.2 ⟨f1, rfl⟩, herror⟩
    | false =>
      rw [herror, if_neg Bool.false_ne_true] at h
      obtain ⟨level, as, rfl, f2, h⟩ := h.next (.rd 0x0A)
        (fun level => .transceive (xcvDrain 0 (0 + fifoCount level.byte))) rfl fun _ _ => by simp [after, xcvAfter]
      obtain ⟨drains, rest, rfl, f3, hn⟩ := (over_xcv_drain 0 _ h.1).resolve_left h.2
      rw [← hn] at h
      have h := h.congr (run_xcv_drain 0 drains _ f3)
      obtain ⟨control, as, rfl, f4, h⟩ := h.next (.rd 0x0C)
        (fun control => .transceive (.success (0 + drains.length) (rxLastBits control.byte))) rfl fun _ _ => rfl
      obtain ⟨assign, rest, rfl, -⟩ := h.first
      refine ⟨.success error level drains control assign, rest, ?_, ?_, ?_⟩
      · simp [XcvRun.endScript, answersOf_append, answersOf_cons, answersOf_nil]
      · simp only [XcvRun.endScript, List.cons_append, List.nil_append, noFault_append, noFault_cons]
        exact ⟨f1, f2, f3, f4, rfl, rfl⟩
      · have herror : error.byte &&& 0x13 = 0 := by simpa [frameError, Mask.error] using herror
        simp only [XcvRun.endOk, Bool.and_eq_true, beq_iff_eq, decide_eq_true_eq]
        exact ⟨⟨trivial, herror⟩, hn⟩

/-- The answers a completed transceive was given are those of an exchange. -/
theorem Completed.transceive {ws : List Waiting} {as : List Answer} {frame : List Byte} {vb : ValidBits} {s : State}
    (h : Completed as ((s.setTxf frame vb).setSeq (some ⟨.transceive .x0, ws⟩))) :
    ∃ (x : XcvRun) (rest : List Answer), as = answersOf (x.script s.config frame vb) ++ rest ∧
      noFault (x.script s.config frame vb) = true ∧ x.ok s.config frame = true := by
  obtain ⟨x, as, rfl, fsend, hl⟩ := h.xcv_send
  have h := h.congr (run_xcv_send frame vb x s hl fsend)
  obtain ⟨p, as, rfl, fpoll, hpoll⟩ := (over_poll h.1).resolve_left h.2
  have h := h.congr (run_poll p _ hpoll fpoll)
  obtain ⟨e, rest, rfl, fend, hend⟩ := h.xcv_end
  rw [played_config, State.setTxf_config] at fpoll hpoll
  refine ⟨{ x with poll := p, ending := e }, rest, ?_, ?_, ?_⟩
  · simp only [XcvRun.script, answersOf_append, List.append_assoc, played_config, State.setTxf_config]
    rfl
  · simp only [XcvRun.script, noFault_append]
    exact ⟨⟨fsend, fpoll⟩, fend⟩
  · simp only [XcvRun.ok, Bool.and_eq_true, decide_eq_true_eq]
    exact ⟨⟨hl, hpoll⟩, hend⟩

/-- A started operation that is over is a completed run over the answers ready, or over the free answer, unless a
BusFault ended it. -/
theorem completed_of_start {f : Active} {ws : List Waiting} {s t : State} (hstart : start f ws s = .next t)
    (hover : t.seq = none) (hfault : t.result ≠ some .busFault) :
    s.seq = none ∧ Completed (if s.answers = [] then [freeAnswer s.ticks] else s.answers)
      ((s.setResult none).setSeq (some ⟨f, ws⟩)) := by
  obtain ⟨hs, hnext⟩ | ⟨-, hrefused⟩ := start_cases f ws s
  · rw [hnext] at hstart
    obtain rfl := Host.Outcome.next.inj hstart
    refine ⟨hs, ?_⟩
    cases ha : s.answers <;> simp only [advance, State.setSeq_answers, State.setResult_answers, ha] at hover hfault <;>
      exact ⟨hover, hfault⟩
  · rw [hrefused] at hstart
    cases hstart

/-- Settles O28: the answers of a transceive that met no BusFault are an exchange's, and then its end is that
exchange's; they are more than the one free answer. -/
theorem transceiveEndsInOneOfThreeWays : Obligations.TransceiveEndsInOneOfThreeWays := by
  intro s t frame vb hexec hover
  by_cases hfault : t.result = some .busFault
  · exact .inl hfault
  obtain ⟨hs, hcompleted⟩ := completed_of_start (exec_transceive frame vb s ▸ hexec) hover hfault
  obtain ⟨x, rest, hanswers, hf, hok⟩ := Completed.transceive (s := s.setResult none) hcompleted
  have hready : readyFor (x.script s.config frame vb) rest s := by
    refine ⟨hs, ?_⟩
    split at hanswers
    · simp [XcvRun.script, XcvRun.headScript, answersOf_cons] at hanswers
    · exact hanswers
  have hrun := transceiveRunsOneExchange s frame vb x rest hready hf hok
  exact .inr ⟨x, rest, hready, hf, hok, Host.Outcome.next.inj (hexec.symm.trans hrun)⟩

end Sys2Proof.Machine

/-! Proofs of the statements about computeCrc (42_crc_adapter.md R130 to R132). -/

namespace Sys2Proof.Machine

/-- Settles O26: computeCrc's run is its script's, whichever verdict its poll leaves. -/
theorem computeCrcReturnsTheTwoResultRegisters : Obligations.ComputeCrcReturnsTheTwoResultRegisters := by
  intro s bytes x rest hs hf hok
  have hrun := run_computeCrc (ws := []) (rest := rest) bytes x (s.setResult none) hok hf
  rw [State.setResult_config, CrcRun.after_setResult] at hrun
  exact start_ended hs (by simp [CrcRun.script, CrcRun.headScript]) hrun

/-- Settles O54: computeCrc starts at a frame whose effect is CRC_HI, CRC_LO, T0, PV and its four device registers. -/
theorem frameOfComputeCrc : Obligations.FrameOfComputeCrc := by
  intro s t bytes h
  have hframe : Framed ⟨[.crc, .poll], crcRegs⟩ s t :=
    start_framed (f := .computeCrc bytes .c0) (ws := []) h trivial (Effect.le_refl _) (by simp)
  have kept {g : Group} {P : Prop} (hg : g ∈ [Group.crc, .poll] ∨ P) (hne : g ∉ [Group.crc, .poll]) : P :=
    hg.resolve_left hne
  obtain ⟨htxbuf, htxvb⟩ := kept hframe.kept.tx (by decide)
  exact ⟨⟨hframe.config, hframe.requests⟩, ⟨hframe.addr, kept hframe.kept.init (by decide)⟩,
    ⟨htxbuf, htxvb, kept hframe.kept.res (by decide)⟩, kept hframe.kept.uidb (by decide),
    kept hframe.kept.sakr (by decide), hframe.stores⟩

end Sys2Proof.Machine

/-! Proofs of the statements about what transceive sends and what an exchange leaves alone (43_transceive.md R140 to R146;
20_memory.md R58, R62). -/

namespace Sys2Proof.Machine

/-! ### What an exchange leaves alone (R140, R150, R151) -/

/-- An instruction whose entry frames and callers stay within an effect that allows TXF stays within it: its operands go
to TXF before its first step (R22). -/
theorem exec_framed {e : Effect} {i : Instr} {s t : State} {q : Sequence} (h : exec i s = .next t)
    (hentry : entry i s = some q) (htx : .tx ∈ e.groups) (haddr : q.top.fixesAddr) (htop : q.top.effect.le e)
    (hcallers : ∀ w ∈ q.callers, w.effect.le e) : Framed e s t := by
  obtain ⟨q', s0, hq', h0, hstart⟩ | ⟨hnone, -⟩ := exec_next_entry h
  · obtain rfl : q' = q := Option.some.inj (hq'.symm.trans hentry)
    have hframe := start_framed hstart haddr htop hcallers
    obtain rfl | ⟨frame, vb, rfl⟩ := h0
    · exact hframe
    · exact ⟨(kept_setTxf s frame vb htx).trans hframe.kept, hframe.stores, hframe.config, hframe.addr, hframe.requests,
        hframe.seq⟩
  · rw [hentry] at hnone
    cases hnone

/-- An operation that makes an exchange and may write UIDB keeps everything but TXF, RES, T0, PV and UIDB. -/
theorem Framed.keeps_crc_sakr {gs : List Group} {s t : State} (h : Framed (.exchange gs) s t)
    (hgs : ∀ g ∈ gs, g = .uidb) : keptPorts s t ∧ keptPersistent s t ∧ keptCrc s t ∧ t.sakr = s.sakr := by
  have kept {g : Group} {P : Prop} (hg : g ∈ [Group.tx, .res, .poll] ++ gs ∨ P)
      (hne : g ∉ [Group.tx, .res, .poll, .uidb]) : P := by
    refine hg.resolve_left fun hmem => hne ?_
    obtain hmem | hmem := List.mem_append.1 hmem
    · exact List.mem_append_left [.uidb] hmem
    · simp [hgs g hmem]
  exact ⟨⟨h.config, h.requests⟩, ⟨h.addr, kept h.kept.init (by decide)⟩, kept h.kept.crc (by decide),
    kept h.kept.sakr (by decide)⟩

/-- Settles O55: each instruction starts at a frame whose effect is that of an exchange, anticollision's with UIDB. -/
theorem frameOfExchanges : Obligations.FrameOfExchanges := by
  intro i s t h hi
  by_cases hanti : i = .anticollision
  · subst hanti
    have hframe : Framed (.exchange [.uidb]) s t :=
      exec_framed h rfl (by decide) trivial (Effect.le_refl _) (by simp)
    obtain ⟨hports, hpersistent, hcrc, hsakr⟩ := hframe.keeps_crc_sakr (by simp)
    exact ⟨hports, hpersistent, hcrc, fun hne => absurd rfl hne, hsakr, hframe.stores⟩
  · have hframe : Framed (.exchange []) s t := by
      simp only [List.mem_cons, List.not_mem_nil, or_false, hanti] at hi
      obtain ⟨frame, vb, rfl⟩ | (rfl | rfl | rfl | rfl) | ⟨u, lo, hi, rfl⟩ := hi
      all_goals
        refine exec_framed h rfl (by decide) trivial ?_ (by simp [Effect.le, Waiting.effect])
        simp [Effect.le, Active.effect, Effect.exchange]
    obtain ⟨hports, hpersistent, hcrc, hsakr⟩ := hframe.keeps_crc_sakr (by simp)
    exact ⟨hports, hpersistent, hcrc, fun _ => hframe.kept.uidb.resolve_left (by decide), hsakr, hframe.stores⟩

end Sys2Proof.Machine

namespace Sys2Proof.Machine.Chip

/-! ### What steps 1 to 4 leave in the chip record (R140, R58, R62) -/

/-- The record after step 1 and the flush: Idle, the cleared flags, and 0x0A, read as `level`, written back with bit 7. -/
def flushed (c : Chip) (cfg : Config) (dev : DevAddr) (level : Byte) : Chip :=
  (((c.written cfg dev 0x01 0x00).written cfg dev 0x04 cfg.comIrqClearVal).readFrom cfg dev 0x0A level).written cfg dev
    0x0A (level ||| 0x80) 0x80

/-- The record after these bytes were written to the FIFO register. -/
def loadedWith (c : Chip) (cfg : Config) (dev : DevAddr) (bytes : List Byte) : Chip :=
  bytes.foldl (fun c b => c.written cfg dev 0x09 b) c

/-- The record after step 3: the framing, then Transceive. -/
def armed (c : Chip) (cfg : Config) (dev : DevAddr) (vb : ValidBits) : Chip :=
  (c.written cfg dev 0x0D (vb.setWidth 8)).written cfg dev 0x01 0x0C

/-- The record after step 4: 0x0D, read as `framing`, written back with bit 7. -/
def sendStarted (c : Chip) (cfg : Config) (dev : DevAddr) (framing : Byte) : Chip :=
  (c.readFrom cfg dev 0x0D framing).written cfg dev 0x0D (framing ||| 0x80) 0x80

/-- A read-modify-write of bit 7 writes it set. -/
theorem or_bit7_ne_zero (v : Byte) : (v ||| 0x80) &&& (0x80 : Byte) ≠ 0 := by
  rw [or_and_mask]
  decide

/-- A write that resets nothing leaves the device resetting or not, as it was. -/
theorem mayReset_written_kept {c : Chip} {cfg : Config} {dev : DevAddr} {reg v own : Byte}
    (h : reg ≠ 0x01 ∨ v ∈ [0x00, 0x03, 0x0C]) : (c.written cfg dev reg v own).mayReset dev = c.mayReset dev := by
  rw [mayReset_written]
  obtain h | h := h
  · rw [decide_eq_false fun h' => h h'.2, Bool.false_and, Bool.or_false]
  · rw [resets_eq_false_iff.2 h, Bool.and_false, Bool.or_false]

/-- So does a read of another register than 0x01. -/
theorem mayReset_readFrom_kept {c : Chip} {cfg : Config} {dev : DevAddr} {reg v : Byte} (h : reg ≠ 0x01) :
    (c.readFrom cfg dev reg v).mayReset dev = c.mayReset dev := by
  rw [mayReset, readFrom_resetting, if_neg fun h' => h h'.1, mayReset]

theorem readFrom_staged {c : Chip} {cfg : Config} {dev d : DevAddr} {reg v : Byte} (h : reg ≠ 0x09) :
    (c.readFrom cfg dev reg v).staged d = c.staged d := by
  rw [staged, readFrom_fifo h, staged]

section
variable (c : Chip) (cfg : Config) (dev : DevAddr)

theorem flushed_runs (level : Byte) :
    (c.flushed cfg dev level).runs = c.runs ++ [.started dev 0x00 (c.staged dev)] := by
  rw [flushed, written_runs, writeEffect_runs (by decide), readFrom_runs, written_runs, writeEffect_runs (by decide),
    written_runs]
  exact startCommand_runs c dev 0x00

theorem flushed_mayReset (level : Byte) : (c.flushed cfg dev level).mayReset dev = c.mayReset dev := by
  rw [flushed, mayReset_written_kept (.inl (by decide)), mayReset_readFrom_kept (by decide),
    mayReset_written_kept (.inl (by decide)), mayReset_written_kept (.inr (by decide))]

theorem loadedWith_runs (bytes : List Byte) : (c.loadedWith cfg dev bytes).runs = c.runs := by
  induction bytes generalizing c with
  | nil => rfl
  | cons b bs ih => exact (ih _).trans ((written_runs ..).trans (writeEffect_runs (by decide)))

theorem loadedWith_mayReset (bytes : List Byte) : (c.loadedWith cfg dev bytes).mayReset dev = c.mayReset dev := by
  induction bytes generalizing c with
  | nil => rfl
  | cons b bs ih => exact (ih _).trans (mayReset_written_kept (.inl (by decide)))

/-- A count of valid bits is no start-send: bits 7:3 of the framing byte are zero (R89). -/
theorem framing_noSend (vb : ValidBits) : vb.setWidth 8 &&& (0x80 : Byte) = 0 := by
  revert vb
  decide

/-- Writing the framing begins nothing, and the command records the bytes that are then loaded. -/
theorem armed_runs (vb : ValidBits) : (c.armed cfg dev vb).runs =
    c.runs ++ [.started dev 0x0C ((c.written cfg dev 0x0D (vb.setWidth 8)).staged dev)] := by
  have hframing : c.writeEffect cfg dev 0x0D (vb.setWidth 8) = c :=
    if_neg fun h => (starts_iff.1 h).1 (framing_noSend vb)
  have hcommand := startCommand_runs (c.written cfg dev 0x0D (vb.setWidth 8)) dev 0x0C
  rw [written_runs, hframing] at hcommand
  exact (written_runs ..).trans hcommand

theorem armed_mayReset (vb : ValidBits) : (c.armed cfg dev vb).mayReset dev = c.mayReset dev := by
  rw [armed, mayReset_written_kept (.inr (by decide)), mayReset_written_kept (.inl (by decide))]

variable {c cfg dev}

/-- The flush bit is set in the byte written: the FIFO is empty. -/
theorem flushed_staged {level : Byte} (hm : c.mayReset dev = false) : (c.flushed cfg dev level).staged dev = [] := by
  rw [flushed, written_flush, if_neg (or_bit7_ne_zero level)]
  rw [mayReset_readFrom_kept (by decide), mayReset_written_kept (.inl (by decide)),
    mayReset_written_kept (.inr (by decide)), hm]

/-- Bytes that fit are loaded in order (R35, R205). -/
theorem loadedWith_staged {bytes : List Byte} (hm : c.mayReset dev = false)
    (h : (c.staged dev).length + bytes.length ≤ cfg.fifoCapacity) :
    (c.loadedWith cfg dev bytes).staged dev = c.staged dev ++ bytes := by
  induction bytes generalizing c with
  | nil => simp [loadedWith]
  | cons b bs ih =>
    rw [List.length_cons] at h
    have hload : (c.written cfg dev 0x09 b).staged dev = c.staged dev ++ [b] := written_load_room hm (by omega)
    have hrest := ih (c := c.written cfg dev 0x09 b) (mayReset_written_live hm (.inl (by decide)))
      (by rw [hload, List.length_append, List.length_singleton]; omega)
    rw [hload, List.append_assoc] at hrest
    exact hrest

/-- After the flush a frame that fits is what the FIFO holds. -/
theorem flushed_loadedWith_staged {level : Byte} {frame : List Byte} (hm : c.mayReset dev = false)
    (h : frame.length ≤ cfg.fifoCapacity) :
    ((c.flushed cfg dev level).loadedWith cfg dev frame).staged dev = frame := by
  have hempty : (c.flushed cfg dev level).staged dev = [] := flushed_staged hm
  rw [loadedWith_staged ((flushed_mayReset ..).trans hm) (by simpa [hempty] using h), hempty]
  rfl

/-- With the device not resetting, Transceive is the last command, the framing is the count, and the FIFO is as loaded. -/
theorem armed_live {vb : ValidBits} (hm : c.mayReset dev = false) :
    (c.armed cfg dev vb).held dev 0x01 = some 0x0C ∧ (c.armed cfg dev vb).held dev 0x0D = some (vb.setWidth 8) ∧
      (c.armed cfg dev vb).staged dev = (c.written cfg dev 0x0D (vb.setWidth 8)).staged dev ∧
      (c.written cfg dev 0x0D (vb.setWidth 8)).staged dev = c.staged dev := by
  have hm' : (c.written cfg dev 0x0D (vb.setWidth 8)).mayReset dev = false := mayReset_written_live hm (.inl (by decide))
  obtain ⟨command, hcommand, -, hwhole, -⟩ :=
    held_written_some (cfg := cfg) (v := 0x0C) (own := 0xFF) hm' (.inr (by decide)) (r := 0x01) (by decide)
  obtain ⟨framing, hframing, -, hcount, -⟩ :=
    held_written_some (cfg := cfg) (v := vb.setWidth 8) (own := 0xFF) hm (.inl (by decide)) (r := 0x0D) (by decide)
  obtain ⟨-, hstaged, -⟩ := written_framing (cfg := cfg) (own := 0xFF) hm (.inl (framing_noSend vb))
  refine ⟨?_, ?_, written_command_keepsFifo hm' (by decide), hstaged⟩
  · rw [armed, hcommand, hwhole (.inl rfl)]
  · rw [armed, held_written_kept (.inr (by decide)) (by decide), hframing, hcount (.inr rfl)]

/-- Of a device that may be resetting the record knows no command. -/
theorem armed_resetting {vb : ValidBits} (hm : c.mayReset dev = true) : (c.armed cfg dev vb).held dev 0x01 = none :=
  (written_unknown_of_mayReset ((armed_mayReset c cfg dev vb).trans hm)).1

/-- With no command known to be Transceive nothing is sent. -/
theorem sendStarted_runs_noCommand {framing : Byte} (h : c.held dev 0x01 = none) :
    (c.sendStarted cfg dev framing).runs = c.runs := by
  have hnot : ¬ (c.readFrom cfg dev 0x0D framing).starts dev (framing ||| 0x80) = true := by
    rw [starts_iff, held_readFrom, if_neg (by simp), h]
    simp
  have heffect : (c.readFrom cfg dev 0x0D framing).writeEffect cfg dev 0x0D (framing ||| 0x80) = _ := if_neg hnot
  rw [sendStarted, written_runs, heffect, readFrom_runs]

/-- Start-send sends the bytes loaded, which leave the FIFO, and stays set in 0x0D; the count is the one held where it is
the one read. -/
theorem sendStarted_live {framing : Byte} (hm : c.mayReset dev = false) (hcommand : c.held dev 0x01 = some 0x0C) :
    (∃ bits, (c.sendStarted cfg dev framing).runs = c.runs ++ [.sent dev (c.staged dev) bits] ∧
      ((c.held dev 0x0D).map (·.setWidth 3) = some (framing.setWidth 3) → bits = framing.setWidth 3)) ∧
    (c.sendStarted cfg dev framing).staged dev = [] ∧
    ∃ b : Byte, (c.sendStarted cfg dev framing).held dev 0x0D = some b ∧ b &&& 0x80 = 0x80 := by
  have hread : (c.readFrom cfg dev 0x0D framing).mayReset dev = false := by
    rw [mayReset_readFrom_kept (by decide), hm]
  have hheld (r : Byte) : (c.readFrom cfg dev 0x0D framing).held dev r = c.held dev r := by
    rw [held_readFrom, if_neg (by simp)]
  have hcount : (framing ||| 0x80).setWidth 3 = framing.setWidth 3 := by
    rw [BitVec.setWidth_or]
    exact BitVec.or_zero
  obtain ⟨⟨bits, hruns, hbits, -⟩, hstaged, -⟩ := written_send (cfg := cfg) (own := 0x80) hread
    (or_bit7_ne_zero framing) ((hheld 0x01).trans hcommand)
  rw [readFrom_runs, readFrom_staged (by decide)] at hruns
  rw [hheld, hcount] at hbits
  obtain ⟨b, hb, hown, -⟩ := held_written_some (cfg := cfg) (v := framing ||| 0x80) (own := 0x80) hread
    (.inl (by decide)) (r := 0x0D) (by decide)
  exact ⟨⟨bits, hruns, hbits⟩, hstaged, b, hb, hown.trans (or_and_mask framing 0x80)⟩

end

end Sys2Proof.Machine.Chip

namespace Sys2Proof.Machine

/-- A load leaves its bytes in the chip record. -/
theorem played_load_chip {frame : List Byte} {loads : List Answer} (s : State) (hl : loads.length = frame.length)
    (hf : noFault (loadScript frame loads) = true) :
    (played (loadScript frame loads) s).chip = s.chip.loadedWith s.config s.addr frame := by
  induction frame generalizing loads s with
  | nil => rfl
  | cons b bs ih =>
    obtain _ | ⟨a, as⟩ := loads
    · cases hl
    · rw [loadScript_cons, noFault_cons] at hf
      obtain ⟨hfirst, hrest⟩ := hf
      have ha : a.fails = false := hfirst
      rw [loadScript_cons, played_cons, ih _ (Nat.succ.inj hl) hrest, perform_chip_wr, ha, perform_config, perform_addr]
      rfl

/-- What steps 1 to 4 leave in the chip record. -/
theorem played_head_chip {frame : List Byte} {vb : ValidBits} {x : XcvRun} (s : State)
    (hl : x.loads.length = frame.length) (hf : noFault (x.headScript s.config frame vb) = true) :
    (played (x.headScript s.config frame vb) s).chip =
      (((s.chip.flushed s.config s.addr x.level.byte).loadedWith s.config s.addr frame).armed s.config s.addr
        vb).sendStarted s.config s.addr x.sendRead.byte := by
  simp only [XcvRun.headScript, List.cons_append, List.nil_append, noFault_append, noFault_cons, Prim.faults] at hf
  obtain ⟨f1, f2, f3, f4, f5, f6, f7, f8, f9, -⟩ := hf
  simp only [XcvRun.headScript, List.cons_append, List.nil_append, played_append, played_cons, played_nil,
    perform_chip_wr, perform_chip_rd, played_load_chip _ hl f5, perform_config, perform_addr, played_config, played_addr,
    f1, f2, f3, f4, f6, f7, f8, f9, Bool.false_eq_true, if_false]
  rfl

/-- A transceive that is given the answers of steps 1 to 4, none of them a failure, is about to poll. -/
theorem exec_transceive_send {s : State} {frame : List Byte} {vb : ValidBits} {x : XcvRun} (hs : s.seq = none)
    (ha : s.answers = answersOf (x.headScript s.config frame vb)) (hf : noFault (x.headScript s.config frame vb) = true)
    (hl : x.loads.length = frame.length) :
    ∃ t, exec (.transceive frame (vb.setWidth 8)) s = .next t ∧
      t.seq = some ⟨.poll ⟨0x04, 0x30, .set, s.config.tXcvMs⟩ .p0, [.transceive]⟩ ∧
      t.chip = (((s.chip.flushed s.config s.addr x.level.byte).loadedWith s.config s.addr frame).armed s.config s.addr
        vb).sendStarted s.config s.addr x.sendRead.byte := by
  have hrun := run_xcv_send (ws := []) (rest := []) frame vb x (s.setResult none) hl hf
  rw [List.append_nil] at hrun
  refine ⟨_, (exec_transceive frame vb s).trans (start_run (s := s.setTxf frame vb) hs ha ?_), ?_, ?_⟩
  · simp [XcvRun.headScript, answersOf_cons]
  · exact congrArg State.seq hrun
  · exact (congrArg State.chip hrun).trans (played_head_chip ((s.setResult none).setTxf frame vb) hl hf)

/-- Settles O29: the record is Idle's, the load's, Transceive's and start-send's in turn, and the last sends only where the
device is not resetting, so that Transceive is known to be its last command. -/
theorem transceiveSendsTheLoadedFrame : Obligations.TransceiveSendsTheLoadedFrame := by
  intro s frame vb x hs ha hf hl
  set c := (s.chip.flushed s.config s.addr x.level.byte).loadedWith s.config s.addr frame with hc
  have hmay : c.mayReset s.addr = s.chip.mayReset s.addr := by
    rw [hc, Chip.loadedWith_mayReset, Chip.flushed_mayReset]
  have hruns : (c.armed s.config s.addr vb).runs = s.chip.runs ++ [.started s.addr 0x00 (s.chip.staged s.addr),
      .started s.addr 0x0C ((c.written s.config s.addr 0x0D (vb.setWidth 8)).staged s.addr)] := by
    rw [Chip.armed_runs, hc, Chip.loadedWith_runs, Chip.flushed_runs, List.append_assoc]
    rfl
  obtain ⟨t, hexec, hseq, hchip⟩ := exec_transceive_send hs ha hf hl
  cases hm : s.chip.mayReset s.addr with
  | true =>
    have hnone := Chip.armed_resetting (cfg := s.config) (vb := vb) (hmay.trans hm)
    refine ⟨t, (c.written s.config s.addr 0x0D (vb.setWidth 8)).staged s.addr, [], hexec, hseq, ?_,
      fun _ => rfl, Bool.noConfusion⟩
    rw [hchip, Chip.sendStarted_runs_noCommand hnone, hruns, List.append_nil]
  | false =>
    obtain ⟨hcommand, hframing, hstaged, hloaded⟩ := Chip.armed_live (cfg := s.config) (vb := vb) (hmay.trans hm)
    obtain ⟨⟨bits, hsent, hbits⟩, hempty, hset⟩ := Chip.sendStarted_live (cfg := s.config) (framing := x.sendRead.byte)
      ((Chip.armed_mayReset ..).trans (hmay.trans hm)) hcommand
    have hcount : (vb.setWidth 8 : Byte).setWidth 3 = vb := by simp
    rw [hframing, Option.map_some, hcount] at hbits
    refine ⟨t, _, [.sent s.addr _ bits], hexec, hseq, ?_, Bool.noConfusion, fun _ => ⟨⟨bits, rfl, fun hread => ?_⟩,
      fun h => hloaded.trans (Chip.flushed_loadedWith_staged hm h), hchip ▸ hempty, hchip ▸ hset⟩⟩
    · rw [hchip, hsent, hruns, hstaged]
    · exact (hbits (congrArg some hread.symm)).trans hread

end Sys2Proof.Machine

/-! Proofs of the statements about reqa, anticollision, select and readUid (44_anticollision_select.md R150 to R155). -/

namespace Sys2Proof.Machine

/-! ### Whole runs of the protocol steps (R150 to R153) -/

/-- An operation whose run over its script's answers is known for every state starts with that run, whatever result the
operation before it left. -/
theorem start_script {f : Active} {ws : List Waiting} {s : State} {xs : List (Prim × Answer)} {rest : List Answer}
    {r : Result} {after : State → State} (hs : readyFor xs rest s) (hne : xs ≠ [])
    (hafter : after (s.setResult none) = (after s).setResult none)
    (hrun : run (answersOf xs ++ rest) ((s.setResult none).setSeq (some ⟨f, ws⟩)) =
      run rest (giveBack [] r (after (s.setResult none)))) : start f ws s = .next (ended r rest (after s)) := by
  rw [start_ended hs hne hrun, hafter, ended_setResult]

theorem exec_reqa {s : State} {x : ReqaRun} {rest : List Answer} (hs : readyFor (x.script s.config) rest s)
    (hf : noFault (x.script s.config) = true) (hok : x.ok s.config = true) :
    exec .reqa s = .next (ended (.flag x.result) rest (x.after s.config s)) :=
  start_script hs (List.cons_ne_nil _ _) (x.after_setResult _ s none) (run_reqa x (s.setResult none) hok hf)

/-- reqa is true exactly on a successful exchange of at least two bytes (R29). -/
theorem ReqaRun.result_iff (x : ReqaRun) :
    x.result = true ↔ x.exchange.result.ok = true ∧ 2 ≤ x.exchange.result.rxbuf.length := by
  rw [ReqaRun.result, Bool.and_eq_true, decide_eq_true_eq]

/-- Settles O31: reqa's run is its script's, whatever the exchange returned. -/
theorem reqaDetectsACard : Obligations.ReqaDetectsACard :=
  fun _ x _ hs hf hok => ⟨exec_reqa hs hf hok, x.result_iff⟩

/-- anticollision has a result exactly on a successful exchange of at least five bytes (R29). -/
theorem AnticollRun.result_isSome_iff (x : AnticollRun) :
    x.result.isSome = true ↔ x.exchange.result.ok = true ∧ 5 ≤ x.exchange.result.rxbuf.length := by
  have hok : x.result.isSome = anticollOk x.exchange.result := by
    rw [x.result_eq]
    cases anticollOk x.exchange.result <;> rfl
  rw [hok, anticollOk, Bool.and_eq_true, decide_eq_true_eq, Config.minAnticoll]

/-- Settles O33: anticollision's run is its script's, with the assignment to UIDB on success only. -/
theorem anticollisionTakesTheFirstFiveBytes : Obligations.AnticollisionTakesTheFirstFiveBytes :=
  fun s x _ hs hf hok =>
    ⟨start_script hs (by simp [AnticollRun.script, AnticollRun.headScript]) (x.after_setResult _ s none)
      (run_anticollision x (s.setResult none) hok hf), x.result_isSome_iff⟩

/-- select has a SAK exactly on a successful exchange of at least one byte (R29). -/
theorem SelectRun.sak_isSome_iff (x : SelectRun) :
    x.sak.isSome = true ↔ x.exchange.result.ok = true ∧ 1 ≤ x.exchange.result.rxbuf.length := by
  have hok : x.sak.isSome = selectOk x.exchange.result := by
    rw [x.sak_eq]
    cases selectOk x.exchange.result <;> rfl
  rw [hok, selectOk, Bool.and_eq_true, decide_eq_true_eq, Config.minSak]

/-- Settles O34: select's run is computeCrc's and then the exchange's, with the assignment to SAKR on success only. -/
theorem selectTakesTheSak : Obligations.SelectTakesTheSak :=
  fun s u x _ hs hf hok =>
    ⟨start_script hs (by simp [SelectRun.script, SelectRun.headScript, CrcRun.script, CrcRun.headScript])
      (x.after_setResult _ s none u) (run_select u x (s.setResult none) hok hf), x.sak_isSome_iff⟩

/-- Every run of readUid begins with reqa's framing write. -/
theorem ReadUidRun.script_ne_nil (c : Config) (x : ReadUidRun) : x.script c ≠ [] := by
  cases x <;> exact List.cons_ne_nil _ _

/-- Settles O35: readUid's run is reqa's, anticollision's and select's in turn, up to the first that fails. -/
theorem readUidChainsTheThreeSteps : Obligations.ReadUidChainsTheThreeSteps :=
  fun s x _ hs hf hok =>
    start_script hs (x.script_ne_nil _) (x.after_setResult _ s none) (run_readUid x (s.setResult none) hok hf)

/-! ### The framing after reqa (R150, R198, R203) -/

/-- The primitive neither starts a device's reset nor ends one. -/
def Prim.keepsReset : Prim → Bool
  | .wr reg v _ => reg != 0x01 || !Chip.resets v
  | .rd reg => reg != 0x01
  | _ => true

/-- Only a SoftReset and a read of 0x01 start or end a device's reset (R31, R62 a). -/
theorem perform_mayReset {p : Prim} (a : Answer) (s : State) (d : DevAddr) (hp : p.keepsReset = true) :
    (perform p a s).state.chip.mayReset d = s.chip.mayReset d := by
  cases p with
  | wr reg v own =>
    have hkeep : (decide (d = s.addr ∧ reg = 0x01) && Chip.resets v) = false := by
      obtain hreg | hv := (Bool.or_eq_true _ _).mp hp
      · rw [decide_eq_false fun h => bne_iff_ne.1 hreg h.2, Bool.false_and]
      · rw [(Bool.not_eq_true' _).mp hv, Bool.and_false]
    rw [perform_chip_wr]
    split
    · rfl
    · rw [Chip.mayReset_written, hkeep, Bool.or_false]
  | rd reg => rw [Chip.mayReset, perform_resetting a s (p := .rd reg) hp, Chip.mayReset]
  | now => rfl
  | pause n => rfl
  | assign => rfl

/-- No step of a script starts or ends a device's reset. -/
def noReset (script : List (Prim × Answer)) : Bool := script.all fun x => x.1.keepsReset

theorem noReset_cons {x : Prim × Answer} {xs : List (Prim × Answer)} :
    noReset (x :: xs) = true ↔ x.1.keepsReset = true ∧ noReset xs = true := by
  simp [noReset]

theorem noReset_append {xs ys : List (Prim × Answer)} :
    noReset (xs ++ ys) = true ↔ noReset xs = true ∧ noReset ys = true := by
  simp [noReset]

theorem played_mayReset {xs : List (Prim × Answer)} (s : State) (d : DevAddr) (hxs : noReset xs = true) :
    (played xs s).chip.mayReset d = s.chip.mayReset d := by
  induction xs generalizing s with
  | nil => rfl
  | cons x xs ih =>
    obtain ⟨hx, hxs⟩ := noReset_cons.1 hxs
    rw [played_cons, ih _ hxs, perform_mayReset _ _ _ hx]

theorem noReset_loadScript (bytes : List Byte) (loads : List Answer) : noReset (loadScript bytes loads) = true := by
  simp [noReset, loadScript, Prim.keepsReset]

/-- A poll of another register than 0x01 ends no reset. -/
theorem PollRun.noReset_script {reg : Byte} (c : Config) (p : PollRun) (h : reg ≠ 0x01) :
    noReset (p.script reg c) = true := by
  have hread : (Prim.rd reg).keepsReset = true := bne_iff_ne.2 h
  have hturns : noReset (p.misses.flatMap (turnScript reg c)) = true := by
    induction p.misses with
    | nil => rfl
    | cons t ts ih => exact noReset_append.2 ⟨noReset_cons.2 ⟨hread, rfl⟩, ih⟩
  have hlast : noReset (lastScript reg p.last) = true := by
    cases p.last <;> exact noReset_cons.2 ⟨hread, rfl⟩
  exact noReset_cons.2 ⟨rfl, noReset_append.2 ⟨hturns, hlast⟩⟩

/-- Steps 1 to 4 of an exchange write only Idle and Transceive to 0x01. -/
theorem XcvRun.noReset_headScript (c : Config) (frame : List Byte) (vb : ValidBits) (x : XcvRun) :
    noReset (x.headScript c frame vb) = true :=
  noReset_append.2 ⟨noReset_append.2 ⟨rfl, noReset_loadScript _ _⟩, rfl⟩

theorem XcvRun.noReset_endScript (e : XcvEnd) : noReset (endScript e) = true := by
  cases e with
  | timeout => rfl
  | frameError => rfl
  | success _ _ drains =>
    have hdrains : noReset (drains.map fun d => (Prim.rd 0x09, d)) = true := by simp [noReset, Prim.keepsReset]
    exact noReset_append.2 ⟨noReset_append.2 ⟨rfl, hdrains⟩, rfl⟩

@[simp] theorem XcvRun.after_addr (c : Config) (frame : List Byte) (vb : ValidBits) (x : XcvRun) (s : State) :
    (x.after c frame vb s).addr = s.addr := by
  simp [XcvRun.after, PollRun.after]

/-- An exchange resets nothing. -/
theorem XcvRun.after_mayReset (c : Config) (frame : List Byte) (vb : ValidBits) (x : XcvRun) (s : State) (d : DevAddr) :
    (x.after c frame vb s).chip.mayReset d = s.chip.mayReset d := by
  rw [XcvRun.after, State.setRes_chip, played_mayReset _ d (noReset_endScript _), PollRun.after, State.setPv_chip,
    State.setT0_chip, played_mayReset _ d (x.poll.noReset_script c (by decide)),
    played_mayReset _ d (x.noReset_headScript c frame vb), State.setTxf_chip]

/-- After a completed write of 0x0D the device holds the byte written, unless it may still be resetting (R46, R203). -/
theorem perform_framing_held {a : Answer} {s : State} {d : DevAddr} (v : Byte) (ha : a.fails = false) (hd : s.addr = d)
    (hm : s.chip.mayReset d = false) : (perform (.wr 0x0D v) a s).state.chip.held d 0x0D = some v := by
  obtain ⟨b, hb, -, hwhole, -⟩ := Chip.held_written_some (cfg := s.config) (v := v) (own := 0xFF) hm
    (.inl (by decide : (0x0D : Byte) ≠ 0x01)) (by decide)
  rw [perform_chip_wr, ha, if_neg Bool.false_ne_true, hd, hb, hwhole (.inr rfl)]

/-- Settles O32: the restoring write is the last step of reqa's script, and nothing before it resets the device. -/
theorem reqaRestoresFullByteFraming : Obligations.ReqaRestoresFullByteFraming := by
  intro s x rest hs hf hok
  have hrestore : x.restore.fails = false := by
    simp only [ReqaRun.script, noFault_cons, noFault_append] at hf
    obtain ⟨-, -, hrestore, -⟩ := hf
    exact hrestore
  refine ⟨_, exec_reqa hs hf hok, rfl, ?_, fun hm => ?_, fun hfail => ?_⟩
  · simp [ended, endOperation, ReqaRun.after, perform_trace, eventOf, hrestore]
  · refine perform_framing_held 0x00 hrestore (by simp) ?_
    rw [XcvRun.after_mayReset, played_mayReset _ _ rfl, hm]
  · simp [ended, endOperation, ReqaRun.result, hfail]

/-! ### What select and readUid leave alone (R152, R153) -/

/-- An operation whose effect leaves INIT out keeps the ports, ADDR and INIT. -/
theorem Framed.keeps_ports_persistent {e : Effect} {s t : State} (h : Framed e s t) (hinit : .init ∉ e.groups) :
    keptPorts s t ∧ keptPersistent s t :=
  ⟨⟨h.config, h.requests⟩, h.addr, h.kept.init.resolve_left hinit⟩

theorem exchange_sakr_le_select : (Effect.exchange [.sakr]).le .select :=
  ⟨by decide, fun _ hr => List.mem_append_left _ hr⟩

theorem computeCrc_le_select (bytes : List Byte) (p : CrcPhase) : (Active.computeCrc bytes p).effect.le .select :=
  ⟨show ∀ g ∈ [Group.crc, .poll], _ by decide, fun _ hr => List.mem_append_right _ hr⟩

theorem reqaFraming_le_readUid : Active.reqaFraming.effect.le .readUid :=
  ⟨show ∀ g ∈ [Group.tx, .res, .poll], _ by decide, fun _ hr => List.mem_append_left _ hr⟩

/-- Settles O56: select starts at computeCrc below its exchange, readUid at reqa below the steps after it. -/
theorem frameOfSelectAndReadUid : Obligations.FrameOfSelectAndReadUid := by
  intro i s t h hi
  obtain ⟨u, rfl⟩ | rfl := hi
  · have hframe : Framed .select s t :=
      start_framed (f := .computeCrc (selectHead u) .c0) (ws := [.selectCrc u]) h trivial (computeCrc_le_select _ _)
        (List.forall_mem_singleton.2 exchange_sakr_le_select)
    obtain ⟨hports, hpersistent⟩ := hframe.keeps_ports_persistent (by decide)
    exact ⟨hports, hpersistent, fun _ => hframe.kept.uidb.resolve_left (by decide), hframe.stores⟩
  · have hframe : Framed .readUid s t :=
      start_framed (f := .reqaFraming) (ws := [.readUidReqa]) h trivial reqaFraming_le_readUid
        (List.forall_mem_singleton.2 (Effect.le_refl _))
    obtain ⟨hports, hpersistent⟩ := hframe.keeps_ports_persistent (by decide)
    exact ⟨hports, hpersistent, fun hne => absurd rfl hne, hframe.stores⟩

end Sys2Proof.Machine

/-! Proofs of the statements about the host surface (45_host_surface.md R160 to R165). -/

namespace Sys2Proof.Machine

/-! ### Operations that end in the step that starts them (R160, R164) -/

/-- With SEQ = IDLE such an operation changes the result at the host port alone. -/
theorem startEnded_idle {r : Result} {s : State} (h : s.seq = none) : startEnded r s = .next (s.setResult (some r)) := by
  have hself : s.setSeq none = s := by rw [← h]; rfl
  simp only [startEnded, h, endOperation, hself]

/-- Settles O39: one assignment, `maskAddr`, which is the address modulo 128. -/
theorem setAddressMasksToSevenBits : Obligations.SetAddressMasksToSevenBits := by
  intro addr s h
  rw [← maskAddr_mod]
  exact startEnded_idle (s := s.setAddr (maskAddr addr)) h

/-- The model's alphabet is R99's, character by character. -/
theorem hexAlphabet_eq : hexAlphabet = "0123456789abcdef".toList := by decide

theorem getElem?_hexAlphabet {n : Nat} (h : n < 16) : "0123456789abcdef".toList[n]? = some (hexDigit n) := by
  have hlen : n < hexAlphabet.length := h
  rw [← hexAlphabet_eq, List.getElem?_eq_getElem hlen, hexDigit, List.getD_eq_getElem _ _ hlen]

theorem hexText_cons (b : Byte) (bytes : List Byte) :
    hexText (b :: bytes) = hexDigit (b.toNat / 16) :: hexDigit (b.toNat % 16) :: hexText bytes := rfl

/-- Byte `k` of the input is characters `2 * k` and `2 * k + 1` of the text. -/
theorem getElem?_hexText {bytes : List Byte} {k : Nat} {b : Byte} (h : bytes[k]? = some b) :
    (hexText bytes)[2 * k]? = some (hexDigit (b.toNat / 16)) ∧
      (hexText bytes)[2 * k + 1]? = some (hexDigit (b.toNat % 16)) := by
  induction bytes generalizing k with
  | nil => simp at h
  | cons c bytes ih =>
    rw [hexText_cons]
    cases k with
    | zero =>
      obtain rfl : c = b := by simpa using h
      exact ⟨rfl, rfl⟩
    | succ k => exact ih (by simpa using h)

/-- Settles O40: the text of a list of bytes, whose digits are below 16. -/
theorem toHexGivesTwoDigitsPerByte : Obligations.ToHexGivesTwoDigitsPerByte := by
  intro bytes s hs
  refine ⟨hexText bytes, startEnded_idle hs, length_hexText bytes, fun k b hb => ?_⟩
  have hbyte : b.toNat < 256 := b.isLt
  rw [getElem?_hexAlphabet (by omega), getElem?_hexAlphabet (by omega)]
  exact getElem?_hexText hb

/-! ### Lazy initialisation as a whole run (R161 to R163, R165) -/

@[simp] theorem SoftResetRun.after_config (c : Config) (x : SoftResetRun) (s : State) :
    (x.after c s).config = s.config := by
  simp [SoftResetRun.after]

@[simp] theorem InitRun.after_config (c : Config) (address : Nat) (x : InitRun) (s : State) :
    (x.after c address s).config = s.config := by
  simp [InitRun.after]

/-- A caller that goes on when its callee has returned. -/
theorem giveBack_enter {w : Waiting} {ws cs : List Waiting} {f : Active} {r : Result} {s t : State}
    (h : returned w r s = (t, .enter f cs)) : giveBack (w :: ws) r s = t.setSeq (some ⟨f, cs ++ ws⟩) := by
  simp only [giveBack, h]

/-- initialize below a caller that then goes on at `f`: its own run, then the run from `f` on over `xs`. -/
theorem startInit_script {s : State} {w : Waiting} {f : Active} {ws : List Waiting} {y : InitRun}
    {xs : List (Prim × Answer)} {rest : List Answer} {r : Result} {after : State → State}
    (hs : readyFor (y.script s.config ++ xs) rest s)
    (hf : noFault (y.script s.config) = true) (hok : y.ok s.config = true)
    (hw : ∀ t, returned w .done t = (t, .enter f ws))
    (hafter : ∀ t, after (t.setResult none) = (after t).setResult none)
    (hrun : ∀ t, t.config = s.config →
      run (answersOf xs ++ rest) (t.setSeq (some ⟨f, ws⟩)) = run rest (giveBack [] r (after t))) :
    startInit s.addr.toNat [w] s = .next (ended r rest (after (y.after s.config s.addr.toNat s))) := by
  refine start_script (after := fun t => after (y.after s.config s.addr.toNat t)) hs
    (by simp [InitRun.script]) (by rw [y.after_setResult, hafter]) ?_
  have hinit := run_initialize (ws := [w]) (rest := answersOf xs ++ rest) y s.addr.toNat (s.setResult none) hok hf
  rw [answersOf_append, List.append_assoc]
  refine hinit.trans ?_
  rw [giveBack_enter (hw _), List.append_nil]
  exact hrun _ (by simp)

/-- An instruction that initializes lazily and goes on at `f`, where the answers of `xs` carry it to its return if they
meet the conditions `ok`: with INIT = 1 at once, with INIT = 0 after initialize's run. -/
theorem exec_lazily {i : Instr} {s : State} {w : Waiting} {f : Active} {ws : List Waiting} {xs : List (Prim × Answer)}
    {rest : List Answer} {ok : Bool} {r : Result} {after : State → State}
    (hexec : exec i s = if s.init then start f ws s else startInit s.addr.toNat [w] s) (hne : xs ≠ [])
    (hw : ∀ t, returned w .done t = (t, .enter f ws))
    (hafter : ∀ t, after (t.setResult none) = (after t).setResult none)
    (hrun : noFault xs = true → ok = true → ∀ t, t.config = s.config →
      run (answersOf xs ++ rest) (t.setSeq (some ⟨f, ws⟩)) = run rest (giveBack [] r (after t))) :
    (s.init = true → readyFor xs rest s → noFault xs = true → ok = true →
      exec i s = .next (ended r rest (after s))) ∧
    ∀ y : InitRun, s.init = false → readyFor (y.script s.config ++ xs) rest s →
      noFault (y.script s.config ++ xs) = true → y.ok s.config = true → ok = true →
      exec i s = .next (ended r rest (after (y.after s.config s.addr.toNat s))) := by
  refine ⟨fun hi hs hf hok => ?_, fun y hi hs hf hy hok => ?_⟩
  · rw [hexec, if_pos hi]
    exact start_script hs hne (hafter s) (hrun hf hok _ rfl)
  · obtain ⟨hfy, hfx⟩ := noFault_append.1 hf
    rw [hexec, if_neg (by simp [hi])]
    exact startInit_script hs hfy hy hw hafter (hrun hfx hok)

/-- reqa below isCardPresent: its verdict goes on to the host (R161). -/
theorem run_isCardPresentReqa {x : ReqaRun} {rest : List Answer} {c : Config} (hf : noFault (x.script c) = true)
    (hok : x.ok c = true) (t : State) (ht : t.config = c) :
    run (answersOf (x.script c) ++ rest) (t.setSeq (some ⟨.reqaFraming, [.isCardPresentReqa]⟩)) =
      run rest (giveBack [] (.flag x.result) (x.after c t)) := by
  subst ht
  exact run_reqa x t hok hf

/-- Settles O36: reqa's run below a caller that passes its verdict on, by itself or after initialize's. -/
theorem isCardPresentIsLazyReqa : Obligations.IsCardPresentIsLazyReqa :=
  fun _ x _ =>
    exec_lazily (w := .isCardPresentInit) rfl (List.cons_ne_nil _ _) (fun _ => rfl)
      (fun t => x.after_setResult _ t none) run_isCardPresentReqa

/-- readUid below readUidHex: the text of its UID, or the empty text, goes to the host (R162). -/
theorem run_readUidHexUid {x : ReadUidRun} {rest : List Answer} {c : Config} {text : List Char}
    (huid : ∀ u, x.result = some u → text = hexText [u.uid0, u.uid1, u.uid2, u.uid3])
    (hnone : x.result = none → text = []) (hf : noFault (x.script c) = true) (hok : x.ok c = true) (t : State)
    (ht : t.config = c) :
    run (answersOf (x.script c) ++ rest) (t.setSeq (some ⟨.reqaFraming, [.readUidReqa, .readUidHexUid]⟩)) =
      run rest (giveBack [] (.text text) (x.after c t)) := by
  subst ht
  rw [run_readUid x t hok hf]
  cases hx : x.result with
  | none => rw [hnone hx]; rfl
  | some u => rw [huid u hx]; rfl

/-- Settles O37: readUid's run below a caller that writes its UID out in hex, by itself or after initialize's. -/
theorem readUidHexIsLazyReadUid : Obligations.ReadUidHexIsLazyReadUid :=
  fun _ x _ _ huid hnone =>
    exec_lazily (w := .readUidHexInit) rfl (x.script_ne_nil _) (fun _ => rfl) (fun t => x.after_setResult _ t none)
      (run_readUidHexUid huid hnone)

/-- Settles O38: a read of one phase, by itself or after initialize's run; a read of 0x37 leaves no mark in the chip
record. -/
theorem versionIsALazyReadOfTheVersionRegister : Obligations.VersionIsALazyReadOfTheVersionRegister := by
  intro s a rest ha
  refine ⟨fun hi hs hready => ?_, fun y hi hs hf hy => ?_⟩
  · have hexec : exec .version s = start .version [] s := if_pos hi
    obtain ⟨hread, -⟩ := start_read (f := .version) (reg := 0x37) hs hready (fun _ => rfl) (fun _ _ => rfl)
    rw [hexec, hread ha, Chip.readFrom_unmarked _ _ _ _ (by decide)]
  · have hexec : exec .version s = startInit s.addr.toNat [.versionInit] s := if_neg (by simp [hi])
    rw [hexec]
    exact startInit_script (f := .version) (ws := []) (after := played [(.rd 0x37, a)]) hs hf hy (fun _ => rfl)
      (fun t => played_setResult _ t none) fun _ _ => run_ret (p := .rd 0x37) ha rfl rfl

/-! ### What the lazily initialising operations leave alone (R161 to R163, R165) -/

/-- An effect behind lazy initialisation: with INIT = 0 also initialize's, which resets the device. -/
def Effect.lazily (e : Effect) (init : Bool) : Effect :=
  ⟨(if init then [] else [.init, .poll]) ++ e.groups, e.stores ++ if init then [] else everyReg⟩

theorem Effect.le_lazily (e : Effect) (init : Bool) : e.le (e.lazily init) :=
  ⟨fun _ hg => List.mem_append_right _ hg, fun _ hr => List.mem_append_left _ hr⟩

/-- initialize keeps within what it adds to an effect. -/
theorem Effect.le_lazily_false (e : Effect) {e' : Effect} (h : ∀ g ∈ e'.groups, g = .init ∨ g = .poll) :
    e'.le (e.lazily false) := by
  refine ⟨fun g hg => List.mem_append_left _ ?_, fun r _ => List.mem_append_right _ (mem_everyReg r)⟩
  simpa using h g hg

/-- Initializing with the address ADDR holds writes what is there. -/
theorem setAddr_maskAddr_self (s : State) : s.setAddr (maskAddr s.addr.toNat) = s :=
  congrArg s.setAddr (by simp [maskAddr] : maskAddr s.addr.toNat = s.addr)

/-- An operation that starts at `f` with INIT = 1, and at initialize(ADDR) below `w` with INIT = 0. -/
theorem lazily_framed {e : Effect} {f : Active} {ws : List Waiting} {w : Waiting} {s t : State}
    (h : (if s.init then start f ws s else startInit s.addr.toNat [w] s) = .next t) (hf : f.fixesAddr)
    (hfe : f.effect.le e) (hws : ∀ v ∈ ws, v.effect.le e) (hw : w.effect.le e) : Framed (e.lazily s.init) s t := by
  cases hi : s.init with
  | true =>
    rw [if_pos hi] at h
    have hle := e.le_lazily true
    exact start_framed h hf (Effect.le_trans hfe hle) fun v hv => Effect.le_trans (hws v hv) hle
  | false =>
    rw [if_neg (by simp [hi])] at h
    have hframe : Framed (e.lazily false) (s.setAddr (maskAddr s.addr.toNat)) t := by
      refine startInit_framed h (e.le_lazily_false (by simp [Active.effect])) ?_
      rw [List.forall_mem_cons, List.forall_mem_singleton]
      exact ⟨e.le_lazily_false (by simp [Waiting.effect]), Effect.le_trans hw (e.le_lazily false)⟩
    rwa [setAddr_maskAddr_self] at hframe

/-- INIT = 1 stays when the operation behind the initialisation leaves INIT out. -/
theorem Framed.keeps_init {e : Effect} {s t : State} (h : Framed (e.lazily s.init) s t) (he : .init ∉ e.groups)
    (hi : s.init = true) : t.init = true := by
  rw [hi] at h
  exact (h.kept.init.resolve_left he).trans hi

/-- Settles O57: the frames behind the initialisation are reqa's, readUid's and a read of 0x37, which changes nothing. -/
theorem frameOfLazyOperations : Obligations.FrameOfLazyOperations := by
  refine ⟨fun s t h => ?_, fun s t h => ?_, fun s t h => ?_⟩
  · have hframe : Framed ((Effect.exchange []).lazily s.init) s t :=
      lazily_framed (f := .reqaFraming) (ws := [.isCardPresentReqa]) (w := .isCardPresentInit) h trivial
        (Effect.le_refl _) (by simp [Effect.le, Waiting.effect]) (Effect.le_refl _)
    have hout : ∀ g ∈ [Group.crc, .uidb, .sakr], g ∉ ((Effect.exchange []).lazily s.init).groups := by
      cases s.init <;> decide
    exact ⟨⟨hframe.config, hframe.requests⟩, hframe.addr, hframe.keeps_init (by decide),
      hframe.kept.crc.resolve_left (hout _ (by decide)), hframe.kept.uidb.resolve_left (hout _ (by decide)),
      hframe.kept.sakr.resolve_left (hout _ (by decide)), hframe.stores⟩
  · have hframe : Framed (Effect.readUid.lazily s.init) s t :=
      lazily_framed (f := .reqaFraming) (ws := [.readUidReqa, .readUidHexUid]) (w := .readUidHexInit) h trivial
        reqaFraming_le_readUid (by simp [Effect.le, Waiting.effect]) (Effect.le_refl _)
    exact ⟨⟨hframe.config, hframe.requests⟩, hframe.addr, hframe.keeps_init (by decide), hframe.stores⟩
  · have hframe : Framed (Effect.lazily ⟨[], []⟩ s.init) s t :=
      lazily_framed (f := .version) (ws := []) (w := .versionInit) h trivial (Effect.le_refl _) (by simp)
        (Effect.le_refl _)
    obtain ⟨hports, hexchange, hcrc, huidb, hsakr⟩ := hframe.keeps_exchange (by cases s.init <;> simp)
    have hpoll (hi : s.init = true) : keptPoll s t := hframe.kept.poll.resolve_left (by simp [Effect.lazily, hi])
    exact ⟨hports, hframe.addr, hexchange, hcrc, huidb, hsakr, fun hi => ⟨hpoll hi, hframe.keeps_init (by simp) hi⟩,
      hframe.stores⟩

end Sys2Proof.Machine

/-! Proofs of the statements about failures and about starting at IDLE (60_exceptions.md R173, R178, R180). -/

namespace Sys2Proof.Machine

/-! ### A transaction that fails (R53, R173) -/

/-- What a failed write leaves when the BusFault has ended the operation: the attempt in the trace, and its time. -/
theorem ended_wrFailed {a : Answer} (ha : a.fails = true) (rest : List Answer) (s : State) (reg v own : Byte) :
    ended .busFault rest (perform (.wr reg v own) a s).state =
      afterBus [.wrFailed s.addr reg v] a.elapsed 1 s.chip .busFault rest { s with seq := none } := by
  simp only [perform, ha, if_true]
  rfl

/-- What a failed read leaves when the BusFault has ended the operation. -/
theorem ended_rdFailed {a : Answer} (ha : a.fails = true) (rest : List Answer) (s : State) (reg : Byte) :
    ended .busFault rest (perform (.rd reg) a s).state =
      afterBus [.rdFailed s.addr reg] a.elapsed 1 s.chip .busFault rest { s with seq := none } := by
  simp only [perform, ha, if_true]
  rfl

section busFault
variable {f : Active} {ws : List Waiting} {s : State} {a : Answer} {rest : List Answer} {reg v own : Byte}

/-- The step of an operation in progress whose transaction fails ends it and all its callers. -/
theorem step_busFault {q : Sequence} (hs : s.seq = some q) (hk : seqOk s = true) (ha : s.answers = a :: rest)
    (hf : (primitive q.top s).faults a = true) :
    step s = .next (ended .busFault rest (perform (primitive q.top s) a s).state) := by
  rw [step_busy hs hk, oneStep_cons ha, primStep_withAnswers, primStep_fault hs hf]
  rfl

/-- No phase reads the result at the host port. -/
theorem primitive_setResult (r : Option Result) : primitive f (s.setResult r) = primitive f s := by
  cases f <;> rfl

/-- An operation whose first transaction fails ends in the step that starts it. -/
theorem start_busFault (hs : s.seq = none) (ha : s.answers = a :: rest) (hf : (primitive f s).faults a = true) :
    start f ws s = .next (ended .busFault rest (perform (primitive f s) a s).state) := by
  rw [start_run hs ha (List.cons_ne_nil _ _), run_busFault (by rwa [primitive_setResult]), primitive_setResult,
    perform_setResult, ended_setResult]

/-- An operation that begins with a write, when it fails. -/
theorem start_wrFailed (hs : s.seq = none) (ha : s.answers = a :: rest) (hf : a.fails = true)
    (hp : primitive f s = .wr reg v own) :
    start f ws s = .next (afterBus [.wrFailed s.addr reg v] a.elapsed 1 s.chip .busFault rest s) := by
  rw [start_busFault hs ha (by rwa [hp]), hp, ended_wrFailed hf, ← hs]

/-- An operation that begins with a read, when it fails. -/
theorem start_rdFailed (hs : s.seq = none) (ha : s.answers = a :: rest) (hf : a.fails = true)
    (hp : primitive f s = .rd reg) :
    start f ws s = .next (afterBus [.rdFailed s.addr reg] a.elapsed 1 s.chip .busFault rest s) := by
  rw [start_busFault hs ha (by rwa [hp]), hp, ended_rdFailed hf, ← hs]

/-- An exchange, with its operands in TXF, when its first write fails. -/
theorem start_exchangeFailed (hs : s.seq = none) (ha : s.answers = a :: rest) (hf : a.fails = true) (frame : List Byte)
    (vb : ValidBits) : start (.transceive .x0) ws (s.setTxf frame vb) =
      .next (afterBus [.wrFailed s.addr 0x01 0x00] a.elapsed 1 s.chip .busFault rest (s.setTxf frame vb)) :=
  start_wrFailed (s := s.setTxf frame vb) hs ha hf rfl

end busFault

/-- Settles O42: a failed transaction of the operation in progress, and of the phase each operation begins with. -/
theorem busFaultEndsTheWholeChain : Obligations.BusFaultEndsTheWholeChain := by
  refine ⟨fun s q a rest hs hk ha hf => ⟨fun reg v own hp => ?_, fun reg hp => ?_⟩, fun s a rest hs ha hf => ?_⟩
  · rw [step_busFault hs hk ha (by rwa [hp]), hp, ended_wrFailed hf]
  · rw [step_busFault hs hk ha (by rwa [hp]), hp, ended_rdFailed hf]
  · have framing (ws : List Waiting) : start .reqaFraming ws s =
        .next (afterBus [.wrFailed s.addr 0x0D 0x07] a.elapsed 1 s.chip .busFault rest s) :=
      start_wrFailed hs ha hf rfl
    have exchange (c : CardFrame) := start_exchangeFailed (ws := [.cardFrame c]) hs ha hf
    refine ⟨start_wrFailed hs ha hf rfl, fun _ => start_rdFailed hs ha hf rfl, fun frame vb => ?_, framing _,
      start_wrFailed hs ha hf rfl, fun _ => start_rdFailed hs ha hf rfl, framing _, exchange .reqa _ _,
      exchange .wupa _ _, exchange .anticollCl1 _ _, fun _ _ _ => exchange .selectCl1 _ _, fun hi => ?_⟩
    · rw [exec_transceive]
      exact start_exchangeFailed hs ha hf frame vb
    · exact ⟨(if_pos hi).trans (framing _), (if_pos hi).trans (framing _),
        (if_pos hi).trans (start_rdFailed hs ha hf rfl)⟩

/-! ### Starting at IDLE (R180) -/

/-- With SEQ = IDLE an operation that initializes lazily starts at its own first phase, or at initialize's. -/
theorem startLazily_idle {s : State} (hs : s.seq = none) (f : Active) (ws : List Waiting) (w : Waiting) :
    ∃ t, (if s.init then start f ws s else startInit s.addr.toNat [w] s) = .next t := by
  split <;> exact ⟨_, start_idle hs⟩

/-- With SEQ = IDLE every well-formed instruction starts an operation or ends one at once. -/
theorem exec_idle {i : Instr} {s : State} (hw : i.wf = true) (hs : s.seq = none) : ∃ t, exec i s = .next t := by
  cases i
  case toHex => exact ⟨_, startEnded_idle hs⟩
  case setAddress n => exact ⟨_, startEnded_idle (s := s.setAddr (maskAddr n)) hs⟩
  case transceive frame vb =>
    have hcount : vb.toNat ≤ 7 := of_decide_eq_true hw
    simp only [exec, execTransceive, hcount, if_true]
    exact ⟨_, start_idle (s := s.setTxf frame _) hs⟩
  case isCardPresent => exact startLazily_idle hs _ _ _
  case readUidHex => exact startLazily_idle hs _ _ _
  case version => exact startLazily_idle hs _ _ _
  case piccReqa => exact ⟨_, start_idle (s := s.setTxf reqaFrame 7) hs⟩
  case piccWupa => exact ⟨_, start_idle (s := s.setTxf wupaFrame 7) hs⟩
  case piccAnticollCl1 => exact ⟨_, start_idle (s := s.setTxf anticollFrame 0) hs⟩
  case piccSelectCl1 u lo hi => exact ⟨_, start_idle (s := s.setTxf (selectFrame u lo hi) 0) hs⟩
  all_goals exact ⟨_, start_idle hs⟩

/-- Settles O10: with SEQ = IDLE no well-formed instruction is refused, whatever answers are ready. -/
theorem idleBlockStartsEveryOperation : Obligations.IdleBlockStartsEveryOperation :=
  fun _ _ hw hs => exec_idle hw hs

end Sys2Proof.Machine

/-! Proofs of the statements about reset, termination and what an operation carries over (70_reset_and_hazards.md R190,
R207; 10_state.md section 1.2). -/

namespace Sys2Proof.Machine

/-! ### Reset (R190) -/

/-- Settles O13: the values `State.reset` is written with. -/
theorem resetGivesAddrInitAndSeq : Obligations.ResetGivesAddrInitAndSeq :=
  ⟨rfl, rfl, rfl, rfl, rfl⟩

/-! ### How many steps an operation can still take (R120, R130, R140, R207) -/

/-- The clock advances between two reads of a poll: by the pause, or by itself at this step (R207). -/
def ClockAdvances (c : Config) (a : Answer) : Prop := 1 ≤ c.pollIntervalMs ∨ 1 ≤ a.elapsed

/-- The most steps a whole poll takes: four for each millisecond up to its limit, and those around them. -/
def pollSteps (limit : Nat) : Nat := 4 * (limit + 1) + 4

/-- The milliseconds after which a poll in progress has expired. -/
def untilExpired (q : PollArgs) (s : State) : Nat := s.t0 + q.limit + 1 - s.clock

/-- The most steps a poll can still take: a turn P1, P2, P3 costs the clock at least a millisecond. -/
@[simp] def PollPhase.stepsLeft (q : PollArgs) (s : State) : PollPhase → Nat
  | .p0 => pollSteps q.limit
  | .p1 => 4 * untilExpired q s + 3
  | .p2 => 4 * untilExpired q s + 2
  | .p3 => 4 * (untilExpired q s - 1) + 4
  | .verdict _ => 1

/-- The most steps computeCrc can still take on `len` bytes. -/
@[simp] def CrcPhase.stepsLeft (c : Config) (len : Nat) : CrcPhase → Nat
  | .c0 => pollSteps c.tCrcMs + 6 + len
  | .c1 _ => pollSteps c.tCrcMs + 5 + len
  | .c2 i => pollSteps c.tCrcMs + 4 + (len - i)
  | .c3 => pollSteps c.tCrcMs + 3
  | .c5 => 2
  | .c6 => 1

/-- The most steps transceive can still take with a frame of `len` bytes; X13's count is at most 127. -/
@[simp] def XcvPhase.stepsLeft (c : Config) (len : Nat) : XcvPhase → Nat
  | .x0 => pollSteps c.tXcvMs + 141 + len
  | .x1 => pollSteps c.tXcvMs + 140 + len
  | .x2 => pollSteps c.tXcvMs + 139 + len
  | .x3 _ => pollSteps c.tXcvMs + 138 + len
  | .x4 i => pollSteps c.tXcvMs + 137 + (len - i)
  | .x5 => pollSteps c.tXcvMs + 136
  | .x6 => pollSteps c.tXcvMs + 135
  | .x7 => pollSteps c.tXcvMs + 134
  | .x8 _ => pollSteps c.tXcvMs + 133
  | .x10 => 3
  | .x11 _ => 2
  | .x12 => 132
  | .x13 => 131
  | .x14 i n => 3 + (n - i)
  | .x15 _ => 2
  | .failure => 1
  | .success _ _ => 1

/-- The most steps a whole exchange of `len` bytes takes. -/
def exchangeSteps (c : Config) (len : Nat) : Nat := XcvPhase.x0.stepsLeft c len

/-- The most steps reqa takes: two framing writes and the exchange of one byte. -/
def reqaSteps (c : Config) : Nat := exchangeSteps c 1 + 2

/-- The most steps anticollision takes: a framing write, the exchange of two bytes, an assignment. -/
def anticollSteps (c : Config) : Nat := exchangeSteps c 2 + 2

/-- The most steps select takes: the CRC of seven bytes, the exchange of nine, an assignment. -/
def selectSteps (c : Config) : Nat := CrcPhase.c0.stepsLeft c 7 + (exchangeSteps c 9 + 1)

/-- The most steps initializeChip takes from its six plain writes on. -/
@[simp] def SetupPhase.stepsLeft : SetupPhase → Nat
  | .tmode => 10
  | .tprescaler => 9
  | .treloadHi => 8
  | .treloadLo => 7
  | .txAsk => 6
  | .mode => 5

/-- The most steps softReset takes from a phase on, its poll included. -/
@[simp] def SoftResetPhase.stepsLeft (c : Config) : SoftResetPhase → Nat
  | .command => pollSteps c.tResetMs + 2
  | .settle => pollSteps c.tResetMs + 1

/-- The most steps of a read-modify-write from a phase on. -/
@[simp] def RmwPhase.stepsLeft : RmwPhase → Nat
  | .read => 2
  | .write _ => 1

/-- The most steps an operation can still take from its top frame on, its callees included. -/
@[simp] def Active.stepsLeft (s : State) : Active → Nat
  | .setBits _ _ p => p.stepsLeft
  | .clearBits _ _ p => p.stepsLeft
  | .poll q p => p.stepsLeft q s
  | .softReset p => p.stepsLeft s.config
  | .antennaOn => 3
  | .initAddress _ => SoftResetPhase.command.stepsLeft s.config + 11
  | .setup p => p.stepsLeft
  | .computeCrc bytes p => p.stepsLeft s.config bytes.length
  | .transceive p => p.stepsLeft s.config s.txbuf.length
  | .reqaFraming => reqaSteps s.config
  | .anticollision => anticollSteps s.config
  | _ => 1

/-- The most steps a waiting operation can still take once its callee has returned. -/
@[simp] def Waiting.stepsLeft (c : Config) : Waiting → Nat
  | .initSoftReset => SetupPhase.tmode.stepsLeft
  | .initAntenna => 1
  | .computeCrc _ => CrcPhase.c5.stepsLeft c 0
  | .transceive => XcvPhase.x12.stepsLeft c 0
  | .reqa => 1
  | .anticollision => 1
  | .selectCrc _ => exchangeSteps c 9 + 1
  | .selectExchange _ => 1
  | .readUidReqa => anticollSteps c + selectSteps c
  | .readUidAnticoll => selectSteps c
  | .isCardPresentInit => reqaSteps c
  | .readUidHexInit => reqaSteps c + (anticollSteps c + selectSteps c)
  | .versionInit => 1
  | _ => 0

/-- The most steps the waiting operations can still take. -/
def callersLeft (c : Config) (ws : List Waiting) : Nat := (ws.map (Waiting.stepsLeft c)).sum

/-- The most steps that follow a move, but for those of the callers below it. -/
@[simp] def moveLeft : State × Move → Nat
  | (s, .enter g cs) => g.stepsLeft s + callersLeft s.config cs
  | (_, .ret _) => 0

/-- The most steps the operation in progress can still take; none when SEQ is IDLE. -/
def stepsLeft (s : State) : Nat :=
  match s.seq with
  | none => 0
  | some q => q.top.stepsLeft s + callersLeft s.config q.callers

@[simp] theorem callersLeft_nil (c : Config) : callersLeft c [] = 0 := rfl

@[simp] theorem callersLeft_cons (c : Config) (w : Waiting) (ws : List Waiting) :
    callersLeft c (w :: ws) = w.stepsLeft c + callersLeft c ws := List.sum_cons

theorem callersLeft_append (c : Config) (cs ws : List Waiting) :
    callersLeft c (cs ++ ws) = callersLeft c cs + callersLeft c ws := by
  simp [callersLeft]

/-- The steps left from a frame do not depend on what SEQ holds. -/
theorem Active.stepsLeft_setSeq (f : Active) (s : State) (q : Option Sequence) :
    f.stepsLeft (s.setSeq q) = f.stepsLeft s := by
  cases f <;> rfl

theorem stepsLeft_idle {s : State} (h : s.seq = none) : stepsLeft s = 0 := by
  simp only [stepsLeft, h]

theorem stepsLeft_busy {s : State} {q : Sequence} (h : s.seq = some q) :
    stepsLeft s = q.top.stepsLeft s + callersLeft s.config q.callers := by
  simp only [stepsLeft, h]

/-- A poll's phase leaves fewer steps: P3 takes a millisecond at least, and P2 goes on to it only before the limit. -/
theorem pollAfter_left {q : PollArgs} {p : PollPhase} {a : Answer} {s : State} (ha : ClockAdvances s.config a) :
    moveLeft (pollAfter q p ⟨a.byte, (perform (pollPrim q p s) a s).state.clock⟩
      (perform (pollPrim q p s) a s).state) < p.stepsLeft q s := by
  cases p with
  | p0 =>
    simp [pollAfter, pollPrim, untilExpired, pollSteps]
    omega
  | p1 =>
    simp only [pollAfter, pollPrim]
    split <;> simp [untilExpired, perform_clock_rd]
    omega
  | p2 =>
    by_cases hexp : pollExpired q s.t0 (s.clock + a.elapsed) = true
    · simp [pollAfter, pollPrim, perform_clock_now, hexp]
    · simp [pollAfter, pollPrim, perform_clock_now, hexp, untilExpired]
      simp [pollExpired] at hexp
      omega
  | p3 =>
    simp only [ClockAdvances] at ha
    simp [pollAfter, pollPrim, untilExpired, perform_clock_pause]
    omega
  | verdict v => exact Nat.one_pos

theorem crcAfter_left (bytes : List Byte) (p : CrcPhase) (r : Reply) (s : State) :
    moveLeft (crcAfter bytes p r s) < p.stepsLeft s.config bytes.length := by
  cases p
  case c1 => simp only [crcAfter, crcLoad]; split <;> simp; omega
  case c2 => simp only [crcAfter, crcLoad]; split <;> simp <;> omega
  all_goals simp [crcAfter, crcPoll]

theorem xcvAfter_left (p : XcvPhase) (r : Reply) (s : State) :
    moveLeft (xcvAfter p r s) < p.stepsLeft s.config s.txbuf.length := by
  cases p
  case x3 => simp only [xcvAfter, xcvLoad]; split <;> simp; omega
  case x4 => simp only [xcvAfter, xcvLoad]; split <;> simp <;> omega
  case x12 => simp only [xcvAfter]; split <;> simp
  case x13 =>
    have hcount := fifoCount_le r.byte
    simp only [xcvAfter, xcvDrain]
    split <;> simp
    omega
  case x14 => simp only [xcvAfter, xcvDrain]; split <;> simp <;> omega
  all_goals simp [xcvAfter, xcvPoll, xcvReturn]

/-- Every phase leaves fewer steps than it had, when the clock advances. -/
theorem after_left {f : Active} {a : Answer} {s : State} (ha : ClockAdvances s.config a) :
    moveLeft (after f ⟨a.byte, (perform (primitive f s) a s).state.clock⟩ (perform (primitive f s) a s).state) <
      f.stepsLeft s := by
  cases f
  case poll q p => exact pollAfter_left ha
  case computeCrc bytes p =>
    have h := crcAfter_left bytes p ⟨a.byte, (perform (crcPrim bytes p) a s).state.clock⟩
      (perform (crcPrim bytes p) a s).state
    rwa [perform_config] at h
  case transceive p =>
    have h := xcvAfter_left p ⟨a.byte, (perform (xcvPrim p s) a s).state.clock⟩ (perform (xcvPrim p s) a s).state
    rwa [perform_config, perform_txbuf] at h
  case setBits p => cases p <;> exact Nat.lt_succ_self _
  case clearBits p => cases p <;> exact Nat.lt_succ_self _
  case softReset p => cases p <;> simp [after, softResetAfter, resetPoll]
  case antennaOn => simp only [after, antennaOnAfter]; split <;> simp
  case initAddress n => simp [after, initAddressAfter]
  case setup p => cases p <;> exact Nat.lt_succ_self _
  case reqaFraming => simp [after, reqaFramingAfter, callTransceive, reqaSteps, exchangeSteps, reqaFrame]
  case anticollision => simp [after, anticollAfter, callTransceive, anticollSteps, exchangeSteps, anticollFrame]
  all_goals exact Nat.one_pos

/-- A caller goes on with the steps counted for it. -/
theorem returned_left (w : Waiting) (r : Result) (s : State) : moveLeft (returned w r s) ≤ w.stepsLeft s.config := by
  cases w
  case transceive => simp only [returned, xcvPollReturned]; split <;> simp
  case anticollision => simp only [returned, anticollReturned]; split <;> simp
  case selectExchange => simp only [returned, selectReturned]; split <;> simp
  case selectCrc u =>
    simp [returned, selectCrcReturned, callTransceive, exchangeSteps, selectFrame, selectHead, Uidb.toList]
  case readUidReqa => simp only [returned, readUidReqaReturned]; split <;> simp
  case readUidAnticoll =>
    simp only [returned, readUidAnticollReturned]
    split <;> simp [callSelect, selectSteps, selectHead, Uidb.toList]
  case readUidSelect => simp only [returned, readUidSelectReturned]; split <;> exact Nat.le_refl 0
  case readUidHexUid => simp only [returned, readUidHexUidReturned]; split <;> exact Nat.le_refl 0
  case readUidHexInit => simp [returned, readUidHexInitReturned]
  all_goals exact Nat.le_refl _

theorem returned_config (w : Waiting) (r : Result) (s : State) : (returned w r s).1.config = s.config :=
  (returned_ports w r s).config

theorem stepsLeft_enter (s : State) (g : Active) (cs ws : List Waiting) :
    stepsLeft (s.setSeq (some ⟨g, cs ++ ws⟩)) = moveLeft (s, .enter g cs) + callersLeft s.config ws := by
  rw [stepsLeft_busy rfl, Active.stepsLeft_setSeq, moveLeft, State.setSeq_config, callersLeft_append, Nat.add_assoc]

theorem giveBack_left (ws : List Waiting) (r : Result) (s : State) :
    stepsLeft (giveBack ws r s) ≤ callersLeft s.config ws := by
  induction ws generalizing r s with
  | nil => exact Nat.le_refl 0
  | cons w ws ih =>
    have hw := returned_left w r s
    have hc := returned_config w r s
    rw [giveBack, callersLeft_cons, ← hc]
    rw [← hc] at hw
    rcases hret : returned w r s with ⟨t, ⟨g, cs⟩ | r'⟩ <;> rw [hret] at hw
    · exact (stepsLeft_enter t g cs ws).trans_le (Nat.add_le_add_right hw _)
    · have := ih r' t
      dsimp only
      omega

theorem follow_left (ws : List Waiting) (m : State × Move) :
    stepsLeft (follow ws m) ≤ moveLeft m + callersLeft m.1.config ws := by
  obtain ⟨s, ⟨g, cs⟩ | r⟩ := m
  · exact Nat.le_of_eq (stepsLeft_enter s g cs ws)
  · exact Nat.le_add_left_of_le (giveBack_left ws r s)

/-- With an operation in progress at least one step is left. -/
theorem stepsLeft_pos {s : State} {q : Sequence} (hs : s.seq = some q) : 0 < stepsLeft s := by
  rw [stepsLeft_busy hs]
  exact Nat.add_pos_left (Nat.zero_lt_of_lt (after_left (a := ⟨1, false, 0⟩) (.inr (Nat.le_refl 1)))) _

/-- Every step of the block leaves fewer, when the clock advances; a BusFault leaves none. -/
theorem primStep_left {a : Answer} {s : State} {q : Sequence} (hs : s.seq = some q) (ha : ClockAdvances s.config a) :
    stepsLeft (primStep a s) < stepsLeft s := by
  cases hf : (primitive q.top s).faults a with
  | true =>
    rw [primStep_fault hs hf]
    exact stepsLeft_pos hs
  | false =>
    have hfollow := follow_left q.callers (after q.top ⟨a.byte, (perform (primitive q.top s) a s).state.clock⟩
      (perform (primitive q.top s) a s).state)
    rw [(after_ports _ _ _).config, perform_config] at hfollow
    rw [primStep_ok hs hf, stepsLeft_busy hs]
    have := after_left (f := q.top) ha
    omega

theorem primStep_config (a : Answer) (s : State) : (primStep a s).config = s.config := by
  cases hs : s.seq with
  | none => simp only [primStep, hs]
  | some q => rw [(primStep_ports hs).config, perform_config]

/-- On as many answers as steps can be left, the run is over (R207). -/
theorem run_over {as : List Answer} {s : State} (hn : stepsLeft s ≤ as.length)
    (ha : ∀ a ∈ as, ClockAdvances s.config a) : (run as s).seq = none := by
  induction as generalizing s with
  | nil =>
    cases hs : s.seq with
    | none => exact hs
    | some q =>
      have := stepsLeft_pos hs
      simp only [List.length_nil] at hn
      omega
  | cons a as ih =>
    cases hs : s.seq with
    | none => rw [run_idle hs]; exact hs
    | some q =>
      obtain ⟨hadv, hrest⟩ := List.forall_mem_cons.1 ha
      have hlt := primStep_left hs hadv
      rw [run_cons hs]
      refine ih (by simp only [List.length_cons] at hn; omega) ?_
      rwa [primStep_config]

/-- The machine's first `n` steps on the answers that wait leave SEQ where the block's run over `n` of them does. -/
theorem stepsWhileBusy_take {n : Nat} {as : List Answer} {s : State} (hI : Inv s) (hn : n ≤ as.length) :
    ∃ t, stepsWhileBusy n (s.setAnswers as) = .next t ∧ t.seq = (run (as.take n) s).seq := by
  induction n generalizing as s with
  | zero => exact ⟨_, rfl, rfl⟩
  | succ n ih =>
    obtain _ | ⟨a, as⟩ := as
    · cases hn
    cases hs : s.seq with
    | none => exact ⟨_, stepsWhileBusy_idle hs, by rw [run_idle hs]; rfl⟩
    | some q =>
      have hstep : step (s.setAnswers (a :: as)) = .next ((primStep a s).setAnswers as) := by
        rw [step_busy (s := s.setAnswers (a :: as)) hs hI.1, oneStep_ready]
      rw [stepsWhileBusy_succ (by simp [hs]) hstep, List.take_succ_cons, run_cons hs]
      exact ih (primStep_inv a hI) (Nat.le_of_succ_le_succ hn)

/-- Settles O60: the steps an operation can still take are bounded by a number that every step lowers, on whatever
answers. -/
theorem everyOperationEnds : Obligations.EveryOperationEnds := by
  refine ⟨fun s hI _ => ⟨stepsLeft s, fun as hn ha => ?_⟩, fun i s hw hs => ?_⟩
  · obtain ⟨t, ht, hseq⟩ := stepsWhileBusy_take hI hn
    refine ⟨t, ht, hseq.trans (run_over (by rw [List.length_take_of_le hn]) fun a hmem => ?_)⟩
    exact ha.imp_right fun h => h a (List.mem_of_mem_take hmem)
  · obtain ⟨q, s0, -, h0, he⟩ | ⟨-, r, he⟩ | ⟨r, he⟩ := exec_entry i s
    · refine ⟨stepsLeft ((s0.setResult none).setSeq (some q)), fun as hn ha => ?_⟩
      have hne : as ≠ [] := List.ne_nil_of_length_pos (Nat.lt_of_lt_of_le (stepsLeft_pos rfl) hn)
      have hconfig : s0.config = s.config := by obtain rfl | ⟨fr, v, rfl⟩ := h0 <;> rfl
      rw [he, start_ready ((startsFrom_seq h0).trans hs) hne]
      exact ⟨_, rfl, run_over hn fun a hmem => hconfig ▸ ha.imp_right fun h => h a hmem⟩
    · refine ⟨0, fun as _ _ => ?_⟩
      have hidle : (assigned i s).seq = none := by rw [← hs]; cases i <;> rfl
      rw [he, startEnded_idle (s := (assigned i s).setAnswers as) hidle]
      exact ⟨_, rfl, hidle⟩
    · obtain ⟨t, ht⟩ := exec_idle hw (s := s.setAnswers []) hs
      rw [he] at ht
      cases ht

/-! ### Which working registers an operation still reads (10_state.md section 1.2, R190)

The other run's state is always `withWorking s u`: the same but for the working registers, which are `u`'s. `Agrees` says
of a frame, a caller or a return which of `u`'s registers hold what `s`'s do, because the operation has written them and
still reads them. -/

@[simp] theorem withWorking_txbuf (s u : State) : (withWorking s u).txbuf = u.txbuf := rfl
@[simp] theorem withWorking_res (s u : State) : (withWorking s u).res = u.res := rfl
@[simp] theorem withWorking_crcHi (s u : State) : (withWorking s u).crcHi = u.crcHi := rfl
@[simp] theorem withWorking_crcLo (s u : State) : (withWorking s u).crcLo = u.crcLo := rfl
@[simp] theorem withWorking_uidb (s u : State) : (withWorking s u).uidb = u.uidb := rfl
@[simp] theorem withWorking_t0 (s u : State) : (withWorking s u).t0 = u.t0 := rfl
@[simp] theorem withWorking_pv (s u : State) : (withWorking s u).pv = u.pv := rfl

/-- What a phase and the phases of its operation after it read before they write it. -/
def Active.Agrees (f : Active) (s u : State) : Prop :=
  match f with
  | .poll _ .p1 | .poll _ .p2 | .poll _ .p3 => u.t0 = s.t0
  | .computeCrc _ .c6 => u.crcHi = s.crcHi
  | .transceive .x0 | .transceive .x1 | .transceive .x2 | .transceive (.x3 _) | .transceive (.x4 _)
  | .transceive .x5 => u.txbuf = s.txbuf ∧ u.txvb = s.txvb
  | .transceive (.x14 n _) | .transceive (.x15 n) | .transceive (.success n _) =>
    u.res.rxbuf.take n = s.res.rxbuf.take n
  | .reqaRestore | .storeUidb | .storeSak => u.res = s.res
  | _ => True

/-- What a caller reads that its callee does not write: readUid returns UIDB, which anticollision wrote before select. -/
@[simp] def Waiting.Agrees (w : Waiting) (s u : State) : Prop :=
  match w with
  | .readUidSelect => u.uidb = s.uidb
  | _ => True

/-- What an operation that returns `r` has written for its caller: the registers 10_state.md hands results over in. -/
def OpName.Agrees (op : OpName) (r : Result) (s u : State) : Prop :=
  match op with
  | .pollUntil => u.pv = s.pv
  | .computeCrc => u.crcHi = s.crcHi ∧ u.crcLo = s.crcLo
  | .transceive => u.res = s.res
  | .anticollision => r = .uidb none ∨ u.uidb = s.uidb
  | _ => True

/-- What the rest of a move of the operation `op` reads. -/
def MoveAgrees (op : OpName) (m : State × Move) (u : State) : Prop :=
  match m with
  | (s, .enter g cs) => g.Agrees s u ∧ ∀ w ∈ cs, w.Agrees s u
  | (s, .ret r) => op.Agrees r s u

/-- What the frames of SEQ read. -/
def SeqAgrees (s u : State) : Prop :=
  ∀ q, s.seq = some q → q.top.Agrees s u ∧ ∀ w ∈ q.callers, w.Agrees s u

/-- From working registers `u`, the operation `op` makes the move `m'`, where from those of `s` it makes `m`: the same
move, with working registers that agree where the rest reads them. -/
def SameMove (op : OpName) (s u : State) (m m' : State × Move) : Prop :=
  ∃ u', m' = (withWorking m.1 u', m.2) ∧ (u.uidb = s.uidb → u'.uidb = m.1.uidb) ∧ MoveAgrees op m u'

/-- What a frame reads is a question about the working registers alone. -/
theorem Active.Agrees.congr {f : Active} {s s' u : State} (h : f.Agrees s u) (hs : withWorking s' s = s') :
    f.Agrees s' u := by
  rw [← hs]
  cases f <;> exact h

theorem Waiting.Agrees.congr {w : Waiting} {s u s' u' : State} (h : w.Agrees s u)
    (huidb : u.uidb = s.uidb → u'.uidb = s'.uidb) : w.Agrees s' u' := by
  cases w
  case readUidSelect => exact huidb h
  all_goals trivial

/-- A move that writes no register. -/
theorem sameMove_of_state {op : OpName} {s u : State} {v : Move} (h : MoveAgrees op (s, v) u) :
    SameMove op s u (s, v) (withWorking s u, v) :=
  ⟨u, rfl, id, h⟩

theorem enter_agrees {op : OpName} {s u : State} {g : Active} (h : g.Agrees s u) : MoveAgrees op (s, .enter g []) u :=
  ⟨h, by simp⟩

/-- The bytes drained so far, after one more. -/
theorem take_storeByte (r : ExchangeResult) (i : Nat) (b : Byte) :
    (storeByte r i b).rxbuf.take (i + 1) = r.rxbuf.take i ++ [b] := by
  simp only [storeByte]
  rcases Nat.lt_or_ge r.rxbuf.length i with h | h
  · rw [List.drop_eq_nil_of_le (by omega), List.take_of_length_le (by simp)]
  · rw [List.take_append]
    simp [Nat.min_eq_left h]

/-- The drain goes on, or X15 takes all of it, from the `i` bytes both runs hold. -/
theorem xcvDrain_agrees {s u : State} {i : Nat} (n : Nat) (h : u.res.rxbuf.take i = s.res.rxbuf.take i) :
    (Active.transceive (xcvDrain i n)).Agrees s u := by
  unfold xcvDrain
  split
  · exact h
  · have htake := congrArg (List.take n) h
    rwa [List.take_take, List.take_take, Nat.min_eq_left (by omega)] at htake

theorem xcvLoad_agrees {s u : State} (i : Nat) (h : u.txbuf = s.txbuf ∧ u.txvb = s.txvb) :
    (Active.transceive (xcvLoad s.txbuf i)).Agrees s u := by
  unfold xcvLoad
  split <;> exact h

/-- A phase's primitive is the same: the frame it loads and the framing it writes are those of TXF. -/
theorem primitive_withWorking {f : Active} {s u : State} (h : f.Agrees s u) :
    primitive f (withWorking s u) = primitive f s := by
  cases f
  case transceive p =>
    cases p
    case x4 i => exact congrArg (fun frame : List Byte => Prim.wr Reg.fifoData (frame.getD i 0)) h.1
    case x5 => exact congrArg (fun vb => Prim.wr Reg.bitFraming (framingValue vb)) h.2
    all_goals rfl
  all_goals rfl

/-- A phase makes the same move from other working registers, and what it writes of its own agrees. -/
theorem after_sameMove {f : Active} {s u : State} (x : Reply) (h : f.Agrees s u) :
    SameMove f.op s u (after f x s) (after f x (withWorking s u)) := by
  cases f
  case setBits p => cases p; exacts [sameMove_of_state (enter_agrees trivial), sameMove_of_state trivial]
  case clearBits p => cases p; exacts [sameMove_of_state (enter_agrees trivial), sameMove_of_state trivial]
  case poll q p =>
    cases p
    case p0 => exact ⟨u.setT0 x.time, rfl, id, enter_agrees rfl⟩
    case p1 =>
      refine sameMove_of_state (enter_agrees ?_)
      split
      exacts [trivial, h]
    case p2 =>
      have h : u.t0 = s.t0 := h
      simp only [after, pollAfter, withWorking_t0, h]
      refine sameMove_of_state (enter_agrees ?_)
      split
      exacts [trivial, h]
    case p3 => exact sameMove_of_state (enter_agrees h)
    case verdict v => exact ⟨u.setPv v, rfl, id, rfl⟩
  case softReset p => cases p <;> exact sameMove_of_state ⟨trivial, by simp⟩
  case antennaOn =>
    simp only [after, antennaOnAfter]
    split
    exacts [sameMove_of_state trivial, sameMove_of_state ⟨trivial, by simp⟩]
  case setup p => cases p <;> exact sameMove_of_state ⟨trivial, by simp⟩
  case computeCrc bytes p =>
    cases p
    case c3 => exact sameMove_of_state ⟨trivial, by simp⟩
    case c5 => exact ⟨u.setCrcHi x.byte, rfl, id, enter_agrees rfl⟩
    case c6 =>
      have h : u.crcHi = s.crcHi := h
      exact ⟨u.setCrcLo x.byte, by simp only [after, crcAfter, withWorking_crcHi, h]; rfl, id, h, rfl⟩
    case c1 => exact sameMove_of_state (enter_agrees (by unfold crcLoad; split <;> trivial))
    case c2 => exact sameMove_of_state (enter_agrees (by unfold crcLoad; split <;> trivial))
    all_goals exact sameMove_of_state (enter_agrees trivial)
  case transceive p =>
    cases p
    case x0 => exact sameMove_of_state (enter_agrees h)
    case x1 => exact sameMove_of_state (enter_agrees h)
    case x2 => exact sameMove_of_state (enter_agrees h)
    case x3 v =>
      have hload := xcvLoad_agrees 0 h
      simp only [after, xcvAfter, withWorking_txbuf, h.1]
      exact sameMove_of_state (enter_agrees hload)
    case x4 i =>
      have hload := xcvLoad_agrees (i + 1) h
      simp only [after, xcvAfter, withWorking_txbuf, h.1]
      exact sameMove_of_state (enter_agrees hload)
    case x8 => exact sameMove_of_state ⟨trivial, by simp⟩
    case x12 => exact sameMove_of_state (enter_agrees (by split <;> trivial))
    case x13 => exact sameMove_of_state (enter_agrees (xcvDrain_agrees _ rfl))
    case x14 i n =>
      have h : u.res.rxbuf.take i = s.res.rxbuf.take i := h
      exact ⟨u.setRes (storeByte u.res i x.byte), rfl, id,
        enter_agrees (xcvDrain_agrees n (by simp only [State.setRes_res, take_storeByte, h]))⟩
    case x15 => exact sameMove_of_state (enter_agrees h)
    case failure => exact ⟨u.setRes failedExchange, rfl, id, rfl⟩
    case success n vb =>
      have h : u.res.rxbuf.take n = s.res.rxbuf.take n := h
      exact ⟨u.setRes ⟨true, s.res.rxbuf.take n, vb⟩, by simp only [after, xcvAfter, withWorking_res, h]; rfl, id,
        rfl⟩
    all_goals exact sameMove_of_state (enter_agrees trivial)
  case initAddress n => exact ⟨u, rfl, id, trivial, by simp⟩
  case initFlag => exact ⟨u, rfl, id, trivial⟩
  case reqaFraming => exact ⟨u.setTxf reqaFrame 7, rfl, id, ⟨rfl, rfl⟩, by simp⟩
  case anticollision => exact ⟨u.setTxf anticollFrame 0, rfl, id, ⟨rfl, rfl⟩, by simp⟩
  case reqaRestore =>
    have h : u.res = s.res := h
    exact ⟨u, by simp only [after, reqaRestoreAfter, withWorking_res, h], id, trivial⟩
  case storeUidb =>
    have h : u.res = s.res := h
    exact ⟨u.setUidb (leadingUidb s.res.rxbuf), by simp only [after, storeUidbAfter, withWorking_res, h]; rfl,
      fun _ => rfl, .inr rfl⟩
  case storeSak =>
    have h : u.res = s.res := h
    exact ⟨u.setSakr (s.res.rxbuf.headD 0), by simp only [after, storeSakAfter, withWorking_res, h]; rfl, id,
      trivial⟩
  all_goals exact sameMove_of_state trivial

/-- So does a caller whose callee has returned. -/
theorem returned_sameMove {w : Waiting} {r : Result} {s u : State} (hret : w.awaits.Agrees r s u) (hw : w.Agrees s u) :
    SameMove w.op s u (returned w r s) (returned w r (withWorking s u)) := by
  cases w
  case transceive =>
    have hpv : u.pv = s.pv := hret
    simp only [returned, xcvPollReturned, withWorking_pv, hpv]
    split <;> exact sameMove_of_state (enter_agrees trivial)
  case reqa => exact sameMove_of_state (enter_agrees hret)
  case anticollision =>
    have hres : u.res = s.res := hret
    simp only [returned, anticollReturned, withWorking_res, hres]
    split
    · exact sameMove_of_state (enter_agrees hres)
    · exact sameMove_of_state (.inl rfl)
  case selectCrc v =>
    obtain ⟨hhi, hlo⟩ := hret
    exact ⟨u.setTxf (selectFrame v s.crcLo s.crcHi) 0, by
      simp only [returned, selectCrcReturned, withWorking_crcHi, withWorking_crcLo, hhi, hlo]; rfl, id,
      ⟨rfl, rfl⟩, by simp⟩
  case selectExchange v =>
    have hres : u.res = s.res := hret
    simp only [returned, selectReturned, withWorking_res, hres]
    split
    · exact sameMove_of_state (enter_agrees hres)
    · exact sameMove_of_state trivial
  case readUidReqa =>
    simp only [returned, readUidReqaReturned]
    split
    · exact sameMove_of_state ⟨trivial, by simp⟩
    · exact sameMove_of_state trivial
  case readUidAnticoll =>
    simp only [returned, readUidAnticollReturned]
    split
    · exact sameMove_of_state ⟨trivial, by simpa [Waiting.awaits, OpName.Agrees] using hret⟩
    · exact sameMove_of_state trivial
  case readUidSelect =>
    have huidb : u.uidb = s.uidb := hw
    simp only [returned, readUidSelectReturned, withWorking_uidb, huidb]
    split <;> exact sameMove_of_state trivial
  case readUidHexUid => simp only [returned, readUidHexUidReturned]; split <;> exact sameMove_of_state trivial
  case isCardPresentInit => exact sameMove_of_state ⟨trivial, by simp⟩
  case readUidHexInit => exact sameMove_of_state ⟨trivial, by simp⟩
  case cardFrame c =>
    have hres : u.res = s.res := hret
    exact ⟨u, by simp only [returned, withWorking_res, hres], id, trivial⟩
  case initSoftReset => exact sameMove_of_state (enter_agrees trivial)
  case initAntenna => exact sameMove_of_state (enter_agrees trivial)
  case computeCrc => exact sameMove_of_state (enter_agrees trivial)
  case versionInit => exact sameMove_of_state (enter_agrees trivial)
  all_goals exact sameMove_of_state trivial

/-! ### Two runs of one operation (R190) -/

theorem seqAgrees_enter {s u : State} {g : Active} {cs ws : List Waiting} (hg : g.Agrees s u)
    (hcs : ∀ w ∈ cs, w.Agrees s u) (hws : ∀ w ∈ ws, w.Agrees s u) :
    SeqAgrees (s.setSeq (some ⟨g, cs ++ ws⟩)) u := by
  intro q hq
  obtain rfl := Option.some.inj hq
  exact ⟨Active.Agrees.congr hg rfl, fun w hw => Waiting.Agrees.congr ((List.mem_append.1 hw).elim (hcs w) (hws w)) id⟩

theorem seqAgrees_idle {s u : State} (h : s.seq = none) : SeqAgrees s u :=
  fun q hq => by rw [h] at hq; cases hq

/-- A result handed outward to callers that wait for it ends both runs in the same way, or both go on. -/
theorem giveBack_withWorking {root op : OpName} {ws : List Waiting} {r : Result} {s u : State}
    (hws : outermost op ws = some root) (hret : op.Agrees r s u) (hall : ∀ w ∈ ws, w.Agrees s u) :
    ∃ u', giveBack ws r (withWorking s u) = withWorking (giveBack ws r s) u' ∧ SeqAgrees (giveBack ws r s) u' := by
  induction ws generalizing op r s u with
  | nil => exact ⟨u, rfl, seqAgrees_idle rfl⟩
  | cons w ws ih =>
    obtain ⟨hw, hall⟩ := List.forall_mem_cons.1 hall
    rw [outermost] at hws
    split at hws
    · next hop =>
      obtain ⟨u', heq, huidb, hmove⟩ := returned_sameMove (hop ▸ hret) hw
      have hall' : ∀ v ∈ ws, v.Agrees (returned w r s).1 u' := fun v hv => Waiting.Agrees.congr (hall v hv) huidb
      simp only [giveBack, heq]
      rcases hm : returned w r s with ⟨t, ⟨g, cs⟩ | r'⟩ <;> rw [hm] at hmove hall'
      · exact ⟨u', rfl, seqAgrees_enter hmove.1 hmove.2 hall'⟩
      · exact ih hws hmove hall'
    · cases hws

/-- Carrying out the same move above callers that wait for the operation. -/
theorem follow_withWorking {root op : OpName} {ws : List Waiting} {s u : State} {m m' : State × Move}
    (hws : outermost op ws = some root) (hm : SameMove op s u m m') (hall : ∀ w ∈ ws, w.Agrees s u) :
    ∃ u', follow ws m' = withWorking (follow ws m) u' ∧ SeqAgrees (follow ws m) u' := by
  obtain ⟨u', rfl, huidb, hmove⟩ := hm
  have hall' : ∀ w ∈ ws, w.Agrees m.1 u' := fun w hw => Waiting.Agrees.congr (hall w hw) huidb
  obtain ⟨t, ⟨g, cs⟩ | r⟩ := m
  · exact ⟨u', rfl, seqAgrees_enter hmove.1 hmove.2 hall'⟩
  · exact giveBack_withWorking hws hmove hall'

/-- A primitive is the same whatever the working registers hold, and leaves them alone. -/
theorem perform_withWorking (p : Prim) (a : Answer) (s u : State) :
    (perform p a (withWorking s u)).state = withWorking (perform p a s).state u := by
  cases p <;> simp only [perform] <;> (try split) <;> rfl

theorem perform_working (p : Prim) (a : Answer) (s : State) :
    withWorking (perform p a s).state s = (perform p a s).state :=
  (perform_withWorking p a s s).symm

/-- One step of the block is the same in both runs, and leaves working registers that agree where they are still read. -/
theorem primStep_withWorking {root : OpName} (a : Answer) {s u : State} (hp : Promises root s) (h : SeqAgrees s u) :
    ∃ u', primStep a (withWorking s u) = withWorking (primStep a s) u' ∧ SeqAgrees (primStep a s) u' := by
  cases hs : s.seq with
  | none =>
    have hstep : ∀ {t : State}, t.seq = none → primStep a t = t := fun ht => by simp only [primStep, ht]
    rw [hstep hs, hstep (t := withWorking s u) hs]
    exact ⟨u, rfl, h⟩
  | some q =>
    obtain ⟨htop, hall⟩ := h q hs
    have hprim := primitive_withWorking htop
    cases hf : (primitive q.top s).faults a with
    | true =>
      rw [primStep_fault hs hf, primStep_fault (s := withWorking s u) hs (by rw [hprim]; exact hf), hprim,
        perform_withWorking]
      exact ⟨u, rfl, seqAgrees_idle rfl⟩
    | false =>
      unfold Promises at hp
      rw [hs] at hp
      rw [primStep_ok hs hf, primStep_ok (s := withWorking s u) hs (by rw [hprim]; exact hf), hprim, perform_withWorking]
      exact follow_withWorking hp.1 (after_sameMove _ (htop.congr (perform_working _ a s)))
        fun w hw => Waiting.Agrees.congr (hall w hw) fun huidb => by rw [huidb, perform_uidb]

theorem run_withWorking {root : OpName} (as : List Answer) {s u : State} (hp : Promises root s) (h : SeqAgrees s u) :
    ∃ u', run as (withWorking s u) = withWorking (run as s) u' := by
  induction as generalizing s u with
  | nil => exact ⟨u, rfl⟩
  | cons a as ih =>
    cases hs : s.seq with
    | none => exact ⟨u, by rw [run_idle hs, run_idle (s := withWorking s u) hs]; rfl⟩
    | some q =>
      obtain ⟨u', heq, h'⟩ := primStep_withWorking a hp h
      rw [run_cons hs, run_cons (s := withWorking s u) hs, heq]
      exact ih (primStep_promises a s hp) h'

theorem advance_withWorking {root : OpName} {s u : State} (hp : Promises root s) (h : SeqAgrees s u) :
    ∃ u', advance (withWorking s u) = withWorking (advance s) u' := by
  cases hs : s.answers with
  | nil =>
    obtain ⟨u', heq, -⟩ := primStep_withWorking (freeAnswer s.ticks) hp h
    simp only [advance, hs, show (withWorking s u).answers = [] from hs]
    exact ⟨u', heq⟩
  | cons a as =>
    simp only [advance, hs, show (withWorking s u).answers = a :: as from hs]
    exact run_withWorking (a :: as) hp h

/-! ### An instruction from other working registers (R190) -/

/-- The state an instruction's operation starts from: an exchange's operands are in TXF (R22). -/
def loaded (i : Instr) (s : State) : State :=
  match i with
  | .transceive frame vb => s.setTxf frame (vb.setWidth 3)
  | .piccReqa => s.setTxf reqaFrame 7
  | .piccWupa => s.setTxf wupaFrame 7
  | .piccAnticollCl1 => s.setTxf anticollFrame 0
  | .piccSelectCl1 u lo hi => s.setTxf (selectFrame u lo hi) 0
  | _ => s

/-- An instruction that starts an operation starts it at its entry frame. -/
theorem exec_eq_start {i : Instr} {s : State} {q : Sequence} (hw : i.wf = true) (hq : entry i s = some q) :
    exec i s = start q.top q.callers (loaded i s) := by
  cases i
  case toHex => cases hq
  case setAddress => cases hq
  all_goals obtain rfl := Option.some.inj hq
  case transceive frame vb => exact if_pos (of_decide_eq_true hw)
  case isCardPresent => cases h : s.init <;> simp [exec, execIsCardPresent, startInit, loaded, h]
  case readUidHex => cases h : s.init <;> simp [exec, execReadUidHex, startInit, loaded, h]
  case version => cases h : s.init <;> simp [exec, execVersion, startInit, loaded, h]
  all_goals rfl

theorem wf_of_exec_next {i : Instr} {s t : State} (h : exec i s = .next t) : i.wf = true := by
  cases i
  case transceive frame vb =>
    simp only [exec, execTransceive] at h
    split at h
    · next hv => exact decide_eq_true hv
    · cases h
  all_goals rfl

theorem entry_withWorking (i : Instr) (s u : State) : entry i (withWorking s u) = entry i s := by
  cases i <;> rfl

theorem loaded_withWorking (i : Instr) (s u : State) :
    loaded i (withWorking s u) = withWorking (loaded i s) (loaded i u) := by
  cases i <;> rfl

/-- An operation reads no working register when it starts, but for the TXF its operands are in. -/
theorem entry_agrees {i : Instr} {s : State} {q : Sequence} (u : State) (h : entry i s = some q) :
    q.top.Agrees (loaded i s) (loaded i u) ∧ ∀ w ∈ q.callers, w.Agrees (loaded i s) (loaded i u) := by
  cases i
  case toHex => cases h
  case setAddress => cases h
  all_goals obtain rfl := Option.some.inj h
  case isCardPresent => split <;> exact ⟨trivial, by simp⟩
  case readUidHex => split <;> exact ⟨trivial, by simp⟩
  case version => split <;> exact ⟨trivial, by simp⟩
  case transceive => exact ⟨⟨rfl, rfl⟩, by simp⟩
  case piccReqa => exact ⟨⟨rfl, rfl⟩, by simp⟩
  case piccWupa => exact ⟨⟨rfl, rfl⟩, by simp⟩
  case piccAnticollCl1 => exact ⟨⟨rfl, rfl⟩, by simp⟩
  case piccSelectCl1 => exact ⟨⟨rfl, rfl⟩, by simp⟩
  all_goals exact ⟨trivial, by simp⟩

/-- Starting an operation at its entry frame from other working registers. -/
theorem start_withWorking {root : OpName} {q : Sequence} {s u t : State}
    (hroot : outermost q.top.op q.callers = some root) (hcount : q.top.countOk) (htop : q.top.Agrees s u)
    (hall : ∀ w ∈ q.callers, w.Agrees s u) (h : start q.top q.callers s = .next t) :
    ∃ u', start q.top q.callers (withWorking s u) = .next (withWorking t u') := by
  obtain ⟨hs, h'⟩ | ⟨-, h'⟩ := start_cases q.top q.callers s <;> rw [h'] at h <;> cases h
  have hp : Promises root ((s.setResult none).setSeq (some q)) := ⟨hroot, hcount⟩
  have hagrees : SeqAgrees ((s.setResult none).setSeq (some q)) u :=
    seqAgrees_enter (s := s.setResult none) (g := q.top) (cs := []) (htop.congr rfl) (by simp)
      fun w hw => Waiting.Agrees.congr (hall w hw) id
  obtain ⟨u', heq⟩ := advance_withWorking hp hagrees
  exact ⟨u', (start_idle (s := withWorking s u) hs).trans (congrArg _ heq)⟩

/-- Settles O59: both runs make the same move at every step, because a phase reads only working registers its operation
has written. -/
theorem workingRegistersCarryNothingOver : Obligations.WorkingRegistersCarryNothingOver := by
  intro i s u t hs h
  cases hq : entry i s with
  | none =>
    cases i
    case toHex bytes =>
      rw [exec, execToHex, startEnded_idle hs] at h
      obtain rfl := Host.Outcome.next.inj h
      exact ⟨_, startEnded_idle (s := withWorking s u) hs, rfl⟩
    case setAddress n =>
      rw [exec, execSetAddress, startEnded_idle (s := s.setAddr (maskAddr n)) hs] at h
      obtain rfl := Host.Outcome.next.inj h
      exact ⟨_, startEnded_idle (s := (withWorking s u).setAddr (maskAddr n)) hs, rfl⟩
    all_goals cases hq
  | some q =>
    have hw := wf_of_exec_next h
    obtain ⟨root, hroot, hcount, -⟩ := entry_outermost hq
    obtain ⟨htop, hall⟩ := entry_agrees u hq
    rw [exec_eq_start hw hq] at h
    obtain ⟨u', heq⟩ := start_withWorking hroot hcount htop hall h
    refine ⟨withWorking t u', ?_, rfl⟩
    rw [exec_eq_start hw ((entry_withWorking i s u).trans hq), loaded_withWorking, heq]

end Sys2Proof.Machine
